-- ==== Sys2Proof/Word.lean ====
section
/-!
DEFINITION. Machine words of the Sceig SX40 and the one container the state is built of.
Widths: 03:R64 (addresses), 02:R35 (registers), 02:R40 (masks), 03:R66 (buffer records), 05:R136 (instruction words).
-/
namespace Sys2Proof

/-- One byte of memory. -/
abbrev Byte := BitVec 8
/-- A 32-bit value: an F32 pattern, an accumulator cell, a scalar word. -/
abbrev W32 := BitVec 32
/-- A 64-bit value: a register, an address, a generic pointer. -/
abbrev W64 := BitVec 64
/-- A lane word as stored (05:R136). -/
abbrev W96 := BitVec 96
/-- One bit per lane (02:R40). -/
abbrev Mask := BitVec 1024
/-- A buffer record (03:R66). -/
abbrev Rec := BitVec 256

/-- A finite map from numbers, as plain data: pairs in strictly rising order of key. -/
abbrev NMap (α : Type) := List (Nat × α)

/-- A word as fetched, of one of the three streams. -/
inductive RawWord where
  | scalar (w : BitVec 32)
  | lane   (w : BitVec 96)
  | matrix (w : BitVec 64)
  deriving DecidableEq, Repr

end Sys2Proof
end

