-- ==== Sys2Proof/Syntax.lean ====
section
/-!
DEFINITION. The instruction set of the Sceig SX40 as data: ONE inductive with one constructor per row of spec/opcode_table.json.
The first 209 rows are words of the three streams: scalar words (05:R137), lane words (05:R140), matrix words (05:R145).
A word keeps every field of its format, also one its opcode ignores (05:R143), so that its encoding can be given back
(the trap record holds it, 16:R372).
The other rows are steps of the device's other agents (spec/95_what_each_step_holds.md); the objects a step concerns and the
choices the manual leaves to an arbiter or to the outside world are the arguments of `Event` (Config.lean).
-/
namespace Sys2Proof

/-- Fields of an SR word (05:R137): destination, sources. -/
structure SR where
  d : BitVec 5
  a : BitVec 5
  b : BitVec 5
  deriving DecidableEq, Repr

/-- Fields of an `LREAD` word (06:R180): an SR word whose function names the lane register `k`. -/
structure SRK where
  d : BitVec 5
  a : BitVec 5
  b : BitVec 5
  k : BitVec 6
  deriving DecidableEq, Repr

/-- Fields of an SI word (05:R137). -/
structure SI where
  d : BitVec 5
  a : BitVec 5
  i : BitVec 16
  deriving DecidableEq, Repr

/-- Fields of an SB word (05:R137): sources and a word offset. -/
structure SB where
  a : BitVec 5
  b : BitVec 5
  o : BitVec 16
  deriving DecidableEq, Repr

/-- The one field of an SJ or SL word (05:R137): a word offset, or a lane-word index. -/
structure SJ where
  o : BitVec 26
  deriving DecidableEq, Repr

/-- Fields of an SX word (05:R137, R139): destination, operands, reply bit. -/
structure SX where
  d : BitVec 5
  a : BitVec 5
  b : BitVec 5
  r : Bool
  deriving DecidableEq, Repr

/-- Fields of a lane word other than the opcode (05:R140). -/
structure LaneF where
  vd  : BitVec 6
  va  : BitVec 6
  vb  : BitVec 6
  vc  : BitVec 6
  msk : BitVec 3
  ty  : BitVec 4
  la  : BitVec 4
  b   : Bool
  e   : Bool
  rm  : BitVec 2
  sat : Bool
  src : BitVec 2
  mod : BitVec 4
  sub : BitVec 8
  imm : BitVec 32
  deriving DecidableEq, Repr

/-- Fields of a matrix word other than the opcode (05:R145). -/
structure MtxF where
  acc : BitVec 3
  ar  : BitVec 4
  br  : BitVec 4
  xr  : BitVec 4
  ta  : BitVec 4
  tb  : BitVec 4
  bsa : BitVec 2
  bsb : BitVec 2
  bar : BitVec 4
  k   : BitVec 12
  flg : BitVec 13
  deriving DecidableEq, Repr

/-- One row of spec/opcode_table.json each. -/
inductive Instr where
  /-- R168: Writes sd with a + b, wrapping modulo 2^64. -/
  | add (f : SR)
  /-- R168: Writes sd with a − b, wrapping modulo 2^64. -/
  | sub (f : SR)
  /-- R168: Writes sd with the low 64 bits of a × b. -/
  | mul (f : SR)
  /-- R168: Writes sd with the high 64 bits of the signed 128-bit product. -/
  | mulh (f : SR)
  /-- R168: Writes sd with the high 64 bits of the unsigned 128-bit product. -/
  | mulhu (f : SR)
  /-- R169: Writes sd with the signed quotient; division by zero gives all ones and sets DZ. -/
  | div (f : SR)
  /-- R169: Writes sd with the unsigned quotient; division by zero gives all ones and sets DZ. -/
  | divu (f : SR)
  /-- R169: Writes sd with the signed remainder; a zero divisor gives a and sets DZ. -/
  | rem (f : SR)
  /-- R169: Writes sd with the unsigned remainder; a zero divisor gives a and sets DZ. -/
  | remu (f : SR)
  /-- R168: Writes sd with the bitwise AND of a and b. -/
  | and (f : SR)
  /-- R168: Writes sd with the bitwise OR of a and b. -/
  | or (f : SR)
  /-- R168: Writes sd with the bitwise XOR of a and b. -/
  | xor (f : SR)
  /-- R168: Writes sd with a shifted left by b[5:0]. -/
  | shl (f : SR)
  /-- R168: Writes sd with a shifted right logically by b[5:0]. -/
  | shr (f : SR)
  /-- R168: Writes sd with a shifted right arithmetically by b[5:0]. -/
  | sra (f : SR)
  /-- R168: Writes sd with 1 if a < b as I64, and 0 otherwise. -/
  | slt (f : SR)
  /-- R168: Writes sd with 1 if a < b as U64, and 0 otherwise. -/
  | sltu (f : SR)
  /-- R168: Writes sd with the signed minimum of a and b. -/
  | min (f : SR)
  /-- R168: Writes sd with the signed maximum of a and b. -/
  | max (f : SR)
  /-- R168: Writes sd with the unsigned minimum of a and b. -/
  | minu (f : SR)
  /-- R168: Writes sd with the unsigned maximum of a and b. -/
  | maxu (f : SR)
  /-- R170: Writes sd with a plus the sign-extended immediate. -/
  | addi (f : SI)
  /-- R170: Writes sd with a AND the zero-extended immediate. -/
  | andi (f : SI)
  /-- R170: Writes sd with a OR the zero-extended immediate. -/
  | ori (f : SI)
  /-- R170: Writes sd with a XOR the zero-extended immediate. -/
  | xori (f : SI)
  /-- R170: Writes sd with 1 if a is below the sign-extended immediate as I64. -/
  | slti (f : SI)
  /-- R170: Writes sd with 1 if a is below the sign-extended immediate compared as U64. -/
  | sltiu (f : SI)
  /-- R170: Writes sd with a shifted left by imm16[5:0]. -/
  | shli (f : SI)
  /-- R170: Writes sd with a shifted right logically by imm16[5:0]. -/
  | shri (f : SI)
  /-- R170: Writes sd with a shifted right arithmetically by imm16[5:0]. -/
  | srai (f : SI)
  /-- R170: Writes sd with the sign-extended immediate shifted left 16. -/
  | lui (f : SI)
  /-- R170: Writes sd with (a << 16) OR the zero-extended immediate. -/
  | shori (f : SI)
  /-- R171: Loads one byte at sa + imm and writes it sign-extended to sd. -/
  | ldb (f : SI)
  /-- R171: Loads one byte at sa + imm and writes it zero-extended to sd. -/
  | ldbu (f : SI)
  /-- R171: Loads 2 bytes at sa + imm and writes them sign-extended to sd. -/
  | ldh (f : SI)
  /-- R171: Loads 2 bytes at sa + imm and writes them zero-extended to sd. -/
  | ldhu (f : SI)
  /-- R171: Loads 4 bytes at sa + imm and writes them sign-extended to sd. -/
  | ldw (f : SI)
  /-- R171: Loads 4 bytes at sa + imm and writes them zero-extended to sd. -/
  | ldwu (f : SI)
  /-- R171: Loads 8 bytes at sa + imm into sd. -/
  | ldd (f : SI)
  /-- R171: Stores S[sd][7:0] at sa + imm. -/
  | stb (f : SI)
  /-- R171: Stores S[sd][15:0] at sa + imm. -/
  | sth (f : SI)
  /-- R171: Stores S[sd][31:0] at sa + imm. -/
  | stw (f : SI)
  /-- R171: Stores S[sd] at sa + imm. -/
  | std (f : SI)
  /-- R175: Branches when a = b. -/
  | beq (f : SB)
  /-- R175: Branches when a ≠ b. -/
  | bne (f : SB)
  /-- R175: Branches when a < b as I64. -/
  | blt (f : SB)
  /-- R175: Branches when a ≥ b as I64. -/
  | bge (f : SB)
  /-- R175: Branches when a < b as U64. -/
  | bltu (f : SB)
  /-- R175: Branches when a ≥ b as U64. -/
  | bgeu (f : SB)
  /-- R176: Jumps PC-relative by the 26-bit word offset. -/
  | j (f : SJ)
  /-- R176: Writes PC + 4 to s31, then jumps PC-relative. -/
  | jal (f : SJ)
  /-- R177: Appends a lane block with a snapshot of s0 to s15 to the lane-block queue, waiting for room when 4 blocks are queued. -/
  | lrun (f : SJ)
  /-- R174: Drains the blocks, then loads a 32-byte buffer record into b(sd[3:0]). -/
  | bld (f : SI)
  /-- R174: Stores buffer record b(sd[3:0]) as 32 bytes in one event. -/
  | bst (f : SI)
  /-- R176: Jumps to S[sa], trapping when the target is misaligned. -/
  | jr (f : SR)
  /-- R176: Writes PC + 4 to sd and jumps to the old S[sa]. -/
  | jalr (f : SR)
  /-- R179: Drains the blocks, then writes sd with the popcount and summary of a mask register. -/
  | msum (f : SR)
  /-- R181: Reads a numbered special register into sd, draining first for %sticky and %repidx. -/
  | rdsp (f : SR)
  /-- R181: Writes S[sa] to a special register as its access allows: W1C for %sticky, direct for %arithmask, reseed for %seed. -/
  | wrsp (f : SR)
  /-- R243: Drains the blocks and orders the team's accesses by kind and scope, with an optional status for system-scope releases. -/
  | fence (f : SR)
  /-- R187: Drains the blocks and raises an arithmetic trap when %sticky AND %arithmask is nonzero. -/
  | tfence (f : SR)
  /-- R188: Drains the blocks and forms a met blocking point at which the team may be evicted. -/
  | yield (f : SR)
  /-- R189: Drains the blocks, waits for the team's accesses, and exits the team with a completion value. -/
  | texit (f : SR)
  /-- R190: Drains the blocks and enters the level-1 handler with cause system call and service number S[sa]. -/
  | syscall (f : SR)
  /-- R373: Ends a handler: restores s28 to s31 and the set-aside blocks, leaves supervisor mode, resumes the team and closes its fault-table entry. -/
  | sret (f : SR)
  /-- R185: Replaces a barrier's participant set and tests the phase for completion. -/
  | brset (f : SR)
  /-- R248: Drains the blocks, releases at troupe scope, and arrives at a barrier, completing the phase when every participant has arrived. -/
  | barArrive (f : SR)
  /-- R248: Drains the blocks and blocks until the phase of the team's arrival completes. -/
  | barWait (f : SR)
  /-- R248: Arrives at a barrier and then waits for its phase. -/
  | barSync (f : SR)
  /-- R180: Drains the blocks, then reads lane register vk of lane S[sa] into sd. -/
  | lread (f : SRK)
  /-- R280: Stages the row length, queue, 2-D flag and row count for copy commands. -/
  | ceLen (f : SX)
  /-- R280: Stages the source and destination strides. -/
  | ceStride (f : SX)
  /-- R280: Enqueues a copy in the staged queue, waiting for room, and replies its sequence number. -/
  | ceCopy (f : SX)
  /-- R280: Enqueues a fill with a 64-bit pattern, waiting for room. -/
  | ceFill (f : SX)
  /-- R283: Binds a circular buffer to the team's next copy or fill. -/
  | ceCb (f : SX)
  /-- R285: Attaches a future resolve or counter decrement to the most recent copy-engine command, acting at once if it has completed. -/
  | ceFut (f : SX)
  /-- R284: Places a join entry in each named queue once all have room. -/
  | ceQjoin (f : SX)
  /-- R285: Replies with a queue's last completed sequence number and state, acquiring the completed entry's writes. -/
  | ceStat (f : SX)
  /-- R286: Stages the extent of one tile-walker dimension. -/
  | twDim (f : SX)
  /-- R286: Starts a walk over the staged extents and replies its handle, or all ones when all 8 walks are held. -/
  | twStart (f : SX)
  /-- R286: Hands out the next coordinate of a walk, or all ones when it is exhausted. -/
  | twNext (f : SX)
  /-- R286: Frees a walk handle and replies the number of coordinates handed out. -/
  | twDone (f : SX)
  /-- R290: Appends a task-record entry to a queue, spilling to the vent area or the SX20 overflow path when the ring is full. -/
  | tkSpawn (f : SX)
  /-- R290: Appends a cast-list entry to a queue. -/
  | tkCast (f : SX)
  /-- R292: Writes a successor counter's count at its home slice. -/
  | scInit (f : SX)
  /-- R292: Releases, then decrements a counter, enqueuing its continuation when the count reaches 0. -/
  | scDec (f : SX)
  /-- R294: Registers a counter in a future, or decrements the counter at once if the future is already resolved or failed. -/
  | futAwait (f : SX)
  /-- R294: Releases, then resolves a future with a value, decrementing any registered counter. -/
  | futResolve (f : SX)
  /-- R294: Releases, then fails a future with an error code, decrementing any registered counter. -/
  | futFail (f : SX)
  /-- R294: Reads a future word as an acquire at device scope. -/
  | futRead (f : SX)
  /-- R297: Forks N children of the join hypothesis and clears the join record's arrival state. -/
  | qjInit (f : SX)
  /-- R298: Releases, then records a contributor's arrival and weight, starting the release when the quorum is reached. -/
  | qjArrive (f : SX)
  /-- R296: Replies with the quadword at offset 0x00 of a join record. -/
  | qjStat (f : SX)
  /-- R90: Creates a child arena carved from its parent by an allocation of the rounded quota. -/
  | arNew (f : SX)
  /-- R253: Bump-allocates in an arena, charges it, and maps the newly covered pages from the device pool. -/
  | arAlloc (f : SX)
  /-- R92: Releases, then marks an arena and its live descendants sealed at every home slice. -/
  | arSeal (f : SX)
  /-- R93: Waits for earlier accesses, advances the arena generations and starts the discard sweep. -/
  | arDrop (f : SX)
  /-- R255: Waits for or polls the completion of a drop, and frees the arena numbers when it reports 1. -/
  | arWait (f : SX)
  /-- R255: Replies with a selected field of an arena's state. -/
  | arInfo (f : SX)
  /-- R256: Declares a haloed region from its descriptor and owner map, and starts per-tile coherence. -/
  | tileDecl (f : SX)
  /-- R256: Writes back interiors, discards halo replicas and frees a haloed region. -/
  | tileFree (f : SX)
  /-- R258: Creates count children of an open hypothesis at the lowest run of free ids. -/
  | hyFork (f : SX)
  /-- R259: Waits for earlier accesses, then refutes and confirms a run of hypotheses in one resolve applied at every slice and L1. -/
  | hyResolve (f : SX)
  /-- R260: Waits for earlier accesses and sets %hyp to an open ancestor or descendant. -/
  | hyEnter (f : SX)
  /-- R261: Replies with a hypothesis's state, parent, depth and redirect target. -/
  | hyInfo (f : SX)
  /-- R301: Creates a queue from its descriptor, clearing its failure record, or refuses. -/
  | qCreate (f : SX)
  /-- R301: Destroys an empty queue of the issuing context. -/
  | qDestroy (f : SX)
  /-- R301: Sets a queue's priority and enable. -/
  | qConf (f : SX)
  /-- R331: Sets a queue's HBM, fabric and issue shares, or refuses when a sum would be exceeded. -/
  | qResv (f : SX)
  /-- R301: Replies with a queue's waiting count, enable, spill flag and priority. -/
  | qStat (f : SX)
  /-- R302: Creates a context in the lowest free slot from its descriptor. -/
  | ctxNew (f : SX)
  /-- R107: Increments a slot's incarnation, kills its teams, refutes its hypotheses, disables its queues and removes their unplaced entries. -/
  | ctxKill (f : SX)
  /-- R109: Returns once no request of an older incarnation remains, advancing the oldest unreclaimed incarnation. -/
  | ctxReclaim (f : SX)
  /-- R303: Adds a translation for a virtual page, retrying copy entries stalled on it, or refuses. -/
  | pgMap (f : SX)
  /-- R303: Removes a translation and increments the translation generation. -/
  | pgUnmap (f : SX)
  /-- R304: Sets an island's token budget and replies with the previous one. -/
  | pwBudget (f : SX)
  /-- R304: Sets the tokens a context may hold on an island. -/
  | pwGrant (f : SX)
  /-- R351: Replies with a selected device identity value. -/
  | sysId (f : SX)
  /-- R359: Requests a clock step for an island, applied as max(request, limit). -/
  | sysIsland (f : SX)
  /-- R352: Writes the device identity key or a signed attestation report. -/
  | sysAttest (f : SX)
  /-- R357: Fills or invalidates an import or export peer-table entry, or refuses. -/
  | sysPeer (f : SX)
  /-- R201: Lane word with no effect. -/
  | lnop (f : LaneF)
  /-- R148: Issues the next lane word count times with stepped register fields. -/
  | rep (f : LaneF)
  /-- R202: Advances each active lane's random state and writes it to VD. -/
  | lrnd (f : LaneF)
  /-- R203: Writes the lane, row or flat index into each sub-element. -/
  | vidx (f : LaneF)
  /-- R207: Pushes Top() AND a mask register onto the mask stack. -/
  | mpush (f : LaneF)
  /-- R207: Removes the top mask-stack entry. -/
  | mpop (f : LaneF)
  /-- R207: Replaces the top mask-stack entry with Below() AND NOT top. -/
  | minv (f : LaneF)
  /-- R206: Copies one mask register to another. -/
  | mmov (f : LaneF)
  /-- R206: Writes the AND of two mask registers. -/
  | mand (f : LaneF)
  /-- R206: Writes the OR of two mask registers. -/
  | mor (f : LaneF)
  /-- R206: Writes the XOR of two mask registers. -/
  | mxor (f : LaneF)
  /-- R206: Writes the complement of a mask register, ANDed with m0. -/
  | mnot (f : LaneF)
  /-- R208: Adds element-wise. -/
  | vadd (f : LaneF)
  /-- R208: Subtracts element-wise. -/
  | vsub (f : LaneF)
  /-- R208: Multiplies element-wise. -/
  | vmul (f : LaneF)
  /-- R208: Writes the high half of each integer product. -/
  | vmulh (f : LaneF)
  /-- R208: Fused multiply-add with one rounding. -/
  | vmad (f : LaneF)
  /-- R210: Element-wise minimum. -/
  | vmin (f : LaneF)
  /-- R210: Element-wise maximum. -/
  | vmax (f : LaneF)
  /-- R209: Element-wise absolute value. -/
  | vabs (f : LaneF)
  /-- R209: Element-wise negation. -/
  | vneg (f : LaneF)
  /-- R208: Bitwise AND over 64 bits. -/
  | vand (f : LaneF)
  /-- R208: Bitwise OR over 64 bits. -/
  | vor (f : LaneF)
  /-- R208: Bitwise XOR over 64 bits. -/
  | vxor (f : LaneF)
  /-- R208: Bitwise complement. -/
  | vnot (f : LaneF)
  /-- R211: Shifts each sub-element left. -/
  | vshl (f : LaneF)
  /-- R211: Shifts each sub-element right, arithmetically for signed types. -/
  | vshr (f : LaneF)
  /-- R208: Copies source B to VD. -/
  | vmov (f : LaneF)
  /-- R212: Selects a or b per lane by a selector mask. -/
  | vsel (f : LaneF)
  /-- R213: Extracts a bit field. -/
  | bfx (f : LaneF)
  /-- R213: Inserts a bit field into the destination. -/
  | bfi (f : LaneF)
  /-- R214: Counts 1 bits per sub-element. -/
  | popc (f : LaneF)
  /-- R214: Counts leading zeros per sub-element. -/
  | clz (f : LaneF)
  /-- R214: Counts trailing zeros per sub-element. -/
  | ctz (f : LaneF)
  /-- R214: Reverses the bits of each sub-element. -/
  | brev (f : LaneF)
  /-- R204: Compares and writes one mask bit per active lane. -/
  | vcmp (f : LaneF)
  /-- R205: Writes a mask bit when a sub-element falls in a selected class. -/
  | vclass (f : LaneF)
  /-- R215: Element-wise division. -/
  | vdiv (f : LaneF)
  /-- R215: Element-wise square root. -/
  | vsqrt (f : LaneF)
  /-- R216: Correctly rounded reciprocal. -/
  | frcp (f : LaneF)
  /-- R216: Correctly rounded reciprocal square root. -/
  | frsq (f : LaneF)
  /-- R216: Correctly rounded 2^x. -/
  | fexp2 (f : LaneF)
  /-- R216: Correctly rounded log2. -/
  | flog2 (f : LaneF)
  /-- R216: Correctly rounded sine. -/
  | fsin (f : LaneF)
  /-- R216: Correctly rounded cosine. -/
  | fcos (f : LaneF)
  /-- R216: Correctly rounded hyperbolic tangent. -/
  | ftanh (f : LaneF)
  /-- R218: Converts a group of sub-elements between types, rounding by RM. -/
  | cvt (f : LaneF)
  /-- R219: Converts with stochastic rounding, advancing the lane random state. -/
  | cvts (f : LaneF)
  /-- R220: Narrows two registers into one. -/
  | pack (f : LaneF)
  /-- R221: Widens one register into two. -/
  | unpack (f : LaneF)
  /-- R222: Encodes values as Q4 codes under a scale byte. -/
  | qenc (f : LaneF)
  /-- R223: Decodes Q4 codes to floating point without scale. -/
  | qdec (f : LaneF)
  /-- R224: Scales partials and accumulates them with one rounding. -/
  | scacc (f : LaneF)
  /-- R225: Forms two 4-element 8-bit dot products per lane, added to C. -/
  | dot4 (f : LaneF)
  /-- R227: Reads a register from a lane of the same row. -/
  | shfl (f : LaneF)
  /-- R227: Reads a register from lane l XOR b. -/
  | shflx (f : LaneF)
  /-- R227: Broadcasts a value from one lane to every active lane. -/
  | bcast (f : LaneF)
  /-- R227: Permutes sub-elements within a lane. -/
  | vperm (f : LaneF)
  /-- R228: Reduces across the active lanes and writes the result to every active lane. -/
  | red (f : LaneF)
  /-- R229: Writes inclusive or exclusive prefix results across lanes. -/
  | scan (f : LaneF)
  /-- R230: Writes any, all, ballot or count of lane predicates. -/
  | vote (f : LaneF)
  /-- R236: Lane load through a buffer record, relaxed or acquire. -/
  | ld (f : LaneF)
  /-- R236: Lane store through a buffer record, relaxed or release. -/
  | st (f : LaneF)
  /-- R238: Lane load through the read-only sub-array. -/
  | ldr (f : LaneF)
  /-- R239: Lane load with acquire at the given scope. -/
  | ldacq (f : LaneF)
  /-- R239: Lane store with release at the given scope. -/
  | strel (f : LaneF)
  /-- R241: Per-lane atomic read-modify-write at the home slice, returning the old value. -/
  | atom (f : LaneF)
  /-- R241: Per-lane compare-and-swap, returning the old value. -/
  | cas (f : LaneF)
  /-- R249: Producer takes a circular-buffer slot, blocking while none is free. -/
  | cbtake (f : LaneF)
  /-- R251: Producer publishes the oldest taken slot after its accesses are performed. -/
  | cbpub (f : LaneF)
  /-- R249: Consumer takes a filled slot with acquire, blocking while none is filled. -/
  | cbget (f : LaneF)
  /-- R251: Consumer returns its oldest slot after its loads are performed. -/
  | cbret (f : LaneF)
  /-- R245: Writes the window code of a generic pointer. -/
  | sptest (f : LaneF)
  /-- R246: Converts a generic pointer toward the global, local or shared window. -/
  | spcast (f : LaneF)
  /-- R267: Writes +0 into every cell of an accumulator slot. -/
  | mzero (f : MtxF)
  /-- R268: Reads and holds a stationary B operand. -/
  | mldb (f : MtxF)
  /-- R269: Posts a matrix multiply-accumulate pass into a slot, or into a Q4 partial register. -/
  | mma (f : MtxF)
  /-- R272: Posts a pass with a compressed sparse row B operand. -/
  | msp (f : MtxF)
  /-- R271: Scales a Q4 partial and accumulates it into a slot. -/
  | mscacc (f : MtxF)
  /-- R273: Loads accumulator cells from memory. -/
  | macld (f : MtxF)
  /-- R273: Stores accumulator cells to memory, raw or converted. -/
  | macst (f : MtxF)
  /-- R274: The sequencer arrives at, waits on or syncs with a troupe barrier. -/
  | mbar (f : MtxF)
  /-- R275: Decrements a loop counter and branches while it exceeds 1. -/
  | mloop (f : MtxF)
  /-- R275: Sets an address register to another plus immediate × stride. -/
  | maddr (f : MtxF)
  /-- R275: Sets a stride register from an immediate. -/
  | mdset (f : MtxF)
  /-- R275: Sets the checksum tolerance exponent. -/
  | mtol (f : MtxF)
  /-- R275: Sets a loop counter. -/
  | mcnt (f : MtxF)
  /-- R277: Waits for earlier words and stores, then stops the sequencer and leaves the barriers. -/
  | mend (f : MtxF)
  /-- R377: An encoding that is not an instruction traps with cause 0x02, 0x08 or 0x0A. -/
  | unassignedEncoding (w : RawWord)
  /-- R326: A dispatcher chooses a queue and places its head entry when resources fit, starting the teams and the sequencer. -/
  | dispatchPlace
  /-- R328: After the head entry has waited 2 µs, a placement unit is reserved against lower priorities. -/
  | placementUnitReserve
  /-- R327: After 2^24 clocks waiting for a placement resource, an event is posted to the control core. -/
  | placementResourceWaitEvent
  /-- R354: A 16-byte posted host write appends an entry to a queue, and other writes are discarded and counted. -/
  | hostEnqueuePortWrite
  /-- R329: Entries pass from the vent area back into the ring as it drains. -/
  | queueVentDrain
  /-- R411: An entry held by the dispatcher enters the vent area or ring once there is room. -/
  | heldEntryEntersVent
  /-- R358: The Prompter links a new SX20 segment and completes the suspended spawn. -/
  | segmentOverflowComplete
  /-- R50: After the last team exits, releases at device scope and decrements the counter or resolves or fails the future. -/
  | taskComplete
  /-- R426: Compares the replay signature and reports a mismatch or an incomplete replay, quarantining clusters. -/
  | auditReplayComplete
  /-- R333: A free issue slot is given to the head of the slot-choice order. -/
  | slotGrant
  /-- R147: A run ends when its passes would exceed 1,024. -/
  | passCapReached
  /-- R334: A 65,536-clock issue-service interval ends and the owed measures restart. -/
  | issueIntervalEnd
  /-- R38: The next queued lane block starts after the previous one completes. -/
  | laneBlockStart
  /-- R38: A lane block completes once all its results are written, releasing waiting scalar words. -/
  | laneBlockComplete
  /-- R150: A long-latency word writes its results, releasing the word after its window. -/
  | longLatencyResult
  /-- R338: Data of a parked team's miss arrives and the team becomes ready. -/
  | greenRoomWake
  /-- R250: A team blocked in CBTAKE or CBGET makes its update when a slot becomes available. -/
  | cbWaitWake
  /-- R139: An engine's reply to a reply-form SX command is written to sd and the scalar stream continues. -/
  | engineReplyArrival
  /-- R405: A team marked for a kill exits at its next kill point, according to its state. -/
  | killAtKillPoint
  /-- R339: The dispatcher saves a blocked victim team with its wake condition. -/
  | teamEvict
  /-- R54: An evicted team's wake condition ends and it is restored onto a core with an acquire. -/
  | teamRestore
  /-- R386: At the deadline the team's next run boundary becomes a blocking point for eviction. -/
  | yieldDeadlineExpiry
  /-- R341: A blocked team moves to another core, with its footprint copied and messages forwarded. -/
  | teamMigrate
  /-- R341: Forwarding ends 4,096 clocks after the team's first pass on the new core. -/
  | migrationForwardEnd
  /-- R407: A message reaching the old core after forwarding ended is dropped and counted. -/
  | lateFootprintMessage
  /-- R394: After 16 collecting clocks the opener of a fault-table entry vectors to its handler with cause 0x10. -/
  | faultCollectExpiry
  /-- R381: A matrix operand fault is delivered as cause 0x30 at a team's kill point. -/
  | matrixFaultDelivery
  /-- R397: A stalled copy-engine page fault is delivered as cause 0x23 at a team's kill point. -/
  | ceFaultDelivery
  /-- R281: A copy-engine queue starts its next entry once the one before it and its joins are done. -/
  | ceEntryStart
  /-- R281: A copy entry completes, or fails, and its CE.FUT action acts. -/
  | ceEntryComplete
  /-- R337: The matrix reservation table grants a competing pass. -/
  | reservationGrant
  /-- R276: A pass completes, its checksums are compared and MX is set on a mismatch. -/
  | matrixPassComplete
  /-- R87: A request at a home slice passes its checks and is performed, or is dropped and counted. -/
  | homeRequestArrival
  /-- R82: The home admits a forwarded store, stamps it, and pushes the update to replicas. -/
  | forwardedStoreArrival
  /-- R83: A die applies or discards a pushed update once its predecessors are applied. -/
  | replicaUpdateApply
  /-- R311: A die notes a clock notice and advances its vector clock. -/
  | clockNoticeArrival
  /-- R93: Step 3 of a drop unmaps the pages, credits the parent and increments the translation generation. -/
  | arenaDropSweepComplete
  /-- R101: The sweeper certifies a resolved hypothesis id and frees it. -/
  | hypSweepFree
  /-- R111: A sweep of one half of the translation-generation tags completes. -/
  | tlbHalfSweepComplete
  /-- R415: An uncorrectable error marks a granule poisoned or discards a clean L1 line. -/
  | uncorrectableError
  /-- R417: A unit that consumes poison is killed as a whole and relaunched or failed. -/
  | poisonConsumed
  /-- R428: A core detecting a logic fault is retired at once and its units are killed. -/
  | coreLogicFault
  /-- R427: The Stage Manager drains and retires a core, with the spare taking its number. -/
  | coreRetire
  /-- R429: The Stage Manager retires a whole cluster. -/
  | clusterRetire
  /-- R430: The Stage Manager remaps pages off a failing channel and removes it from the interleave. -/
  | hbmChannelRetire
  /-- R430: Post-package repair of a failing HBM row, preserving contents. -/
  | hbmRowRepair
  /-- R431: A received flit fails its CRC, is counted and is replayed with every later flit. -/
  | flitCrcFail
  /-- R434: After 4 failed replays or loss of lock, a link retrains, discards its replay buffers and resends unanswered requests. -/
  | linkRetrainStart
  /-- R434: A retrain ends at 64 lanes, 32 lanes or down. -/
  | linkRetrainComplete
  /-- R433: A request arriving from another die is executed, answered from its stored response, or dropped by its sequence window. -/
  | dieMessageArrival
  /-- R440: A response retires its request from the end-to-end buffer, or is discarded if none stands. -/
  | dieResponseArrival
  /-- R357: An RDMA request from a peer is performed against a valid export entry or answered with an access error. -/
  | peerIncomingRequest
  /-- R412: A host or peer access unanswered within 2 ms traps with cause 0x1D or is recorded as lost. -/
  | peerTimeout
  /-- R348: The boot ROM verifies and starts the Stage Manager image, or enters recovery. -/
  | deviceReset
  /-- R436: A host write of 1 to BAR0 offset 0x08 restarts boot from the recovery buffer. -/
  | recoveryBootWrite
  /-- R349: The Stage Manager kills, reclaims, zeroes and restarts a partition. -/
  | partitionRestart
  /-- R359: The Stage Manager lowers an island limit, and the island moves to it. -/
  | islandLimitLower
  /-- R360: A step change ends and the suspended island bounds run again. -/
  | islandStepChangeDone
  /-- R9: A write to a register with no row of its own, such as RCNT or the BAR2 base register. -/
  | registerWrite
  /-- R356: A response or acknowledgement from the host or a peer arrives for a load, an atomic or a posted write, completing it and waking a team blocked on a remote load. -/
  | peerResponseArrival
  /-- R353: A host read or write through the BAR2 aperture or CXL.mem reaches the partition's HBM ranges and is performed at the home slices. -/
  | hostApertureAccess
  /-- R357: An Ethernet port goes up or down, which changes the ports-up set and the port that each connection uses. -/
  | ethernetPortLinkChange
  /-- R415: A single-bit error in a protected array is corrected and counted. -/
  | correctableError
  /-- R426: The Stage Manager's test of a quarantined cluster passes, and the cluster takes placements again. -/
  | clusterReturnToService
  /-- R434: The Stage Manager orders a maintenance retrain that can bring a 32-lane or down module back to full width. -/
  | maintenanceRetrain
  /-- R348: The Stage Manager creates a partition: it assigns the resources and ceilings, verifies the image and starts it, or leaves the partition uncreated. -/
  | partitionCreate
  /-- R359: The Stage Manager raises an island limit, and a kept partition request is applied once the limit allows it. -/
  | islandLimitRaise
  /-- R111: The sweep of every line tagged with a reclaimed slot completes, and the slot becomes free for CTX.NEW. -/
  | contextSlotSweepComplete
  /-- R341: The streamer's copy of a migrated team's footprint completes, the forwarded messages are applied, and the team may become ready. -/
  | migrationCopyComplete
  deriving DecidableEq, Repr

end Sys2Proof
end

