-- ==== Sys2Proof/Decode.lean ====
section
/-!
DEFINITION. Decoding, total on any bytes and rejecting by name (05:R136 to R158), and the encoder beside it.
The three streams have their own word sizes: 4 bytes scalar, 12 bytes lane, 8 bytes matrix, all little-endian (05:R136).
-/
namespace Sys2Proof

/-- Why a word is not an instruction (05:R158, 16:R377). -/
inductive Reject where
  /-- Fewer bytes than the stream's word size. -/
  | truncated
  /-- The all-zero scalar word. -/
  | zeroScalar
  /-- Major opcode 0x00 with other bits set, or an unassigned major opcode (05:R152). -/
  | scalarOpcode
  /-- An unassigned function under 0x01 or 0x02 (05:R153). -/
  | scalarFunction
  /-- A `FENCE` with kind 00 or with scope code 6 or 7 (05:R153). -/
  | fenceForm
  /-- An SX word of engine 1 or with an unassigned function (05:R156). -/
  | sxFunction
  /-- An unassigned lane opcode (05:R155). -/
  | laneOpcode
  /-- An unassigned matrix opcode (05:R157). -/
  | matrixOpcode
  deriving DecidableEq, Repr

/-- The three instruction streams (05:R136). -/
inductive Stream where
  | scalar | lane | matrix
  deriving DecidableEq, Repr

/-! ## Bits and bytes -/

/-- Bits [hi:lo] of `x`, as a number (00:R5). -/
def fld (x : BitVec n) (hi lo : Nat) : Nat := (x.toNat >>> lo) % 2 ^ (hi + 1 - lo)

/-- Bit n of `x` (00:R5). -/
def bitOf (x : BitVec n) (i : Nat) : Bool := x.getLsbD i

/-- `n` bytes of a number, least significant first (00:R8). -/
def leBytes : Nat → Nat → List Byte
  | 0, _ => []
  | n + 1, x => BitVec.ofNat 8 x :: leBytes n (x / 256)

/-- The number whose bytes, least significant first, are given (00:R8). -/
def leNat : List Byte → Nat
  | [] => 0
  | b :: r => b.toNat + 256 * leNat r

/-- `x` read as a two's-complement number of `w` bits (04:R112). -/
def asInt (w x : Nat) : Int := if 2 ^ (w - 1) ≤ x % 2 ^ w then (x % 2 ^ w : Nat) - (2 ^ w : Nat) else (x % 2 ^ w : Nat)

/-- The value of an integer modulo 2^w (04:R113). -/
def ofIntMod (w : Nat) (x : Int) : Nat := (x % ((2 ^ w : Nat) : Int)).toNat

/-! ## Formats -/

/-- The fields of an SR word (05:R137). -/
def SR.read (w : BitVec 32) : SR := ⟨w.extractLsb' 21 5, w.extractLsb' 16 5, w.extractLsb' 11 5⟩
/-- The fields of an LREAD word (06:R180). -/
def SRK.read (w : BitVec 32) : SRK := ⟨w.extractLsb' 21 5, w.extractLsb' 16 5, w.extractLsb' 11 5, w.extractLsb' 0 6⟩
/-- The fields of an SI word (05:R137). -/
def SI.read (w : BitVec 32) : SI := ⟨w.extractLsb' 21 5, w.extractLsb' 16 5, w.extractLsb' 0 16⟩
/-- The fields of an SB word (05:R137). -/
def SB.read (w : BitVec 32) : SB := ⟨w.extractLsb' 21 5, w.extractLsb' 16 5, w.extractLsb' 0 16⟩
/-- The field of an SJ or SL word (05:R137). -/
def SJ.read (w : BitVec 32) : SJ := ⟨w.extractLsb' 0 26⟩
/-- The fields of an SX word (05:R137). -/
def SX.read (w : BitVec 32) : SX := ⟨w.extractLsb' 21 5, w.extractLsb' 16 5, w.extractLsb' 11 5, w.getLsbD 10⟩

/-- The fields of a lane word below its opcode (05:R140). -/
def LaneF.read (w : BitVec 96) : LaneF where
  vd  := w.extractLsb' 80 6
  va  := w.extractLsb' 74 6
  vb  := w.extractLsb' 68 6
  vc  := w.extractLsb' 62 6
  msk := w.extractLsb' 59 3
  ty  := w.extractLsb' 55 4
  la  := w.extractLsb' 51 4
  b   := w.getLsbD 50
  e   := w.getLsbD 49
  rm  := w.extractLsb' 47 2
  sat := w.getLsbD 46
  src := w.extractLsb' 44 2
  mod := w.extractLsb' 40 4
  sub := w.extractLsb' 32 8
  imm := w.extractLsb' 0 32

/-- The fields of a matrix word below its opcode (05:R145). -/
def MtxF.read (w : BitVec 64) : MtxF where
  acc := w.extractLsb' 53 3
  ar  := w.extractLsb' 49 4
  br  := w.extractLsb' 45 4
  xr  := w.extractLsb' 41 4
  ta  := w.extractLsb' 37 4
  tb  := w.extractLsb' 33 4
  bsa := w.extractLsb' 31 2
  bsb := w.extractLsb' 29 2
  bar := w.extractLsb' 25 4
  k   := w.extractLsb' 13 12
  flg := w.extractLsb' 0 13

/-! ## Decoders -/

/-- The integer functions under major opcode 0x01 (05:R153). -/
def decodeInt (f : SR) : Nat → Option Instr
  | 0x000 => some (.add f)
  | 0x001 => some (.sub f)
  | 0x002 => some (.mul f)
  | 0x003 => some (.mulh f)
  | 0x004 => some (.mulhu f)
  | 0x005 => some (.div f)
  | 0x006 => some (.divu f)
  | 0x007 => some (.rem f)
  | 0x008 => some (.remu f)
  | 0x009 => some (.and f)
  | 0x00A => some (.or f)
  | 0x00B => some (.xor f)
  | 0x00C => some (.shl f)
  | 0x00D => some (.shr f)
  | 0x00E => some (.sra f)
  | 0x00F => some (.slt f)
  | 0x010 => some (.sltu f)
  | 0x011 => some (.min f)
  | 0x012 => some (.max f)
  | 0x013 => some (.minu f)
  | 0x014 => some (.maxu f)
  | _ => none

/-- Is the scope and kind of a `FENCE` assigned (05:R153)? The kind is sb[1:0], the scope code sb[4:2]. -/
def fenceAssigned (b : BitVec 5) : Bool := b.extractLsb' 0 2 != 0 && (b.extractLsb' 2 3).toNat < 6

/-- The control functions under major opcode 0x02 (05:R153), but for `LREAD`. -/
def decodeCtl (f : SR) : Nat → Except Reject Instr
  | 0x000 => .ok (.jr f)
  | 0x001 => .ok (.jalr f)
  | 0x002 => .ok (.msum f)
  | 0x003 => .ok (.rdsp f)
  | 0x004 => .ok (.wrsp f)
  | 0x005 => if fenceAssigned f.b then .ok (.fence f) else .error .fenceForm
  | 0x006 => .ok (.tfence f)
  | 0x007 => .ok (.yield f)
  | 0x008 => .ok (.texit f)
  | 0x009 => .ok (.syscall f)
  | 0x00A => .ok (.sret f)
  | 0x00B => .ok (.brset f)
  | 0x00C => .ok (.barArrive f)
  | 0x00D => .ok (.barWait f)
  | 0x00E => .ok (.barSync f)
  | _ => .error .scalarFunction

/-- The engine commands of an SX word, by engine x 128 + function (05:R156). -/
def decodeSx (f : SX) : Nat → Option Instr
  | 0x000 => some (.ceLen f)
  | 0x001 => some (.ceStride f)
  | 0x002 => some (.ceCopy f)
  | 0x003 => some (.ceFill f)
  | 0x004 => some (.ceCb f)
  | 0x005 => some (.ceFut f)
  | 0x006 => some (.ceQjoin f)
  | 0x007 => some (.ceStat f)
  | 0x100 => some (.twDim f)
  | 0x101 => some (.twStart f)
  | 0x102 => some (.twNext f)
  | 0x103 => some (.twDone f)
  | 0x180 => some (.tkSpawn f)
  | 0x181 => some (.tkCast f)
  | 0x182 => some (.scInit f)
  | 0x183 => some (.scDec f)
  | 0x188 => some (.futAwait f)
  | 0x189 => some (.futResolve f)
  | 0x18A => some (.futFail f)
  | 0x18B => some (.futRead f)
  | 0x190 => some (.qjInit f)
  | 0x191 => some (.qjArrive f)
  | 0x192 => some (.qjStat f)
  | 0x200 => some (.arNew f)
  | 0x201 => some (.arAlloc f)
  | 0x202 => some (.arSeal f)
  | 0x203 => some (.arDrop f)
  | 0x204 => some (.arWait f)
  | 0x205 => some (.arInfo f)
  | 0x208 => some (.tileDecl f)
  | 0x209 => some (.tileFree f)
  | 0x280 => some (.hyFork f)
  | 0x281 => some (.hyResolve f)
  | 0x282 => some (.hyEnter f)
  | 0x283 => some (.hyInfo f)
  | 0x300 => some (.qCreate f)
  | 0x301 => some (.qDestroy f)
  | 0x302 => some (.qConf f)
  | 0x303 => some (.qResv f)
  | 0x304 => some (.qStat f)
  | 0x308 => some (.ctxNew f)
  | 0x309 => some (.ctxKill f)
  | 0x30A => some (.ctxReclaim f)
  | 0x310 => some (.pgMap f)
  | 0x311 => some (.pgUnmap f)
  | 0x318 => some (.pwBudget f)
  | 0x319 => some (.pwGrant f)
  | 0x380 => some (.sysId f)
  | 0x381 => some (.sysIsland f)
  | 0x382 => some (.sysAttest f)
  | 0x383 => some (.sysPeer f)
  | _ => none

/-- A scalar word (05:R137, R152, R158). -/
def decodeScalar (w : BitVec 32) : Except Reject Instr :=
  if w = 0 then .error .zeroScalar else
  match (w.extractLsb' 26 6).toNat with
  | 0x01 => match decodeInt (SR.read w) (w.extractLsb' 0 11).toNat with
            | some i => .ok i
            | none => .error .scalarFunction
  | 0x02 => if w.extractLsb' 6 5 = 1 then .ok (.lread (SRK.read w))
            else decodeCtl (SR.read w) (w.extractLsb' 0 11).toNat
  | 0x04 => .ok (.addi (SI.read w))
  | 0x05 => .ok (.andi (SI.read w))
  | 0x06 => .ok (.ori (SI.read w))
  | 0x07 => .ok (.xori (SI.read w))
  | 0x08 => .ok (.slti (SI.read w))
  | 0x09 => .ok (.sltiu (SI.read w))
  | 0x0A => .ok (.shli (SI.read w))
  | 0x0B => .ok (.shri (SI.read w))
  | 0x0C => .ok (.srai (SI.read w))
  | 0x0D => .ok (.lui (SI.read w))
  | 0x0E => .ok (.shori (SI.read w))
  | 0x10 => .ok (.ldb (SI.read w))
  | 0x11 => .ok (.ldbu (SI.read w))
  | 0x12 => .ok (.ldh (SI.read w))
  | 0x13 => .ok (.ldhu (SI.read w))
  | 0x14 => .ok (.ldw (SI.read w))
  | 0x15 => .ok (.ldwu (SI.read w))
  | 0x16 => .ok (.ldd (SI.read w))
  | 0x18 => .ok (.stb (SI.read w))
  | 0x19 => .ok (.sth (SI.read w))
  | 0x1A => .ok (.stw (SI.read w))
  | 0x1B => .ok (.std (SI.read w))
  | 0x20 => .ok (.beq (SB.read w))
  | 0x21 => .ok (.bne (SB.read w))
  | 0x22 => .ok (.blt (SB.read w))
  | 0x23 => .ok (.bge (SB.read w))
  | 0x24 => .ok (.bltu (SB.read w))
  | 0x25 => .ok (.bgeu (SB.read w))
  | 0x28 => .ok (.j (SJ.read w))
  | 0x29 => .ok (.jal (SJ.read w))
  | 0x2C => .ok (.lrun (SJ.read w))
  | 0x30 => .ok (.bld (SI.read w))
  | 0x31 => .ok (.bst (SI.read w))
  | 0x3E => match decodeSx (SX.read w) (w.extractLsb' 0 10).toNat with
            | some i => .ok i
            | none => .error .sxFunction
  | _ => .error .scalarOpcode

/-- The lane opcodes (05:R155; 08:R231). -/
def decodeLaneOp (f : LaneF) : Nat → Option Instr
  | 0x000 => some (.lnop f)
  | 0x001 => some (.rep f)
  | 0x002 => some (.lrnd f)
  | 0x003 => some (.vidx f)
  | 0x008 => some (.mpush f)
  | 0x009 => some (.mpop f)
  | 0x00A => some (.minv f)
  | 0x00B => some (.mmov f)
  | 0x00C => some (.mand f)
  | 0x00D => some (.mor f)
  | 0x00E => some (.mxor f)
  | 0x00F => some (.mnot f)
  | 0x040 => some (.vadd f)
  | 0x041 => some (.vsub f)
  | 0x042 => some (.vmul f)
  | 0x043 => some (.vmulh f)
  | 0x044 => some (.vmad f)
  | 0x045 => some (.vmin f)
  | 0x046 => some (.vmax f)
  | 0x047 => some (.vabs f)
  | 0x048 => some (.vneg f)
  | 0x049 => some (.vand f)
  | 0x04A => some (.vor f)
  | 0x04B => some (.vxor f)
  | 0x04C => some (.vnot f)
  | 0x04D => some (.vshl f)
  | 0x04E => some (.vshr f)
  | 0x04F => some (.vmov f)
  | 0x050 => some (.vsel f)
  | 0x051 => some (.bfx f)
  | 0x052 => some (.bfi f)
  | 0x053 => some (.popc f)
  | 0x054 => some (.clz f)
  | 0x055 => some (.ctz f)
  | 0x056 => some (.brev f)
  | 0x057 => some (.vcmp f)
  | 0x058 => some (.vclass f)
  | 0x080 => some (.vdiv f)
  | 0x081 => some (.vsqrt f)
  | 0x088 => some (.frcp f)
  | 0x089 => some (.frsq f)
  | 0x08A => some (.fexp2 f)
  | 0x08B => some (.flog2 f)
  | 0x08C => some (.fsin f)
  | 0x08D => some (.fcos f)
  | 0x08E => some (.ftanh f)
  | 0x0C0 => some (.cvt f)
  | 0x0C1 => some (.cvts f)
  | 0x0C2 => some (.pack f)
  | 0x0C3 => some (.unpack f)
  | 0x0C4 => some (.qenc f)
  | 0x0C5 => some (.qdec f)
  | 0x0C6 => some (.scacc f)
  | 0x0C7 => some (.dot4 f)
  | 0x100 => some (.shfl f)
  | 0x101 => some (.shflx f)
  | 0x102 => some (.bcast f)
  | 0x103 => some (.vperm f)
  | 0x108 => some (.red f)
  | 0x109 => some (.scan f)
  | 0x10A => some (.vote f)
  | 0x200 => some (.ld f)
  | 0x201 => some (.st f)
  | 0x202 => some (.ldr f)
  | 0x203 => some (.ldacq f)
  | 0x204 => some (.strel f)
  | 0x205 => some (.atom f)
  | 0x206 => some (.cas f)
  | 0x208 => some (.cbtake f)
  | 0x209 => some (.cbpub f)
  | 0x20A => some (.cbget f)
  | 0x20B => some (.cbret f)
  | 0x20C => some (.sptest f)
  | 0x20D => some (.spcast f)
  | _ => none

/-- A lane word (05:R140). -/
def decodeLane (w : BitVec 96) : Except Reject Instr :=
  match decodeLaneOp (LaneF.read w) (w.extractLsb' 86 10).toNat with
  | some i => .ok i
  | none => .error .laneOpcode

/-- The matrix opcodes (05:R157). -/
def decodeMtxOp (f : MtxF) : Nat → Option Instr
  | 0x01 => some (.mzero f)
  | 0x02 => some (.mldb f)
  | 0x03 => some (.mma f)
  | 0x04 => some (.msp f)
  | 0x05 => some (.mscacc f)
  | 0x06 => some (.macld f)
  | 0x07 => some (.macst f)
  | 0x08 => some (.mbar f)
  | 0x09 => some (.mloop f)
  | 0x0A => some (.maddr f)
  | 0x0B => some (.mdset f)
  | 0x0C => some (.mtol f)
  | 0x0D => some (.mcnt f)
  | 0x0E => some (.mend f)
  | _ => none

/-- A matrix word (05:R145). -/
def decodeMtx (w : BitVec 64) : Except Reject Instr :=
  match decodeMtxOp (MtxF.read w) (w.extractLsb' 56 8).toNat with
  | some i => .ok i
  | none => .error .matrixOpcode

/-- A word of any stream. -/
def decodeWord : RawWord → Except Reject Instr
  | .scalar w => decodeScalar w
  | .lane w => decodeLane w
  | .matrix w => decodeMtx w

/-- The bytes of one word of a stream (05:R136). -/
def Stream.size : Stream → Nat
  | .scalar => 4
  | .lane => 12
  | .matrix => 8

/-- The word that a stream's bytes hold, little-endian (05:R136). -/
def Stream.word : Stream → List Byte → RawWord
  | .scalar, bs => .scalar (BitVec.ofNat 32 (leNat bs))
  | .lane, bs => .lane (BitVec.ofNat 96 (leNat bs))
  | .matrix, bs => .matrix (BitVec.ofNat 64 (leNat bs))

/-- Decodes the first word of a stream's bytes; answers the instruction and the bytes after it. -/
def decode (st : Stream) (bs : List Byte) : Except Reject (Instr × List Byte) :=
  if bs.length < st.size then .error .truncated else
  match decodeWord (st.word (bs.take st.size)) with
  | .ok i => .ok (i, bs.drop st.size)
  | .error r => .error r

/-! ## Encoder -/

/-- An SR word from its fields (05:R137). -/
def SR.pack (op : BitVec 6) (f : SR) (fn : BitVec 11) : BitVec 32 := op ++ f.d ++ f.a ++ f.b ++ fn
/-- An LREAD word from its fields (06:R180): function 0x040 + k. -/
def SRK.pack (f : SRK) : BitVec 32 := 0x02#6 ++ f.d ++ f.a ++ f.b ++ 1#5 ++ f.k
/-- An SI word from its fields (05:R137). -/
def SI.pack (op : BitVec 6) (f : SI) : BitVec 32 := op ++ f.d ++ f.a ++ f.i
/-- An SB word from its fields (05:R137). -/
def SB.pack (op : BitVec 6) (f : SB) : BitVec 32 := op ++ f.a ++ f.b ++ f.o
/-- An SJ or SL word from its field (05:R137). -/
def SJ.pack (op : BitVec 6) (f : SJ) : BitVec 32 := op ++ f.o
/-- An SX word from its fields (05:R137): engine and function given together as bits [9:0]. -/
def SX.pack (f : SX) (fn : BitVec 10) : BitVec 32 := 0x3E#6 ++ f.d ++ f.a ++ f.b ++ BitVec.ofBool f.r ++ fn

/-- A lane word from its opcode and fields (05:R140). -/
def LaneF.pack (op : BitVec 10) (f : LaneF) : BitVec 96 :=
  op ++ f.vd ++ f.va ++ f.vb ++ f.vc ++ f.msk ++ f.ty ++ f.la ++ BitVec.ofBool f.b ++ BitVec.ofBool f.e
    ++ f.rm ++ BitVec.ofBool f.sat ++ f.src ++ f.mod ++ f.sub ++ f.imm

/-- A matrix word from its opcode and fields (05:R145). -/
def MtxF.pack (op : BitVec 8) (f : MtxF) : BitVec 64 :=
  op ++ f.acc ++ f.ar ++ f.br ++ f.xr ++ f.ta ++ f.tb ++ f.bsa ++ f.bsb ++ f.bar ++ f.k ++ f.flg

/-- The word of an instruction of one of the three streams; none for the steps that are no word. -/
def encode : Instr → Option RawWord
  | .add f => some (.scalar (f.pack 0x01 0x000))
  | .sub f => some (.scalar (f.pack 0x01 0x001))
  | .mul f => some (.scalar (f.pack 0x01 0x002))
  | .mulh f => some (.scalar (f.pack 0x01 0x003))
  | .mulhu f => some (.scalar (f.pack 0x01 0x004))
  | .div f => some (.scalar (f.pack 0x01 0x005))
  | .divu f => some (.scalar (f.pack 0x01 0x006))
  | .rem f => some (.scalar (f.pack 0x01 0x007))
  | .remu f => some (.scalar (f.pack 0x01 0x008))
  | .and f => some (.scalar (f.pack 0x01 0x009))
  | .or f => some (.scalar (f.pack 0x01 0x00A))
  | .xor f => some (.scalar (f.pack 0x01 0x00B))
  | .shl f => some (.scalar (f.pack 0x01 0x00C))
  | .shr f => some (.scalar (f.pack 0x01 0x00D))
  | .sra f => some (.scalar (f.pack 0x01 0x00E))
  | .slt f => some (.scalar (f.pack 0x01 0x00F))
  | .sltu f => some (.scalar (f.pack 0x01 0x010))
  | .min f => some (.scalar (f.pack 0x01 0x011))
  | .max f => some (.scalar (f.pack 0x01 0x012))
  | .minu f => some (.scalar (f.pack 0x01 0x013))
  | .maxu f => some (.scalar (f.pack 0x01 0x014))
  | .jr f => some (.scalar (f.pack 0x02 0x000))
  | .jalr f => some (.scalar (f.pack 0x02 0x001))
  | .msum f => some (.scalar (f.pack 0x02 0x002))
  | .rdsp f => some (.scalar (f.pack 0x02 0x003))
  | .wrsp f => some (.scalar (f.pack 0x02 0x004))
  | .fence f => some (.scalar (f.pack 0x02 0x005))
  | .tfence f => some (.scalar (f.pack 0x02 0x006))
  | .yield f => some (.scalar (f.pack 0x02 0x007))
  | .texit f => some (.scalar (f.pack 0x02 0x008))
  | .syscall f => some (.scalar (f.pack 0x02 0x009))
  | .sret f => some (.scalar (f.pack 0x02 0x00A))
  | .brset f => some (.scalar (f.pack 0x02 0x00B))
  | .barArrive f => some (.scalar (f.pack 0x02 0x00C))
  | .barWait f => some (.scalar (f.pack 0x02 0x00D))
  | .barSync f => some (.scalar (f.pack 0x02 0x00E))
  | .lread f => some (.scalar f.pack)
  | .addi f => some (.scalar (f.pack 0x04))
  | .andi f => some (.scalar (f.pack 0x05))
  | .ori f => some (.scalar (f.pack 0x06))
  | .xori f => some (.scalar (f.pack 0x07))
  | .slti f => some (.scalar (f.pack 0x08))
  | .sltiu f => some (.scalar (f.pack 0x09))
  | .shli f => some (.scalar (f.pack 0x0A))
  | .shri f => some (.scalar (f.pack 0x0B))
  | .srai f => some (.scalar (f.pack 0x0C))
  | .lui f => some (.scalar (f.pack 0x0D))
  | .shori f => some (.scalar (f.pack 0x0E))
  | .ldb f => some (.scalar (f.pack 0x10))
  | .ldbu f => some (.scalar (f.pack 0x11))
  | .ldh f => some (.scalar (f.pack 0x12))
  | .ldhu f => some (.scalar (f.pack 0x13))
  | .ldw f => some (.scalar (f.pack 0x14))
  | .ldwu f => some (.scalar (f.pack 0x15))
  | .ldd f => some (.scalar (f.pack 0x16))
  | .stb f => some (.scalar (f.pack 0x18))
  | .sth f => some (.scalar (f.pack 0x19))
  | .stw f => some (.scalar (f.pack 0x1A))
  | .std f => some (.scalar (f.pack 0x1B))
  | .bld f => some (.scalar (f.pack 0x30))
  | .bst f => some (.scalar (f.pack 0x31))
  | .beq f => some (.scalar (f.pack 0x20))
  | .bne f => some (.scalar (f.pack 0x21))
  | .blt f => some (.scalar (f.pack 0x22))
  | .bge f => some (.scalar (f.pack 0x23))
  | .bltu f => some (.scalar (f.pack 0x24))
  | .bgeu f => some (.scalar (f.pack 0x25))
  | .j f => some (.scalar (f.pack 0x28))
  | .jal f => some (.scalar (f.pack 0x29))
  | .lrun f => some (.scalar (f.pack 0x2C))
  | .ceLen f => some (.scalar (f.pack 0x000))
  | .ceStride f => some (.scalar (f.pack 0x001))
  | .ceCopy f => some (.scalar (f.pack 0x002))
  | .ceFill f => some (.scalar (f.pack 0x003))
  | .ceCb f => some (.scalar (f.pack 0x004))
  | .ceFut f => some (.scalar (f.pack 0x005))
  | .ceQjoin f => some (.scalar (f.pack 0x006))
  | .ceStat f => some (.scalar (f.pack 0x007))
  | .twDim f => some (.scalar (f.pack 0x100))
  | .twStart f => some (.scalar (f.pack 0x101))
  | .twNext f => some (.scalar (f.pack 0x102))
  | .twDone f => some (.scalar (f.pack 0x103))
  | .tkSpawn f => some (.scalar (f.pack 0x180))
  | .tkCast f => some (.scalar (f.pack 0x181))
  | .scInit f => some (.scalar (f.pack 0x182))
  | .scDec f => some (.scalar (f.pack 0x183))
  | .futAwait f => some (.scalar (f.pack 0x188))
  | .futResolve f => some (.scalar (f.pack 0x189))
  | .futFail f => some (.scalar (f.pack 0x18A))
  | .futRead f => some (.scalar (f.pack 0x18B))
  | .qjInit f => some (.scalar (f.pack 0x190))
  | .qjArrive f => some (.scalar (f.pack 0x191))
  | .qjStat f => some (.scalar (f.pack 0x192))
  | .arNew f => some (.scalar (f.pack 0x200))
  | .arAlloc f => some (.scalar (f.pack 0x201))
  | .arSeal f => some (.scalar (f.pack 0x202))
  | .arDrop f => some (.scalar (f.pack 0x203))
  | .arWait f => some (.scalar (f.pack 0x204))
  | .arInfo f => some (.scalar (f.pack 0x205))
  | .tileDecl f => some (.scalar (f.pack 0x208))
  | .tileFree f => some (.scalar (f.pack 0x209))
  | .hyFork f => some (.scalar (f.pack 0x280))
  | .hyResolve f => some (.scalar (f.pack 0x281))
  | .hyEnter f => some (.scalar (f.pack 0x282))
  | .hyInfo f => some (.scalar (f.pack 0x283))
  | .qCreate f => some (.scalar (f.pack 0x300))
  | .qDestroy f => some (.scalar (f.pack 0x301))
  | .qConf f => some (.scalar (f.pack 0x302))
  | .qResv f => some (.scalar (f.pack 0x303))
  | .qStat f => some (.scalar (f.pack 0x304))
  | .ctxNew f => some (.scalar (f.pack 0x308))
  | .ctxKill f => some (.scalar (f.pack 0x309))
  | .ctxReclaim f => some (.scalar (f.pack 0x30A))
  | .pgMap f => some (.scalar (f.pack 0x310))
  | .pgUnmap f => some (.scalar (f.pack 0x311))
  | .pwBudget f => some (.scalar (f.pack 0x318))
  | .pwGrant f => some (.scalar (f.pack 0x319))
  | .sysId f => some (.scalar (f.pack 0x380))
  | .sysIsland f => some (.scalar (f.pack 0x381))
  | .sysAttest f => some (.scalar (f.pack 0x382))
  | .sysPeer f => some (.scalar (f.pack 0x383))
  | .lnop f => some (.lane (f.pack 0x000))
  | .rep f => some (.lane (f.pack 0x001))
  | .lrnd f => some (.lane (f.pack 0x002))
  | .vidx f => some (.lane (f.pack 0x003))
  | .mpush f => some (.lane (f.pack 0x008))
  | .mpop f => some (.lane (f.pack 0x009))
  | .minv f => some (.lane (f.pack 0x00A))
  | .mmov f => some (.lane (f.pack 0x00B))
  | .mand f => some (.lane (f.pack 0x00C))
  | .mor f => some (.lane (f.pack 0x00D))
  | .mxor f => some (.lane (f.pack 0x00E))
  | .mnot f => some (.lane (f.pack 0x00F))
  | .vadd f => some (.lane (f.pack 0x040))
  | .vsub f => some (.lane (f.pack 0x041))
  | .vmul f => some (.lane (f.pack 0x042))
  | .vmulh f => some (.lane (f.pack 0x043))
  | .vmad f => some (.lane (f.pack 0x044))
  | .vmin f => some (.lane (f.pack 0x045))
  | .vmax f => some (.lane (f.pack 0x046))
  | .vabs f => some (.lane (f.pack 0x047))
  | .vneg f => some (.lane (f.pack 0x048))
  | .vand f => some (.lane (f.pack 0x049))
  | .vor f => some (.lane (f.pack 0x04A))
  | .vxor f => some (.lane (f.pack 0x04B))
  | .vnot f => some (.lane (f.pack 0x04C))
  | .vshl f => some (.lane (f.pack 0x04D))
  | .vshr f => some (.lane (f.pack 0x04E))
  | .vmov f => some (.lane (f.pack 0x04F))
  | .vsel f => some (.lane (f.pack 0x050))
  | .bfx f => some (.lane (f.pack 0x051))
  | .bfi f => some (.lane (f.pack 0x052))
  | .popc f => some (.lane (f.pack 0x053))
  | .clz f => some (.lane (f.pack 0x054))
  | .ctz f => some (.lane (f.pack 0x055))
  | .brev f => some (.lane (f.pack 0x056))
  | .vcmp f => some (.lane (f.pack 0x057))
  | .vclass f => some (.lane (f.pack 0x058))
  | .vdiv f => some (.lane (f.pack 0x080))
  | .vsqrt f => some (.lane (f.pack 0x081))
  | .frcp f => some (.lane (f.pack 0x088))
  | .frsq f => some (.lane (f.pack 0x089))
  | .fexp2 f => some (.lane (f.pack 0x08A))
  | .flog2 f => some (.lane (f.pack 0x08B))
  | .fsin f => some (.lane (f.pack 0x08C))
  | .fcos f => some (.lane (f.pack 0x08D))
  | .ftanh f => some (.lane (f.pack 0x08E))
  | .cvt f => some (.lane (f.pack 0x0C0))
  | .cvts f => some (.lane (f.pack 0x0C1))
  | .pack f => some (.lane (f.pack 0x0C2))
  | .unpack f => some (.lane (f.pack 0x0C3))
  | .qenc f => some (.lane (f.pack 0x0C4))
  | .qdec f => some (.lane (f.pack 0x0C5))
  | .scacc f => some (.lane (f.pack 0x0C6))
  | .dot4 f => some (.lane (f.pack 0x0C7))
  | .shfl f => some (.lane (f.pack 0x100))
  | .shflx f => some (.lane (f.pack 0x101))
  | .bcast f => some (.lane (f.pack 0x102))
  | .vperm f => some (.lane (f.pack 0x103))
  | .red f => some (.lane (f.pack 0x108))
  | .scan f => some (.lane (f.pack 0x109))
  | .vote f => some (.lane (f.pack 0x10A))
  | .ld f => some (.lane (f.pack 0x200))
  | .st f => some (.lane (f.pack 0x201))
  | .ldr f => some (.lane (f.pack 0x202))
  | .ldacq f => some (.lane (f.pack 0x203))
  | .strel f => some (.lane (f.pack 0x204))
  | .atom f => some (.lane (f.pack 0x205))
  | .cas f => some (.lane (f.pack 0x206))
  | .cbtake f => some (.lane (f.pack 0x208))
  | .cbpub f => some (.lane (f.pack 0x209))
  | .cbget f => some (.lane (f.pack 0x20A))
  | .cbret f => some (.lane (f.pack 0x20B))
  | .sptest f => some (.lane (f.pack 0x20C))
  | .spcast f => some (.lane (f.pack 0x20D))
  | .mzero f => some (.matrix (f.pack 0x01))
  | .mldb f => some (.matrix (f.pack 0x02))
  | .mma f => some (.matrix (f.pack 0x03))
  | .msp f => some (.matrix (f.pack 0x04))
  | .mscacc f => some (.matrix (f.pack 0x05))
  | .macld f => some (.matrix (f.pack 0x06))
  | .macst f => some (.matrix (f.pack 0x07))
  | .mbar f => some (.matrix (f.pack 0x08))
  | .mloop f => some (.matrix (f.pack 0x09))
  | .maddr f => some (.matrix (f.pack 0x0A))
  | .mdset f => some (.matrix (f.pack 0x0B))
  | .mtol f => some (.matrix (f.pack 0x0C))
  | .mcnt f => some (.matrix (f.pack 0x0D))
  | .mend f => some (.matrix (f.pack 0x0E))
  | .unassignedEncoding w => some w
  | .dispatchPlace => none
  | .placementUnitReserve => none
  | .placementResourceWaitEvent => none
  | .hostEnqueuePortWrite => none
  | .queueVentDrain => none
  | .heldEntryEntersVent => none
  | .segmentOverflowComplete => none
  | .taskComplete => none
  | .auditReplayComplete => none
  | .slotGrant => none
  | .passCapReached => none
  | .issueIntervalEnd => none
  | .laneBlockStart => none
  | .laneBlockComplete => none
  | .longLatencyResult => none
  | .greenRoomWake => none
  | .cbWaitWake => none
  | .engineReplyArrival => none
  | .killAtKillPoint => none
  | .teamEvict => none
  | .teamRestore => none
  | .yieldDeadlineExpiry => none
  | .teamMigrate => none
  | .migrationForwardEnd => none
  | .lateFootprintMessage => none
  | .faultCollectExpiry => none
  | .matrixFaultDelivery => none
  | .ceFaultDelivery => none
  | .ceEntryStart => none
  | .ceEntryComplete => none
  | .reservationGrant => none
  | .matrixPassComplete => none
  | .homeRequestArrival => none
  | .forwardedStoreArrival => none
  | .replicaUpdateApply => none
  | .clockNoticeArrival => none
  | .arenaDropSweepComplete => none
  | .hypSweepFree => none
  | .tlbHalfSweepComplete => none
  | .uncorrectableError => none
  | .poisonConsumed => none
  | .coreLogicFault => none
  | .coreRetire => none
  | .clusterRetire => none
  | .hbmChannelRetire => none
  | .hbmRowRepair => none
  | .flitCrcFail => none
  | .linkRetrainStart => none
  | .linkRetrainComplete => none
  | .dieMessageArrival => none
  | .dieResponseArrival => none
  | .peerIncomingRequest => none
  | .peerTimeout => none
  | .deviceReset => none
  | .recoveryBootWrite => none
  | .partitionRestart => none
  | .islandLimitLower => none
  | .islandStepChangeDone => none
  | .registerWrite => none
  | .peerResponseArrival => none
  | .hostApertureAccess => none
  | .ethernetPortLinkChange => none
  | .correctableError => none
  | .clusterReturnToService => none
  | .maintenanceRetrain => none
  | .partitionCreate => none
  | .islandLimitRaise => none
  | .contextSlotSweepComplete => none
  | .migrationCopyComplete => none

/-- The bytes of an instruction's word, as memory holds them (05:R136). -/
def RawWord.bytes : RawWord → List Byte
  | .scalar w => leBytes 4 w.toNat
  | .lane w => leBytes 12 w.toNat
  | .matrix w => leBytes 8 w.toNat

/-- The instruction that the decoder reads from a word whose low `nbits` bits are `w`, bit 0 the least significant bit of the
word (00:R5). 32 bits are a scalar word, 64 a matrix word, 96 a lane word. -/
def decodeTableWord (nbits w : Nat) : Option Instr :=
  let st := if nbits ≤ 32 then Stream.scalar else if nbits ≤ 64 then .matrix else .lane
  match decode st (leBytes st.size w) with
  | .ok (i, _) => some i
  | .error _ => none

end Sys2Proof
end

