-- ==== Sys2Proof/Config.lean ====
section
/-!
DEFINITION. What an implementation, an arbiter or the outside world fixes. Every constant is opaque: it has no body, so
nothing can be proved of its value, and a claim about the model holds whatever it is.
-/
namespace Sys2Proof

/-- A placement resource that an entry can wait for (11:R327). -/
inductive Resource where
  | privateRange | arenaQuota | devicePool | framePool
  deriving DecidableEq, Repr

/-- Where an error in a protected array lies (19:R415). -/
inductive ErrPlace where
  /-- A 32-byte granule of memory or of a scratchpad, by its key in memory divided by 32. -/
  | granule (key : Nat)
  /-- The registers `reg` of four neighbouring lanes of a team: one granule of the lane register file. -/
  | laneRegs (team reg lane : Nat)
  /-- A line of an L1 or of its read-only sub-array, by its index. -/
  | l1Line (idx : Nat)
  /-- Eight neighbouring cells of an accumulator slot, by the key of one. -/
  | accCells (key : Nat)
  /-- Eight neighbouring cells of a partial register of the sequencer of a unit: register 0 or 1, and the number of one cell. -/
  | partCells (unit reg cell : Nat)
  /-- A granule of a hypothesis version of a line, by the index of the version. -/
  | version (idx granule : Nat)
  /-- The buffer of a copy-engine queue. -/
  | ceBuffer (core queue : Nat)
  /-- The buffer of the sequencer of a unit. -/
  | seqBuffer (unit : Nat)
  /-- A buffer of the die fabric: of the data of a posted store on its way, by its index, the granule that holds a byte of its line. -/
  | fabric (idx off : Nat)
  deriving DecidableEq, Repr

/-- One page moved off a failing HBM channel (19:R430): slot, virtual page, new physical page. -/
structure PageMove where
  slot : Nat
  va   : Nat
  dst  : Nat
  deriving DecidableEq, Repr

/-- An RDMA request from a peer (12:R357), at an offset of the export range. -/
inductive PeerOp where
  | read (off size : Nat)
  | write (off : Nat) (data : List Byte)
  | fetchAdd (off : Nat) (v : W64)
  | cas (off : Nat) (expect v : W64)
  deriving DecidableEq, Repr

/-- Who waits for an answer of the host or of a peer (12:R356, 17:R412): a team's load or atomic, a posted write, or nobody any more. -/
inductive RemoteWait where
  | team (t : Nat)
  | posted (idx : Nat)
  | stray (idx : Nat)
  deriving DecidableEq, Repr

/-- What the signed boot is given (12:R347, R348; 19:R436). -/
structure BootInput where
  /-- The bytes of the image: header, payload, signature, public key. -/
  image   : List Byte
  /-- Where its payload is placed: a physical address (log 34). -/
  payload : Nat
  /-- A die that fails its bring-up, or the links of which do. -/
  badDie  : Option Nat
  deriving DecidableEq, Repr

/-- The resources a partition is created with (12:R345; 16:R370, R387; 19:R421, R424). -/
structure PartSpec where
  islands   : List Nat
  ranges    : List (Nat × Nat)
  slots     : List Nat
  queues    : List Nat
  shareCeil : List Nat
  tokenCeil : NMap Nat
  ctrl      : Nat
  frameBase : Nat
  frames    : Nat
  saveBytes : Nat
  failBase  : Nat
  audit     : Option Nat
  /-- Floor of the security version of its image, and the digests of its owner's keys (12:R348). -/
  floor     : Nat
  keys      : List (List Byte)
  deriving DecidableEq, Repr

/-- A step of an agent other than the three streams, with the objects it concerns and the choices left to an arbiter or to
the outside world. Each constructor is the row of the same name of `Instr`. -/
inductive Event where
  | dispatchPlace (die queue : Nat) (cores : List Nat)
  | placementUnitReserve (queue unit : Nat)
  | placementResourceWaitEvent (queue : Nat) (res : Resource)
  | hostEnqueuePortWrite (fn queue size : Nat) (lo hi : W64)
  | queueVentDrain (queue : Nat)
  | heldEntryEntersVent (queue : Nat)
  | segmentOverflowComplete (queue : Nat) (seg : W64)
  | taskComplete (unit : Nat)
  | auditReplayComplete (audit : Nat)
  | slotGrant (core slot team : Nat)
  | passCapReached (team : Nat)
  | issueIntervalEnd (core : Nat)
  | laneBlockStart (team : Nat)
  | laneBlockComplete (team : Nat)
  | longLatencyResult (team idx sel : Nat)
  | greenRoomWake (team : Nat)
  | cbWaitWake (team : Nat)
  | engineReplyArrival (team : Nat)
  | killAtKillPoint (team : Nat)
  | teamEvict (team : Nat)
  | teamRestore (team core : Nat)
  | yieldDeadlineExpiry (team : Nat)
  | teamMigrate (team core : Nat)
  | migrationForwardEnd (team : Nat)
  | lateFootprintMessage (idx : Nat)
  | faultCollectExpiry (cluster idx : Nat)
  | matrixFaultDelivery (unit : Nat)
  | ceFaultDelivery (core queue : Nat)
  | ceEntryStart (core queue : Nat)
  | ceEntryComplete (core queue : Nat)
  | reservationGrant (cluster : Nat)
  | matrixPassComplete (cluster : Nat)
  | homeRequestArrival (idx : Nat)
  | forwardedStoreArrival (idx : Nat)
  | replicaUpdateApply (idx : Nat)
  | clockNoticeArrival (idx : Nat)
  | arenaDropSweepComplete (slot arena : Nat)
  | hypSweepFree (slot id : Nat)
  | tlbHalfSweepComplete (slot : Nat) (upper : Bool)
  | uncorrectableError (place : ErrPlace)
  | poisonConsumed (unit : Nat)
  | coreLogicFault (core : Nat)
  | coreRetire (core : Nat)
  | clusterRetire (cluster : Nat)
  | hbmChannelRetire (stack channel : Nat) (moves : List PageMove)
  | hbmRowRepair (stack channel row : Nat)
  | flitCrcFail (die module : Nat)
  | linkRetrainStart (die module : Nat)
  | linkRetrainComplete (die module width repaired : Nat)
  | dieMessageArrival (idx : Nat)
  | dieResponseArrival (idx : Nat)
  | peerIncomingRequest (part conn : Nat) (key : W32) (op : PeerOp)
  | peerTimeout (who : RemoteWait)
  | deviceReset (boot : BootInput)
  | recoveryBootWrite (value : W64) (payload : Nat) (badDie : Option Nat)
  | partitionRestart (part : Nat) (image : List Byte)
  | islandLimitLower (island limit : Nat)
  | islandStepChangeDone (island : Nat)
  | registerWrite (fn offset : Nat) (value : W64)
  | peerResponseArrival (who : RemoteWait) (data : List Byte)
  | hostApertureAccess (fn : Nat) (bar0 : Bool) (offset size : Nat) (write : Bool) (value : W64)
  | ethernetPortLinkChange (port : Nat) (up : Bool)
  | correctableError (place : ErrPlace)
  | clusterReturnToService (cluster : Nat)
  | maintenanceRetrain (die module : Nat)
  | partitionCreate (part : Nat) (res : PartSpec) (boot : BootInput)
  | islandLimitRaise (island limit : Nat)
  | contextSlotSweepComplete (slot : Nat)
  | migrationCopyComplete (team : Nat)
  deriving DecidableEq, Repr

/-- The row of the opcode table that an event is. -/
def Event.row : Event → Instr
  | .dispatchPlace _ _ _ => .dispatchPlace
  | .placementUnitReserve _ _ => .placementUnitReserve
  | .placementResourceWaitEvent _ _ => .placementResourceWaitEvent
  | .hostEnqueuePortWrite _ _ _ _ _ => .hostEnqueuePortWrite
  | .queueVentDrain _ => .queueVentDrain
  | .heldEntryEntersVent _ => .heldEntryEntersVent
  | .segmentOverflowComplete _ _ => .segmentOverflowComplete
  | .taskComplete _ => .taskComplete
  | .auditReplayComplete _ => .auditReplayComplete
  | .slotGrant _ _ _ => .slotGrant
  | .passCapReached _ => .passCapReached
  | .issueIntervalEnd _ => .issueIntervalEnd
  | .laneBlockStart _ => .laneBlockStart
  | .laneBlockComplete _ => .laneBlockComplete
  | .longLatencyResult _ _ _ => .longLatencyResult
  | .greenRoomWake _ => .greenRoomWake
  | .cbWaitWake _ => .cbWaitWake
  | .engineReplyArrival _ => .engineReplyArrival
  | .killAtKillPoint _ => .killAtKillPoint
  | .teamEvict _ => .teamEvict
  | .teamRestore _ _ => .teamRestore
  | .yieldDeadlineExpiry _ => .yieldDeadlineExpiry
  | .teamMigrate _ _ => .teamMigrate
  | .migrationForwardEnd _ => .migrationForwardEnd
  | .lateFootprintMessage _ => .lateFootprintMessage
  | .faultCollectExpiry _ _ => .faultCollectExpiry
  | .matrixFaultDelivery _ => .matrixFaultDelivery
  | .ceFaultDelivery _ _ => .ceFaultDelivery
  | .ceEntryStart _ _ => .ceEntryStart
  | .ceEntryComplete _ _ => .ceEntryComplete
  | .reservationGrant _ => .reservationGrant
  | .matrixPassComplete _ => .matrixPassComplete
  | .homeRequestArrival _ => .homeRequestArrival
  | .forwardedStoreArrival _ => .forwardedStoreArrival
  | .replicaUpdateApply _ => .replicaUpdateApply
  | .clockNoticeArrival _ => .clockNoticeArrival
  | .arenaDropSweepComplete _ _ => .arenaDropSweepComplete
  | .hypSweepFree _ _ => .hypSweepFree
  | .tlbHalfSweepComplete _ _ => .tlbHalfSweepComplete
  | .uncorrectableError _ => .uncorrectableError
  | .poisonConsumed _ => .poisonConsumed
  | .coreLogicFault _ => .coreLogicFault
  | .coreRetire _ => .coreRetire
  | .clusterRetire _ => .clusterRetire
  | .hbmChannelRetire _ _ _ => .hbmChannelRetire
  | .hbmRowRepair _ _ _ => .hbmRowRepair
  | .flitCrcFail _ _ => .flitCrcFail
  | .linkRetrainStart _ _ => .linkRetrainStart
  | .linkRetrainComplete _ _ _ _ => .linkRetrainComplete
  | .dieMessageArrival _ => .dieMessageArrival
  | .dieResponseArrival _ => .dieResponseArrival
  | .peerIncomingRequest _ _ _ _ => .peerIncomingRequest
  | .peerTimeout _ => .peerTimeout
  | .deviceReset _ => .deviceReset
  | .recoveryBootWrite _ _ _ => .recoveryBootWrite
  | .partitionRestart _ _ => .partitionRestart
  | .islandLimitLower _ _ => .islandLimitLower
  | .islandStepChangeDone _ => .islandStepChangeDone
  | .registerWrite _ _ _ => .registerWrite
  | .peerResponseArrival _ _ => .peerResponseArrival
  | .hostApertureAccess _ _ _ _ _ _ => .hostApertureAccess
  | .ethernetPortLinkChange _ _ => .ethernetPortLinkChange
  | .correctableError _ => .correctableError
  | .clusterReturnToService _ => .clusterReturnToService
  | .maintenanceRetrain _ _ => .maintenanceRetrain
  | .partitionCreate _ _ _ => .partitionCreate
  | .islandLimitRaise _ _ => .islandLimitRaise
  | .contextSlotSweepComplete _ => .contextSlotSweepComplete
  | .migrationCopyComplete _ => .migrationCopyComplete

/-- Whose step is next: one stream of a team, the matrix stream of a troupe, or another agent's step. -/
inductive Turn where
  | scalar (team : Nat)
  | lane (team : Nat)
  | matrix (unit : Nat)
  | event (e : Event)
  deriving DecidableEq, Repr, Inhabited

namespace Config

/-- DESIGN CHOICE (log 1). Which agent moves at the n-th step: arbitration order and outside events (00:R11). -/
opaque schedule : Nat → Turn

/-- DESIGN CHOICE (log 2). Clocks of the fixed 1.05 GHz clock (01:R27) that pass at the n-th step. -/
opaque elapsed : Nat → Nat

/-- DESIGN CHOICE (log 2). How far the clock reading of a die lies ahead; used modulo 65 (06:R183). -/
opaque dieSkew : Nat → Nat

/-- DESIGN CHOICE (log 13). The n-th free choice of one among several that the manual calls not architectural or does not
rank: a page, a frame, a private block, a walker coordinate. -/
opaque pick : Nat → Nat

/-- DESIGN CHOICE (log 8). Whether a line filled earlier is still in its cache at the n-th look (10:R315). -/
opaque stays : Nat → Bool

/-- DESIGN CHOICE (log 24). A byte whose value the manual leaves open (09:R281). -/
opaque freeByte : Nat → Byte

/-- DESIGN CHOICE (log 22). Of the floating-point pass that completes at a tick: the least tolerance exponent with which it differs from its
checksums (09:R276). The manual gives no order of the checksum sums. -/
opaque checksumGap : Nat → Nat

/-- Bytes that one hypothesis version takes in a vent area (03:R99): the manual gives none. -/
opaque ventEntry : Nat

/-- The device serial number (12:R351). -/
opaque serial : BitVec 128

/-- The stepping of the part (12:R351). -/
opaque stepping : Byte

/-- DESIGN CHOICE (log 33). Byte n of the device identity public key (12:R352). -/
opaque identityKey : Nat → Byte

/-- DESIGN CHOICE (log 33). SHAKE256 with 512 bits of output: byte n of the digest of some bytes (12:R347, R352). -/
opaque shake512 : List Byte → Nat → Byte

/-- DESIGN CHOICE (log 33). SHAKE256 with 256 bits of output: byte n (12:R348). -/
opaque shake256 : List Byte → Nat → Byte

/-- DESIGN CHOICE (log 33). ML-DSA-65: a signature of a digest is that of the holder of a public key (12:R347, R348). -/
opaque verifies : List Byte → List Byte → List Byte → Bool

/-- The fused digests of the keys that may sign the Stage Manager image; none where a fuse holds none (12:R348). -/
opaque fusedKey : Nat → Option (List Byte)

/-- The fused minimum of the security version of the Stage Manager image (12:R348). -/
opaque fusedMinimum : Nat

/-- DESIGN CHOICE (log 33). The signature over the first 256 bytes of an attestation report (12:R352). -/
opaque signature : List Byte → Nat → Byte

end Config
end Sys2Proof
end

