-- ==== Sys2Proof/Machine/NMap.lean ====
section
/-!
DEFINITION. Operations on the sparse maps of the state. A map is in canonical form when its keys rise strictly; with a
default value `d`, an entry equal to `d` is never listed, so that equal maps are equal data.
-/
namespace Sys2Proof.NMap

/-- The value at `k`, if listed. -/
def find? (m : NMap α) (k : Nat) : Option α :=
  match m with
  | [] => none
  | (j, v) :: r => if j = k then some v else find? r k

/-- The value at `k`, or `d` where none is listed. -/
def get (m : NMap α) (d : α) (k : Nat) : α := (find? m k).getD d

/-- `m` without `k`. -/
def erase (m : NMap α) (k : Nat) : NMap α := m.filter fun e => e.1 != k

/-- Places an entry before the first greater key. -/
def place (m : NMap α) (k : Nat) (v : α) : NMap α :=
  match m with
  | [] => [(k, v)]
  | (j, w) :: r => if k < j then (k, v) :: (j, w) :: r else (j, w) :: place r k v

/-- `m` with `v` at `k`. -/
def insert (m : NMap α) (k : Nat) (v : α) : NMap α := place (erase m k) k v

/-- `m` with `v` at `k`, where an unlisted key reads as `d`. -/
def put [DecidableEq α] (m : NMap α) (d : α) (k : Nat) (v : α) : NMap α :=
  if v = d then erase m k else insert m k v

/-- Applies `f` to the value at `k`, if listed. -/
def adjust (m : NMap α) (k : Nat) (f : α → α) : NMap α := m.map fun e => if e.1 = k then (k, f e.2) else e

/-- The canonical form: keys rise strictly, and no entry equals `d`. -/
def wf [DecidableEq α] (d : α) : NMap α → Bool
  | [] => true
  | [(_, v)] => v ≠ d
  | (j, v) :: (k, w) :: r => j < k && v ≠ d && wf d ((k, w) :: r)

/-- The keys rise strictly. -/
def sorted : NMap α → Bool
  | [] => true
  | [_] => true
  | (j, _) :: (k, w) :: r => j < k && sorted ((k, w) :: r)

end Sys2Proof.NMap
end

