-- ==== Sys2Proof/Machine/State.lean ====
section
/-!
DEFINITION. The state of the device, as plain data, and the state right after reset.
Each field cites the rule of spec/ that gives it. Numbers that name an object (a slot, a core, a queue) are Nat; register
contents are bit vectors.
-/
namespace Sys2Proof.Machine

/-- Memory: (key, byte) pairs in strictly rising order of key, none equal to 0, which is what an unlisted key reads as (log 5).
A key below 2^56 is a physical address of class 00 (12:R346); scratchpad offset o of core c is key 2^56 + c x 2^19 + o. -/
abbrev Memory := List Host.Cell

/-! ## Caches, requests, versions (03:R79 to R88, R99) -/

/-- A stamp: one entry for each die, or empty for a value never written through the clock (10:R311, R312). -/
abbrev Stamp := List (BitVec 32)

/-- The bytes of a 128-byte line as some unit holds them, with the stamps of the writes that produced them, by offset (10:R312). -/
structure Line where
  data   : List Byte
  stamps : NMap Stamp
  deriving DecidableEq, Repr

/-- The tags of a memory request (03:R86; 11:R330). -/
structure Tags where
  slot  : Nat
  inc   : BitVec 12
  arena : Nat
  gen   : BitVec 6
  hyp   : Nat
  /-- The scope of the access, 0 team to 5 system, and its ordering: bit 0 acquire, bit 1 release. -/
  scope : Nat
  order : Nat
  /-- No generation, seal or hypothesis check applies: a supervisor-window access (12:R346). -/
  phys  : Bool
  /-- It comes from a lane block, and its team has released nothing since (09:R282). -/
  block : Bool
  team  : Nat
  unit  : Nat
  core  : Nat
  queue : Nat
  deriving DecidableEq, Repr

/-- A posted store on its way to its home slice: the bytes that it writes in one line (03:R69, R82; 19:R433). -/
structure Req where
  tags  : Tags
  die   : Nat
  home  : Nat
  /-- Key of the first byte of its line. -/
  line  : Nat
  /-- The bytes written, by offset in the line. -/
  bytes : NMap Byte
  /-- The issuing die's vector clock at issue (10:R311). -/
  stamp : Stamp
  /-- End-to-end sequence number, once it is sent over a die-to-die link (19:R433). -/
  seq   : Option (BitVec 16)
  /-- It still stands before the link; cleared by its arrival at the home die. -/
  onLink : Bool
  /-- The link of the pair on which it was sent, and the tick of that: a link delivers in order (19:R431, R434). -/
  module : Nat
  sent   : Nat
  /-- The model's own: the row of a word that it belongs to, by step. Of the same row, the lines that are performed first: an access
  over two lines is performed in ascending order (06:R173). -/
  born  : Nat
  prevs : List Nat
  /-- It updated the issuing die's replica of the ordinary line, or would have (03:R82). -/
  shown : Bool
  /-- It writes back a tile, and is pushed to the halos that hold the line (03:R97). -/
  halo  : Bool
  /-- The offset in the line of a granule of its data that an error in a buffer of the die fabric has poisoned (19:R415). -/
  bad   : Option Nat
  deriving DecidableEq, Repr

/-- A response or acknowledgement on its way back over a link (19:R433, R440). -/
structure Ack where
  src  : Nat
  dst  : Nat
  seq  : BitVec 16
  slot : Nat
  inc  : BitVec 12
  deriving DecidableEq, Repr

/-- An update pushed to a die that holds a replica (03:R82, R83). -/
structure Push where
  die   : Nat
  /-- The team whose store it carries, its context slot and incarnation. -/
  team  : Nat
  slot  : Nat
  inc   : BitVec 12
  /-- The core whose tile it carries, if it writes back one (03:R97). -/
  tile  : Option Nat
  src   : Nat
  home  : Nat
  line  : Nat
  bytes : NMap Byte
  /-- The home slice's sequence number of the store. -/
  seq   : BitVec 32
  stamp : Stamp
  deriving DecidableEq, Repr

/-- A clock notice to a die without a replica (10:R311). -/
structure Notice where
  die   : Nat
  src   : Nat
  home  : Nat
  stamp : Stamp
  deriving DecidableEq, Repr

/-- A line of an L1: main part, or read-only sub-array (03:R79, R85, R96). -/
structure L1Line where
  core   : Nat
  ro     : Bool
  slot   : Nat
  /-- The id that the fill was resolved for. -/
  hyp    : Nat
  key    : Nat
  arena  : Nat
  home   : Nat
  line   : Line
  /-- Filled while its arena was sealed. -/
  sealed : Bool
  haloed : Bool
  /-- Bytes of a tile interior written and not yet written back (03:R97). -/
  dirty  : BitVec 128
  /-- The tick at which it was filled (08:R238). -/
  filled : Nat
  deriving DecidableEq, Repr

/-- A guest replica of a line (03:R81 to R83, R85; 10:R310). -/
structure Replica where
  die   : Nat
  key   : Nat
  slot  : Nat
  arena : Nat
  sealed : Bool
  haloed : Bool
  line  : Line
  /-- The newest sequence number that it has. -/
  seq   : BitVec 32
  /-- The sequence number at its fill, and those of the bytes that pushed updates have written since, by offset in the line. -/
  base  : BitVec 32
  seqs  : NMap (BitVec 32)
  /-- Bytes stored by the die itself, by offset in the line: the sequence number of the newest such store, once known. -/
  own   : NMap (Option (BitVec 32))
  deriving DecidableEq, Repr

/-- The tags of an ordinary line at its home (03:R82, R85). -/
structure HomeLine where
  /-- The dies that hold a replica. -/
  presence : BitVec 4
  slot     : Nat
  arena    : Nat
  sealed   : Bool
  haloed   : Bool
  deriving DecidableEq, Repr

/-- A hypothesis version of a line (03:R85, R99). -/
structure Version where
  slot  : Nat
  hyp   : Nat
  key   : Nat
  arena : Nat
  line  : Line
  mask  : BitVec 128
  /-- It lies in the context's vent area. -/
  vent  : Bool
  /-- Its poisoned granules (19:R415). -/
  bad   : BitVec 4
  deriving DecidableEq, Repr

/-- A TLB entry (03:R65). -/
structure TlbEntry where
  slot : Nat
  tgen : BitVec 16
  page : Nat
  deriving DecidableEq, Repr

/-! ## Contexts (03:R64 to R111; 09:R302) -/

/-- A page of a context: the entry at virtual page va / 65,536 (03:R64). -/
structure Page where
  phys  : Nat
  home  : Nat
  arena : Nat
  read  : Bool
  write : Bool
  /-- A 2 MiB page; its entry stands at its first 64 KiB page number. -/
  big   : Bool
  /-- Taken from the device pool. -/
  pool  : Bool
  deriving DecidableEq, Repr

/-- States of an arena (03:R91), numbered as `AR.INFO` gives them (08:R255). -/
inductive ArenaState where
  | free | live | sealed | dropping | dropped
  deriving DecidableEq, Repr

/-- An arena (03:R89). -/
structure Arena where
  state  : ArenaState
  gen    : BitVec 6
  parent : Nat
  depth  : Nat
  quota  : Nat
  charge : Nat
  base   : Nat
  stop   : Nat
  bump   : Nat
  /-- The arena whose drop took this one with it (08:R255). -/
  root   : Nat
  /-- Numbers are freed by themselves when step 3 is reached: a posted waiting `AR.WAIT` (08:R255). -/
  autoFree : Bool
  deriving DecidableEq, Repr

/-- States of a hypothesis (03:R101), numbered as `HY.INFO` gives them (08:R261). -/
inductive HypState where
  | free | opened | confirmed | refuted
  deriving DecidableEq, Repr

/-- A hypothesis other than the root (03:R98). -/
structure Hyp where
  state  : HypState
  parent : Nat
  depth  : Nat
  deriving DecidableEq, Repr

/-- A resolve that some home slices and L1s have not applied yet (03:R104; 08:R259). -/
structure Resolve where
  /-- The team that waits for its return, or the number of the join release that does. -/
  team     : Nat
  confirms : List Nat
  refutes  : List Nat
  /-- The entries of the ids that it changed, as they were before: the tree of a unit that has not applied it. -/
  old      : NMap Hyp
  /-- The units still to apply it: home slice j of die d is 32 x d + j, the L1 of core c is 128 + c. -/
  pending  : List Nat
  deriving DecidableEq, Repr

/-- A haloed region (03:R95, R96). -/
structure TileRegion where
  base   : Nat
  pitch  : Nat
  across : Nat
  down   : Nat
  width  : Nat
  height : Nat
  esize  : Nat
  halo   : Nat
  owners : List Byte
  arena  : Nat
  deriving DecidableEq, Repr

/-- A context slot (03:R106; 09:R302). -/
structure Context where
  live     : Bool
  inc      : BitVec 12
  oldest   : BitVec 12
  privSize : Nat
  privBase : Nat
  privLen  : Nat
  /-- Base addresses of the private blocks in use (03:R72). -/
  privUsed : List Nat
  homeDie  : Nat
  ventBase : Nat
  ventSize : Nat
  arenas   : NMap Arena
  hyps     : NMap Hyp
  /-- Resolves under way, oldest first. -/
  resolves : List Resolve
  pages    : NMap Page
  tgen     : BitVec 16
  /-- The sweep of the tags 0 to 32,767, and of those above, is under way (03:R111). -/
  sweepLow  : Bool
  sweepHigh : Bool
  tiles    : NMap TileRegion
  grants   : NMap Nat
  /-- The slot becomes free once reclaimed and swept (09:R302). -/
  freeing  : Bool
  reclaimed : Bool
  /-- A posted `CTX.RECLAIM` is under way (05:R139). -/
  reclaiming : Bool
  deriving DecidableEq, Repr

/-! ## Queues (09:R289, R301; 11:R324 to R331; 12:R358) -/

/-- A role of a cast list, or the one role of a task (02:R48, R49). -/
structure Role where
  entry  : W64
  lanes  : Nat
  base   : W64
  budget : Nat
  teams  : Nat
  deriving DecidableEq, Repr

/-- A retained launch record (02:R48, R49, R59). -/
structure Launch where
  cast       : Bool
  addr       : W64
  mtx        : W64
  arg        : W64
  tile       : BitVec 48
  roles      : List Role
  accSlots   : Nat
  idempotent : Bool
  replayable : Bool
  future     : Bool
  completion : W64
  tokens     : Nat
  prio       : Nat
  arena      : Nat
  hyp        : Nat
  scratch    : Nat
  outBase    : W64
  outLen     : Nat
  deriving DecidableEq, Repr

/-- A queue entry (09:R289), with its launch number and, for a relaunch, the unit it replaces (19:R418). -/
structure QEntry where
  record : W64
  kind   : W64
  seq    : BitVec 22
  /-- The retained record, attempt and cluster to avoid of a relaunch. -/
  relaunch : Option (Launch × Nat × Nat)
  /-- Virtual address of its 16 bytes, in the ring, in the vent area or in a segment (09:R289; 12:R358); 0 of an entry with none. -/
  place  : Nat
  /-- What the enqueuing decrement or spawn knew of the stores of the dies: the start acquire covers it (02:R50; 10:R312). -/
  stamp  : Stamp
  deriving DecidableEq, Repr

/-- A hardware queue (09:R301). -/
structure Queue where
  slot     : Nat
  ring     : W64
  log2     : Nat
  sx20     : Bool
  prio     : Nat
  ventBase : W64
  ventSize : Nat
  enabled  : Bool
  shares   : List Nat
  entries  : List QEntry
  vent     : List QEntry
  /-- The place in the vent area that the next entry takes. -/
  ventNext : Nat
  held     : List QEntry
  next     : BitVec 22
  /-- The clock since which the head entry has waited without fitting (11:R328). -/
  headSince : Nat
  /-- By resource of 11:R327: the clock since which the head entry has waited for it. -/
  shortSince : NMap Nat
  /-- The resources whose shortage has been posted for the head entry (11:R327). -/
  told     : List Nat
  /-- By die: placements that its dispatcher made in the round under way (11:R325). -/
  served   : NMap Nat
  /-- SX20 format: segment that takes the next entry, entries in it, and of the first segment, entries passed (12:R358). -/
  tailSeg  : W64
  tailIdx  : Nat
  headSeg  : W64
  headIdx  : Nat
  /-- A spawn suspended until the Prompter links a segment: the team. -/
  suspended : Option Nat
  deriving DecidableEq, Repr

/-! ## Teams (02:R35, R36, R43, R52) -/

/-- States of a team (02:R52). -/
inductive TeamState where
  | ready | running | parked | blocked | evicted | trapped | exited
  deriving DecidableEq, Repr

/-- What a blocked team waits for (02:R52; 08:R248, R250; 17:R394). -/
inductive Wait where
  | barArrive (bar : Nat)
  | barWait (bar : Nat) (phase : BitVec 32)
  /-- A `CBTAKE` or `CBGET` that found no slot. -/
  | cb
  /-- An open entry of the cluster's fault table, by page, or none of it; the faulting word is a lane word or not. -/
  | faultEntry (slot page : Nat) (lane : Bool)
  | faultNone (lane : Bool)
  | yield
  /-- A load or atomic of host or peer memory. -/
  | remote
  /-- A spawn suspended by an SX20 overflow (12:R358). -/
  | spawn (queue : Nat)
  deriving DecidableEq, Repr

/-- Why a team is marked for a kill (02:R55). -/
inductive Kill where
  | refuted | context | poison | levelTwo | matrix
  deriving DecidableEq, Repr

/-- A repeated word in progress (05:R148): the repeat index, the count, the steps of VD, VA, VB, VC. -/
structure RepState where
  i     : Nat
  count : Nat
  sd    : Nat
  sa    : Nat
  sb    : Nat
  sc    : Nat
  deriving DecidableEq, Repr

/-- A lane block: start index, broadcast bank, and the seed written before it (02:R38; 04:R120). -/
structure Block where
  start  : BitVec 26
  bank   : NMap W64
  reseed : Option W64
  /-- The `%hyp` under which it was enqueued (08:R260). -/
  hyp    : Nat
  deriving DecidableEq, Repr

/-- The block that runs, or a stopped one (05:R146, R147). -/
structure RunBlock where
  blk    : Block
  pos    : BitVec 26
  rep    : Option RepState
  /-- Its E word has executed. -/
  ended  : Bool
  /-- Words and passes of the current run. -/
  words  : Nat
  passes : Nat
  deriving DecidableEq, Repr

/-- A register part that a long-latency word is still to write: register, lane, first bit, width, value (05:R150). -/
structure PartWrite where
  reg   : Nat
  lane  : Nat
  lo    : Nat
  width : Nat
  val   : W64
  deriving DecidableEq, Repr

/-- The results of one long-latency word not yet written (05:R150). -/
structure Pending where
  writes : List PartWrite
  /-- Words of its window still to issue. -/
  left   : Nat
  /-- A load that missed the L1 (02:R53). -/
  miss   : Bool
  /-- The repeat state says it belongs to the repeated word in progress. -/
  inRep  : Bool
  /-- It comes as the response of a home slice: a load that missed, or an atomic (03:R108). -/
  resp   : Bool
  deriving DecidableEq, Repr

/-- What a trap sets aside (16:R368, R371, R441). -/
structure Aside where
  blocks  : List RunBlock
  /-- The team was blocked in the wait of a barrier: barrier and the phase of its arrival. -/
  barrier : Option (Nat × BitVec 32)
  /-- The fault-table entry it opened: slot and page (17:R394). -/
  fault   : Option (Nat × Nat)
  /-- Cause 0x30: the matrix fault of its troupe waits for the return (16:R381). -/
  matrix  : Bool
  /-- Cause 0x23: core and queue of the stalled copy entry (17:R397). -/
  copy    : Option (Nat × Nat)
  deriving DecidableEq, Repr

/-- A load or atomic of host or peer memory that a team waits for (12:R356). -/
structure RemoteOp where
  /-- A lane word, with its fields and opcode; otherwise a scalar word. -/
  word   : Instr
  /-- Physical address and bytes of each access, in lane order. -/
  places : List (Nat × Nat × Nat)
  lane   : Bool
  since  : Nat
  deriving DecidableEq, Repr

/-- A team, or a control core (02:R35; 01:R24). -/
structure Team where
  state    : TeamState
  wait     : Option Wait
  /-- Control core number; none for a team. -/
  ctrl     : Option Nat
  unit     : Nat
  slot     : Nat
  inc      : BitVec 12
  teamid   : Nat
  role     : Nat
  lanes    : Nat
  /-- Registers per lane (02:R32). -/
  budget   : Nat
  laneBase : W64
  pc       : W64
  s        : NMap W64
  /-- Lane registers: key 64 x lane + register. -/
  v        : NMap W64
  m        : NMap Mask
  stack    : List Mask
  b        : NMap Rec
  queue    : List Block
  run      : Option RunBlock
  pending  : List Pending
  sticky   : BitVec 3
  arithmask : BitVec 3
  repidx   : BitVec 6
  seed     : W64
  /-- A seed written since the last `LRUN` (04:R120). -/
  reseed   : Option W64
  /-- Random state of each lane (04:R120). -/
  rnd      : NMap W64
  hyp      : Nat
  attempt  : Nat
  prio     : Nat
  tile     : BitVec 48
  arg      : W64
  /-- Core of launch: the scratchpad tag (02:R58). -/
  tag      : Nat
  core     : Nat
  /-- Private block base (03:R72). -/
  priv     : Nat
  /-- Trap level: 0 outside handlers (16:R370, R375). -/
  level    : Nat
  /-- Physical address of the trap frame (16:R370). -/
  frame    : Nat
  aside    : Option Aside
  kill     : Option Kill
  /-- A reply-form command waits for its reply: destination and value (05:R139). -/
  reply    : Option (BitVec 5 × W64)
  remote   : Option RemoteOp
  /-- It waits inside an SX word, for room in a copy-engine queue or behind held spawns (02:R55). -/
  sxWait   : Bool
  /-- The reply that it waits for was discarded, since its incarnation is old (03:R108): its scalar stream goes no further. -/
  lost     : Bool
  /-- Back from a handler, or restored, it resumes a barrier word as `BAR.WAIT`: barrier and the phase of its arrival (16:R441). -/
  rewait   : Option (Nat × BitVec 32)
  /-- The effective mask of the lane word that it is blocked in (16:R371). -/
  waitMask : Mask
  /-- Copy-engine staging set (09:R279) and the most recent command: core, queue, number. -/
  ceLen    : W32
  ceQueue  : BitVec 2
  ce2d     : Bool
  ceRows   : BitVec 24
  ceSrc    : W64
  ceDst    : W64
  ceCb     : Option W64
  ceLast   : Option (Nat × Nat × BitVec 32)
  /-- Tile-walker staged extents (09:R286). -/
  twDim    : NMap Nat
  /-- Clock since which it is ready, or blocked (11:R333, R339). -/
  since    : Nat
  /-- The issue slot it holds (02:R52; 11:R332). -/
  holding  : Option Nat
  /-- The datapath whose slot it last held (06:R172). -/
  lastSlot : Nat
  /-- Tick of the last acquire at troupe scope or wider (08:R238). -/
  acquired : Nat
  /-- Join of the stamps of the values its loads returned (10:R312). -/
  seen     : Stamp
  /-- The greatest `%time` it has read (06:R183). -/
  timeSeen : Nat
  deadline : Option Nat
  /-- Its deadline has passed: the next run boundary is a blocking point (11:R340). -/
  expired  : Bool
  /-- Partition of a control core; none for the Stage Manager. -/
  part     : Option Nat
  deriving DecidableEq, Repr

/-! ## Troupes and tasks (02:R44 to R51; 09:R262) -/

/-- A barrier (08:R247): participants and arrivals, bit 16 the sequencer, and the phase count. -/
structure Barrier where
  members : BitVec 17
  arrived : BitVec 17
  phase   : BitVec 32
  deriving DecidableEq, Repr

/-- The kinds of a posted pass (09:R264). -/
inductive PassKind where
  | mma | msp | mldb
  deriving DecidableEq, Repr

/-- B as a pass uses it: which elements of A it multiplies, and the elements of each column, with the block types of a Q4 pass
(09:R268 to R272). -/
structure BSide where
  gather : Option (List Nat)
  cols   : List (List Nat)
  scales : List Nat
  deriving DecidableEq, Repr

/-- A pass in the reservation table, with the registers captured when it was posted (09:R264; 11:R337). -/
structure Pass where
  unit   : Nat
  kind   : PassKind
  f      : MtxF
  aBase  : W64
  aStep  : W64
  bBase  : W64
  bStep  : W64
  xBase  : W64
  xStep  : W64
  yBase  : W64
  yStep  : W64
  posted : Nat
  /-- Grants to other requests since it was posted. -/
  passed : Nat
  /-- First row still to form (16:R381). -/
  row    : Nat
  /-- The whole increment so far for the checksum of an integer pass (09:R276): a row differs; the differences of the columns. -/
  differs : Bool
  cols   : NMap Int
  /-- The same of a floating-point pass: the sum and the bits of the magnitudes of its products, in units of 2^-320; a cell's increment is not
  the exact sum of its products, or is no number. -/
  mag     : Nat
  bits    : Nat
  inexact : Bool
  /-- Its B operand once read: later stores do not change the pass (09:R264). -/
  bside  : Option BSide
  deriving DecidableEq, Repr

/-- The stationary B operand (09:R268): its type, count, block length and the 128 vectors of its bytes. -/
structure HeldB where
  tb   : BitVec 4
  k    : BitVec 12
  bsb  : BitVec 2
  vecs : List (List Byte)
  deriving DecidableEq, Repr

/-- A matrix operand fault waiting for delivery or for the handler's return (16:R381). -/
structure MtxFault where
  /-- The pass, or none for `MACLD` and `MACST`. -/
  pass      : Option Pass
  row       : Nat
  delivered : Bool
  deriving DecidableEq, Repr

/-- The uniform sequencer of a troupe (09:R262). -/
structure Sequencer where
  pc      : W64
  /-- The register image of 09:R263 has been read. -/
  loaded  : Bool
  a       : NMap W64
  d       : NMap W64
  c       : NMap (BitVec 12)
  p0      : NMap W32
  p1      : NMap W32
  held    : Option HeldB
  te      : BitVec 6
  mrow    : Nat
  /-- Blocked in `MBAR`: barrier and phase. -/
  wait    : Option (Nat × BitVec 32)
  /-- It has waited in `MBAR`, and acquires before its next word (09:R274). -/
  acquires : Bool
  /-- Row from which a faulted `MACLD` or `MACST` resumes. -/
  row     : Nat
  fault   : Option MtxFault
  /-- `MEND` has executed, or the stream failed. -/
  done    : Bool
  deriving DecidableEq, Repr

/-- How a unit ends when not by its own exit (16:R375, R380; 17:R409; 19:R417). -/
inductive Ending where
  | levelTwo (cause : Nat)
  | matrix (cause : Nat)
  | refuted
  | context
  | poison
  deriving DecidableEq, Repr

/-- A troupe or task that has been placed (02:R44, R49). -/
structure LUnit where
  launch  : Launch
  slot    : Nat
  inc     : BitVec 12
  queue   : Nat
  seq     : BitVec 22
  attempt : Nat
  teams   : List Nat
  cores   : List Nat
  cluster : Nat
  /-- Power tokens held on the island (11:R342). -/
  tokens  : Nat
  island  : Nat
  bars    : NMap Barrier
  acc     : List Nat
  seqr    : Option Sequencer
  exitVal : BitVec 48
  ending  : Option Ending
  /-- Completed, and its resources freed (02:R50, R51). -/
  complete : Bool
  /-- Private blocks of its teams (03:R72). -/
  blocks  : List Nat
  /-- It consumed poisoned data (19:R416). -/
  poisoned : Bool
  /-- The audit that marked it, and the audit whose replay it is (19:R425). -/
  audit   : Option Nat
  replay  : Option Nat
  deriving DecidableEq, Repr

/-! ## Engines -/

/-- What a copy-engine entry does (09:R280, R284). -/
inductive CeKind where
  | copy | fill (pattern : W64) | join (mask : BitVec 4) (id : Nat)
  deriving DecidableEq, Repr

/-- Progress of a copy-engine entry (09:R281; 17:R397): a stalled one knows the faulting address, and whether a team or a control core
has been told. -/
inductive CeState where
  | waiting | active | stalled (delivered : Bool) (va : Nat) | failed (code : Nat)
  deriving DecidableEq, Repr

/-- A completion action of `CE.FUT` (09:R285). -/
structure CeAction where
  addr    : W64
  counter : Bool
  value   : BitVec 48
  deriving DecidableEq, Repr

/-- An entry of a copy-engine queue (09:R279 to R285). -/
structure CeEntry where
  kind    : CeKind
  seq     : BitVec 32
  dst     : W64
  src     : W64
  len     : Nat
  rows    : Nat
  srcStep : W64
  dstStep : W64
  twoD    : Bool
  cb      : Option W64
  /-- It has taken a slot of its circular buffer; `dst` is then that slot (09:R283). -/
  taken   : Bool
  /-- It has started, and holds its token until it completes (11:R343). -/
  begun   : Bool
  tags    : Tags
  state   : CeState
  /-- Bytes performed. -/
  bytes   : Nat
  actions : List CeAction
  deriving DecidableEq, Repr

/-- One of the 4 queues of a core's copy engine (09:R279). -/
structure CeQueue where
  entries : List CeEntry
  next    : BitVec 32
  done    : BitVec 32
  /-- An entry has completed since reset (09:R285). -/
  any     : Bool
  /-- Completed entries that failed, by number, with the code of 17:R398: a later `CE.FUT` still fails its future. -/
  failed  : NMap Nat
  deriving DecidableEq, Repr

/-- A completion action of a copy command that has completed, still to be performed (09:R285; 14:R362). -/
structure LateAction where
  tags : Tags
  act  : CeAction
  /-- The code with which the command failed. -/
  code : Option Nat
  deriving DecidableEq, Repr

/-- A walk of a tile walker (09:R286). -/
structure Walk where
  unit    : Nat
  extents : List Nat
  given   : List Nat
  deriving DecidableEq, Repr

/-- A message to the footprint of a migrated team, at its old core (11:R341; 17:R407): a store through slot 7 at a scratchpad key, or
a halo push of a line. -/
structure FootMsg where
  team  : Nat
  slot  : Nat
  halo  : Bool
  key   : Nat
  bytes : NMap Byte
  deriving DecidableEq, Repr

/-- A migration in progress (11:R341). -/
structure Migration where
  team    : Nat
  old     : Nat
  new     : Nat
  copying : Bool
  waiting : List FootMsg
  /-- The clock of the team's first pass on the new core. -/
  firstPass : Option Nat
  /-- Forwarding has ended; messages to the old footprint are late (17:R407). -/
  ended   : Bool
  deriving DecidableEq, Repr

/-- An entry of a cluster's fault table (17:R394). -/
structure FaultEntry where
  slot    : Nat
  page    : Nat
  opener  : Nat
  t0      : Nat
  waiters : Nat
  kinds   : BitVec 4
  /-- The opener's word: fault address, pointer, lanes, record fields of detail B, lane bit, lane index. -/
  addr    : W64
  ptr     : W64
  lanes   : Mask
  detailB : W64
  lane    : Bool
  /-- It has vectored. -/
  taken   : Bool
  deriving DecidableEq, Repr

/-- A cluster (01:R17; 11:R337, R338; 17:R394; 19:R420). -/
structure Cluster where
  table       : List Pass
  current     : Option Pass
  green       : List Nat
  /-- Teams that stall for want of an entry of the green room, in the order of request, each with the lane word before which it waits. -/
  asks        : List (Nat × BitVec 26)
  faults      : List FaultEntry
  quarantined : Bool
  retired     : Bool
  /-- Clocks of the mismatches reported. -/
  mismatches  : List Nat
  deriving DecidableEq, Repr

/-- A core (11:R332, R334; 19:R427). -/
structure Core where
  /-- Slot-clocks of each queue in the current interval. -/
  usage    : NMap Nat
  interval : Nat
  retired  : Bool
  /-- Dispatch places nothing more on it (19:R427). -/
  closing  : Bool
  deriving DecidableEq, Repr

/-- An island (12:R359; 11:R342). -/
structure Island where
  step     : Nat
  limit    : Nat
  request  : Nat
  changing : Bool
  budget   : Nat
  spareUsed : Bool
  /-- How far its clock has fallen behind the fixed one, in 1/105 of a clock (01:R28). -/
  lag      : Nat
  deriving DecidableEq, Repr

/-- A UCIe module (19:R431, R435). -/
structure Module where
  crcErr     : BitVec 32
  retrain    : BitVec 16
  repaired   : BitVec 4
  width      : BitVec 2
  retraining : Bool
  /-- Receptions of one flit that failed in a row, replays included. -/
  fails      : Nat
  deriving DecidableEq, Repr

/-- End-to-end state of an ordered pair of dies (19:R433). -/
structure PairState where
  next     : BitVec 16
  /-- Numbered requests without an answer, kept for a resend. -/
  buffer   : List Req
  /-- The newest number received, and the numbers executed with their stored responses. -/
  newest   : BitVec 16
  executed : List (BitVec 16)
  deriving DecidableEq, Repr

/-! ## Partitions, audits, the outside -/

/-- A partition (12:R345, R357; 16:R370; 19:R421, R424). -/
structure Partition where
  islands   : List Nat
  ranges    : List (Nat × Nat)
  slots     : List Nat
  queues    : List Nat
  shareCeil : List Nat
  tokenCeil : NMap Nat
  ctrl      : Nat
  payload   : Nat
  entry     : Nat
  /-- Its image as verified: the digest of its payload, its security version; and what it is verified by: the floor, the digests of the
  owner's keys (12:R347, R348, R352). -/
  digest    : List Byte
  version   : Nat
  floor     : Nat
  keys      : List (List Byte)
  frameBase : Nat
  frames    : Nat
  framesUsed : List Nat
  saveBytes : Nat
  failBase  : Nat
  audit     : Option Nat
  audited   : Nat
  /-- Import and export tables: the 64 descriptor bytes of each valid entry (12:R357). -/
  imports   : NMap (List Byte)
  exports   : NMap (List Byte)
  /-- Its image runs. -/
  running   : Bool
  deriving DecidableEq, Repr

/-- An audit of a replayable task (19:R425). -/
structure Audit where
  unit     : Nat
  snapshot : List Byte
  sig      : W64
  replay   : Option Nat
  /-- Shadow buffer, keyed by virtual address. -/
  shadow   : NMap Byte
  /-- The sealed arenas that the replay has read, and whether one of them was dropped (19:R426). -/
  reads    : List Nat
  lost     : Bool
  closed   : Bool
  deriving DecidableEq, Repr

/-- An event posted to a control core or to the Stage Manager. -/
inductive Post where
  | resourceWait (part queue : Nat) (seq : BitVec 22) (res : Resource)
  | levelTwo (part team : Nat)
  | matrixAbandoned (part unit : Nat)
  | copyFault (part core queue : Nat)
  | versionRefused (part slot hyp : Nat)
  | entryHeld (part queue : Nat)
  | failure (part queue : Nat)
  | mismatch (cluster : Nat)
  | moduleDown (die module : Nat)
  | segmentDone (queue : Nat) (seg : W64)
  | segmentOverflow (queue : Nat)
  deriving DecidableEq, Repr

/-- A posted write to host or peer memory (12:R356; 17:R412). -/
structure PostedWrite where
  /-- Address of its line, and the bytes written by offset in it. -/
  line  : Nat
  bytes : NMap Byte
  slot : Nat
  inc  : BitVec 12
  unit : Nat
  team : Nat
  since : Nat
  lost : Bool
  deriving DecidableEq, Repr

/-- A load or atomic of host or peer memory whose team no longer waits for the answer (03:R88, R108). -/
structure Stray where
  slot  : Nat
  inc   : BitVec 12
  since : Nat
  deriving DecidableEq, Repr

/-- A quorum join that releases (09:R299): the steps of its release follow each other. -/
structure JoinRelease where
  /-- Its number: it stands for a team where its resolve and its fill name one. -/
  id   : Nat
  tags : Tags
  /-- Address and contents of its record. -/
  addr : Nat
  word : Nat
  /-- The step under way: 1 resolve, 2 kills, 3 fill, 4 release and decrement. -/
  step : Nat
  deriving DecidableEq, Repr

/-- Registers of the host port (12:R353, R354; 19:R436). -/
structure HostPort where
  boot      : Byte
  die       : Byte
  portDisc  : NMap W64
  bar2      : NMap W64
  /-- Status words of virtual functions: the boot code (19:R437). -/
  vfStatus  : NMap Nat
  recovery  : Bool
  /-- The recovery buffer of 64 MiB, by offset (19:R436). -/
  buffer    : NMap Byte
  linkGen   : BitVec 3
  linkWidth : BitVec 5
  cxl       : Bool
  portsUp   : Byte
  deriving DecidableEq, Repr

/-- What the host port or a peer was last answered. -/
inductive Answer where
  | nothing
  | data (bytes : List Byte)
  | performed
  /-- The RoCE remote access error (12:R357). -/
  | accessError
  deriving DecidableEq, Repr

/-- A line of an instruction cache (01:R15, R16). -/
structure CodeLine where
  core : Nat
  /-- Of the lane-word cache; otherwise of the scalar one. -/
  lane : Bool
  /-- Context slot, translation generation and hypothesis under which it was fetched; slot 64 of a supervisor-window address. -/
  slot : Nat
  tgen : BitVec 16
  hyp  : Nat
  /-- Virtual, or physical, address of its first byte. -/
  at_  : Nat
  data : List Byte
  deriving DecidableEq, Repr

/-- A placement unit kept for the head entry of a queue (11:R328). A unit below 256 is a core; 256 + c is cluster c. -/
structure Reserved where
  unit  : Nat
  queue : Nat
  deriving DecidableEq, Repr

/-- The device. -/
structure State where
  /-- The model's own: whose step is next (log 1). -/
  turn : Turn
  /-- The model's own: the counter free values are drawn with (log 1). -/
  tick : Nat
  /-- The count of the fixed 1.05 GHz clock (02:R43, R183). -/
  clock : Nat
  mem : Memory
  /-- Stamps of the bytes of ordinary lines, by key (10:R312). -/
  stamps : NMap Stamp
  /-- Sequence number of each home slice: key 32 x die + slice (03:R82). -/
  slices : NMap (BitVec 32)
  versions : List Version
  l1 : List L1Line
  icache : List CodeLine
  replicas : List Replica
  home : NMap HomeLine
  flight : List Req
  /-- Requests that were executed and are sent again, since their module retrains (19:R434). -/
  resends : List Req
  acks : List Ack
  pushes : List Push
  notices : List Notice
  /-- Vector clock of each die (10:R311). -/
  vclock : NMap Stamp
  tlb : List TlbEntry
  /-- Poisoned granules of memory by key / 32, of lane registers, of accumulator cells (19:R415). -/
  poison : List ErrPlace
  corrected : Nat
  /-- The counters of 17:R410, key 6 x slot + k. -/
  drops : NMap W64
  contexts : NMap Context
  queues : NMap Queue
  teams : List Team
  units : List LUnit
  cores : NMap Core
  clusters : NMap Cluster
  /-- Accumulator cells: key (8 x cluster + slot) x 16384 + 128 x i + j (01:R17). -/
  acc : NMap W32
  /-- Copy-engine queues: key 4 x core + queue. -/
  ce : NMap CeQueue
  /-- Actions of `CE.FUT` on commands that had completed, in the order of their issue. -/
  lateActions : List LateAction
  /-- Walks: key 8 x core + handle. -/
  walks : NMap Walk
  migrations : List Migration
  /-- Messages that reach an old core after forwarding ended (17:R407). -/
  late : List FootMsg
  reserved : List Reserved
  islands : NMap Island
  modules : NMap Module
  pairs : NMap PairState
  parts : NMap Partition
  /-- Pages of HBM outside the device pool: taken by `PG.UNMAP` without a return to it; base and bytes (09:R303). -/
  withheld : List (Nat × Nat)
  /-- HBM channels that were retired, as stack and channel (19:R430). -/
  channels : List (Nat × Nat)
  audits : List Audit
  posts : List Post
  posted : List PostedWrite
  stray : List Stray
  joins : List JoinRelease
  port : HostPort
  /-- The model's own: what the host port or a peer was last answered (log 29). -/
  hostData : Answer
  /-- Security version of the running Stage Manager image, and the digest of its payload (12:R352). -/
  stageVersion : Nat
  stageDigest : List Byte
  deriving DecidableEq, Repr

/-! ## Stops -/

/-- Where the machine stops because the manual gives no effect. -/
inductive Fault where
  /-- Raised by a control core that meets a trap cause: the manual describes handlers of teams only (16:R370). Safe: the
  machine stops where the hardware would go on in a way the manual does not give (log 16). -/
  | controlCoreTrap (cause : Nat)
  deriving DecidableEq, Repr

/-- Where the model gives no meaning. -/
inductive Refusal where
  /-- Raised by an arm of `exec` whose instruction has no meaning yet. Safe: nothing is claimed of it. -/
  | notModelled (mnemonic : String)
  deriving DecidableEq, Repr

/-! ## Reset -/

/-- Registers and memory of a control core at reset: the manual gives no value, the model takes 0 (DESIGN CHOICE, log 6). -/
def Team.atReset : Team where
  state := .ready
  wait := none
  ctrl := none
  unit := 0
  slot := 0
  inc := 0
  teamid := 0
  role := 0
  lanes := 0
  budget := 0
  laneBase := 0
  pc := 0
  s := []
  v := []
  m := []
  stack := []
  b := []
  queue := []
  run := none
  pending := []
  sticky := 0
  arithmask := 0
  repidx := 0
  seed := 0
  reseed := none
  rnd := []
  hyp := 0
  attempt := 0
  prio := 0
  tile := 0
  arg := 0
  tag := 0
  core := 0
  priv := 0
  level := 0
  frame := 0
  aside := none
  kill := none
  reply := none
  remote := none
  sxWait := false
  lost := false
  rewait := none
  waitMask := 0
  ceLen := 0
  ceQueue := 0
  ce2d := false
  ceRows := 0
  ceSrc := 0
  ceDst := 0
  ceCb := none
  ceLast := none
  twDim := []
  since := 0
  holding := none
  lastSlot := 0
  acquired := 0
  seen := []
  timeSeen := 0
  deadline := none
  expired := false
  part := none

/-- The unit of a control core: none has this number. Its slot number, 64, and its core number, 256 + k, are no context slot and
no device core either. -/
def noUnit : Nat := 2 ^ 40

/-- Control core k at reset: held, until the boot ROM or the Stage Manager starts it (12:R345, R348). -/
def Team.control (k : Nat) : Team := { Team.atReset with ctrl := some k, unit := noUnit, slot := 64, core := 256 + k, state := .blocked }

/-- The device right after reset (12:R348): the boot ROM is about to check the Stage Manager image; the incarnations are 0
(03:R106); no context, queue, team or partition exists. Values the manual does not give are named in log 6. -/
def State.reset : State where
  turn := .event (.deviceReset ⟨[], 0, none⟩)
  tick := 0
  clock := 0
  mem := []
  stamps := []
  slices := []
  versions := []
  l1 := []
  icache := []
  replicas := []
  home := []
  flight := []
  resends := []
  acks := []
  pushes := []
  notices := []
  vclock := []
  tlb := []
  poison := []
  corrected := 0
  drops := []
  contexts := []
  queues := []
  teams := [Team.control 0, Team.control 1, Team.control 2, Team.control 3,
            Team.control 4, Team.control 5, Team.control 6, Team.control 7]
  units := []
  cores := []
  clusters := []
  acc := []
  ce := []
  lateActions := []
  walks := []
  migrations := []
  late := []
  reserved := []
  islands := []
  modules := []
  pairs := []
  parts := []
  withheld := []
  channels := []
  audits := []
  posts := []
  posted := []
  stray := []
  joins := []
  port := { boot := 0, die := 0, portDisc := [], bar2 := [], vfStatus := [], recovery := false, buffer := [], linkGen := 0, linkWidth := 0,
            cxl := false, portsUp := 0 }
  hostData := .nothing
  stageVersion := 0
  stageDigest := []

end Sys2Proof.Machine
end

