-- ==== Sys2Proof/Machine/Home.lean ====
section
/-!
DEFINITION. Memory as the home slices, caches and replicas hold it: translation, versions, lines, posted stores, their
arrival, and the vector clocks (03:R64 to R111; 10:R305 to R319).
-/
namespace Sys2Proof.Machine

/-! ## Numbers -/

/-- Serial-number comparison of 32-bit counters: `a` is `b` or newer (10:R311). -/
def serialGe (a b : BitVec 32) : Bool := (a - b).toNat < 2 ^ 31

/-- `a` is newer than `b` (03:R83). -/
def serialGt (a b : BitVec 32) : Bool := serialGe a b && a != b

/-- Entry `e` of a vector clock or stamp; the empty stamp reads 0 (10:R312). -/
def clockAt (c : Stamp) (e : Nat) : BitVec 32 := c.getD e 0

/-- The entrywise newer of two stamps. -/
def joinStamp (a b : Stamp) : Stamp :=
  if a = [] then b else if b = [] then a else
  (List.range 4).map fun e => if serialGe (clockAt a e) (clockAt b e) then clockAt a e else clockAt b e

/-- Clock `c` covers stamp `st`; the empty one asks nothing (10:R312). -/
def covers (c st : Stamp) : Bool := st.isEmpty || (List.range 4).all fun e => serialGe (clockAt c e) (clockAt st e)

/-- Rounds `x` up to a multiple of `a` (03:R90). -/
def alignUp (x a : Nat) : Nat := (x + a - 1) / a * a

/-- The first number that meets `ok` among the `f` numbers from `n` on. -/
def firstFrom (ok : Nat → Bool) : Nat → Nat → Option Nat
  | 0, _ => none
  | f + 1, n => if ok n then some n else firstFrom ok f (n + 1)

/-! ## Places -/

/-- First scratchpad key of core `c`. -/
def padBase (c : Nat) : Nat := 2 ^ 56 + c * 2 ^ 19

/-- Class of a physical address: bits [55:54] (12:R346). -/
def physClass (pa : Nat) : Nat := pa / 2 ^ 54 % 4

/-- Bytes of HBM of one die: two stacks of 36 GiB (01:R22). -/
def dieBytes : Nat := 72 * 2 ^ 30

/-- DESIGN CHOICE (log 12). The die whose stacks hold a class 00 address. -/
def dieOfPhys (pa : Nat) : Nat := pa / dieBytes % 4

/-- The home slice of a line within its die: PA[16:12] XOR PA[21:17] (03:R81). -/
def sliceOf (pa : Nat) : Nat := Nat.xor (pa / 2 ^ 12 % 32) (pa / 2 ^ 17 % 32)

/-- The L1 of a core among the units that apply a resolve (03:R104). -/
def l1Unit (core : Nat) : Nat := 128 + core

/-- Die of a core (01:R13). Control core k is numbered 256 + k here and stands on die k / 2: two on each die, number 0 on die 0
(01:R24); which two of the others share a die is the model's choice (DESIGN CHOICE, log 69). -/
def dieOfCore (c : Nat) : Nat := if c < 256 then c / 64 else (c - 256) / 2

/-- Cluster of a core, 0 to 63 on the device (01:R13). -/
def clusterOfCore (c : Nat) : Nat := c / 4

/-- Island of a core, 4 x die + island (01:R26). -/
def islandOfCore (c : Nat) : Nat := c / 16

/-! ## Accessors -/

/-- A slot that no context was ever given. -/
def Context.free : Context where
  live := false
  inc := 0
  oldest := 0
  privSize := 0
  privBase := 0
  privLen := 0
  privUsed := []
  homeDie := 0
  ventBase := 0
  ventSize := 0
  arenas := []
  hyps := []
  resolves := []
  pages := []
  tgen := 0
  sweepLow := false
  sweepHigh := false
  tiles := []
  grants := []
  freeing := false
  reclaimed := true
  reclaiming := false

/-- A cluster with nothing in it. -/
def Cluster.empty : Cluster := ⟨[], none, [], [], [], false, false, []⟩
/-- A core with nothing in it. -/
def Core.empty : Core := ⟨[], 0, false, false⟩
/-- An island at reset (11:R342). -/
def Island.atReset : Island := ⟨0, 0, 0, false, 64, false, 0⟩
/-- A copy-engine queue at reset (09:R279). -/
def CeQueue.empty : CeQueue := ⟨[], 0, 0xFFFFFFFF, false, []⟩
/-- A module at reset (19:R435). -/
def Module.atReset : Module := ⟨0, 0, 0, 0, false, 0⟩
/-- A pair of dies at reset (19:R433). -/
def PairState.atReset : PairState := ⟨0, [], 0, []⟩
/-- A line of which the home holds no tags. -/
def HomeLine.fresh : HomeLine := ⟨0, 0, 0, false, false⟩

/-- Context slot `n`. -/
def State.ctx (s : State) (n : Nat) : Context := (NMap.find? s.contexts n).getD Context.free
/-- Sets context slot `n`. -/
def State.setCtx (s : State) (n : Nat) (c : Context) : State := { s with contexts := NMap.insert s.contexts n c }
/-- Sets team `t`. -/
def State.setTeam (s : State) (t : Nat) (tm : Team) : State := { s with teams := s.teams.set t tm }
/-- Unit `u`. -/
def State.unit? (s : State) (u : Nat) : Option LUnit := s.units[u]?
/-- Sets unit `u`. -/
def State.setUnit (s : State) (u : Nat) (x : LUnit) : State := { s with units := s.units.set u x }
/-- Cluster `c`, 0 to 63. -/
def State.cluster (s : State) (c : Nat) : Cluster := (NMap.find? s.clusters c).getD Cluster.empty
/-- Sets cluster `c`. -/
def State.setCluster (s : State) (c : Nat) (x : Cluster) : State := { s with clusters := NMap.insert s.clusters c x }
/-- Core `c`, 0 to 255. -/
def State.core (s : State) (c : Nat) : Core := (NMap.find? s.cores c).getD Core.empty
/-- Sets core `c`. -/
def State.setCore (s : State) (c : Nat) (x : Core) : State := { s with cores := NMap.insert s.cores c x }
/-- Island `i`, 0 to 15. -/
def State.island (s : State) (i : Nat) : Island := (NMap.find? s.islands i).getD Island.atReset
/-- Sets island `i`. -/
def State.setIsland (s : State) (i : Nat) (x : Island) : State := { s with islands := NMap.insert s.islands i x }
/-- Copy-engine queue `q` of core `c`. -/
def State.ceq (s : State) (c q : Nat) : CeQueue := (NMap.find? s.ce (4 * c + q)).getD CeQueue.empty
/-- Sets copy-engine queue `q` of core `c`. -/
def State.setCeq (s : State) (c q : Nat) (x : CeQueue) : State := { s with ce := NMap.insert s.ce (4 * c + q) x }
/-- Module `m` of die `d` (19:R435). -/
def State.module (s : State) (d m : Nat) : Module := (NMap.find? s.modules (18 * d + m)).getD Module.atReset
/-- Sets module `m` of die `d`. -/
def State.setModule (s : State) (d m : Nat) (x : Module) : State :=
  { s with modules := NMap.insert s.modules (18 * d + m) x }
/-- The ordered pair of dies `a`, `b` (19:R433). -/
def State.pair (s : State) (a b : Nat) : PairState := (NMap.find? s.pairs (4 * a + b)).getD PairState.atReset
/-- Sets the ordered pair of dies `a`, `b`. -/
def State.setPair (s : State) (a b : Nat) (x : PairState) : State := { s with pairs := NMap.insert s.pairs (4 * a + b) x }
/-- Sets queue `q`. -/
def State.setQueue (s : State) (q : Nat) (x : Queue) : State := { s with queues := NMap.insert s.queues q x }
/-- The partition that holds context slot `n`, with its number. -/
def State.partOf (s : State) (n : Nat) : Option (Nat × Partition) := List.find? (fun p : Nat × Partition => p.2.slots.contains n) s.parts
/-- The partition that holds queue `q`, with its number. -/
def State.partOfQueue (s : State) (q : Nat) : Option (Nat × Partition) := List.find? (fun p : Nat × Partition => p.2.queues.contains q) s.parts
/-- Vector clock of die `d` (10:R311). -/
def State.vc (s : State) (d : Nat) : Stamp := (NMap.find? s.vclock d).getD [0, 0, 0, 0]
/-- Appends an event for a control core. -/
def State.post (s : State) (p : Post) : State := { s with posts := s.posts ++ [p] }
/-- Clocks of the island of a core so far; a control core and what lies outside the islands count the fixed clock (01:R27, R28). -/
def State.islandClock (s : State) (core : Nat) : Nat := s.clock - ((s.island (islandOfCore core)).lag + 104) / 105

/-- The home die of a physical address: that of a page that maps it, else the die whose stacks hold it (03:R64, R81; log 12). -/
def State.homeDie (s : State) (pa : Nat) : Nat :=
  match s.contexts.findSome? fun c => List.find? (fun e : Nat × Page => e.2.phys ≤ pa && pa < e.2.phys + (if e.2.big then 2097152 else 65536)) c.2.pages with
  | some e => e.2.home
  | none => dieOfPhys pa

/-- The home slice of a class 00 address on the device: 32 x die + slice (01:R19; 03:R81). -/
def State.sliceUnit (s : State) (pa : Nat) : Nat := 32 * s.homeDie pa + sliceOf pa

/-- Free choice number `i` of this step. -/
def State.draw (s : State) (i : Nat) : Nat := s.tick * 2 ^ 32 + i

/-- Adds 1 to a counter of 17:R410: 0 INCDROP, 1 GENDROP, 2 HYPDROP, 3 SEALDROP, 4 LATEDROP, 5 PEERLOST. -/
def State.countDrop (s : State) (slot k : Nat) : State :=
  { s with drops := NMap.put s.drops 0 (6 * slot + k) (NMap.get s.drops 0 (6 * slot + k) + 1) }

/-! ## Bytes of memory -/

/-- The byte at a key; an unlisted key reads 0 (log 5). -/
def State.byte (s : State) (k : Nat) : Byte := NMap.get s.mem 0 k

/-- `n` bytes from key `k` up. -/
def State.bytes (s : State) (k n : Nat) : List Byte := (List.range n).map fun i => s.byte (k + i)

/-- Writes bytes from key `k` up. -/
def writeBytes (m : Memory) (k : Nat) : List Byte → Memory
  | [] => m
  | b :: r => writeBytes (NMap.put m 0 k b) (k + 1) r

/-- Writes bytes straight into memory (a scratchpad, or what hardware writes with nothing cached). -/
def State.poke (s : State) (k : Nat) (bs : List Byte) : State := { s with mem := writeBytes s.mem k bs }

/-! ## Lines (03:R85; 10:R312) -/

/-- The line of a key. -/
def lineOf (k : Nat) : Nat := k / 128 * 128

/-- Bytes that stand at key `k`, by offset in its line. -/
def lineBytes (k : Nat) (bs : List Byte) : NMap Byte := bs.mapIdx fun i b => (k % 128 + i, b)

/-- The bits of some bytes of a line. -/
def bytesMask (bs : NMap Byte) : BitVec 128 := List.foldl (fun (m : BitVec 128) e => m ||| BitVec.ofNat 128 (2 ^ e.1)) 0 bs

/-- A line that reads 0, as the answer to a dropped load does (17:R400). -/
def Line.blank : Line := ⟨List.replicate 128 0, []⟩

/-- A line with bytes written by one store. -/
def Line.write (l : Line) (bs : NMap Byte) (st : Stamp) : Line :=
  ⟨l.data.mapIdx fun i b => NMap.get bs b i, List.foldl (fun m e => NMap.put m [] e.1 st) l.stamps bs⟩

/-- A line with the bytes of `w` where a mask names them. -/
def Line.merge (l w : Line) (mask : BitVec 128) : Line :=
  ⟨l.data.mapIdx fun i b => if mask.getLsbD i then w.data.getD i 0 else b,
   (List.range 128).foldl (fun m i => if mask.getLsbD i then NMap.put m [] i (NMap.get w.stamps [] i) else m) l.stamps⟩

/-- `n` bytes of a line from offset `o`. -/
def Line.slice (l : Line) (o n : Nat) : List Byte := (l.data.drop o).take n

/-- The join of the stamps of `n` bytes of a line from offset `o`. -/
def Line.stampOf (l : Line) (o n : Nat) : Stamp := (List.range n).foldl (fun st i => joinStamp st (NMap.get l.stamps [] (o + i))) []

/-- The bytes of a line that a mask names, by offset. -/
def Line.masked (l : Line) (mask : BitVec 128) : NMap Byte :=
  ((List.range 128).filter fun i => mask.getLsbD i).map fun i => (i, l.data.getD i 0)

/-- The ordinary line at key `k0`. -/
def State.lineAt (s : State) (k0 : Nat) : Line :=
  ⟨s.bytes k0 128, (List.filter (fun e : Nat × Stamp => k0 ≤ e.1 && e.1 < k0 + 128) s.stamps).map fun e => (e.1 - k0, e.2)⟩

/-! ## Poison (19:R415) -/

/-- Is a granule of the bytes [k, k + n) poisoned? -/
def State.poisoned (s : State) (k n : Nat) : Bool :=
  s.poison.any fun p => match p with
    | .granule g => g * 32 < k + n && k < g * 32 + 32 && 0 < n
    | _ => false

/-- A store of bytes [k, k + n) clears the marks of the granules it writes whole (19:R415). -/
def State.clearPoison (s : State) (k n : Nat) : State :=
  { s with poison := s.poison.filter fun p => match p with
    | .granule g => !(k ≤ g * 32 && g * 32 + 32 ≤ k + n)
    | _ => true }

/-- Places a mark of poison. -/
def State.markPoison (s : State) (p : ErrPlace) : State := if s.poison.contains p then s else { s with poison := s.poison ++ [p] }

/-- The granules of a line that some bytes of it make up whole. -/
def wholeGranules (bs : NMap Byte) : BitVec 4 :=
  (List.range 4).foldl (fun m i => if (List.range 32).all fun j => (NMap.find? bs (32 * i + j)).isSome then m ||| BitVec.ofNat 4 (2 ^ i) else m) 0

/-- Writes bytes of one store into the ordinary line at `k0`; granules written whole lose their marks. -/
def State.pokeLine (s : State) (k0 : Nat) (bs : NMap Byte) (st : Stamp) : State :=
  { s with
    mem := List.foldl (fun m e => NMap.put m 0 (k0 + e.1) e.2) s.mem bs
    stamps := List.foldl (fun m e => NMap.put m [] (k0 + e.1) st) s.stamps bs
    poison := s.poison.filter fun p => match p with
      | .granule g => !(k0 ≤ g * 32 && g * 32 < k0 + 128 && (List.range 32).all fun i => (NMap.find? bs (g * 32 - k0 + i)).isSome)
      | _ => true }

/-! ## Translation (03:R64, R65) -/

/-- The page of a virtual address: its entry, the number the entry stands at, and the physical address. -/
def Context.translate (c : Context) (va : Nat) : Option (Page × Nat × Nat) :=
  match NMap.find? c.pages (va / 65536) with
  | some p => some (p, va / 65536, p.phys + (if p.big then va % 2097152 else va % 65536))
  | none =>
    match NMap.find? c.pages (va / 2097152 * 32) with
    | some p => if p.big then some (p, va / 2097152 * 32, p.phys + va % 2097152) else none
    | none => none

/-- Bytes of a page. -/
def Page.size (p : Page) : Nat := if p.big then 2097152 else 65536

/-- The virtual address of a line of a context, by its physical address. -/
def Context.vaOf (c : Context) (key : Nat) : Option Nat :=
  (List.find? (fun e : Nat × Page => e.2.phys ≤ key && key < e.2.phys + e.2.size) c.pages).map fun e => e.1 * 65536 + (key - e.2.phys)

/-- A lookup that missed fills an entry with the current tags (03:R65). -/
def State.touchTlb (s : State) (slot page : Nat) : State :=
  let e : TlbEntry := ⟨slot, (s.ctx slot).tgen, page⟩
  if s.tlb.contains e then s else { s with tlb := s.tlb ++ [e] }

/-! ## Hypotheses (03:R98 to R104) -/

/-- Hypothesis `h` of a context; id 0 is the root, always open. -/
def Context.hyp (c : Context) (h : Nat) : Hyp :=
  if h = 0 then ⟨.opened, 0, 0⟩ else (NMap.find? c.hyps h).getD ⟨.free, 0, 0⟩

/-- The id that loads and stores tagged `h` act under: the nearest open ancestor of a confirmed id (03:R102). -/
def Context.actsAs (c : Context) : Nat → Nat → Nat
  | 0, h => h
  | n + 1, h => if (c.hyp h).state = .confirmed then c.actsAs n (c.hyp h).parent else h

/-- The id that `h` acts under. Depth is at most 8 (03:R98); confirmed ids add no more links than there are ids. -/
def Context.acting (c : Context) (h : Nat) : Nat := c.actsAs 256 h

/-- The path from an id to the root, the id first. -/
def Context.path (c : Context) : Nat → Nat → List Nat
  | 0, _ => [0]
  | n + 1, h => if h = 0 then [0] else h :: c.path n (c.hyp h).parent

/-- `h` is `a` or lies below it in the tree. -/
def Context.under (c : Context) (h a : Nat) : Bool := (c.path 256 h).contains a

/-- Is `h` refuted, or does it act under a refuted id (03:R87, R101)? -/
def Context.refuted (c : Context) (h : Nat) : Bool :=
  (c.path 256 h).any fun x => (c.hyp x).state = .refuted || (c.hyp x).state = .free

/-- The hypothesis tree as a unit knows it: without the resolves that it has not applied (03:R104). -/
def Context.atUnit (c : Context) (u : Nat) : Context :=
  { c with hyps := c.resolves.reverse.foldl (fun h r =>
      if r.pending.contains u then List.foldl (fun h e => NMap.insert h e.1 e.2) h r.old else h) c.hyps }

/-- A context as a unit knows it. -/
def State.ctxAt (s : State) (slot u : Nat) : Context := (s.ctx slot).atUnit u

/-- The version of a line that a load under acting id `g` sees: the deepest on the path (03:R100). -/
def State.versionFor (s : State) (slot g key : Nat) : Option Version :=
  ((s.ctxAt slot (s.sliceUnit key)).path 256 g).findSome? fun h =>
    if h = 0 then none else s.versions.find? fun v => v.slot = slot && v.hyp = h && v.key = lineOf key

/-- The line of `key` as the home holds it for acting id `g`. -/
def State.homeSees (s : State) (slot g key : Nat) : Line :=
  match s.versionFor slot g key with
  | some v => v.line
  | none => s.lineAt (lineOf key)

/-- The poisoned granules of the line at `key` as the home holds it for acting id `g` (19:R415). -/
def State.badFor (s : State) (slot g key : Nat) : BitVec 4 :=
  match s.versionFor slot g key with
  | some v => v.bad
  | none => (List.range 4).foldl (fun m i => if s.poisoned (lineOf key + 32 * i) 32 then m ||| BitVec.ofNat 4 (2 ^ i) else m) 0

/-- Is a granule of the bytes [key, key + n), within one line, poisoned for acting id `g`? -/
def State.poisonedFor (s : State) (slot g key n : Nat) : Bool :=
  match s.versionFor slot g key with
  | some v => (List.range 4).any fun i => v.bad.getLsbD i && i * 32 < key % 128 + n && key % 128 < i * 32 + 32 && 0 < n
  | none => s.poisoned key n

/-- The `n` bytes at `key`, within one line, as the home holds them for acting id `g`. -/
def State.homeBytes (s : State) (slot g key n : Nat) : List Byte :=
  match s.versionFor slot g key with
  | some v => v.line.slice (key % 128) n
  | none => s.bytes key n

/-- What the home keeps of the line at `key`. -/
def State.homeLine (s : State) (key : Nat) : HomeLine := (NMap.find? s.home (key / 128)).getD HomeLine.fresh

/-- The sequence number of a home slice (03:R82). -/
def State.slice (s : State) (u : Nat) : BitVec 32 := NMap.get s.slices 0 u

/-- A die's presence bit for a line is cleared (03:R83). -/
def State.clearPresence (s : State) (key d : Nat) : State :=
  { s with home := NMap.adjust s.home (key / 128) fun h => { h with presence := h.presence &&& ~~~BitVec.ofNat 4 (2 ^ d) } }

/-- Replicas are discarded or evicted: their dies' presence bits are cleared (03:R83). -/
def State.evictReplicas (s : State) (p : Replica → Bool) : State :=
  (s.replicas.filter p).foldl (fun s r => s.clearPresence r.key r.die) { s with replicas := s.replicas.filter fun r => !p r }

/-! ## Checks of a request at its home slice (03:R87, R108) -/

/-- Why a request is not performed there. -/
inductive Drop where
  | inc | gen | hyp
  deriving DecidableEq, Repr

/-- The counter of 17:R410 that counts it. -/
def Drop.counter : Drop → Nat
  | .inc => 0
  | .gen => 1
  | .hyp => 2

/-- The arena `a` of a context; one that was never created is free with generation 0. -/
def Context.arena (c : Context) (a : Nat) : Arena :=
  (NMap.find? c.arenas a).getD ⟨.free, 0, 0, 0, 0, 0, 0, 0, 0, 0, false⟩

/-- The checks of 03:R87 at the home slice of a line. -/
def State.homeCheck (s : State) (tg : Tags) (key : Nat) : Option Drop :=
  let c := s.ctxAt tg.slot (s.sliceUnit key)
  if tg.inc ≠ c.inc then some .inc else
  if tg.phys then none else
  if (c.arena tg.arena).gen ≠ tg.gen then some .gen else
  if c.refuted tg.hyp then some .hyp else none

/-- Is the arena of a request sealed at the home slices (03:R92)? -/
def State.sealedFor (s : State) (tg : Tags) : Bool := !tg.phys && ((s.ctx tg.slot).arena tg.arena).state = .sealed

/-- A store with these tags would be performed at its home now: it is neither dropped nor shut out by a seal. A store that is not is no
write that a load may return (10:R309; log 7). -/
def State.lands (s : State) (tg : Tags) (key : Nat) : Bool := (s.homeCheck tg key).isNone && !s.sealedFor tg

/-- The hypothesis that a request acts under at a unit (03:R102, R104; 12:R346). -/
def State.actingAt (s : State) (tg : Tags) (u : Nat) : Nat := if tg.phys then 0 else (s.ctxAt tg.slot u).acting tg.hyp

/-- The hypothesis that a request acts under at the home slice of a line. -/
def State.actingOf (s : State) (tg : Tags) (key : Nat) : Nat := s.actingAt tg (s.sliceUnit key)

/-! ## Links between dies (19:R431, R435, R438) -/

/-- The place of die `e` among the other dies of `d`, in ascending order. -/
def dieIndex (d e : Nat) : Nat := if e < d then e else e - 1

/-- Module k of die `d` toward die `e` (19:R435, R438). -/
def moduleTo (d e k : Nat) : Nat := 6 * dieIndex d e + k

/-- Receptions in a row after which a link retrains: of a flit and of 4 replays of it (19:R431). -/
def failLimit : Nat := 5

/-- A module carries traffic: it is not down, does not retrain, and need not. -/
def Module.up (m : Module) : Bool := m.width ≠ 2 && !m.retraining && m.fails < failLimit

/-- Link k between two dies is up at both ends. -/
def State.linkUp (s : State) (d e k : Nat) : Bool := (s.module d (moduleTo d e k)).up && (s.module e (moduleTo e d k)).up

/-- Some link between two dies is up. -/
def State.joined (s : State) (d e : Nat) : Bool := (List.range 6).any fun k => s.linkUp d e k

/-- The die through which traffic of a pair passes while every link of the pair is down: the lowest-numbered one with links up to both
(19:R434). -/
def State.relay (s : State) (d e : Nat) : Option Nat :=
  if s.joined d e then none else (List.range 4).find? fun r => r ≠ d && r ≠ e && s.joined d r && s.joined r e

/-- A message on link k may arrive: the link is up; or another die relays. -/
def State.linkOpen (s : State) (d e k : Nat) : Bool := s.linkUp d e k || (s.relay d e).isSome

/-- Serial comparison of sequence numbers (19:R433). -/
def seqNewer (a b : BitVec 16) : Bool := a ≠ b && (a - b).toNat < 2 ^ 15

/-- The number within the window of 256 up to the newest. -/
def inWindow (newest x : BitVec 16) : Bool := (newest - x).toNat < 256

/-- The destination notes that it has executed a request. -/
def PairState.executes (p : PairState) (x : BitVec 16) : PairState :=
  { p with executed := (p.executed ++ [x]).filter fun y => inWindow p.newest y || seqNewer y p.newest }

/-- Numbers from the oldest unanswered request of a pair up to the next one. -/
def PairState.span (p : PairState) : Nat := p.buffer.foldl (fun n r => max n (p.next - r.seq.getD p.next).toNat) 0

/-- Some link leads from one die to another, or another die relays (01:R22; 19:R438). -/
def State.leads (s : State) (d e : Nat) : Bool := d = e || (List.range 6).any fun k => s.linkOpen d e k

/-- A die reaches what another die holds: over some link, once every numbered request of the pair is answered, so that those of a word fit
into the window (19:R433; log 32). -/
def State.reaches (s : State) (d e : Nat) : Bool := s.leads d e && (d = e || (s.pair d e).buffer.isEmpty)

/-- A die can send one more request to another die: the window of 256 numbers has room (19:R433). -/
def State.reachesOne (s : State) (d e : Nat) : Bool := s.leads d e && (d = e || (s.pair d e).buffer.isEmpty || (s.pair d e).span < 256)

/-- A read, an atomic or an update push crosses from die `d` to die `e`: it is numbered, executed and answered in one step (19:R433; log 32). -/
def State.cross (s : State) (d e : Nat) : State :=
  if d = e then s else
  let p := s.pair d e
  s.setPair d e (({ p with next := p.next + 1, newest := p.next } : PairState).executes p.next)

/-! ## Vector clocks (10:R311) -/

/-- Entry `o` of a die's clock becomes that of a stamp. -/
def State.noteClock (s : State) (d o : Nat) (stamp : Stamp) : State :=
  { s with vclock := NMap.insert s.vclock d ((s.vc d).set o (clockAt stamp o)) }

/-- May die `d` apply or note what die `o` stamped (10:R311)? -/
def State.clockReady (s : State) (d o : Nat) (stamp : Stamp) : Bool :=
  clockAt (s.vc d) o == clockAt stamp o - 1 &&
    (List.range 4).all fun e => e == o || serialGe (clockAt (s.vc d) e) (clockAt stamp e)

/-- Issues a stamp on die `o`: its own entry advances (10:R311). -/
def State.issueStamp (s : State) (o : Nat) : State × Stamp :=
  let c := (s.vc o).set o (clockAt (s.vc o) o + 1)
  ({ s with vclock := NMap.insert s.vclock o c }, c)

/-- A die withholds new stores, here `n` of them, while any other die would lag more than 2^31 - 1 of its stores behind it (10:R311). -/
def State.mayStore (s : State) (o : Nat) (n : Nat := 1) : Bool :=
  (List.range 4).all fun d => d == o || (clockAt (s.vc o) o - clockAt (s.vc d) o).toNat + n ≤ 2 ^ 31 - 1

/-! ## Applying a write at the home -/

/-- Discards every version of a context tagged with one of the ids. -/
def State.dropVersions (s : State) (slot : Nat) (ids : List Nat) : State :=
  { s with versions := s.versions.filter fun v => !(v.slot = slot && ids.contains v.hyp) }

/-- The ids of a context that stand at `h` or below it. -/
def Context.subtree (c : Context) (h : Nat) : List Nat :=
  (c.hyps.filter fun e => c.under e.1 h).map fun e => e.1

/-- Marks the teams of a context that work under one of the ids (03:R103; 02:R55). -/
def State.orphan (s : State) (slot : Nat) (ids : List Nat) : State :=
  { s with teams := s.teams.map fun t =>
      if t.ctrl.isNone && t.slot = slot && ids.contains t.hyp && t.state ≠ .exited && t.kill.isNone then
        { t with kill := some .refuted }
      else t }

/-- Every L1 line of a context that was filled for a nonzero hypothesis is invalidated (03:R100). -/
def State.dropHypLines (s : State) (slot : Nat) : State :=
  { s with l1 := s.l1.filter fun l => !(l.slot = slot && l.hyp ≠ 0) }

/-- Refutes `h` with its descendants: versions are discarded, their teams are marked (03:R101, R103). -/
def State.refute (s : State) (slot h : Nat) : State :=
  let c := s.ctx slot
  let ids := (c.subtree h).filter fun i => (c.hyp i).state ≠ .free
  let c' := { c with hyps := c.hyps.map fun e => if ids.contains e.1 then (e.1, { e.2 with state := .refuted }) else e }
  (((s.setCtx slot c').dropVersions slot ids).orphan slot ids).dropHypLines slot

/-- Versions of a line beyond these lie in the vent area (03:R99). -/
def sliceVersions : Nat := 4

/-- Room for one more version of a line: in its L2 set, or in the vent area; and where it goes (03:R99; 17:R406). -/
def State.versionRoom (s : State) (slot key : Nat) : Option Bool :=
  if (s.versions.filter fun v => v.key = lineOf key && !v.vent).length < sliceVersions then some false
  else if ((s.versions.filter fun v => v.slot = slot && v.vent).length + 1) * Config.ventEntry ≤ (s.ctx slot).ventSize
  then some true else none

/-- A byte of memory that no store changes: the fields of a failure record's header that are read-only (00:R9, R10; 19:R421). -/
def State.readOnlyByte (s : State) (k : Nat) : Bool :=
  List.any s.parts fun p : Nat × Partition => p.2.failBase ≤ k && k < p.2.failBase + 2097152 &&
    let o := (k - p.2.failBase) % 2048
    o < 0x40 && !(8 ≤ o && o < 12)

/-- What of a store may change memory. -/
def State.writable (s : State) (k0 : Nat) (bytes : NMap Byte) : NMap Byte :=
  List.filter (fun e : Nat × Byte => !s.readOnlyByte (k0 + e.1)) bytes

/-- Writes bytes of the line at `k0` under acting id `g`: into the version of `g`, which is created at need, or into the
ordinary line for the root (03:R99). A version without room refutes `g` (17:R406). -/
def State.writeHome (s : State) (slot arena g k0 : Nat) (bytes : NMap Byte) (stamp : Stamp) : State :=
  let bytes := s.writable k0 bytes
  if g = 0 then s.pokeLine k0 bytes stamp else
  let put (v : Version) : Version := { v with line := v.line.write bytes stamp, mask := v.mask ||| bytesMask bytes, bad := v.bad &&& ~~~wholeGranules bytes }
  if s.versions.any fun v => v.slot = slot && v.hyp = g && v.key = k0 then
    { s with versions := s.versions.map fun v => if v.slot = slot && v.hyp = g && v.key = k0 then put v else v }
  else match s.versionRoom slot k0 with
    | some vent =>
      { s with versions := s.versions ++ [put ⟨slot, g, k0, arena, s.homeSees slot g k0, 0, vent, s.badFor slot g k0⟩] }
    | none =>
      let s := s.refute slot g
      match s.partOf slot with
      | some (p, _) => s.post (.versionRefused p slot g)
      | none => s

/-- Is the arena of a request sealed? -/
def State.tagSealed (s : State) (slot arena : Nat) : Bool := ((s.ctx slot).arena arena).state = .sealed

/-- The home's tags of the ordinary line of a request (03:R85). A supervisor-window access names no context: it keeps those that stand. -/
def State.tagLine (s : State) (tg : Tags) (key : Nat) (tile : Bool) : State :=
  let h := s.homeLine key
  let h' : HomeLine := if tg.phys then h else
    { h with slot := tg.slot, arena := tg.arena, sealed := s.tagSealed tg.slot tg.arena, haloed := tile }
  { s with home := NMap.insert s.home (key / 128) h' }

/-- A later store of die `d` to byte `o` of an ordinary line is still on its way: the die's replica was shown it, or filled with it. -/
def State.ownWaits (s : State) (d line o : Nat) : Bool :=
  s.flight.any fun r => r.die = d && r.line = line && (r.shown || (s.lands r.tags line && s.actingOf r.tags line = 0)) &&
    (NMap.find? r.bytes o).isSome

/-- The issuing die's replica learns the number of a store that it holds, unless a newer one of the die to that byte still waits for its
own; a replica that was never shown the store is evicted (10:R310). -/
def State.numberOwn (s : State) (origin line : Nat) (bytes : NMap Byte) (shown : Bool) (seq : BitVec 32) : State :=
  if shown then
    { s with replicas := s.replicas.map fun r =>
        if r.die = origin && r.key = line then
          { r with own := List.map (fun e : Nat × Option (BitVec 32) =>
              if (NMap.find? bytes e.1).isSome && !s.ownWaits origin line e.1 then (e.1, some seq) else e) r.own }
        else r }
  else s.evictReplicas fun r => r.die = origin && r.key = line

/-- The home slice numbers a write to a line and pushes it to the dies with a presence bit, or a notice to the others
(03:R82; 10:R311). `tile` is the core whose tile it writes back. -/
def State.publish (s : State) (tg : Tags) (origin home g line : Nat) (bytes : NMap Byte) (stamp : Stamp) (shown : Bool) (tile : Option Nat) :
    State :=
  let u := 32 * home + sliceOf line
  let seq := s.slice u + 1
  let hl := s.homeLine line
  let s := { s with slices := NMap.put s.slices 0 u seq }
  let s := if home = origin then s else s.noteClock home origin stamp
  let others := (List.range 4).filter fun d => d ≠ origin && d ≠ home
  let held (d : Nat) : Bool := g = 0 && hl.presence.getLsbD d
  let s := { s with
    pushes := s.pushes ++ ((others.filter held).map fun d => (⟨d, tg.team, tg.slot, tg.inc, tile, origin, home, line, bytes, seq, stamp⟩ : Push)),
    notices := s.notices ++ ((others.filter fun d => !held d).map fun d => (⟨d, origin, home, stamp⟩ : Notice)) }
  if g = 0 && origin ≠ home then s.numberOwn origin line bytes shown seq else s

/-- What is noted when a request is dropped or writes nothing: every other die learns its stamp. -/
def State.publishNothing (s : State) (origin home : Nat) (stamp : Stamp) : State :=
  let s := if home = origin then s else s.noteClock home origin stamp
  { s with notices := s.notices ++ (((List.range 4).filter fun d => d ≠ origin && d ≠ home).map fun d => ⟨d, origin, home, stamp⟩) }

/-- A store that its home drops is no write: the copies on the issuing die that show it go. -/
def State.retract (s : State) (r : Req) : State :=
  ({ s with l1 := s.l1.filter fun l => !(dieOfCore l.core = r.die && l.slot = r.tags.slot && l.key = r.line && !l.haloed) }).evictReplicas
    fun x => x.die = r.die && x.key = r.line

/-- The haloed copies of a line in the L1s of other cores receive bytes that are not their own unwritten ones (03:R97). -/
def State.haloTakes (s : State) (slot line : Nat) (takes : L1Line → Bool) (bytes : NMap Byte) (stamp : Stamp) : State :=
  { s with l1 := s.l1.map fun l =>
      if l.slot = slot && l.key = line && takes l then
        { l with line := l.line.write (List.filter (fun e : Nat × Byte => !l.dirty.getLsbD e.1) bytes) stamp }
      else l }

/-- A halo push (03:R97). From the start of the copy of its footprint on, what would go to the old core of a team goes to its new one, after
the copy (11:R341; 17:R407). -/
def State.pushHalo (s : State) (r : Req) : State :=
  let holds (c : Nat) : Bool := s.l1.any fun l => l.core = c && l.haloed && l.slot = r.tags.slot && l.key = r.line
  let moved (m : Migration) : Bool := m.old ≠ r.tags.core && holds m.old
  let direct := s.migrations.filter fun m => moved m && !m.copying
  let s := s.haloTakes r.tags.slot r.line (fun l => (l.haloed && l.core ≠ r.tags.core) || direct.any fun m => m.new = l.core) r.bytes r.stamp
  { s with migrations := s.migrations.map fun m =>
      if moved m && m.copying then { m with waiting := m.waiting ++ [⟨r.tags.team, r.tags.slot, true, r.line, r.bytes⟩] } else m }

/-- What an error in a buffer of the die fabric has poisoned of a store is poisoned where it was written (19:R415). -/
def State.marksOf (s : State) (r : Req) (g : Nat) : State :=
  match r.bad with
  | none => s
  | some o =>
    if g = 0 then s.markPoison (.granule ((r.line + o) / 32)) else
    { s with versions := s.versions.map fun v => if v.slot = r.tags.slot && v.hyp = g && v.key = r.line then
        { v with bad := v.bad ||| BitVec.ofNat 4 (2 ^ (o / 32)) } else v }

/-- A posted store is performed at its home slice, or dropped and counted (03:R87, R92; 17:R400). -/
def State.performStore (s : State) (r : Req) : State :=
  match s.homeCheck r.tags r.line with
  | some d => ((s.publishNothing r.die r.home r.stamp).retract r).countDrop r.tags.slot d.counter
  | none =>
    if s.sealedFor r.tags then ((s.publishNothing r.die r.home r.stamp).retract r).countDrop r.tags.slot 3
    else
      let g := s.actingOf r.tags r.line
      let s := (s.tagLine r.tags r.line r.halo).writeHome r.tags.slot r.tags.arena g r.line r.bytes r.stamp
      let s := (s.marksOf r g).publish r.tags r.die r.home g r.line r.bytes r.stamp r.shown (if r.halo then some r.tags.core else none)
      if r.halo then s.pushHalo r else s

/-- A slice stalls new writes to a line while a replica's sequence number lags 2^31 - 1 behind (10:R311). -/
def State.lagging (s : State) (home line : Nat) (r : Replica) : Bool :=
  r.key = line && 2 ^ 31 - 1 ≤ (s.slice (32 * home + sliceOf line) - r.seq).toNat

/-- No replica of the line lags so far. -/
def State.sliceReady (s : State) (home line : Nat) : Bool := s.replicas.all fun r => !s.lagging home line r

/-- While a slice stalls, a replica that lags may be evicted: a free choice. -/
def State.shedLagging (s : State) (home line : Nat) : State :=
  s.evictReplicas fun r => s.lagging home line r && !Config.stays (s.draw r.die)

/-- Every cached copy of a line is invalidated, in every L1 and replica; a line with bytes of a tile not yet written back is updated
(03:R84). -/
def State.invalidate (s : State) (key : Nat) : State :=
  let k0 := lineOf key
  let now := s.lineAt k0
  ({ s with l1 := (s.l1.filter fun (l : L1Line) => l.key ≠ k0 || l.dirty ≠ 0).map fun (l : L1Line) =>
      if l.key = k0 then { l with line := l.line.merge now (~~~l.dirty) } else l }).evictReplicas fun r => r.key = k0

/-! ## Loads (03:R79 to R83, R100; 10:R309, R310) -/

/-- A line as its home knows it: the ordinary line and the versions of a context. -/
structure LineView where
  ord  : Line
  vers : List (Nat × Line)
  deriving DecidableEq, Repr

/-- What acting id `g` sees of it (03:R100). -/
def LineView.see (c : Context) (v : LineView) (g : Nat) : Line :=
  (((c.path 256 g).findSome? fun h => if h = 0 then none else (v.vers.find? fun x => x.1 = h).map (·.2))).getD v.ord

/-- A store under acting id `g` (03:R99). -/
def LineView.write (c : Context) (v : LineView) (g : Nat) (bytes : NMap Byte) (stamp : Stamp) : LineView :=
  if g = 0 then { v with ord := v.ord.write bytes stamp } else
  { v with vers := (v.vers.filter fun x => x.1 ≠ g) ++ [(g, (((v.vers.find? fun x => x.1 = g).map (·.2)).getD (v.see c g)).write bytes stamp)] }

/-- The line at `k0` with a context's versions of it. -/
def State.viewOf (s : State) (slot k0 : Nat) : LineView :=
  ⟨s.lineAt k0, (s.versions.filter fun v => v.slot = slot && v.key = k0).map fun v => (v.hyp, v.line)⟩

/-- The view once the posted stores of the issuer's core that will land are performed in their order: what its loads return is never
older (10:R309). -/
def State.withOwn (s : State) (tg : Tags) (k0 : Nat) (v : LineView) : LineView :=
  let c := s.ctxAt tg.slot (s.sliceUnit k0)
  s.flight.foldl (fun v r => if r.tags.core = tg.core && r.tags.slot = tg.slot && r.line = k0 && s.lands r.tags k0 then
    v.write c (s.actingOf r.tags k0) r.bytes r.stamp else v) v

/-- How a load looks up: as `LDR`, allocating or not, since when unsealed read-only lines count. -/
structure LoadOpts where
  ldr  : Bool
  noL1 : Bool
  since : Nat
  deriving DecidableEq, Repr

/-- Lines of 128 bytes in the main part and in the read-only sub-array of an L1 (01:R15, R16; 03:R79). -/
def l1Lines (ro : Bool) : Nat := if ro then 512 else 2560

/-- Which line leaves an L1 before a lookup is a free choice, haloed lines apart (10:R315; log 8): a line that does not stay is gone. -/
def State.thinL1 (s : State) (core k0 i : Nat) : State :=
  { s with l1 := s.l1.filter fun l => l.core ≠ core || l.key ≠ k0 || l.haloed || Config.stays (s.draw (if l.ro then i + 1 else i)) }

/-- Does line `l` of an L1 serve this load (03:R79, R85, R100; 08:R238)? A load that carries an old generation goes to the home, which drops
it (03:R87; DEDUCED, log 8). -/
def L1Line.serves (l : L1Line) (s : State) (tg : Tags) (o : LoadOpts) (k0 : Nat) : Bool :=
  l.core = tg.core && l.slot = tg.slot && l.key = k0 && l.hyp = s.actingAt tg (l1Unit tg.core) &&
    tg.gen = ((s.ctx tg.slot).arena tg.arena).gen && (!l.ro || (o.ldr && (l.sealed || o.since ≤ l.filled)))

/-- A full part of an L1 loses a line before a fill: one without unwritten tile bytes, if there is one; which one is free. -/
def State.l1Victim (s : State) (core : Nat) (ro : Bool) (i : Nat) : Option L1Line :=
  let part := s.l1.filter fun l => l.core = core && l.ro = ro
  if part.length < l1Lines ro then none else
  let clean := part.filter fun l => l.dirty = 0
  let from_ := if clean.isEmpty then part else clean
  from_[Config.pick (s.draw i) % from_.length]?

/-- A posted store of bytes within one line: it updates a line of the core's L1 and the die's replica at once, and travels to
its home slice (03:R79, R82). A line of the core that other ids filled is dropped. Read-only bytes are no part of it (00:R9, R10). -/
def State.postStore (s : State) (tg : Tags) (d home k0 : Nat) (bytes : NMap Byte) (halo : Bool) (row : Nat) (prevs : List Nat) : State :=
  let g := s.actingOf tg k0
  let gc := s.actingAt tg (l1Unit tg.core)
  let lands := s.lands tg k0
  let bytes := s.writable k0 bytes
  let (s, stamp) := s.issueStamp d
  let here (l : L1Line) : Bool := l.core = tg.core && l.slot = tg.slot && l.key = k0 && !l.ro && !l.haloed && !tg.phys && lands
  { s with
    l1 := (s.l1.filter fun l => !(here l && l.hyp ≠ gc)).map fun l => if here l then { l with line := l.line.write bytes stamp } else l,
    replicas := s.replicas.map fun r =>
      if r.die = d && r.key = k0 && g = 0 && lands then
        { r with line := r.line.write bytes stamp, own := List.foldl (fun o (e : Nat × Byte) => NMap.insert o e.1 none) r.own bytes }
      else r,
    flight := s.flight ++ [⟨tg, d, home, k0, bytes, stamp, none, d ≠ home, Config.pick (s.draw 40000) % 6, 0, s.draw row, prevs,
      g = 0 && lands, halo, none⟩] }

/-- The unwritten bytes of a line of an L1 are posted to its home slice, under the line's context (03:R97). -/
def State.writeBack (s : State) (tg : Tags) (l : L1Line) : State :=
  let c := s.ctx l.slot
  let tg := { tg with arena := l.arena, gen := (c.arena l.arena).gen, hyp := 0, slot := l.slot, inc := c.inc, core := l.core, phys := false }
  let s := { s with l1 := s.l1.map fun (m : L1Line) =>
    if m.core = l.core && m.key = l.key && m.slot = l.slot && m.haloed && !m.ro then { m with dirty := 0 } else m }
  s.postStore tg (dieOfCore l.core) l.home l.key (l.line.masked l.dirty) true 0 []

/-- A full part of an L1 makes room. -/
def State.makeRoom (s : State) (tg : Tags) (ro : Bool) (i : Nat) : State :=
  match s.l1Victim tg.core ro i with
  | none => s
  | some v => let s := if v.dirty = 0 then s else s.writeBack tg v
              { s with l1 := s.l1.filter fun l => !(l.core = v.core && l.ro = v.ro && l.slot = v.slot && l.hyp = v.hyp && l.key = v.key) }

/-- A fill may be made now: the line that leaves a full part of the L1 has no bytes to post, or its die issues new stores (10:R311). -/
def State.fillRoom (s : State) (core : Nat) (ro : Bool) (i : Nat) : Bool :=
  s.mayStore (dieOfCore core) || (s.l1Victim core ro i).all fun l => l.dirty = 0

/-- Fills a line of an L1; lines of the same address that other ids filled go. The line of a sealed arena is sealed once its die has applied
every update made before the seal (10:R317). -/
def State.fillL1 (s : State) (tg : Tags) (ro : Bool) (home k0 : Nat) (line : Line) (haloed : Bool) (dirty : BitVec 128) (i : Nat) : State :=
  let s := { s with l1 := s.l1.filter fun (l : L1Line) => !(l.core = tg.core && l.slot = tg.slot && l.key = k0 && l.ro = ro) }
  let s := s.makeRoom tg ro i
  { s with l1 := s.l1 ++ [⟨tg.core, ro, tg.slot, s.actingAt tg (l1Unit tg.core), k0, tg.arena, home, line,
      s.tagSealed tg.slot tg.arena && s.pushes.all (fun p => !(p.die = dieOfCore tg.core && p.line = k0)), haloed, dirty, s.tick⟩] }

/-- Lines of 128 bytes in a home slice of 2 MiB (01:R19). -/
def sliceLines : Nat := 16384

/-- Takes a replica of the ordinary line at `k0` on die `d`, with the die's own stores on their way; the presence bit is set. A full
slice evicts another replica first (03:R81 to R83; 10:R310). -/
def State.fillReplica (s : State) (tg : Tags) (d home k0 : Nat) (tile : Bool) (i : Nat) : State × Line :=
  let same (r : Replica) : Bool := r.die = d && sliceOf r.key = sliceOf k0
  let held := s.replicas.filter same
  let s := if held.length < sliceLines then s else
    match held[Config.pick (s.draw i) % held.length]? with
    | some v => s.evictReplicas fun r => r.die = v.die && r.key = v.key
    | none => s
  let mine := s.flight.filter fun r => r.die = d && r.line = k0 && s.lands r.tags k0 && s.actingOf r.tags k0 = 0
  let line := mine.foldl (fun (x : Line) r => x.write r.bytes r.stamp) (s.lineAt k0)
  let own := mine.foldl (fun (o : NMap (Option (BitVec 32))) r => List.foldl (fun o (e : Nat × Byte) => NMap.insert o e.1 none) o r.bytes) []
  let s := s.tagLine tg k0 tile
  let hl := s.homeLine k0
  let seq := s.slice (32 * home + sliceOf k0)
  ({ s with
      replicas := s.replicas ++ [⟨d, k0, hl.slot, hl.arena, hl.sealed, hl.haloed, line, seq, seq, [], own⟩],
      home := NMap.insert s.home (k0 / 128) { hl with presence := hl.presence ||| BitVec.ofNat 4 (2 ^ d) } }, line)

/-- The line at `k0` as die `d` reads it, from its replica or from the home; a die that is not the home takes a replica of an
ordinary line (03:R81 to R83). What the L1 keeps as a line of a tile or in its read-only part comes from no replica that is behind its home
(03:R97; 10:R318). None while no link leads to the home (01:R22). -/
def State.fetchLine (s : State) (tg : Tags) (d home k0 : Nat) (tile fresh : Bool) (i : Nat) : Option (State × LineView) :=
  let v := s.viewOf tg.slot k0
  if d = home then some (s.tagLine tg k0 tile, v) else
  if (s.versionFor tg.slot (s.actingOf tg k0) k0).isSome then (if s.reachesOne d home then some (s.cross d home, v) else none) else
  let behind := fresh && s.pushes.any fun p => p.die = d && p.line = k0
  let s := s.evictReplicas fun r => r.die = d && r.key = k0 && (behind || !Config.stays (s.draw i))
  match s.replicas.find? fun r => r.die = d && r.key = k0 with
  | some r => some (s, { v with ord := r.line })
  | none =>
    if !s.reachesOne d home then none else
    let r := (s.cross d home).fillReplica tg d home k0 tile (i + 1)
    some (r.1, { v with ord := r.2 })

/-- What one access within a line returns. -/
structure Loaded where
  s     : State
  line  : Line
  /-- It missed the L1 (02:R53). -/
  miss  : Bool
  /-- The access waits: no link leads to the home, or a fill has no room (01:R22; 10:R311). -/
  stuck : Bool
  deriving DecidableEq, Repr

/-- A load of the line at `k0`, for an issuer with tags `tg` on die `d`; `haloed` says that the L1 keeps it as a line of a tile. A dropped
load returns 0 (17:R400). -/
def State.loadLine (s : State) (tg : Tags) (o : LoadOpts) (d home k0 i : Nat) (haloed : Bool) : Loaded :=
  if tg.inc ≠ (s.ctx tg.slot).inc then ⟨s.countDrop tg.slot 0, Line.blank, false, false⟩ else
  if tg.phys then
    if s.reachesOne d home then ⟨s.cross d home, (s.withOwn tg k0 ⟨s.lineAt k0, []⟩).ord, false, false⟩ else ⟨s, Line.blank, false, true⟩
  else
    let s := s.thinL1 tg.core k0 i
    match s.l1.find? fun l => l.serves s tg o k0 with
    | some l => ⟨s, l.line, false, false⟩
    | none =>
      match s.homeCheck tg k0 with
      | some dr => ⟨s.countDrop tg.slot dr.counter, Line.blank, false, false⟩
      | none =>
      match s.fetchLine tg d home k0 haloed (haloed || o.ldr) (i + 2) with
      | none => ⟨s, Line.blank, true, true⟩
      | some (s', v) =>
        let line := (s'.withOwn tg k0 v).see (s'.ctxAt tg.slot (s'.sliceUnit k0)) (s'.actingOf tg k0)
        if o.noL1 || s'.actingOf tg k0 ≠ s'.actingAt tg (l1Unit tg.core) then ⟨s', line, true, false⟩
        else if !s'.fillRoom tg.core o.ldr (i + 4) then ⟨s, Line.blank, true, true⟩
        else ⟨s'.fillL1 tg o.ldr home k0 line haloed 0 (i + 4), line, true, false⟩

/-- Clocks of the 2 ms bound on a peer (08:R244; 17:R412). -/
def peerBound : Nat := 2100000

/-- A posted write that its team need wait for no longer: acknowledged ones are gone; this one is lost. -/
def PostedWrite.isOver (w : PostedWrite) (clock : Nat) : Bool := w.lost || decide (w.since + peerBound ≤ clock)

/-- Team `t` stands on a core. -/
def State.onCore (s : State) (t core : Nat) : Bool := (s.teams[t]?).any fun tm => tm.core = core

/-- Has every store of team `t` been performed at the scope (10:R305, R306)? What its core writes back of its tiles counts, whichever team's
release posted it (03:R97). At team scope always; at wider scopes each must have reached its home, or the scratchpad of a team that moves; at device scope and wider its updates must have been applied on every die; at system scope its writes to host and
peer memory must have been acknowledged, or given up (log 9; 12:R356). -/
def State.performed (s : State) (t scope : Nat) : Bool :=
  scope = 0 || (s.flight.all (fun r => !(r.tags.team = t || (r.halo && s.onCore t r.tags.core))) &&
    s.migrations.all (fun m => m.waiting.all fun w => w.halo || w.team ≠ t) &&
    (scope < 4 || s.pushes.all fun p => !(p.team = t || p.tile.any (s.onCore t))) &&
    (scope < 5 || s.posted.all fun p => p.team ≠ t || p.isOver s.clock))

/-! ## Acquires (03:R80; 10:R312) -/

/-- The main part of a core's L1 loses every line that is neither sealed nor haloed (03:R80): a line is sealed that was filled after the
seal (03:R85; 10:R317). -/
def State.dropL1 (s : State) (core : Nat) : State :=
  { s with l1 := s.l1.filter fun l =>
      l.core ≠ core || l.ro || l.haloed || l.sealed }

/-- The effect of an acquire by team `t` at a scope: nothing at team scope (03:R80, 08:R238). -/
def State.acquire (s : State) (t scope : Nat) : State :=
  match s.teams[t]? with
  | some tm => if scope = 0 then s else (s.dropL1 tm.core).setTeam t { tm with acquired := s.tick + 1 }
  | none => s

/-- An acquire at die scope or wider completes only when the die's clock covers what the team has read (10:R312). -/
def State.mayAcquire (s : State) (tm : Team) (scope : Nat) : Bool := scope < 3 || covers (s.vc (dieOfCore tm.core)) tm.seen

/-! ## Haloed tiles (03:R95 to R97) -/

/-- The tile of a declared region that holds a virtual address: its column and row. -/
def TileRegion.tileOf (r : TileRegion) (va : Nat) : Option (Nat × Nat) :=
  if va < r.base then none else
  let o := va - r.base
  let row := o / r.pitch
  let col := o % r.pitch
  let w := r.width * r.esize
  let tx := col / w
  let ty := row / r.height
  if tx < r.across && ty < r.down then some (tx, ty) else none

/-- The owner of a tile. -/
def TileRegion.owner (r : TileRegion) (t : Nat × Nat) : Nat := (r.owners.getD (t.2 * r.across + t.1) 0).toNat

/-- The region of a context that holds a virtual address, with the tile. A region may overlap one already declared: the lowest-numbered one
counts (DESIGN CHOICE, log 84). -/
def Context.tileAt (c : Context) (va : Nat) : Option (TileRegion × (Nat × Nat)) :=
  c.tiles.findSome? fun e => match e.2.tileOf va with
    | some t => some (e.2, t)
    | none => none

/-- Does the halo of some tile that `core` owns hold the line at `va`: is an element of the line within halo-width elements of
the edge of that tile (03:R96)? -/
def TileRegion.haloOf (r : TileRegion) (core va : Nat) : Bool :=
  let v0 := va / 128 * 128
  (List.range (r.across * r.down)).any fun k =>
    (r.owners.getD k 0).toNat = core &&
    let tx := k % r.across
    let ty := k / r.across
    let x0 := tx * r.width
    let y0 := ty * r.height
    (List.range (128 / r.esize)).any fun e =>
      let o := v0 - r.base + e * r.esize
      let row := o / r.pitch
      let col := o % r.pitch / r.esize
      r.base ≤ v0 && (r.tileOf (v0 + e * r.esize)).isSome && x0 ≤ col + r.halo && col < x0 + r.width + r.halo &&
        y0 ≤ row + r.halo && row < y0 + r.height + r.halo

/-- The L1 of `core` keeps the line at `va` as a haloed line: interior of its own tile, or halo of it (03:R96). -/
def Context.keepsTile (c : Context) (core va : Nat) : Bool :=
  match c.tileAt va with
  | some (r, t) => r.owner t = core || r.haloOf core va
  | none => false

/-- The line of a tile that its owner may write: in the main part of its L1. -/
def L1Line.tileOf (l : L1Line) (core slot k0 : Nat) : Bool := l.core = core && l.slot = slot && l.key = k0 && l.haloed && !l.ro

/-- The owner of a tile can store into a line of it now: the line is held, or it can be filled (03:R96; 01:R22). -/
def State.tileReady (s : State) (core slot home k0 : Nat) : Bool :=
  s.l1.any (·.tileOf core slot k0) || (s.reachesOne (dieOfCore core) home && s.fillRoom core false 0)

/-- A store by the owner into the interior of its tile: the line is held write-back in the main part of its L1 (03:R96). The checks of its request and
the seal stand as at the home (03:R87, R92). -/
def State.storeTile (s : State) (tg : Tags) (home k0 : Nat) (bytes : NMap Byte) : State :=
  match s.homeCheck tg k0 with
  | some dr => s.countDrop tg.slot dr.counter
  | none =>
  if s.sealedFor tg then s.countDrop tg.slot 3 else
  let bytes := s.writable k0 bytes
  let put (l : L1Line) : L1Line := { l with line := l.line.write bytes [], dirty := l.dirty ||| bytesMask bytes }
  let mine (l : L1Line) : Bool := l.tileOf tg.core tg.slot k0
  if s.l1.any mine then { s with l1 := s.l1.map fun l => if mine l then put l else l }
  else
    let base := (s.withOwn tg k0 (s.viewOf tg.slot k0)).ord
    let s := (s.cross (dieOfCore tg.core) home).fillL1 tg false home k0 base true 0 0
    { s with l1 := s.l1.map fun l => if mine l then put l else l }

/-- Does the L1 of a core hold bytes of a tile interior that are not written back? -/
def State.dirtyTiles (s : State) (core : Nat) : Bool := s.l1.any fun l => l.core = core && l.dirty ≠ 0

/-- The write-backs of a core's tiles, and the pushes to halos that go with them, have been performed (03:R97). -/
def State.tilesBack (s : State) (core : Nat) : Bool := !s.dirtyTiles core && s.flight.all fun r => !(r.halo && r.tags.core = core)

/-- The release steps of 03:R97 for the tiles of a core, by an issuer with tags `tg`: each line of a tile is written back, once the die may
issue its store (10:R311). -/
def State.releaseTiles (s : State) (tg : Tags) (core : Nat) : State :=
  (s.l1.filter fun l => l.core = core && l.dirty ≠ 0).foldl
    (fun s l => if s.mayStore (dieOfCore core) then s.writeBack tg l else s) s

/-! ## Atomics (03:R84; 10:R313) -/

/-- An atomic may take effect at home `h` for die `o`: the home knows every store that the die has issued or seen, a link leads there, and
the slice takes new writes to the line (log 10; 10:R311). -/
def State.atomicReady (s : State) (o h key : Nat) : Bool :=
  (o = h || (List.range 4).all fun e => serialGe (clockAt (s.vc h) e) (clockAt (s.vc o) e)) && s.reaches o h && s.sliceReady h (lineOf key)

/-- A write of bytes of a line performed at the home at once, for die `d`, with its stamp: every cached copy is invalidated, the other dies
learn it. -/
def State.writeStamped (s : State) (tg : Tags) (d home key : Nat) (new : NMap Byte) (stamp : Stamp) : State :=
  let g := s.actingOf tg key
  let bytes := s.writable (lineOf key) new
  (((s.tagLine tg key false).writeHome tg.slot tg.arena g (lineOf key) bytes stamp).invalidate key).publish tg d home g (lineOf key) bytes
    stamp true none

/-- A write performed at the home at once, for die `d`. -/
def State.writeAt (s : State) (tg : Tags) (d home key : Nat) (new : List Byte) : State :=
  let r := (s.cross d home).issueStamp d
  r.1.writeStamped tg d home key (lineBytes key new) r.2

/-- A store performed at the home at once: dropped where the checks of a request or a seal stop it. -/
def State.storeAt (s : State) (tg : Tags) (d home key : Nat) (new : List Byte) : State :=
  match s.homeCheck tg key with
  | some dr => s.countDrop tg.slot dr.counter
  | none => if s.sealedFor tg then s.countDrop tg.slot 3 else s.writeAt tg d home key new

/-- An atomic within a line: the offset and length of its bytes, and their new value, or none to leave them. -/
structure LineOp where
  off : Nat
  len : Nat
  op  : List Byte → Option (List Byte)

/-- What the atomics of one request find and leave, one after another: the line, the bytes written, the old values. -/
structure LineOps where
  line    : Line
  written : NMap Byte
  olds    : List (List Byte)

/-- One atomic more. -/
def LineOps.add (x : LineOps) (o : LineOp) (blocked : Bool) : LineOps :=
  let old := x.line.slice o.off o.len
  match (if blocked then none else o.op old) with
  | none => { x with olds := x.olds ++ [old] }
  | some new =>
    let bytes := new.mapIdx fun i b => (o.off + i, b)
    { line := x.line.write bytes [], written := List.foldl (fun m (e : Nat × Byte) => NMap.insert m e.1 e.2) x.written bytes,
      olds := x.olds ++ [old] }

/-- The atomics of one request on a line, and their old values. The request issues a stamp in every case (10:R311), and returns once every
cached copy is invalidated (03:R84). A dropped one returns 0 and writes nothing; after a seal it reads only (03:R92; 17:R400); an atomic that
meets poison does not update (19:R416). -/
def State.atomicLine (s : State) (tg : Tags) (d home k0 : Nat) (ops : List LineOp) : State × List (List Byte) :=
  let (s, stamp) := (s.cross d home).issueStamp d
  let still (s : State) : State := s.publishNothing d home stamp
  match s.homeCheck tg k0 with
  | some dr => ((still s).countDrop tg.slot dr.counter, ops.map fun o => List.replicate o.len 0)
  | none =>
    let shut := s.sealedFor tg
    let run (shut : Bool) : LineOps := ops.foldl (fun x o => x.add o (shut || s.poisonedFor tg.slot (s.actingOf tg k0) (k0 + o.off) o.len))
      ⟨s.homeSees tg.slot (s.actingOf tg k0) k0, [], []⟩
    let w := run false
    if w.written.isEmpty then ((still s).invalidate k0, w.olds)
    else if shut then (((still s).invalidate k0).countDrop tg.slot 3, (run true).olds)
    else (s.writeStamped tg d home k0 w.written stamp, w.olds)

/-- One atomic on `n` bytes within a line, and its old value. -/
def State.atomicAt (s : State) (tg : Tags) (d home key n : Nat) (op : List Byte → Option (List Byte)) : State × List Byte :=
  let r := s.atomicLine tg d home (lineOf key) [⟨key % 128, n, op⟩]
  (r.1, r.2.headD [])

/-- The stamps of the values at some bytes as an acting id sees them at the home (10:R312). -/
def State.stampAt (s : State) (tg : Tags) (key n : Nat) : Stamp := (s.homeSees tg.slot (s.actingOf tg key) key).stampOf (key % 128) n

end Sys2Proof.Machine
end

