-- ==== Sys2Proof/Machine/Ops.lean ====
section
/-!
DEFINITION. The operations every instruction is written over: registers, generic pointers and their checks, loads, stores,
barriers, the end of a team; and TAKING A TRAP and the return from one (16:R366 to R376, R441).
-/
namespace Sys2Proof.Machine

/-- What `exec` answers. -/
abbrev Out := Host.Outcome State Fault Refusal

/-! ## Registers of a team (02:R35) -/

/-- Scalar register `n`; s0 reads 0. -/
def Team.rd (tm : Team) (n : BitVec 5) : W64 := if n = 0 then 0 else NMap.get tm.s 0 n.toNat
/-- Writes scalar register `n`; a write to s0 is ignored. -/
def Team.wr (tm : Team) (n : BitVec 5) (x : W64) : Team := if n = 0 then tm else { tm with s := NMap.put tm.s 0 n.toNat x }
/-- On to the next scalar word. -/
def Team.advance (tm : Team) : Team := { tm with pc := tm.pc + 4 }
/-- Lane register `r` of lane `l`. -/
def Team.lreg (tm : Team) (l r : Nat) : W64 := NMap.get tm.v 0 (64 * l + r)
/-- Writes lane register `r` of lane `l`. -/
def Team.setLreg (tm : Team) (l r : Nat) (x : W64) : Team := { tm with v := NMap.put tm.v 0 (64 * l + r) x }
/-- m0: the lanes that exist (02:R40). -/
def Team.exist (tm : Team) : Mask := BitVec.ofNat 1024 (2 ^ tm.lanes - 1)
/-- Mask register `k`. -/
def Team.mreg (tm : Team) (k : Nat) : Mask := if k = 0 then tm.exist else NMap.get tm.m 0 k
/-- Writes mask register `k`; m0 is read-only. -/
def Team.setMreg (tm : Team) (k : Nat) (x : Mask) : Team := if k = 0 then tm else { tm with m := NMap.put tm.m 0 k x }
/-- The current mask: the top of the mask stack, all ones when it is empty (02:R41). -/
def Team.topMask (tm : Team) : Mask := tm.stack.headD (BitVec.allOnes 1024)
/-- The fixed flat record (03:R70). -/
def flatRecord : Rec := BitVec.ofNat 256 (0xFFFFFFFFFFFFFFFF * 2 ^ 64)
/-- The bits of a record that are not reserved (03:R66). -/
def recordMask : Rec := BitVec.ofNat 256 (2 ^ 195 - 1 - 2 ^ 175)
/-- Buffer record `k`; b0 is fixed. -/
def Team.breg (tm : Team) (k : Nat) : Rec := if k = 0 then flatRecord else NMap.get tm.b 0 k
/-- Writes buffer record `k`: reserved fields stay 0, b0 is fixed (03:R66; 06:R174). -/
def Team.setBreg (tm : Team) (k : Nat) (x : Rec) : Team :=
  if k = 0 then tm else { tm with b := NMap.put tm.b 0 k (x &&& recordMask) }
/-- Supervisor code: a control core, or a team in a handler (12:R346). -/
def Team.sup (tm : Team) : Bool := tm.ctrl.isSome || tm.level ≠ 0
/-- Every lane block enqueued has completed (06: DrainBlocks). -/
def Team.drained (tm : Team) : Bool := tm.queue.isEmpty && tm.run.isNone && tm.pending.isEmpty
/-- Lane blocks queued, the running one included (02:R38). -/
def Team.blocks (tm : Team) : Nat := tm.queue.length + (if tm.run.isSome then 1 else 0)
/-- A team in a handler that has started (16:R370). -/
def Team.inHandler (tm : Team) : Bool := tm.state = .trapped && tm.level = 1
/-- Both streams may go on: ready or running, or in a handler that waits neither for host or peer memory nor for a circular
buffer nor for a queue (02:R52; 06:R192). -/
def Team.live (tm : Team) : Bool :=
  (tm.state = .ready || tm.state = .running || tm.inHandler) && tm.remote.isNone && match tm.wait with
    | some .cb => false
    | some (.spawn _) => false
    | _ => true
/-- Its deadline has passed, and it is in no handler and in no SX word (11:R340; 16:R386, R388). -/
def Team.due (tm : Team) : Bool := tm.expired && tm.state ≠ .trapped && !tm.sxWait

/-- The scalar stream may issue a word. A team marked for a kill stands at a kill point unless a lane block of it runs
(02:R55), one whose deadline has passed at a blocking point (16:R386); one that resumes a barrier word does that first (16:R441). -/
def Team.mayScalar (tm : Team) : Bool :=
  tm.live && tm.reply.isNone && !tm.lost && tm.rewait.isNone && ((tm.kill.isNone && !tm.due) || tm.holding.isSome)

/-- A gated island: its teams stay resident and make no progress (12:R360). -/
def State.gated (s : State) (core : Nat) : Bool := (s.island (islandOfCore core)).step = 7

/-- The datapaths of an island issue no pass: it is gated, or it changes step (12:R360). -/
def State.noPass (s : State) (core : Nat) : Bool := s.gated core || (s.island (islandOfCore core)).changing

/-- The footprint of a team is being copied to another core: the team is not ready before the copy completes (11:R341). -/
def State.moving (s : State) (t : Nat) : Bool := s.migrations.any fun m => m.team = t && m.copying

/-- The team whose scalar stream moves, when it may (log 3). A team that has yielded and was not evicted is ready at once, and
its wait is over (06:R188); so is a wait inside an SX word, which the word takes up again if it must. -/
def State.scalarTeam (s : State) : Option (Nat × Team) :=
  match s.turn with
  | .scalar t => match s.teams[t]? with
    | some tm => if tm.mayScalar && !s.gated tm.core && !s.moving t then some (t, { tm with wait := none, sxWait := false }) else none
    | none => none
  | _ => none

/-- A team that blocks otherwise than by a yield: its deadline is cancelled; in a handler it blocks nowhere (11:R340; 16:R386). -/
def Team.undue (tm : Team) : Team := if tm.state = .trapped then tm else { tm with deadline := none, expired := false }

/-- The team of the turn resumes a barrier word as `BAR.WAIT`: it is blocked while the phase of its arrival lasts; then it acquires at
troupe scope and goes on with the next word (16:R441). -/
def State.resumeBarrier (s : State) : State :=
  match s.turn with
  | .scalar t => match s.teams[t]? with
    | some tm => match tm.rewait with
      | none => s
      | some (n, phase) =>
        if !tm.live || tm.kill.isSome || s.gated tm.core || s.moving t then s else
        let ended : Bool := match s.unit? tm.unit with
          | some u => (NMap.find? u.bars n).any fun b => b.phase != phase
          | none => true
        if ended then (s.setTeam t { tm with rewait := none, pc := tm.pc + 4 }).acquire t 1
        else s.setTeam t { tm.undue with rewait := none, state := .blocked, wait := some (.barWait n phase), since := s.clock }
    | none => s
  | _ => s

/-- A scalar word: `k` on the team that moves; when none may, a team that resumes a barrier word does so, or nothing happens. -/
def onScalar (s : State) (k : Nat → Team → Out) : Out :=
  match s.scalarTeam with
  | some (t, tm) => k t tm
  | none => .next s.resumeBarrier

/-! ## Tags of requests (03:R86) -/

/-- The tags of a team's relaxed access from its scalar stream. -/
def State.tagsOf (s : State) (t : Nat) (tm : Team) : Tags where
  slot := tm.slot
  inc := tm.inc
  arena := 0
  gen := 0
  hyp := tm.hyp
  scope := 0
  order := 0
  phys := false
  block := false
  team := t
  unit := tm.unit
  core := tm.core
  queue := match s.unit? tm.unit with | some u => u.queue | none => 0

/-- The tags with an arena and its current generation, as b0 and scalar accesses carry them (03:R70). -/
def State.withArena (s : State) (tg : Tags) (a : Nat) : Tags := { tg with arena := a, gen := ((s.ctx tg.slot).arena a).gen }

/-- A unit of work has consumed poisoned data (19:R416). -/
def State.consumePoison (s : State) (u : Nat) : State :=
  match s.unit? u with
  | some x => s.setUnit u { x with poisoned := true }
  | none => s

/-! ## Generic pointers (03:R71 to R74; 12:R346) -/

/-- Where a part of an access lies: memory by virtual address, a scratchpad, or memory by physical address. -/
inductive Win where
  | virt | pad | phys
  deriving DecidableEq, Repr

/-- A part of an access within one line of memory, or within a scratchpad. -/
structure Piece where
  win : Win
  /-- Virtual address, or key in memory. -/
  at_ : Nat
  len : Nat
  /-- It reaches a scratchpad through slot 7. -/
  shared : Bool
  deriving DecidableEq, Repr

/-- Cuts [a, a + n) at the multiples of 128: at most one cut for the sizes a word moves. -/
def cutLine (win : Win) (a n : Nat) : List Piece :=
  let room := 128 - a % 128
  if n = 0 then [] else if n ≤ room then [⟨win, a, n, false⟩] else [⟨win, a, room, false⟩, ⟨win, a + room, n - room, false⟩]

/-- The parts of a private access: one per 8-byte granule (03:R72). -/
def cutPrivate (base lane : Nat) : Nat → Nat → Nat → List Piece
  | 0, _, _ => []
  | f + 1, o, n =>
    if n = 0 then [] else
    let k := min n (8 - o % 8)
    ⟨.virt, base + o / 8 * 8192 + lane * 8 + o % 8, k, false⟩ :: cutPrivate base lane f (o + k) (n - k)

/-- Bytes of a scratchpad. -/
def padSize : Nat := 524288

/-- Resolves a generic pointer for an access of `n` bytes by lane `lane` of a team: its parts, or a window cause
(17:R391 step 1). A control core has no context, so a global pointer names no mapped page there (log 17). -/
def State.resolve (s : State) (tm : Team) (lane : Nat) (p : W64) (n : Nat) : Except Nat (List Piece) :=
  let tag := p.toNat / 2 ^ 56
  if tag < 2 then
    if tm.ctrl.isSome then .error 0x10 else .ok (cutLine .virt (p.toNat % 2 ^ 57) n)
  else if tag < 0xFC then .error 0x14
  else if tag = 0xFC then
    let o := p.toNat % 2 ^ 24
    if o + n ≤ (s.ctx tm.slot).privSize ∧ tm.ctrl.isNone then .ok (cutPrivate tm.priv lane 17 o n) else .error 0x16
  else if tag = 0xFD then
    if tm.ctrl.isSome ∨ p.toNat / 2 ^ 48 % 256 ≠ tm.tag then .error 0x17 else
    let o := p.toNat % 2 ^ 19
    if o + n ≤ padSize then .ok [⟨.pad, padBase tm.core + o, n, false⟩] else .error 0x25
  else if tag = 0xFE then
    if tm.ctrl.isSome then .error 0x14 else
    let o := p.toNat % 2 ^ 19
    if o + n ≤ padSize then
      .ok [⟨.pad, padBase (clusterOfCore tm.core * 4 + p.toNat / 2 ^ 20 % 4) + o, n, true⟩] else .error 0x25
  else if physClass p.toNat = 3 then .error 0x14
  else if !tm.sup then .error 0x15
  else if physClass p.toNat = 0 ∧ 4 * dieBytes < p.toNat % 2 ^ 54 + n then .error 0x14
  else .ok (cutLine .phys (p.toNat % 2 ^ 56) n)

/-- What an access does (17:R391, detail B). -/
inductive Kind where
  | load | store | atomic
  deriving DecidableEq, Repr

/-- It writes. -/
def Kind.writes : Kind → Bool
  | .load => false
  | _ => true

/-- A translated part of an access. -/
structure Place where
  win    : Win
  /-- Virtual address of a translated part; 0 otherwise. -/
  va     : Nat
  /-- Key in memory: physical address, or scratchpad key. -/
  key    : Nat
  len    : Nat
  home   : Nat
  arena  : Nat
  shared : Bool
  deriving DecidableEq, Repr

/-- It lies in host or peer memory (12:R346). -/
def Place.remote (p : Place) : Bool := p.win ≠ .pad && physClass p.key ≠ 0

/-- The first address of an access that meets a translation cause. -/
structure Miss where
  cause : Nat
  va    : Nat
  deriving DecidableEq, Repr

/-- Translates the parts of an access, in order (17:R391 step 6). -/
def State.places (s : State) (slot : Nat) (k : Kind) : List Piece → Except Miss (List Place)
  | [] => .ok []
  | x :: r => match x.win with
    | .pad => (s.places slot k r).map (⟨.pad, 0, x.at_, x.len, 0, 0, x.shared⟩ :: ·)
    | .phys => (s.places slot k r).map (⟨.phys, 0, x.at_, x.len, s.homeDie x.at_, 0, false⟩ :: ·)
    | .virt => match (s.ctx slot).translate x.at_ with
      | none => .error ⟨0x10, x.at_⟩
      | some (pg, _, pa) =>
        if !pg.read ∧ !k.writes then .error ⟨0x10, x.at_⟩
        else if !pg.write ∧ k.writes then .error ⟨0x11, x.at_⟩
        else (s.places slot k r).map (⟨.virt, x.at_, pa, x.len, pg.home, pg.arena, false⟩ :: ·)

/-- The translated parts of an access, or the first cause in the order of 17:R391 that any part meets. -/
def State.placed (s : State) (slot : Nat) (k : Kind) (ps : List Piece) : Except Miss (List Place) :=
  match s.places slot k ps with
  | .ok pl => .ok pl
  | .error m => .error (((ps.filterMap fun x => match s.places slot k [x] with
      | .error e => some e
      | .ok _ => none).find? fun e => e.cause = 0x10).getD m)

/-- Steps 7 and 8 of 17:R391 for a write: sealed arena, tile of another core, atomic not carried. `a` is the arena the request
carries; none takes it from the translation. -/
def State.writeCause (s : State) (slot core : Nat) (a : Option Nat) (carried : Bool) (ps : List Place) : Option Nat :=
  let c := s.ctx slot
  let virt := ps.filter fun p => p.win = .virt
  if virt.any fun p => (c.arena (a.getD p.arena)).state = .sealed then some 0x19
  else if virt.any fun p => match c.tileAt p.va with
    | some (r, t) => r.owner t ≠ core
    | none => false then some 0x1A
  else if !carried && ps.any (·.remote) then some 0x1C
  else none

/-! ## Loads and stores of a team -/

/-- A byte of the snapshot of an audit, which stands at the virtual address of `%arg` in the replay's view (19:R424, R425; log 26). -/
def Audit.snapshotAt (a : Audit) (arg : W64) (va : Nat) : Option Byte :=
  let b := arg.toNat % 2 ^ 57
  if b ≤ va then a.snapshot[va - b]? else none

/-- The bytes that a replay sees: its own output, then its snapshot, then memory (19:R425; log 26). -/
def State.shadowBytes (s : State) (u : LUnit) (va : Nat) (data : List Byte) : List Byte :=
  match u.replay with
  | some k => match s.audits[k]? with
    | some a => data.mapIdx fun i b => ((NMap.find? a.shadow (va + i)).orElse fun _ => a.snapshotAt u.launch.arg (va + i)).getD b
    | none => data
  | none => data

/-- An audit of which the replay reads memory of an arena: a sealed one is an input, and one that is dropped is lost (19:R426). -/
def Audit.reading (a : Audit) (arena : Nat) (st : ArenaState) : Audit :=
  match st with
  | .sealed => if a.reads.contains arena then a else { a with reads := a.reads ++ [arena] }
  | .dropping => { a with lost := true }
  | .dropped => { a with lost := true }
  | _ => a

/-- A read of memory by the unit of a request, which is noted when the unit is a replay. -/
def State.noteRead (s : State) (tg : Tags) (arena : Nat) : State :=
  match (s.unit? tg.unit).bind (·.replay) with
  | some k => match s.audits[k]? with
    | some a => { s with audits := s.audits.set k (a.reading arena ((s.ctx tg.slot).arena arena).state) }
    | none => s
  | none => s

/-- Is a scratchpad key in the footprint that a migration forwards from its old core (11:R341)? Once forwarding has ended and a unit has a
footprint on that core again, accesses are that unit's. -/
def State.forwards (s : State) (key : Nat) : Option (Nat × Migration) :=
  (s.migrations.mapIdx fun i m => (i, m)).find? fun e =>
    !(e.2.ended && s.units.any fun u => !u.complete && u.cores.contains e.2.old) && match s.teams[e.2.team]? with
    | some tm => match s.unit? tm.unit with
      | some u => padBase e.2.old ≤ key && key < padBase e.2.old + u.launch.scratch
      | none => false
    | none => false

/-- Where a scratchpad access through slot 7 to an old footprint goes: on to the new core, or nowhere (11:R341; 17:R407). -/
def State.forwarded (s : State) (key : Nat) : Option Nat :=
  match s.forwards key with
  | some (_, m) => if m.ended then none else if m.copying then some key else some (key - padBase m.old + padBase m.new)
  | none => some key

/-- The footprint that an access through slot 7 reaches is being copied to another core: what reads it waits for the copy (11:R341). -/
def State.inCopy (s : State) (key : Nat) : Bool :=
  match s.forwards key with
  | some (_, m) => m.copying && !m.ended
  | none => false

/-- What a load of a list of places gives. -/
structure Got where
  s     : State
  data  : List Byte
  stamp : Stamp
  miss  : Bool
  poison : Bool
  /-- It waits: for a link, or for a copy. -/
  stuck : Bool
  deriving DecidableEq, Repr

/-- The tags that an access through a place carries: `req` gives the arena and generation that a buffer record holds; none takes them from
the translation (03:R70). A haloed region is reached under hypothesis 0 (03:R96), and so is physical memory. -/
def State.placeTags (s : State) (tg : Tags) (req : Option (Nat × BitVec 6)) (p : Place) : Tags :=
  if p.win = .phys then { tg with phys := true, arena := 0, gen := 0, hyp := 0 } else
  let tg := match req with
    | some (a, g) => { tg with arena := a, gen := g }
    | none => s.withArena tg p.arena
  if ((s.ctx tg.slot).tileAt p.va).isSome then { tg with hyp := 0 } else tg

/-- An access through a place meets poison (19:R416). -/
def State.placePoisoned (s : State) (tg : Tags) (req : Option (Nat × BitVec 6)) (p : Place) : Bool :=
  if p.win = .pad then s.poisoned p.key p.len else
  let t := s.placeTags tg req p
  s.poisonedFor t.slot (s.actingOf t p.key) p.key p.len

/-- The load of the line of a memory place. -/
def State.loadMem (s : State) (tg : Tags) (o : LoadOpts) (req : Option (Nat × BitVec 6)) (i : Nat) (p : Place) : Loaded :=
  let t := s.placeTags tg req p
  if p.win = .phys then s.loadLine t o (dieOfCore tg.core) p.home (lineOf p.key) i false else
  let keep := (s.ctx tg.slot).keepsTile tg.core p.va
  let foreign := !keep && ((s.ctx tg.slot).tileAt p.va).isSome
  let r := (s.touchTlb tg.slot (p.va / 65536)).loadLine t { o with noL1 := o.noL1 || foreign } (dieOfCore tg.core) p.home (lineOf p.key) i keep
  match s.unit? tg.unit with
  | some u => { r with s := r.s.noteRead tg p.arena, line := { r.line with data := s.shadowBytes u (lineOf p.va) r.line.data } }
  | none => r

/-- One place of a load. -/
def State.loadPlace (s : State) (tg : Tags) (o : LoadOpts) (req : Option (Nat × BitVec 6)) (i : Nat) (p : Place) : Got :=
  if p.win = .pad then
    if p.shared then
      if s.inCopy p.key then ⟨s, List.replicate p.len 0, [], false, false, true⟩ else
      match s.forwarded p.key with
      | some k => ⟨s, s.bytes k p.len, [], false, s.poisoned k p.len, false⟩
      | none => ⟨s.countDrop tg.slot 4, List.replicate p.len 0, [], false, false, false⟩
    else ⟨s, s.bytes p.key p.len, [], false, s.poisoned p.key p.len, false⟩
  else
    let r := s.loadMem tg o req i p
    ⟨r.s, r.line.slice (p.key % 128) p.len, r.line.stampOf (p.key % 128) p.len, r.miss, s.placePoisoned tg req p, r.stuck⟩

/-- A load of the places in ascending order. -/
def State.loadPlaces (s : State) (tg : Tags) (o : LoadOpts) (req : Option (Nat × BitVec 6)) (i : Nat) : List Place → Got
  | [] => ⟨s, [], [], false, false, false⟩
  | p :: r =>
    let a := s.loadPlace tg o req i p
    let b := a.s.loadPlaces tg o req (i + 8) r
    ⟨b.s, a.data ++ b.data, joinStamp a.stamp b.stamp, a.miss || b.miss, a.poison || b.poison, a.stuck || b.stuck⟩

/-- Bytes by their offset from a key. -/
def indexed (bs : List Byte) : NMap Byte := bs.mapIdx fun i b => (i, b)

/-- A store of bytes to a scratchpad (03:R76); a replay writes its own only (19:R425). One through slot 7 to a footprint that moves is forwarded (11:R341). -/
def State.storePad (s : State) (tg : Tags) (shared : Bool) (key : Nat) (data : List Byte) : State :=
  if !shared then (s.poke key data).clearPoison key data.length else
  if ((s.unit? tg.unit).bind (·.replay)).isSome && key / 2 ^ 19 ≠ padBase tg.core / 2 ^ 19 then s else
  match s.forwards key with
  | none => (s.poke key data).clearPoison key data.length
  | some (i, m) =>
    let k := key - padBase m.old + padBase m.new
    if m.ended then { s with late := s.late ++ [⟨tg.team, tg.slot, false, key, indexed data⟩] }
    else if m.copying then { s with migrations := s.migrations.set i { m with waiting := m.waiting ++ [⟨tg.team, tg.slot, false, key, indexed data⟩] } }
    else (s.poke k data).clearPoison k data.length

/-- A store of a replay to the line at virtual address `va`: within the output region it goes to the shadow buffer, elsewhere it is
discarded (19:R425). -/
def State.storeShadow (s : State) (u : LUnit) (k va : Nat) (bytes : NMap Byte) : State :=
  match s.audits[k]? with
  | some a =>
    let inside (x : Nat) := u.launch.outBase.toNat ≤ x && x < u.launch.outBase.toNat + u.launch.outLen
    let sh := List.foldl (fun m (e : Nat × Byte) => if inside (va + e.1) then NMap.insert m (va + e.1) e.2 else m) a.shadow bytes
    { s with audits := s.audits.set k { a with shadow := sh } }
  | none => s

/-- A store of bytes, by offset, into the line of a memory place: one request (03:R69). A store to host or peer memory of an old
incarnation is dropped at the core (03:R108). -/
def State.storeMem (s : State) (tg : Tags) (req : Option (Nat × BitVec 6)) (p : Place) (bytes : NMap Byte) (row : Nat) (prevs : List Nat) :
    State :=
  match (s.unit? tg.unit).bind fun u => u.replay.map fun k => (u, k) with
  | some (u, k) => s.storeShadow u k (lineOf p.va) bytes
  | none =>
    if p.remote then
      if tg.inc ≠ (s.ctx tg.slot).inc then s.countDrop tg.slot 0 else
      { s with posted := s.posted ++ [⟨lineOf p.key, bytes, tg.slot, tg.inc, tg.unit, tg.team, s.clock, false⟩] }
    else
      let t := s.placeTags tg req p
      let d := dieOfCore tg.core
      if p.win = .phys then s.postStore t d p.home (lineOf p.key) bytes false row prevs else
      let s := s.touchTlb tg.slot (p.va / 65536)
      match (s.ctx tg.slot).tileAt p.va with
      | some (r, k) =>
        if r.owner k = tg.core then s.storeTile t p.home (lineOf p.key) bytes else s.postStore t d p.home (lineOf p.key) bytes false row prevs
      | none => s.postStore t d p.home (lineOf p.key) bytes false row prevs

/-- One place of a store; `prevs` are the lines of the same access that are performed first. -/
def State.storePlace (s : State) (tg : Tags) (req : Option (Nat × BitVec 6)) (prevs : List Nat) (p : Place) (data : List Byte) : State :=
  if p.win = .pad then s.storePad tg p.shared p.key data else s.storeMem tg req p (lineBytes p.key data) 0 prevs

/-- A store of the places of one access, in ascending order (06:R173). -/
def State.storePlaces (s : State) (tg : Tags) (req : Option (Nat × BitVec 6)) (prevs : List Nat) : List Place → List Byte → State
  | [], _ => s
  | p :: r, data => (s.storePlace tg req prevs p (data.take p.len)).storePlaces tg req [lineOf p.key] r (data.drop p.len)

/-- The stores to some places can be issued now: the die may issue so many to HBM (10:R311), and the lines of the core's own tiles are held or
can be filled (03:R96). -/
def State.storeRoom (s : State) (tm : Team) (pl : List Place) : Bool :=
  let n := (pl.filter fun p => p.win ≠ .pad && !p.remote).length
  (n = 0 || s.mayStore (dieOfCore tm.core) n) && pl.all fun p =>
    p.win ≠ .virt || p.remote || match (s.ctx tm.slot).tileAt p.va with
      | some (r, k) => r.owner k ≠ tm.core || s.tileReady tm.core tm.slot p.home (lineOf p.key)
      | none => true

/-! ## Traps (16:R366 to R376) -/

/-- What a trap records (16:R371). -/
structure TrapInfo where
  cause   : Nat
  /-- The trapping word is a lane word, at this lane-word index. -/
  lane    : Option Nat
  resume  : W64
  detailA : W64
  detailB : W64
  addr    : W64
  lanes   : Mask
  /-- Taken while blocked in the wait of a barrier: barrier and phase of the arrival (16:R441). -/
  barrier : Option (Nat × BitVec 32)
  /-- The fault-table entry that vectors: slot and page (17:R394). -/
  fault   : Option (Nat × Nat)
  /-- The copy entry, as core and queue, that cause 0x23 stands for (17:R397). -/
  copy    : Option (Nat × Nat)
  deriving DecidableEq, Repr

/-- A trap that records no more than a cause and details. -/
def TrapInfo.plain (cause : Nat) (resume a b : W64) : TrapInfo := ⟨cause, none, resume, a, b, 0, 0, none, none, none⟩

/-- One part written into a lane register. -/
def Team.putPart (tm : Team) (w : PartWrite) : Team :=
  let old := tm.lreg w.lane w.reg
  let m : W64 := BitVec.ofNat 64 ((2 ^ w.width - 1) * 2 ^ w.lo)
  tm.setLreg w.lane w.reg ((old &&& ~~~m) ||| ((w.val <<< w.lo) &&& m))

/-- Writes parts of lane registers at once. -/
def Team.putParts (tm : Team) (ws : List PartWrite) : Team := ws.foldl Team.putPart tm

/-- Every word already issued has completed (16:R366, R368): the results of long-latency words that are not yet written, and the reply of
an SX word. -/
def Team.flush (tm : Team) : Team :=
  let tm := match tm.reply with
    | some (d, v) => { tm.wr d v with reply := none }
    | none => tm
  { (tm.pending.foldl (fun tm p => tm.putParts p.writes) tm) with pending := [] }

/-- The block that runs, if a word of it is still to issue, and the queued ones (16:R368). -/
def Team.asideBlocks (tm : Team) : List RunBlock :=
  (match tm.run with
    | some r => if r.ended then [] else [{ r with words := 0, passes := 0 }]
    | none => []) ++ tm.queue.map fun b => ⟨b, b.start, none, false, 0, 0⟩

/-- The repeat index at which a team's lane stream stands (16:R367). -/
def Team.repAt (tm : Team) : Nat :=
  match tm.run with
  | some r => match r.rep with
    | some p => p.i
    | none => 0
  | none => 0

/-- The bytes of a trap record (16:R371): level, and whether the trap was taken in supervisor mode. -/
def trapRecord (tm : Team) (ti : TrapInfo) (level : Nat) : List Byte :=
  let q (x : Nat) : List Byte := leBytes 8 x
  let rep := if ti.lane.isSome then tm.repAt else 0
  q (ti.cause + level * 2 ^ 8 + (if ti.lane.isSome then 2 ^ 9 else 0) + (if level = 0 then 0 else 2 ^ 10)
      + (if ti.barrier.isSome then 2 ^ 11 else 0) + rep * 2 ^ 16)
    ++ q ti.resume.toNat ++ q (ti.lane.getD 0 + (tm.asideBlocks.length) * 2 ^ 32)
    ++ q ti.detailA.toNat ++ q ti.detailB.toNat
    ++ q (tm.rd 28).toNat ++ q (tm.rd 29).toNat ++ q (tm.rd 30).toNat ++ q (tm.rd 31).toNat
    ++ q tm.sticky.toNat ++ q ti.addr.toNat ++ List.replicate 40 0 ++ leBytes 128 ti.lanes.toNat

/-- A supervisor-window pointer to a physical address (12:R346). -/
def supPtr (pa : Nat) : W64 := BitVec.ofNat 64 (0xFF * 2 ^ 56 + pa % 2 ^ 56)

/-- The entry of a team's handler: the payload of its partition's image plus the offset stored at its start (16:R370). -/
def State.handlerEntry (s : State) (slot : Nat) : W64 :=
  match s.partOf slot with
  | some (_, p) => supPtr p.payload + BitVec.ofNat 64 (leNat (s.bytes p.payload 8))
  | none => supPtr 0 + BitVec.ofNat 64 (leNat (s.bytes 0 8))

/-- Marks every team of a unit for a kill, with the way it ends; its sequencer stops (16:R375, R380). -/
def State.failUnit (s : State) (u : Nat) (k : Kill) (e : Ending) : State :=
  match s.unit? u with
  | some x =>
    { (s.setUnit u { x with ending := some (x.ending.getD e), seqr := x.seqr.map fun q => { q with done := true } }) with
      teams := s.teams.mapIdx fun i t => if x.teams.contains i && t.state ≠ .exited && t.kill.isNone then { t with kill := some k } else t }
  | none => s

/-- An entry of the fault table closes: its waiters and the waiters of no entry issue their words again (17:R395). -/
def State.closeFault (s : State) (cluster slot page : Nat) : State :=
  let c := s.cluster cluster
  { (s.setCluster cluster { c with faults := c.faults.filter fun e => !(e.slot = slot && e.page = page) }) with
    teams := s.teams.map fun t =>
      if clusterOfCore t.core = cluster && t.state = .blocked &&
          (match t.wait with
           | some (.faultEntry x y _) => x = slot && y = page
           | some (.faultNone _) => true
           | _ => false) then
        { t with state := .ready, wait := none, since := s.clock }
      else t }

/-- Does the unit of a team replay a task (19:R425)? -/
def State.replays (s : State) (tm : Team) : Bool := ((s.unit? tm.unit).bind (·.replay)).isSome

/-- A replay that traps is abandoned: its team stops, and is to be killed (19:R426). -/
def State.abandonReplay (s : State) (t : Nat) (tm : Team) (cause : Nat) : State :=
  (s.setTeam t { tm.flush with state := .ready, wait := none, holding := none, run := none, queue := [] }).failUnit tm.unit .levelTwo (.levelTwo cause)

/-- A link leads from the core of a team to the home of its trap frame, which the record of a trap is written to (01:R22; 16:R370). -/
def State.frameReached (s : State) (tm : Team) : Bool := s.reachesOne (dieOfCore tm.core) (s.homeDie tm.frame)

/-- TAKING A TRAP (16:R368, R370, R375). Level 1: the record is written to the frame, s28 to s31 become the supervisor bank, the
lane blocks are set aside, the scalar stream goes to the handler. Inside a handler: level 2, which stops the team and kills its
troupe. While no link leads to the frame the trap waits (01:R22). A control core has no handler in the manual (log 16). -/
def takeTrap (s : State) (t : Nat) (tm : Team) (ti : TrapInfo) : Out :=
  if tm.ctrl.isSome then .fault (.controlCoreTrap ti.cause) else
  if s.replays tm then .next (s.abandonReplay t tm ti.cause) else
  if !s.frameReached tm then .next s else
  let s := s.cross (dieOfCore tm.core) (s.homeDie tm.frame)
  let tm := tm.flush
  if tm.level = 0 then
    let s := s.poke tm.frame (trapRecord tm ti 0)
    let aside : Aside := ⟨tm.asideBlocks, ti.barrier, ti.fault, ti.cause = 0x30, ti.copy⟩
    let tm' := (((tm.wr 28 (supPtr tm.frame)).wr 29 (BitVec.ofNat 64 ti.cause)).wr 30 ti.resume).wr 31 0
    .next (s.setTeam t { tm' with
      state := .trapped, wait := none, rewait := none, sxWait := false, level := 1, aside := some aside, queue := [], run := none, holding := none,
      repidx := if ti.lane.isSome then BitVec.ofNat 6 tm.repAt else tm.repidx, pc := s.handlerEntry tm.slot, since := s.clock })
  else
    let s := s.poke (tm.frame + 256) (trapRecord tm ti 1)
    let s := s.setTeam t { tm with state := .trapped, wait := none, level := 2, queue := [], run := none, holding := none,
                                   repidx := if ti.lane.isSome then BitVec.ofNat 6 tm.repAt else tm.repidx }
    let s := match tm.aside.bind (·.fault) with
      | some (slot, page) => s.closeFault (clusterOfCore tm.core) slot page
      | none => s
    let s := match s.partOf tm.slot with
      | some (p, _) => s.post (.levelTwo p t)
      | none => s
    .next (s.failUnit tm.unit .levelTwo (.levelTwo ti.cause))

/-- A trap at a scalar word: a running lane block first comes to its run boundary (16:R368). -/
def scalarTrap (s : State) (t : Nat) (tm : Team) (ti : TrapInfo) : Out :=
  if tm.holding.isSome then .next s else takeTrap s t tm ti

/-- Details of an encoding trap at a scalar word (16:R372). -/
def scalarWordOf (i : Instr) : W64 :=
  match encode i with
  | some (.scalar w) => w.zeroExtend 64
  | _ => 0

/-- A scalar word that cannot be carried out as written: cause with the word in detail A (16:R372). -/
def scalarReject (s : State) (t : Nat) (tm : Team) (cause : Nat) (i : Instr) : Out :=
  scalarTrap s t tm (.plain cause tm.pc (scalarWordOf i) 0)

/-- An unmapped page (17:R394). The first team to name it opens an entry and collects; later ones wait on it; a team that finds
the table full waits on no entry. Inside a handler it escalates (17:R396). A fault that comes in the clock in which the entry
opened counts like those of the next 15 (DEDUCED, log 45). -/
def pageFault (s : State) (t : Nat) (tm : Team) (va : Nat) (ti : TrapInfo) (kinds : BitVec 4) : Out :=
  if tm.level ≠ 0 ∨ tm.ctrl.isSome ∨ s.replays tm then takeTrap s t tm ti else
  let c := clusterOfCore tm.core
  let cl := s.cluster c
  let page := va / 65536
  let wait (w : Wait) (s : State) : Out :=
    .next (s.setTeam t { tm.undue with state := .blocked, wait := some w, holding := none, since := s.clock })
  match cl.faults.find? fun e => e.slot = tm.slot && e.page = page with
  | some e =>
    let e' := if s.islandClock tm.core < e.t0 + 16 then { e with waiters := e.waiters + 1, kinds := e.kinds ||| kinds } else e
    wait (.faultEntry tm.slot page ti.lane.isSome)
      (s.setCluster c { cl with faults := cl.faults.map fun x => if x.slot = tm.slot && x.page = page then e' else x })
  | none =>
    if 16 ≤ cl.faults.length then wait (.faultNone ti.lane.isSome) s else
    let e : FaultEntry := ⟨tm.slot, page, t, s.islandClock tm.core, 0, kinds, ti.addr, ti.detailA, ti.lanes, ti.detailB, ti.lane.isSome, false⟩
    .next ((s.setCluster c { cl with faults := cl.faults ++ [e] }).setTeam t
      { tm with state := .trapped, wait := none, holding := none, since := s.clock })

/-! ## Barriers (08:R247, R248; 06:R185, R186) -/

/-- Barrier `n` of a unit: at launch every team, with the sequencer when there is one (02:R47). -/
def LUnit.bar (u : LUnit) (n : Nat) : Barrier :=
  (NMap.find? u.bars n).getD ⟨BitVec.ofNat 17 (2 ^ u.teams.length - 1 + (if u.seqr.isSome then 2 ^ 16 else 0)), 0, 0⟩

/-- The members that can still arrive: teams that have not exited, a sequencer that has not ended (06:R185; 09:R277). -/
def State.livingMembers (s : State) (u : LUnit) : BitVec 17 :=
  let teams := (u.teams.mapIdx fun i t => (i, t)).foldl (fun (m : BitVec 17) e =>
    match s.teams[e.2]? with
    | some tm => if tm.state ≠ .exited then m ||| BitVec.ofNat 17 (2 ^ e.1) else m
    | none => m) 0
  teams ||| (if (u.seqr.map fun q => !q.done).getD false then BitVec.ofNat 17 (2 ^ 16) else 0)

/-- A team released from a barrier: it acquires at troupe scope before its next word; a wait is over, an arrival issues again. -/
def State.releaseFrom (s : State) (t n : Nat) : State :=
  match s.teams[t]? with
  | none => s
  | some tm =>
    match tm.wait with
    | some (.barArrive m) => if m = n then
        (s.setTeam t { tm with wait := none, since := s.clock, state := if tm.state = .blocked then .ready else tm.state }).acquire t 1
      else s
    | some (.barWait m _) => if m = n then
        (s.setTeam t { tm with wait := none, since := s.clock, pc := tm.pc + 4,
                               state := if tm.state = .blocked then .ready else tm.state }).acquire t 1
      else s
    | _ => s

/-- The sequencer of a unit released from `MBAR` (09:R274). -/
def LUnit.releaseSeq (u : LUnit) (n : Nat) : LUnit :=
  match u.seqr with
  | some q => match q.wait with
    | some (m, _) => if m = n then { u with seqr := some { q with wait := none } } else u
    | none => u
  | none => u

/-- Completes the phase of barrier `n` of unit `u` when every member has arrived and some team has; at an arrival it is enough that every
member has (06:R185; 08:R248). -/
def State.testBarrier (s : State) (u n : Nat) (arrival : Bool := false) : State :=
  match s.unit? u with
  | none => s
  | some x =>
    let b := x.bar n
    let need := b.members &&& s.livingMembers x
    if (arrival ∨ b.arrived.toNat % 2 ^ 16 ≠ 0) ∧ need &&& b.arrived = need then
      let x' := { x with bars := NMap.insert x.bars n { b with arrived := 0, phase := b.phase + 1 } }
      x.teams.foldl (fun s t => s.releaseFrom t n) (s.setUnit u (x'.releaseSeq n))
    else s

/-- Tests every barrier of a unit, as when a member leaves (06:R186). -/
def State.testBarriers (s : State) (u : Nat) : State := (List.range 16).foldl (fun s n => s.testBarrier u n) s

/-! ## The end of a team (02:R51; 06:R186, R189) -/

/-- The walks that a unit holds are freed, one handle at a time. -/
def State.freeWalks (s : State) (u : Nat) : State := { s with walks := s.walks.filter fun w => w.2.unit ≠ u }

/-- A stopped pass whose handler will not return is abandoned, and the troupe fails (16:R381). -/
def State.abandonPass (s : State) (u : Nat) : State :=
  match s.unit? u with
  | some x => match x.seqr with
    | some q =>
      let s := match s.partOf x.slot with
        | some (p, _) => s.post (.matrixAbandoned p u)
        | none => s
      (s.setUnit u { x with seqr := some { q with fault := none, done := true } }).failUnit u .matrix (.matrix 0x30)
    | none => s
  | none => s

/-- A trap frame returns to the pool of its partition (11:R327). -/
def State.freeFrame (s : State) (slot frame : Nat) : State :=
  { s with parts := List.map (fun p : Nat × Partition =>
      if p.2.slots.contains slot then (p.1, { p.2 with framesUsed := p.2.framesUsed.filter (· ≠ frame) }) else p) s.parts }

/-- A copy fault whose team left its handler by `TEXIT` is to be delivered again (17:R397). -/
def State.redeliverCopy (s : State) : Option (Nat × Nat) → State
  | none => s
  | some (c, k) =>
    let q := s.ceq c k
    s.setCeq c k { q with entries := q.entries.map fun e => match e.state with
      | .stalled _ va => { e with state := .stalled false va }
      | _ => e }

/-- A team gives up an access to host or peer memory: the answer is still to come, and will be discarded (03:R88). -/
def State.abandonRemote (s : State) (tm : Team) : State :=
  match tm.remote with
  | some r => { s with stray := s.stray ++ [⟨tm.slot, tm.inc, r.since⟩] }
  | none => s

/-- The responses that an ended team still waits for: those of host and peer memory are still to come, those of the home slices are dropped
and counted if its incarnation is old (03:R88, R108). -/
def State.dropResponses (s : State) (tm : Team) : State :=
  let n := if tm.ctrl.isNone && tm.inc ≠ (s.ctx tm.slot).inc then (tm.pending.filter (·.resp)).length else 0
  (List.range n).foldl (fun s _ => s.countDrop tm.slot 0) (s.abandonRemote tm)

/-- A team passes to the exited state: its charge, slot and frame are free, it leaves the barriers of its troupe, an entry of
the fault table that it opened closes. -/
def State.exitTeam (s : State) (t : Nat) (value : BitVec 48) : State :=
  match s.teams[t]? with
  | none => s
  | some tm =>
    let s := (s.dropResponses tm).setTeam t { tm with
      state := .exited, wait := none, holding := none, queue := [], run := none, pending := [], aside := none, reply := none,
      remote := none, rewait := none, sxWait := false, lost := false, deadline := none, expired := false }
    let cl := s.cluster (clusterOfCore tm.core)
    let s := s.setCluster (clusterOfCore tm.core) { cl with green := cl.green.filter (· ≠ t) }
    let s := (s.freeFrame tm.slot tm.frame).redeliverCopy (tm.aside.bind (·.copy))
    let s := ((s.cluster (clusterOfCore tm.core)).faults.filter fun e => e.opener = t).foldl
      (fun (s : State) e => s.closeFault (clusterOfCore tm.core) e.slot e.page) s
    match s.unit? tm.unit with
    | none => s
    | some u =>
      let s := s.setUnit tm.unit { u with exitVal := value }
      let s := s.testBarriers tm.unit
      if (tm.aside.map (·.matrix)).getD false then s.abandonPass tm.unit else s

/-- Every team of a unit has exited. -/
def State.unitOver (s : State) (u : LUnit) : Bool :=
  u.teams.all fun t => match s.teams[t]? with
    | some tm => tm.state = .exited
    | none => true

/-! ## The return from a handler (16:R373, R381, R441; 17:R395, R397) -/

/-- The stalled copy entry at the head of a queue goes on (17:R397). -/
def CeQueue.retry (q : CeQueue) : CeQueue :=
  { q with entries := q.entries.map fun e => match e.state with
      | .stalled _ _ => { e with state := .waiting }
      | _ => e }

/-- The stopped pass of a unit is posted again at the head of its entries (16:R381). -/
def State.repostPass (s : State) (u : Nat) : State :=
  match s.unit? u with
  | some x => match x.seqr with
    | some q => match q.fault with
      | some f =>
        let s := s.setUnit u { x with seqr := some { q with fault := none } }
        match f.pass with
        | some p => let c := s.cluster x.cluster
                    s.setCluster x.cluster
                      { c with table := { p with row := f.row, posted := s.islandClock (4 * x.cluster), passed := 0 } :: c.table }
        | none => s
      | none => s
    | none => s
  | none => s

/-- The stopped block as the record places it: a trapped lane word resumes at the record's lane index and repidx (16:R373). -/
def RunBlock.resumeAt (r : RunBlock) (lane : Bool) (idx : Nat) (rep : Nat) : RunBlock :=
  if !lane then r else
  { r with pos := BitVec.ofNat 26 idx, rep := if idx = r.pos.toNat then r.rep.map fun p => { p with i := rep } else none }

/-- RETURN FROM A HANDLER: s28 to s31 and the resumption address are those that the record then holds; the k oldest of the blocks set
aside are the queue again, with k from the record (18:R414), and a seed written before a discarded block, which no later write replaced,
reseeds the lanes for the blocks enqueued after it (04:R120); the fault-table entry closes; a team that was in the wait of a barrier
takes it up again with its next step (16:R441). -/
def returnFromTrap (s : State) (t : Nat) (tm : Team) : State :=
  let q (o : Nat) : W64 := BitVec.ofNat 64 (leNat (s.bytes (tm.frame + o) 8))
  let a := tm.aside.getD ⟨[], none, none, false, none⟩
  let tm1 := (((tm.wr 28 (q 0x28)).wr 29 (q 0x30)).wr 30 (q 0x38)).wr 31 (q 0x40)
  let k := fld (q 0x10) 34 32
  let blocks := a.blocks.take k
  let run := match blocks.head? with
    | some r =>
      let r := r.resumeAt (bitOf (q 0) 9) (fld (q 0x10) 25 0) (fld (q 0) 21 16)
      if r.pos ≠ r.blk.start ∨ r.rep.isSome then some r else none
    | none => none
  let queue := (if run.isSome then blocks.tail else blocks).map (·.blk)
  let tm2 := { tm1 with state := .ready, level := 0, aside := none, pc := q 0x08, run := run, queue := queue,
                        holding := none, rewait := a.barrier, since := s.clock,
                        reseed := tm.reseed.orElse fun _ => (a.blocks.drop k).reverse.findSome? fun r => r.blk.reseed }
  let s1 := s.setTeam t tm2
  let s2 := match a.fault with
    | some (slot, page) => s1.closeFault (clusterOfCore tm.core) slot page
    | none => s1
  let s3 := if a.matrix then s2.repostPass tm.unit else s2
  let s4 := match a.copy with
    | some (c, k) => s3.setCeq c k (s3.ceq c k).retry
    | none => s3
  s4

/-- The mark of a team as a state has it: what a word does to its context may mark its own team (02:R55; 03:R103). -/
def State.killOf (s : State) (t : Nat) (tm : Team) : Option Kill :=
  match s.teams[t]? with
  | some x => x.kill
  | none => tm.kill

/-- The next state of a step that only changes the team that moves. -/
def State.nextTeam (s : State) (t : Nat) (tm : Team) : Out := .next (s.setTeam t tm)

end Sys2Proof.Machine
end

