-- ==== Sys2Proof/Machine/Failure.lean ====
section
/-!
DEFINITION. Failure records (19:R421, R422), the partition's view of cores (06:R181), effective priority (02:R63).
-/
namespace Sys2Proof.Machine

/-- An entry of a failure record (19:R422). -/
structure FailEntry where
  code    : Nat
  kind    : Nat
  attempt : Nat
  unit    : Nat
  addr    : Nat
  a       : Nat
  b       : Nat
  deriving DecidableEq, Repr

/-- The 32 bytes of an entry. -/
def FailEntry.bytes (e : FailEntry) : List Byte :=
  leBytes 8 (e.code % 2 ^ 16 + e.kind % 8 * 2 ^ 16 + e.attempt % 4 * 2 ^ 19 + e.unit % 2 ^ 32 * 2 ^ 32)
    ++ leBytes 8 e.addr ++ leBytes 8 e.a ++ leBytes 8 e.b

/-- The team of a unit whose `%teamid` is 0. -/
def State.leader (s : State) (u : LUnit) : Option Team := u.teams.head?.bind fun t => s.teams[t]?

/-- The leader core (02:R44). When its team 0 has moved to another core the sequencer goes with it: the manual does not
say (DESIGN CHOICE, log 73). -/
def State.leaderCore (s : State) (u : LUnit) : Nat := ((s.leader u).map (·.core)).getD 0

/-- The `%troupe` value of a unit (02:R43). -/
def LUnit.troupe (u : LUnit) : Nat := u.queue % 1024 * 2 ^ 22 + u.seq.toNat

/-- Bytes of a failure record are written at their home, where the writer acts (DESIGN CHOICE, log 87); cached copies of the line go. -/
def State.pokeRecord (s : State) (k : Nat) (bs : List Byte) : State := (s.poke k bs).invalidate k

/-- Writes an entry into the failure record of queue `q`, or counts it in LOST, and tells the control core (19:R421). -/
def State.recordFailure (s : State) (q : Nat) (e : FailEntry) : State :=
  match s.partOfQueue q with
  | none => s
  | some (p, pt) =>
    let base := pt.failBase + 2048 * q
    let wcnt := leNat (s.bytes base 4)
    let rcnt := leNat (s.bytes (base + 8) 4)
    if (wcnt + 2 ^ 32 - rcnt) % 2 ^ 32 < 62 then
      ((s.pokeRecord (base + 0x40 + 32 * (wcnt % 62)) e.bytes).pokeRecord base (leBytes 4 (wcnt + 1))).post (.failure p q)
    else s.pokeRecord (base + 4) (leBytes 4 (leNat (s.bytes (base + 4) 4) + 1))

/-- An entry about a unit, with `%time` as detail B (19:R422). -/
def State.failUnitEntry (s : State) (u : LUnit) (code kind addr a : Nat) : State :=
  s.recordFailure u.queue ⟨code, kind, u.attempt, u.troupe, addr, a, s.clock⟩

/-- The active cores of a partition (12:R345; 11:R344). -/
def State.activeCores (s : State) (p : Partition) : List Nat :=
  (p.islands.flatMap fun i => (List.range 16).map fun k => 16 * i + k).filter fun c => !(s.core c).retired

/-- The partition that a team works in: that of its context slot; for a control core that of the image it runs (12:R345). -/
def State.partOfTeam (s : State) (tm : Team) : Option (Nat × Partition) :=
  match tm.part with
  | some p => (NMap.find? s.parts p).map fun x => (p, x)
  | none => s.partOf tm.slot

/-- `%ncores` of a team. -/
def State.ncores (s : State) (tm : Team) : Nat :=
  match s.partOfTeam tm with
  | some (_, p) => (s.activeCores p).length
  | none => 0

/-- The barrier a team waits at, if any. -/
def Team.waitsAt (tm : Team) : Option Nat :=
  match tm.wait with
  | some (.barArrive n) => some n
  | some (.barWait n _) => some n
  | _ => none

/-- The barrier at which the sequencer of a unit waits, if any. -/
def LUnit.seqWaitsAt (u : LUnit) : Option Nat := (u.seqr.bind (·.wait)).map (·.1)

/-- Member `i` takes part in barrier `n` and has not yet reached it. -/
def LUnit.awaited (u : LUnit) (n i : Nat) : Bool := (u.bar n).members.getLsbD i && !(u.bar n).arrived.getLsbD i

/-- One round of 02:R63 over the teams of a unit, given by index with the priority so far. -/
def State.lendRound (s : State) (u : LUnit) (ps : List Nat) : List Nat :=
  ps.mapIdx fun i p =>
    let p := match u.seqWaitsAt with
      | some n => if u.awaited n i then max p (ps.foldl max 0) else p
      | none => p
    (u.teams.mapIdx fun j t => (j, t)).foldl (fun acc e =>
      match s.teams[e.2]? with
      | some w => match w.waitsAt with
        | some n => if u.awaited n i && e.1 ≠ i then max acc (ps.getD e.1 0) else acc
        | none => acc
      | none => acc) p

/-- The effective priorities of the teams of a unit, in order (02:R63). -/
def State.effPrios (s : State) (u : LUnit) : List Nat :=
  (List.range 16).foldl (fun ps _ => s.lendRound u ps)
    (u.teams.map fun t => match s.teams[t]? with | some tm => tm.prio | none => 0)

/-- The effective priority of a team (02:R63). -/
def State.effPrio (s : State) (tm : Team) : Nat :=
  match s.unit? tm.unit with
  | some u => (s.effPrios u).getD tm.teamid tm.prio
  | none => tm.prio

/-! ## Releases (08:R239, R243, R244; 03:R97; 17:R412) -/

/-- Physical address of the first byte of a posted write, and the bytes from there to its last. -/
def PostedWrite.span (w : PostedWrite) : Nat × Nat :=
  let lo := (w.bytes.map (·.1)).foldl min 128
  (w.line + lo, (w.bytes.map (·.1)).foldl max 0 + 1 - lo)

/-- The lost writes of a team are recorded and counted (17:R412). -/
def State.reportLost (s : State) (t : Nat) : State :=
  let lost := s.posted.filter fun w => w.team = t
  let s := { s with posted := s.posted.filter fun w => w.team ≠ t }
  lost.foldl (fun s w =>
    let s := s.countDrop w.slot 5
    match s.unit? w.unit with
    | some u => s.failUnitEntry u 0x0540 6 w.span.1 w.span.2
    | none => s) s

/-- The stores of a team have been performed at a scope, with the steps of 03:R97 for its core at troupe scope or wider. -/
def State.released (s : State) (t core scope : Nat) : Bool := s.performed t scope && (scope = 0 || s.tilesBack core)

/-- What a completed release leaves: the team's lane-block stores on their way stand before its later engine commands (09:R282); one at
system scope has recorded the writes that were lost. -/
def State.afterRelease (s : State) (t scope : Nat) : State :=
  if scope = 0 then
    { s with flight := s.flight.map fun r => if r.tags.team = t then { r with tags := { r.tags with block := false } } else r }
  else if scope = 5 then s.reportLost t else s

/-- A release at a scope by team `t`: posts the write-back of its core's tiles, waits until its stores are performed, then goes
on with `k` (08:R239, R243; 03:R97). -/
def withRelease (s : State) (t : Nat) (tm : Team) (scope : Nat) (k : State → Out) : Out :=
  if scope ≠ 0 ∧ s.dirtyTiles tm.core then .next (s.releaseTiles (s.tagsOf t tm) tm.core)
  else if s.released t tm.core scope then k (s.afterRelease t scope) else .next s

end Sys2Proof.Machine
end

