-- ==== Sys2Proof/Machine/Flags.lean ====
section
/-!
DEFINITION. The bits of `%sticky` (02:R43) and who sets them.
-/
namespace Sys2Proof.Machine

/-- DZ: a scalar division by zero (06:R169). -/
def stickyDZ : BitVec 3 := 1
/-- OV: an overflow in a lane word with `.chk` (07:R200). -/
def stickyOV : BitVec 3 := 2
/-- MX: a matrix checksum mismatch (09:R276). -/
def stickyMX : BitVec 3 := 4

/-- Sets bits of `%sticky`; none is ever cleared but by `WRSP`. -/
def Team.stick (tm : Team) (b : BitVec 3) : Team := { tm with sticky := tm.sticky ||| b }

/-- Sets bits of `%sticky` where a condition holds. -/
def Team.stickIf (tm : Team) (c : Bool) (b : BitVec 3) : Team := if c then tm.stick b else tm

end Sys2Proof.Machine
end

