-- ==== Sys2Proof/Machine/Scalar.lean ====
section
/-!
DEFINITION. The scalar stream: integer functions, immediates, branches and jumps (06:R166 to R176).
-/
namespace Sys2Proof.Machine

/-! ## Shared shapes -/

/-- A word that writes a value to sd and goes on (06:R166: the sources are read first). -/
def scalarResult (s : State) (d : BitVec 5) (val : Team → W64) : Out :=
  onScalar s fun t tm => s.nextTeam t (tm.wr d (val tm)).advance

/-- An SR integer function (06:R168). -/
def srWord (s : State) (f : SR) (op : W64 → W64 → W64) : Out := scalarResult s f.d fun tm => op (tm.rd f.a) (tm.rd f.b)

/-- A division: as `srWord`, and a zero divisor sets DZ (06:R169). -/
def divWord (s : State) (f : SR) (op : W64 → W64 → W64) : Out :=
  onScalar s fun t tm =>
    s.nextTeam t (((tm.wr f.d (op (tm.rd f.a) (tm.rd f.b))).stickIf (tm.rd f.b = 0) stickyDZ).advance)

/-- An SI arithmetic word: the operation on S[sa] and imm16 (06:R170). -/
def siWord (s : State) (f : SI) (op : W64 → BitVec 16 → W64) : Out := scalarResult s f.d fun tm => op (tm.rd f.a) f.i

/-- A truth value as a register. -/
def flag (b : Bool) : W64 := if b then 1 else 0

/-- A byte offset from a word offset of a branch or jump (06:R175, R176). -/
def wordOffset (o : BitVec n) : W64 := (o.signExtend 64) <<< 2

/-- A conditional branch (06:R175). -/
def branchWord (s : State) (f : SB) (taken : W64 → W64 → Bool) : Out :=
  onScalar s fun t tm =>
    s.nextTeam t { tm with pc := if taken (tm.rd f.a) (tm.rd f.b) then tm.pc + wordOffset f.o else tm.pc + 4 }

/-! ## Integer functions (06:R168, R169) -/

/-- `ADD`. -/
def execAdd (f : SR) (s : State) : Out := srWord s f fun a b => a + b
/-- `SUB`. -/
def execSub (f : SR) (s : State) : Out := srWord s f fun a b => a - b
/-- `MUL`. -/
def execMul (f : SR) (s : State) : Out := srWord s f fun a b => a * b
/-- `MULH`: bits [127:64] of the signed product. -/
def execMulh (f : SR) (s : State) : Out := srWord s f fun a b => (a.signExtend 128 * b.signExtend 128).extractLsb' 64 64
/-- `MULHU`: bits [127:64] of the unsigned product. -/
def execMulhu (f : SR) (s : State) : Out := srWord s f fun a b => (a.zeroExtend 128 * b.zeroExtend 128).extractLsb' 64 64
/-- `DIV`: truncated toward zero; all ones for a zero divisor. -/
def execDiv (f : SR) (s : State) : Out := divWord s f fun a b => if b = 0 then BitVec.allOnes 64 else a.sdiv b
/-- `DIVU`. -/
def execDivu (f : SR) (s : State) : Out := divWord s f fun a b => if b = 0 then BitVec.allOnes 64 else a / b
/-- `REM`: the sign of a; a itself for a zero divisor. -/
def execRem (f : SR) (s : State) : Out := divWord s f fun a b => if b = 0 then a else a.srem b
/-- `REMU`. -/
def execRemu (f : SR) (s : State) : Out := divWord s f fun a b => if b = 0 then a else a % b
/-- `AND`. -/
def execAnd (f : SR) (s : State) : Out := srWord s f fun a b => a &&& b
/-- `OR`. -/
def execOr (f : SR) (s : State) : Out := srWord s f fun a b => a ||| b
/-- `XOR`. -/
def execXor (f : SR) (s : State) : Out := srWord s f fun a b => a ^^^ b
/-- `SHL` by b[5:0]. -/
def execShl (f : SR) (s : State) : Out := srWord s f fun a b => a <<< (b.toNat % 64)
/-- `SHR` by b[5:0]. -/
def execShr (f : SR) (s : State) : Out := srWord s f fun a b => a >>> (b.toNat % 64)
/-- `SRA` by b[5:0]. -/
def execSra (f : SR) (s : State) : Out := srWord s f fun a b => a.sshiftRight (b.toNat % 64)
/-- `SLT`. -/
def execSlt (f : SR) (s : State) : Out := srWord s f fun a b => flag (a.slt b)
/-- `SLTU`. -/
def execSltu (f : SR) (s : State) : Out := srWord s f fun a b => flag (a.ult b)
/-- `MIN` as I64. -/
def execMin (f : SR) (s : State) : Out := srWord s f fun a b => if a.slt b then a else b
/-- `MAX` as I64. -/
def execMax (f : SR) (s : State) : Out := srWord s f fun a b => if a.slt b then b else a
/-- `MINU`. -/
def execMinu (f : SR) (s : State) : Out := srWord s f fun a b => if a.ult b then a else b
/-- `MAXU`. -/
def execMaxu (f : SR) (s : State) : Out := srWord s f fun a b => if a.ult b then b else a

/-! ## Immediates (06:R170) -/

/-- `ADDI`. -/
def execAddi (f : SI) (s : State) : Out := siWord s f fun a i => a + i.signExtend 64
/-- `ANDI`. -/
def execAndi (f : SI) (s : State) : Out := siWord s f fun a i => a &&& i.zeroExtend 64
/-- `ORI`. -/
def execOri (f : SI) (s : State) : Out := siWord s f fun a i => a ||| i.zeroExtend 64
/-- `XORI`. -/
def execXori (f : SI) (s : State) : Out := siWord s f fun a i => a ^^^ i.zeroExtend 64
/-- `SLTI`. -/
def execSlti (f : SI) (s : State) : Out := siWord s f fun a i => flag (a.slt (i.signExtend 64))
/-- `SLTIU`: the sign-extended immediate, compared as U64. -/
def execSltiu (f : SI) (s : State) : Out := siWord s f fun a i => flag (a.ult (i.signExtend 64))
/-- `SHLI` by imm16[5:0]. -/
def execShli (f : SI) (s : State) : Out := siWord s f fun a i => a <<< (i.toNat % 64)
/-- `SHRI` by imm16[5:0]. -/
def execShri (f : SI) (s : State) : Out := siWord s f fun a i => a >>> (i.toNat % 64)
/-- `SRAI` by imm16[5:0]. -/
def execSrai (f : SI) (s : State) : Out := siWord s f fun a i => a.sshiftRight (i.toNat % 64)
/-- `LUI`: sa is ignored. -/
def execLui (f : SI) (s : State) : Out := siWord s f fun _ i => i.signExtend 64 <<< 16
/-- `SHORI`. -/
def execShori (f : SI) (s : State) : Out := siWord s f fun a i => (a <<< 16) ||| i.zeroExtend 64

/-! ## Branches and jumps (06:R175, R176) -/

/-- `BEQ`. -/
def execBeq (f : SB) (s : State) : Out := branchWord s f fun a b => a == b
/-- `BNE`. -/
def execBne (f : SB) (s : State) : Out := branchWord s f fun a b => a != b
/-- `BLT`. -/
def execBlt (f : SB) (s : State) : Out := branchWord s f fun a b => a.slt b
/-- `BGE`. -/
def execBge (f : SB) (s : State) : Out := branchWord s f fun a b => !a.slt b
/-- `BLTU`. -/
def execBltu (f : SB) (s : State) : Out := branchWord s f fun a b => a.ult b
/-- `BGEU`. -/
def execBgeu (f : SB) (s : State) : Out := branchWord s f fun a b => !a.ult b

/-- `J`. -/
def execJ (f : SJ) (s : State) : Out := onScalar s fun t tm => s.nextTeam t { tm with pc := tm.pc + wordOffset f.o }
/-- `JAL`: the link goes to s31. -/
def execJal (f : SJ) (s : State) : Out :=
  onScalar s fun t tm => s.nextTeam t { tm.wr 31 (tm.pc + 4) with pc := tm.pc + wordOffset f.o }
/-- `JR`: a target that is no multiple of 4 traps with cause 0x07 (16:R378). -/
def execJr (f : SR) (s : State) : Out :=
  onScalar s fun t tm =>
    if (tm.rd f.a).toNat % 4 = 0 then s.nextTeam t { tm with pc := tm.rd f.a }
    else scalarTrap s t tm (.plain 0x07 tm.pc (tm.rd f.a) 0)
/-- `JALR`: the old S[sa] is the target; a trap writes no link (16:R378). -/
def execJalr (f : SR) (s : State) : Out :=
  onScalar s fun t tm =>
    if (tm.rd f.a).toNat % 4 = 0 then s.nextTeam t { tm.wr f.d (tm.pc + 4) with pc := tm.rd f.a }
    else scalarTrap s t tm (.plain 0x07 tm.pc (tm.rd f.a) 0)

end Sys2Proof.Machine
end

