-- ==== Sys2Proof/Machine/ScalarMem.lean ====
section
/-!
DEFINITION. Scalar loads and stores, `BLD` and `BST` (06:R171 to R174; 17:R390 to R394).
-/
namespace Sys2Proof.Machine

/-- Bits [3:0] of detail B (17:R391): what the access does. -/
def Kind.bits : Kind → Nat
  | .load => 1
  | .store => 2
  | .atomic => 4

/-- Detail B of a memory cause (17:R391). `req` is the arena and generation, with whether a buffer record gave them. -/
def memDetailB (kinds waiters : Nat) (arena gen : Nat) (hyp : Nat) (fromRec : Bool) : W64 :=
  BitVec.ofNat 64 (kinds + waiters % 65536 * 2 ^ 16 + arena % 1024 * 2 ^ 32 + gen % 64 * 2 ^ 42 + hyp % 256 * 2 ^ 48
    + (if fromRec then 2 ^ 56 else 0))

/-- Is a class 10 address one whose import entry is not valid (12:R357)? -/
def State.peerDead (s : State) (tm : Team) (key : Nat) : Bool :=
  physClass key = 2 && match s.partOfTeam tm with
    | some (_, p) => (NMap.find? p.imports (key / 2 ^ 47 % 128)).isNone
    | none => true

/-- The same for the hardware of a context. -/
def State.peerGone (s : State) (slot key : Nat) : Bool := s.peerDead { Team.atReset with slot := slot } key

/-- The pointer of a scalar access: S[sa] plus the sign-extended immediate (06:R171). -/
def Team.scalarPtr (tm : Team) (f : SI) : W64 := tm.rd f.a + f.i.signExtend 64

/-- The checks of a scalar access (17:R391), with the place of each part, or the cause and the address that meets it. -/
def State.scalarPlaces (s : State) (tm : Team) (k : Kind) (align : Nat) (p : W64) (n : Nat) : Except Miss (List Place) :=
  match s.resolve tm 0 p n with
  | .error c => .error ⟨c, 0⟩
  | .ok ps =>
    if p.toNat % align ≠ 0 then .error ⟨0x18, 0⟩ else
    match s.placed tm.slot k ps with
    | .error m => .error m
    | .ok pl =>
      match (if k.writes then s.writeCause tm.slot tm.core none true pl else none) with
      | some c => .error ⟨c, 0⟩
      | none =>
        if k = .load ∧ pl.any (fun x => x.remote && s.peerDead tm x.key) then .error ⟨0x1D, 0⟩ else .ok pl

/-- The arena and generation of detail B that come from a translation: of a global pointer; 0 through other windows, whose bytes belong
to arena 0 or to none (03:R70, R72, R76). -/
def State.detailArena (s : State) (tm : Team) (p : W64) : Nat × Nat :=
  if p.toNat / 2 ^ 57 ≠ 0 then (0, 0) else
  let c := s.ctx tm.slot
  match c.translate p.toNat with
  | some (pg, _, _) => (pg.arena, (c.arena pg.arena).gen.toNat)
  | none => (0, (c.arena 0).gen.toNat)

/-- A memory cause at a scalar word: cause 0x10 goes through the fault table, with the access as lane 0 (17:R394). -/
def scalarMemTrap (s : State) (t : Nat) (tm : Team) (k : Kind) (p : W64) (m : Miss) : Out :=
  if tm.holding.isSome then .next s else
  let va := m.va
  let a := s.detailArena tm p
  let ti : TrapInfo := ⟨m.cause, none, tm.pc, p, memDetailB k.bits 0 a.1 a.2 tm.hyp false,
    if m.cause = 0x10 ∨ m.cause = 0x11 then BitVec.ofNat 64 va else 0, 1, none, none, none⟩
  if m.cause = 0x10 then pageFault s t tm va ti (BitVec.ofNat 4 k.bits) else takeTrap s t tm ti

/-- The team waits for host or peer memory: it is blocked, but in a handler it stays trapped (02:R52). -/
def Team.awaitRemote (tm : Team) (r : RemoteOp) : Team :=
  { tm.undue with state := if tm.state = .trapped then .trapped else .blocked, wait := some .remote, since := r.since, remote := some r }

/-- An access of an old incarnation to host or peer memory: the core's issue port drops and counts it (03:R108). -/
def State.oldInc (s : State) (tm : Team) : Bool := tm.inc ≠ (s.ctx tm.slot).inc

/-- A load of `n` bytes at p: `k` gets the state, the team and the bytes. A load of host or peer memory blocks the team until the
answer arrives (12:R356; 02:R52); a load that meets poison makes its unit a consumer (19:R416). -/
def scalarLoadWord (s : State) (i : Instr) (align : Nat) (ptr : Team → W64) (n : Nat)
    (k : Team → List Byte → Team) : Out :=
  onScalar s fun t tm =>
    let p := ptr tm
    match s.scalarPlaces tm .load align p n with
    | .error m => scalarMemTrap s t tm .load p m
    | .ok pl =>
      if pl.any (·.remote) then
        if tm.holding.isSome then .next s else
        if s.oldInc tm then (s.countDrop tm.slot 0).nextTeam t (k tm (List.replicate n 0)) else
        s.nextTeam t (tm.awaitRemote ⟨i, pl.map fun x => (0, x.key, x.len), false, s.clock⟩)
      else
        let g := s.loadPlaces (s.tagsOf t tm) ⟨false, false, 0⟩ none 0 pl
        if g.stuck then .next s else
        let s' := if g.poison then g.s.consumePoison tm.unit else g.s
        s'.nextTeam t { k tm g.data with seen := joinStamp tm.seen g.stamp }

/-- A load into sd, extended by `conv` (06:R171). -/
def loadWord (s : State) (i : Instr) (f : SI) (n : Nat) (conv : Nat → W64) : Out :=
  scalarLoadWord s i 1 (·.scalarPtr f) n fun tm bs => (tm.wr f.d (conv (leNat bs))).advance

/-- A store of `n` bytes at p (06:R171, R172). -/
def scalarStoreWord (s : State) (align : Nat) (ptr : Team → W64) (n : Nat) (val : Team → Nat) : Out :=
  onScalar s fun t tm =>
    let p := ptr tm
    match s.scalarPlaces tm .store align p n with
    | .error m => scalarMemTrap s t tm .store p m
    | .ok pl =>
      if s.storeRoom tm pl then
        (s.storePlaces (s.tagsOf t tm) none [] pl (leBytes n (val tm))).nextTeam t tm.advance
      else .next s

/-- A store of the low `n` bytes of S[sd] (06:R171). -/
def storeWord (s : State) (f : SI) (n : Nat) : Out :=
  scalarStoreWord s 1 (·.scalarPtr f) n fun tm => (tm.rd f.d).toNat

/-- `LDB`. -/
def execLdb (f : SI) (s : State) : Out := loadWord s (.ldb f) f 1 fun x => (BitVec.ofNat 8 x).signExtend 64
/-- `LDBU`. -/
def execLdbu (f : SI) (s : State) : Out := loadWord s (.ldbu f) f 1 fun x => BitVec.ofNat 64 x
/-- `LDH`. -/
def execLdh (f : SI) (s : State) : Out := loadWord s (.ldh f) f 2 fun x => (BitVec.ofNat 16 x).signExtend 64
/-- `LDHU`. -/
def execLdhu (f : SI) (s : State) : Out := loadWord s (.ldhu f) f 2 fun x => BitVec.ofNat 64 x
/-- `LDW`. -/
def execLdw (f : SI) (s : State) : Out := loadWord s (.ldw f) f 4 fun x => (BitVec.ofNat 32 x).signExtend 64
/-- `LDWU`. -/
def execLdwu (f : SI) (s : State) : Out := loadWord s (.ldwu f) f 4 fun x => BitVec.ofNat 64 x
/-- `LDD`. -/
def execLdd (f : SI) (s : State) : Out := loadWord s (.ldd f) f 8 fun x => BitVec.ofNat 64 x
/-- `STB`. -/
def execStb (f : SI) (s : State) : Out := storeWord s f 1
/-- `STH`. -/
def execSth (f : SI) (s : State) : Out := storeWord s f 2
/-- `STW`. -/
def execStw (f : SI) (s : State) : Out := storeWord s f 4
/-- `STD`. -/
def execStd (f : SI) (s : State) : Out := storeWord s f 8

/-- `BLD`: drains, then loads the 32 bytes of a record into b(sd[3:0]) (06:R174). -/
def execBld (f : SI) (s : State) : Out :=
  onScalar s fun _ tm =>
    if tm.drained then
      scalarLoadWord s (.bld f) 32 (·.scalarPtr f) 32 fun tm bs =>
        (tm.setBreg (f.d.toNat % 16) (BitVec.ofNat 256 (leNat bs))).advance
    else .next s

/-- `BST`: stores the 32 bytes of b(sd[3:0]); reserved fields are 0 in the register already (06:R174). -/
def execBst (f : SI) (s : State) : Out :=
  scalarStoreWord s 32 (·.scalarPtr f) 32 fun tm => (tm.breg (f.d.toNat % 16)).toNat

end Sys2Proof.Machine
end

