-- ==== Sys2Proof/Machine/Control.lean ====
section
/-!
DEFINITION. The control functions of the scalar stream: `LRUN`, reads of lane results, special registers, fences, barriers,
yield, exit, system call and return (06:R177 to R191; 08:R243 to R248; 16:R373 to R378).
-/
namespace Sys2Proof.Machine

/-- A word that first waits until every lane block enqueued before it has completed (06:R167). -/
def onDrained (s : State) (k : Nat → Team → Out) : Out :=
  onScalar s fun t tm => if tm.drained then k t tm else .next s

/-! ## Lane blocks (06:R177) -/

/-- s0 to s15 as `LRUN` records them (02:R38). -/
def Team.bank (tm : Team) : NMap W64 := List.filter (fun e : Nat × W64 => 0 < e.1 && e.1 < 16) tm.s

/-- `LRUN`: appends a block; with 4 blocks queued it waits for the oldest to complete. A control core, which has no lanes, queues the
block too, and stops where its first lane word would be fetched (DESIGN CHOICE, log 69). -/
def execLrun (f : SJ) (s : State) : Out :=
  onScalar s fun t tm =>
    if 4 ≤ tm.blocks then .next s
    else s.nextTeam t { tm with pc := tm.pc + 4, queue := tm.queue ++ [⟨f.o, tm.bank, tm.reseed, tm.hyp⟩], reseed := none }

/-! ## Lane results (06:R179, R180) -/

/-- The number of ones in a mask. -/
def popcount (m : BitVec n) : Nat := (List.range n).foldl (fun a i => if m.getLsbD i then a + 1 else a) 0

/-- The summary of a mask: bit k is the OR of its bits [32k+31 : 32k] (02:R40). -/
def summary (m : Mask) : Nat :=
  (List.range 32).foldl (fun a k => if m.extractLsb' (32 * k) 32 = 0 then a else a + 2 ^ k) 0

/-- `MSUM`: the popcount and the summary of a mask register as written. -/
def execMsum (f : SR) (s : State) : Out :=
  onDrained s fun t tm =>
    let m := tm.mreg (f.b.toNat % 8)
    s.nextTeam t (tm.wr f.d (BitVec.ofNat 64 (popcount m * 2 ^ 32 + summary m))).advance

/-- `LREAD`: lane register k of lane S[sa][9:0]; a lane that does not exist reads 0, a register beyond the budget traps. -/
def execLread (f : SRK) (s : State) : Out :=
  onDrained s fun t tm =>
    if tm.budget ≤ f.k.toNat then scalarReject s t tm 0x04 (.lread f) else
    let l := (tm.rd f.a).toNat % 1024
    let s := if s.poison.any (fun p => match p with
      | .laneRegs x r l0 => x = t && r = f.k.toNat && l / 4 * 4 = l0
      | _ => false) then s.consumePoison tm.unit else s
    s.nextTeam t (tm.wr f.d (if l < tm.lanes then tm.lreg l f.k.toNat else 0)).advance

/-! ## Special registers (06:R181 to R183; 02:R43) -/

/-- `%time` of a die: the fixed clock, up to 64 counts ahead (06:R183; log 2), never below what the team has read. -/
def State.timeOf (s : State) (tm : Team) : Nat := max tm.timeSeen (s.clock + Config.dieSkew (dieOfCore tm.core) % 65)

/-- The value `RDSP` reads, by number (05:R154). A control core has no device core number and stands in no cluster: its `%core` reads k
and its `%cluster` reads k / 4 (DESIGN CHOICE, log 69). -/
def State.special (s : State) (tm : Team) (n : Nat) : Nat :=
  let u := s.unit? tm.unit
  match n with
  | 0 => tm.teamid
  | 1 => (u.map (·.troupe)).getD 0
  | 2 => tm.role
  | 3 => tm.core % 256
  | 4 => tm.core / 4 % 16
  | 5 => dieOfCore tm.core
  | 6 => s.ncores tm
  | 7 => tm.hyp
  | 8 => tm.slot % 64
  | 9 => tm.inc.toNat
  | 10 => tm.attempt
  | 11 => s.effPrio tm * 256 + tm.prio
  | 12 => tm.sticky.toNat
  | 13 => tm.arithmask.toNat
  | 14 => tm.repidx.toNat
  | 15 => ((u.bind (·.seqr)).map (·.mrow)).getD 0
  | 16 => s.timeOf tm
  | 17 => tm.seed.toNat
  | 18 => tm.tile.toNat
  | 19 => tm.arg.toNat
  | _ => 0

/-- `RDSP`: `%sticky` and `%repidx` first drain; numbers 20 to 31 trap with cause 0x03. -/
def execRdsp (f : SR) (s : State) : Out :=
  onScalar s fun t tm =>
    let n := f.b.toNat
    if 20 ≤ n then scalarReject s t tm 0x03 (.rdsp f)
    else if (n = 12 ∨ n = 14) ∧ !tm.drained then .next s
    else
      let tm' := tm.wr f.d (BitVec.ofNat 64 (s.special tm n))
      s.nextTeam t { tm' with pc := tm.pc + 4, timeSeen := if n = 16 then s.timeOf tm else tm.timeSeen }

/-- `WRSP`: W1C for `%sticky`, `%arithmask` and `%seed` written, other assigned numbers ignored. -/
def execWrsp (f : SR) (s : State) : Out :=
  onScalar s fun t tm =>
    let n := f.b.toNat
    let x := tm.rd f.a
    if 20 ≤ n then scalarReject s t tm 0x03 (.wrsp f)
    else if n = 12 then s.nextTeam t { tm with pc := tm.pc + 4, sticky := tm.sticky &&& ~~~(x.extractLsb' 0 3) }
    else if n = 13 then s.nextTeam t { tm with pc := tm.pc + 4, arithmask := x.extractLsb' 0 3 }
    else if n = 17 then s.nextTeam t { tm with pc := tm.pc + 4, seed := x, reseed := some x }
    else s.nextTeam t tm.advance

/-! ## Fences (08:R243, R244) -/

/-- `FENCE`: drains, then orders by kind and scope; a system-scope release waits for the acknowledgements of the posted writes,
but never beyond the bound, and then gives status 1. -/
def execFence (f : SR) (s : State) : Out :=
  onDrained s fun t tm =>
    let kind := f.b.toNat % 4
    let scope := f.b.toNat / 4
    let acq (s : State) : State := if kind ≠ 2 then s.acquire t scope else s
    let done (s : State) (st : W64) : Out :=
      let s := acq (s.setTeam t tm)
      match s.teams[t]? with
      | some tm => s.nextTeam t (tm.wr f.d st).advance
      | none => .next s
    if kind ≠ 2 ∧ !s.mayAcquire tm scope then .next s else
    if kind = 1 then done s 0 else
    let lost := scope = 5 && s.posted.any fun w => w.team = t
    withRelease s t tm scope fun s => done s (if lost then 1 else 0)

/-! ## Trap fence, yield, exit, system call, return (06:R187 to R191) -/

/-- `TFENCE`: an arithmetic trap when %sticky AND %arithmask is nonzero. -/
def execTfence (_ : SR) (s : State) : Out :=
  onDrained s fun t tm =>
    let m := tm.sticky &&& tm.arithmask
    if m = 0 then s.nextTeam t tm.advance else scalarTrap s t tm (.plain 0x09 tm.pc (m.zeroExtend 64) 0)

/-- `YIELD`: a blocking point whose condition is met: the team is ready at once, and until its next word it may be chosen as a
victim; a deadline is met (06:R188; 16:R386). In a handler it is privileged. -/
def execYield (f : SR) (s : State) : Out :=
  onDrained s fun t tm =>
    if tm.level ≠ 0 then scalarReject s t tm 0x08 (.yield f)
    else s.nextTeam t { tm with pc := tm.pc + 4, state := .ready, wait := some .yield, since := s.clock,
                                deadline := none, expired := false }

/-- Stores of a handler to its team's trap frame are still on their way (16:R373: the record as it then holds). -/
def State.frameBusy (s : State) (t : Nat) (tm : Team) : Bool :=
  s.flight.any fun r => r.tags.team = t && r.line < tm.frame + 512 && tm.frame < r.line + 128

/-- `TEXIT`: the team exits; S[sa][47:0] counts when it is the last (06:R189; 16:R374). MX still set counts as consuming poisoned
data (19:R420). A control core, which belongs to no task or troupe, stops in the exited state and completes nothing (DESIGN CHOICE, log 69). -/
def execTexit (f : SR) (s : State) : Out :=
  onDrained s fun t tm =>
    if tm.level ≠ 0 ∧ s.frameBusy t tm then .next s else
    let s := if tm.sticky &&& stickyMX = 0 then s else s.consumePoison tm.unit
    .next (s.exitTeam t ((tm.rd f.a).extractLsb' 0 48))

/-- `SYSCALL`: enters the handler with cause 0x01 and the service number; privileged in a handler (16:R375). -/
def execSyscall (f : SR) (s : State) : Out :=
  onDrained s fun t tm =>
    if tm.level ≠ 0 then scalarReject s t tm 0x08 (.syscall f)
    else scalarTrap s t tm (.plain 0x01 (tm.pc + 4) (tm.rd f.a) 0)

/-- `SRET`: drains the handler's blocks, then returns; outside a handler it is privileged. -/
def execSret (f : SR) (s : State) : Out :=
  onScalar s fun t tm =>
    if !tm.inHandler then scalarReject s t tm 0x08 (.sret f)
    else if tm.drained && !s.frameBusy t tm then .next (returnFromTrap s t tm) else .next s

/-! ## Barriers (06:R185; 08:R248) -/

/-- Has team `tm` arrived in the current phase of barrier `n`? -/
def State.arrivedAt (s : State) (tm : Team) (n : Nat) : Bool :=
  match s.unit? tm.unit with
  | some u => (u.bar n).arrived.getLsbD tm.teamid
  | none => false

/-- Phase of barrier `n` of the team's unit. -/
def State.phaseOf (s : State) (tm : Team) (n : Nat) : BitVec 32 :=
  match s.unit? tm.unit with
  | some u => (u.bar n).phase
  | none => 0

/-- The team blocks at barrier `n`. -/
def blockAt (s : State) (t : Nat) (tm : Team) (w : Wait) : Out :=
  s.nextTeam t { tm.undue with state := .blocked, wait := some w, holding := none, since := s.clock }

/-- An arrival at barrier `n`: the team joins the arrived set, then the phase may complete. -/
def State.arrive (s : State) (tm : Team) (n : Nat) : State :=
  match s.unit? tm.unit with
  | some u =>
    let b := u.bar n
    let s := s.setUnit tm.unit { u with bars := NMap.insert u.bars n { b with arrived := b.arrived ||| BitVec.ofNat 17 (2 ^ tm.teamid) } }
    s.testBarrier tm.unit n
  | none => s

/-- `BRSET`: replaces the participant set and tests the phase; privileged in a handler, and on a control core, which has no troupe (DESIGN CHOICE, log 69). -/
def execBrset (f : SR) (s : State) : Out :=
  onScalar s fun t tm =>
    if tm.level ≠ 0 ∨ tm.ctrl.isSome then scalarReject s t tm 0x08 (.brset f) else
    let n := f.b.toNat % 16
    let s := s.setTeam t tm.advance
    match s.unit? tm.unit with
    | some u =>
      let set := (tm.rd f.a).extractLsb' 0 17 &&& s.livingMembers u
      .next ((s.setUnit tm.unit { u with bars := NMap.insert u.bars n { u.bar n with members := set } }).testBarrier tm.unit n)
    | none => .next s

/-- `BAR.ARRIVE`: drains, releases at troupe scope, blocks while it has already arrived in the phase, then arrives. On a control core the
barrier words are privileged as in a handler (DESIGN CHOICE, log 69). -/
def execBarArrive (f : SR) (s : State) : Out :=
  onDrained s fun t tm =>
    if tm.level ≠ 0 ∨ tm.ctrl.isSome then scalarReject s t tm 0x08 (.barArrive f) else
    let n := f.b.toNat % 16
    withRelease s t tm 1 fun s =>
      if s.arrivedAt tm n then blockAt s t tm (.barArrive n)
      else .next ((s.setTeam t ((tm.wr f.d ((s.phaseOf tm n).zeroExtend 64)).advance)).arrive tm n)

/-- `BAR.WAIT`: blocks while it has arrived in the phase; the phase being complete, it goes on, with an acquire at troupe scope
(log 38). -/
def execBarWait (f : SR) (s : State) : Out :=
  onDrained s fun t tm =>
    if tm.level ≠ 0 ∨ tm.ctrl.isSome then scalarReject s t tm 0x08 (.barWait f) else
    let n := f.b.toNat % 16
    if s.arrivedAt tm n then blockAt s t tm (.barWait n (s.phaseOf tm n))
    else .next ((s.setTeam t tm.advance).acquire t 1)

/-- `BAR.SYNC`: `BAR.ARRIVE` with sd = s0, then `BAR.WAIT`. When its arrival completes the phase it goes on at once. -/
def execBarSync (f : SR) (s : State) : Out :=
  onDrained s fun t tm =>
    if tm.level ≠ 0 ∨ tm.ctrl.isSome then scalarReject s t tm 0x08 (.barSync f) else
    let n := f.b.toNat % 16
    withRelease s t tm 1 fun s =>
      if s.arrivedAt tm n then blockAt s t tm (.barArrive n)
      else
        let s' := s.arrive tm n
        if s'.arrivedAt tm n then blockAt s' t tm (.barWait n (s.phaseOf tm n))
        else .next ((s'.setTeam t tm.advance).acquire t 1)

end Sys2Proof.Machine
end

