-- ==== Sys2Proof/Machine/Engine.lean ====
section
/-!
DEFINITION. What the SX commands share: issue and reply (05:R139; 06:R192), refusals (17:R399), words of counters and futures at
their home (15:R363; 17:R403), entries of queues (11:R329; 17:R411).
-/
namespace Sys2Proof.Machine

/-! ## Issue and reply -/

/-- All ones: the reply of a refused command of engine 6, and of other commands without a result. -/
def allOnes : W64 := BitVec.allOnes 64

/-- The command has been performed: the scalar stream goes on; in the reply form the reply is still to arrive (05:R139). -/
def sxDone (s : State) (t : Nat) (f : SX) (v : W64) : Out :=
  match s.teams[t]? with
  | some tm => s.nextTeam t { tm with pc := tm.pc + 4, wait := none, sxWait := false, reply := if f.r then some (f.d, v) else none }
  | none => .next s

/-- Why a command of a team is dropped: its incarnation, or for engine 3 its hypothesis (06:R192; 15:R363). -/
def State.sxDrop (s : State) (tm : Team) (engine : Nat) : Option Drop :=
  if tm.ctrl.isSome ∨ engine = 2 ∨ engine = 7 then none
  else if tm.inc ≠ (s.ctx tm.slot).inc then some .inc
  else if engine = 3 && (s.ctx tm.slot).refuted tm.hyp then some .hyp
  else none

/-- A command of the arena controller or hypothesis unit is forwarded to the context's home die: a link leads there (01:R21). -/
def State.unitReached (s : State) (tm : Team) (engine : Nat) : Bool :=
  !(engine = 4 || engine = 5) || s.reaches (dieOfCore tm.core) (s.ctx tm.slot).homeDie

/-- A command that a checkpoint drops: it is counted; in the reply form no reply comes, and its team, marked for a kill, waits (06:R192). -/
def sxDropped (s : State) (t : Nat) (tm : Team) (f : SX) (d : Drop) : Out :=
  let s := s.countDrop tm.slot d.counter
  if f.r then s.nextTeam t { tm with lost := true } else sxDone s t f 0

/-- The team waits inside the word (02:R55). -/
def sxWaits (s : State) (t : Nat) (tm : Team) : Out := s.nextTeam t { tm with sxWait := true }

/-- The command cannot be carried out yet. In the reply form the team waits for its reply inside the word, which is a kill point (06:R192). -/
def sxHold (s : State) (t : Nat) (tm : Team) (f : SX) : Out := if f.r then sxWaits s t tm else .next s

/-- The stores of a team that stand before its next copy command or spawn have been performed: of its scalar stream, and of lane blocks before a
release that it has executed (09:R282, R290). -/
def State.ceOrdered (s : State) (t : Nat) : Bool := s.flight.all fun r => r.tags.team ≠ t || r.tags.block

/-- A release at device scope by an SX command (09:R292), then `k`. -/
def sxRelease (s : State) (t : Nat) (tm : Team) (f : SX) (k : State → Out) : Out :=
  if s.dirtyTiles tm.core then sxHold (s.releaseTiles (s.tagsOf t tm) tm.core) t tm f
  else if s.released t tm.core 4 then k (s.afterRelease t 4) else sxHold s t tm f

/-- An SX command: a supervisor command outside supervisor mode traps with cause 0x08 (16:R377); a replay performs none of engines 3 to 6
(19:R425). -/
def onSx (s : State) (i : Instr) (f : SX) (engine : Nat) (sup : Bool) (k : Nat → Team → Out) : Out :=
  onScalar s fun t tm =>
    if sup && !tm.sup then scalarReject s t tm 0x08 i
    else if 3 ≤ engine ∧ engine ≤ 6 ∧ s.replays tm then sxDone s t f 0
    else match s.sxDrop tm engine with
      | some d => sxDropped s t tm f d
      | none => if s.unitReached tm engine then k t tm else sxHold s t tm f

/-- A refused command of engines 3 to 5: cause, sub-code and function in the record (17:R399). -/
def sxRefuse (s : State) (t : Nat) (tm : Team) (f : SX) (cause fn code : Nat) : Out :=
  scalarTrap s t tm (.plain cause tm.pc (tm.rd f.a)
    (BitVec.ofNat 64 (code + fn * 2 ^ 8 + (if f.r then 0 else 2 ^ 15) + (tm.rd f.b).toNat % 2 ^ 48 * 2 ^ 16)))

/-- A memory cause at an SX word: detail A is the address, detail B says that an engine access takes part (17:R391). -/
def sxMemTrap (s : State) (t : Nat) (tm : Team) (p : W64) (m : Miss) : Out :=
  let a := s.detailArena tm p
  scalarTrap s t tm ⟨m.cause, none, tm.pc, p, memDetailB 8 0 a.1 a.2 tm.hyp false,
    if m.cause = 0x10 ∨ m.cause = 0x11 then BitVec.ofNat 64 m.va else 0, 0, none, none, none⟩

/-! ## Words at their home -/

/-- The window cause of an address that must be a global pointer (15:R363). -/
def globalCause (p : W64) : Option Nat :=
  if p.toNat / 2 ^ 56 < 2 then none else if p.toNat / 2 ^ 56 = 0xFF ∧ physClass p.toNat ≠ 3 then some 0x15 else some 0x14

/-- The places of `n` bytes that a team's command names, or the first cause (17:R391): window, alignment, translation, arena and tile,
destination. -/
def State.engineCheck (s : State) (tm : Team) (p : W64) (n align : Nat) (writes : Bool) : Except Miss (List Place) :=
  match globalCause p with
  | some c => .error ⟨c, 0⟩
  | none =>
    if p.toNat % align ≠ 0 then .error ⟨0x18, 0⟩ else
    match s.placed tm.slot (if writes then .atomic else .load) (cutLine .virt p.toNat n) with
    | .error m => .error m
    | .ok pl =>
      match (if writes then s.writeCause tm.slot tm.core none false pl else none) with
      | some c => .error ⟨c, 0⟩
      | none => if pl.any fun x => x.remote && s.peerDead tm x.key then .error ⟨0x1D, 0⟩ else .ok pl

/-- The places of `n` bytes that hardware acts on for a unit: none where the word cannot be used (17:R403), or lies with a peer whose import
entry is not valid (12:R357). -/
def State.hwPlaces (s : State) (slot : Nat) (p : W64) (n align : Nat) (writes : Bool) : Option (List Place) :=
  if p.toNat / 2 ^ 56 < 2 ∧ p.toNat % align = 0 then
    match s.places slot (if writes then .atomic else .load) (cutLine .virt p.toNat n) with
    | .ok pl => if pl.any fun x => s.peerGone slot x.key then none else some pl
    | .error _ => none
  else none

/-- The number that stands at some places, on the ordinary line (15:R363); what the hardware reads of host or peer memory is free
(log 29). -/
def State.readPlaces (s : State) (pl : List Place) : Nat :=
  leNat (pl.flatMap fun p => if p.remote then (List.range p.len).map fun i => Config.freeByte (s.draw (50000 + p.key % 128 + i))
    else s.bytes p.key p.len)

/-- The tags of an event on the ordinary line (15:R363). -/
def State.wordTags (s : State) (tg : Tags) (p : Place) : Tags := { s.withArena tg p.arena with hyp := 0 }

/-- One event at the home of each place: the copies of its lines go, and its bytes are written if `new` gives them; `d` is the die that
issues it (03:R84; 10:R311). -/
def State.eventPlaces (s : State) (tg : Tags) (d : Option Nat) (new : Option (List Byte)) : List Place → State
  | [] => s
  | p :: r =>
    let mine := new.map (·.take p.len)
    let s :=
      if p.remote then match mine with
        | some bs => { s with posted := s.posted ++ [⟨lineOf p.key, lineBytes p.key bs, tg.slot, tg.inc, tg.unit, tg.team, s.clock, false⟩] }
        | none => s
      else (s.atomicAt (s.wordTags tg p) (d.getD p.home) p.home p.key p.len fun _ => mine).1
    s.eventPlaces tg d (new.map (·.drop p.len)) r

/-- Some place holds poison. -/
def State.placesPoisoned (s : State) (pl : List Place) : Bool := pl.any fun p => s.poisoned p.key p.len

/-- One event on a word: `op` gives the new number, none to leave it. A poisoned word is not updated, and its unit consumes it. -/
def State.wordEvent (s : State) (tg : Tags) (d : Option Nat) (pl : List Place) (op : Nat → Option Nat) : State × Nat :=
  let old := s.readPlaces pl
  if s.placesPoisoned pl then ((s.eventPlaces tg d none pl).consumePoison tg.unit, old) else
  (s.eventPlaces tg d ((op old).map fun x => leBytes ((pl.map (·.len)).foldl (· + ·) 0) x) pl, old)

/-- A team's command may take effect on its words: its own stores to those lines are performed, and the homes know what the die has
issued or seen (log 10). -/
def State.wordReady (s : State) (t : Nat) (tm : Team) (pl : List Place) : Bool :=
  s.mayStore (dieOfCore tm.core) pl.length && pl.all fun p => p.remote ||
    ((s.flight.all fun r => !(r.tags.team = t && r.line = lineOf p.key)) && s.atomicReady (dieOfCore tm.core) p.home p.key)

/-- The arena of a place is being dropped: a command that was issued before the drop carries the old generation. Whether this one was is
a free choice (06:R192; 17:R400; DESIGN CHOICE, log 79). -/
def State.dropOvertakes (s : State) (tm : Team) (pl : List Place) : Bool :=
  pl.any fun p => !p.remote && ((s.ctx tm.slot).arena p.arena).state = .dropping && Config.stays (s.draw 50000)

/-- The stamp of some places of ordinary lines. -/
def State.stampOf (s : State) (pl : List Place) : Stamp :=
  pl.foldl (fun st p => joinStamp st ((s.lineAt (lineOf p.key)).stampOf (p.key % 128) p.len)) []

/-- Every die may issue the stores of an action of hardware, at most `n` of them with the entries that it enqueues (10:R311). -/
def State.hwRoom (s : State) (n : Nat := 8) : Bool := (List.range 4).all fun d => s.mayStore d n

/-! ## Entries of queues (09:R289; 11:R329; 12:R358; 17:R411) -/

/-- What an entry is made of. -/
structure NewEntry where
  record : W64
  kind   : W64
  stamp  : Stamp
  deriving DecidableEq, Repr

/-- What an append finds. -/
inductive Append where
  /-- The entry is in the queue. -/
  | done (s : State) (q : Queue)
  /-- The page of the vent area at this address is not mapped. -/
  | unmapped (va : Nat)
  | ventFull
  /-- An SX20 queue whose last segment is full and names no next one. -/
  | overflow

/-- The entry, with the next launch sequence number, at an address. -/
def Queue.entryOf (q : Queue) (e : NewEntry) (place : Nat) : QEntry := ⟨e.record, e.kind, q.next, none, place, e.stamp⟩

/-- The tags of what a queue's own hardware does. -/
def State.queueTags (s : State) (q : Queue) : Tags :=
  { s.tagsOf (2 ^ 34) Team.atReset with slot := q.slot, inc := (s.ctx q.slot).inc, unit := noUnit }

/-- The 8 bytes at a virtual address of a context, as a number; 0 where they cannot be read. -/
def State.quad (s : State) (slot : Nat) (va : Nat) : Nat :=
  match s.hwPlaces slot (BitVec.ofNat 64 va) 8 1 false with
  | some pl => s.readPlaces pl
  | none => 0

/-- The address of entry number `n` of a native queue in its ring, which holds 2^(log2 entries) of them (11:R329). -/
def Queue.ringPlace (q : Queue) (n : BitVec 22) : Nat := q.ring.toNat + 16 * (n.toNat % 2 ^ q.log2)

/-- Entries that the vent area holds. -/
def Queue.ventCount (q : Queue) : Nat := q.ventSize / 16

/-- The address of the next entry in the vent area, whose places are taken in turn. -/
def Queue.ventPlace (q : Queue) : Nat := q.ventBase.toNat + 16 * q.ventNext

/-- The 16 bytes of an entry are written at its address, on the ordinary line (09:R289); where no writable page is mapped nothing is
(log 15). -/
def State.writeEntry (s : State) (q : Queue) (e : QEntry) : State :=
  match s.hwPlaces q.slot (BitVec.ofNat 64 e.place) 16 16 true with
  | some pl => s.eventPlaces (s.queueTags q) none (some (leBytes 8 e.record.toNat ++ leBytes 8 e.kind.toNat)) pl
  | none => s

/-- An entry as its 16 bytes stand; a relaunched one has none, and one on a page on which it could not be written stands as it was enqueued
(log 15). -/
def State.readEntry (s : State) (q : Queue) (e : QEntry) : QEntry :=
  if e.relaunch.isSome then e else
  match s.hwPlaces q.slot (BitVec.ofNat 64 e.place) 16 16 true with
  | some pl => let w := s.readPlaces pl
               { e with record := BitVec.ofNat 64 w, kind := BitVec.ofNat 64 (w / 2 ^ 64) }
  | none => e

/-- Appends an entry to a native queue: to the ring, or to the vent area while it holds entries or the ring is full. -/
def State.appendNative (s : State) (q : Queue) (e : NewEntry) : Append :=
  let q' := { q with next := q.next + 1 }
  if q.vent.isEmpty && q.entries.length < 2 ^ q.log2 then
    let x := q.entryOf e (q.ringPlace q.next)
    .done (s.writeEntry q x) { q' with entries := q.entries ++ [x] }
  else
  if q.ventSize < 16 * (q.vent.length + 1) then .ventFull else
  let x := q.entryOf e q.ventPlace
  match (s.ctx q.slot).translate (x.place % 2 ^ 57) with
  | none => .unmapped x.place
  | some _ => .done (s.writeEntry q x) { q' with vent := q.vent ++ [x], ventNext := (q.ventNext + 1) % q.ventCount }

/-- An SX20 queue goes on to its next segment; it is the first one too when every entry of the one before has been passed. -/
def Queue.follow (q : Queue) (seg : W64) : Queue :=
  { q with tailSeg := seg, tailIdx := 0, headSeg := if q.headIdx < 255 then q.headSeg else seg, headIdx := if q.headIdx < 255 then q.headIdx else 0 }

/-- Appends an entry to an SX20 queue: a segment holds entries 0 to 254, its trailer at 0xFF0 the next segment (12:R358). -/
def State.appendSx20 (s : State) (q : Queue) (e : NewEntry) : Append :=
  let nxt := s.quad q.slot (q.tailSeg.toNat + 0xFF0)
  if q.tailIdx < 255 then
    let x := q.entryOf e (q.tailSeg.toNat + 16 * q.tailIdx)
    .done (s.writeEntry q x) { q with next := q.next + 1, entries := q.entries ++ [x], tailIdx := q.tailIdx + 1 }
  else if nxt = 0 then .overflow else
    let x := q.entryOf e nxt
    .done (s.writeEntry q x) { (q.follow (BitVec.ofNat 64 nxt)) with next := q.next + 1, entries := q.entries ++ [x], tailIdx := 1 }

/-- Where the next entry of a queue may stand. -/
def Queue.nextPlaces (q : Queue) : List Nat :=
  if q.sx20 then [q.tailSeg.toNat + 16 * min q.tailIdx 254] else [q.ringPlace q.next, q.ventPlace]

/-- An entry that die `d` enqueues can be written now: links lead to its place, and the dies issue new stores (01:R21, R22; 10:R311). -/
def State.entryReady (s : State) (d : Nat) (q : Queue) : Bool :=
  s.hwRoom && q.nextPlaces.all fun va => match s.hwPlaces q.slot (BitVec.ofNat 64 va) 16 16 true with
    | some pl => pl.all fun p => p.remote || s.reaches d p.home
    | none => true

/-- Appends an entry to a queue. -/
def State.append (s : State) (q : Queue) (e : NewEntry) : Append := if q.sx20 then s.appendSx20 q e else s.appendNative q e

/-- The clock since which the head entry waits starts with the first entry (11:R328). -/
def State.putQueue (s : State) (n : Nat) (old q : Queue) : State :=
  s.setQueue n (if old.entries.isEmpty then { q with headSince := s.clock } else q)

/-- The dispatcher holds an entry that has no room, and the event is posted to the control core (17:R411). -/
def State.holdEntry (s : State) (n : Nat) (q : Queue) (e : NewEntry) : State :=
  let s := s.setQueue n { q with held := q.held ++ [q.entryOf e 0], next := q.next + 1 }
  if q.held.isEmpty then
    match s.partOfQueue n with
    | some (p, _) => s.post (if q.sx20 then .segmentOverflow n else .entryHeld p n)
    | none => s
  else s

/-- An enqueue by hardware: by a counter or a host port write. -/
def State.enqueueHw (s : State) (n : Nat) (q : Queue) (e : NewEntry) : State :=
  if !q.held.isEmpty then s.holdEntry n q e else
  match s.append q e with
  | .done s' q' => s'.putQueue n q q'
  | _ => s.holdEntry n q e

/-! ## Actions of hardware on a unit's behalf (02:R50; 09:R292 to R295; 17:R403, R404) -/

/-- A dropped action is recorded as kind 5 in the failure record of the unit's queue. -/
def State.recordDrop (s : State) (tg : Tags) (code addr a : Nat) : State :=
  match s.unit? tg.unit with
  | some u => s.recordFailure tg.queue ⟨code, 5, u.attempt, u.troupe, addr, a, s.clock⟩
  | none => s.recordFailure tg.queue ⟨code, 5, 0, 0, addr, a, s.clock⟩

/-- The continuation of a counter that came to 0 is enqueued, or dropped and recorded; `w` is the counter's 16 bytes (09:R292). -/
def State.startContinuation (s : State) (tg : Tags) (w home : Nat) : State :=
  let n := w / 2 ^ 32 % 1024
  let rec_ : W64 := BitVec.ofNat 64 (w / 2 ^ 64)
  match NMap.find? s.queues n with
  | some q =>
    if q.slot = tg.slot then s.enqueueHw n q ⟨rec_, if w / 2 ^ 48 % 2 = 1 then 2 else 1, s.vc home⟩
    else s.recordDrop tg 0x0532 rec_.toNat n
  | none => s.recordDrop tg 0x0532 rec_.toNat n

/-- An event on a word takes effect: its home does not drop it, no seal stops it, and the word is not poisoned (03:R87, R108; 19:R416). -/
def State.wordTakes (s : State) (tg : Tags) (pl : List Place) : Bool :=
  !s.placesPoisoned pl && pl.all fun p => p.remote || s.lands (s.wordTags tg p) p.key

/-- Subtracts an amount from a counter, at most its count, as one event; from a nonzero value to 0 the continuation starts. An event that does
not take effect starts none. -/
def State.subtract (s : State) (tg : Tags) (d : Option Nat) (pl : List Place) (amount : Nat) : State × Nat :=
  let w := s.readPlaces pl
  let n := if s.wordTakes tg pl then w % 2 ^ 32 - amount else w % 2 ^ 32
  let s' := (s.wordEvent tg d pl fun w => if amount = 0 then none else some (w - amount)).1
  (if amount ≠ 0 ∧ n = 0 ∧ s.wordTakes tg pl then s'.startContinuation tg w ((pl.head?.map (·.home)).getD 0) else s', n)

/-- A decrement by 1 from a completion, `CE.FUT`, `FUT.AWAIT` or a join release. -/
def State.hwDecrement (s : State) (tg : Tags) (p : W64) : State :=
  match s.hwPlaces tg.slot p 16 16 true with
  | none => s.recordDrop tg 0x0530 p.toNat 1
  | some pl =>
    if s.readPlaces pl % 2 ^ 32 = 0 then s.recordDrop tg 0x0530 p.toNat 1 else (s.subtract tg none pl 1).1

/-- STATE of a future word. -/
def futState (w : Nat) : Nat := w / 2 ^ 62 % 4
/-- VAL of a future word. -/
def futVal (w : Nat) : Nat := w % 2 ^ 48
/-- A future word; bits [61:48] are kept. -/
def futWord (old st v : Nat) : Nat := st * 2 ^ 62 + old / 2 ^ 48 % 2 ^ 14 * 2 ^ 48 + v % 2 ^ 48

/-- A resolve or fail by a completion or by `CE.FUT`: of a future that is RESOLVED or FAILED already it is dropped. -/
def State.hwResolve (s : State) (tg : Tags) (p : W64) (failed : Bool) (v : Nat) : State :=
  match s.hwPlaces tg.slot p 8 8 true with
  | none => s.recordDrop tg 0x0530 p.toNat (v % 2 ^ 48)
  | some pl =>
    let w := s.readPlaces pl
    if 2 ≤ futState w then s.recordDrop tg 0x0530 p.toNat (v % 2 ^ 48) else
    let s' := (s.wordEvent tg none pl fun w => some (futWord w (if failed then 3 else 2) v)).1
    if futState w = 1 ∧ s.wordTakes tg pl then s'.hwDecrement tg (BitVec.ofNat 64 (futVal w)) else s'

/-- The homes of some places, each with a key. -/
def homesOf (pl : List Place) : List (Nat × Nat) := (pl.filter fun p => !p.remote).map fun p => (p.home, p.key)

/-- The homes of the words that an action on a future or counter touches. -/
def State.actionHomes (s : State) (slot : Nat) (p : W64) (future : Bool) : List (Nat × Nat) :=
  match s.hwPlaces slot p 8 8 true with
  | none => []
  | some pl =>
    let w := s.readPlaces pl
    homesOf pl ++ (if future && futState w = 1 then
      match s.hwPlaces slot (BitVec.ofNat 64 (futVal w)) 16 16 true with
      | some pl => homesOf pl
      | none => []
    else [])

/-- The homes know what some dies, and each other, have issued or seen, so that the action follows it everywhere (10:R311; log 10). -/
def State.homesReady (s : State) (dies : List Nat) (homes : List (Nat × Nat)) : Bool :=
  (dies ++ homes.map (·.1)).all fun d => homes.all fun h => s.atomicReady d h.1 h.2

/-- May an action of hardware on a future or counter take place now? -/
def State.actionReady (s : State) (dies : List Nat) (slot : Nat) (p : W64) (future : Bool) : Bool :=
  s.hwRoom && s.homesReady dies (s.actionHomes slot p future)

/-- Performs the action of `CE.FUT`: for a command that failed with a code, a fail instead of a resolve; a replay performs none (19:R425). -/
def State.ceAct (s : State) (tg : Tags) (a : CeAction) (code : Option Nat) : State :=
  if ((s.unit? tg.unit).bind (·.replay)).isSome then s else
  let tg := { tg with hyp := 0 }
  if a.counter then s.hwDecrement tg a.addr
  else match code with
    | some c => s.hwResolve tg a.addr true c
    | none => s.hwResolve tg a.addr false a.value.toNat

/-- The late action number `i` is performed, if it may be; one of an old incarnation is dropped and counted (03:R108; 17:R409). -/
def State.lateActs (s : State) (i : Nat) : State :=
  match s.lateActions[i]? with
  | none => s
  | some a =>
    let rest := { s with lateActions := s.lateActions.eraseIdx i }
    if a.tags.inc ≠ (s.ctx a.tags.slot).inc then rest.countDrop a.tags.slot 0
    else if s.actionReady [dieOfCore a.tags.core] a.tags.slot a.act.addr (!a.act.counter) then rest.ceAct a.tags a.act a.code
    else s

/-- Late actions are performed, each in its own time: a free choice at every step (14:R362; log 76). -/
def State.lateActionsGoOn (s : State) : State :=
  (List.range s.lateActions.length).reverse.foldl (fun s i => if Config.stays (s.draw (59000 + i)) then s else s.lateActs i) s

end Sys2Proof.Machine
end

