-- ==== Sys2Proof/Machine/Hyp.lean ====
section
/-!
DEFINITION. The commands of the hypothesis unit (08:R257 to R261; 03:R98 to R104; 17:R402).
-/
namespace Sys2Proof.Machine

/-! ## Forks (08:R258) -/

/-- Greatest depth of a hypothesis (03:R98). -/
def hypDepth : Nat := 8

/-- The lowest run of `n` consecutive free ids, at id 1 or above. -/
def Context.freeRun (c : Context) (n : Nat) : Option Nat :=
  firstFrom (fun f => f + n ≤ 256 && (List.range n).all fun i => (c.hyp (f + i)).state = .free) 255 1

/-- Opens `n` ids from `f` under `parent`. -/
def Context.fork (c : Context) (f n parent : Nat) : Context :=
  { c with hyps := (List.range n).foldl (fun m i => NMap.insert m (f + i) ⟨.opened, parent, (c.hyp parent).depth + 1⟩) c.hyps }

/-! ## Resolves (03:R102 to R104; 08:R259) -/

/-- The granules of a mask's bytes that it names in part, or whole. -/
def maskGranules (mask : BitVec 128) (whole : Bool) : BitVec 4 :=
  (List.range 4).foldl (fun m i =>
    let bits := (List.range 32).map fun j => mask.getLsbD (32 * i + j)
    if (if whole then bits.all id else bits.any id) then m ||| BitVec.ofNat 4 (2 ^ i) else m) 0

/-- The bytes that a mask names become the ordinary line's, with the marks of their granules; copies of the line that no longer hold what it
is go (log 40). -/
def State.mergeRoot (s : State) (v : Version) : State :=
  let ok := s.writable v.key (v.line.masked v.mask)
  let s := ok.foldl (fun s e => s.pokeLine v.key [e] (NMap.get v.line.stamps [] e.1)) s
  let s := (List.range 4).foldl (fun s i =>
    if v.bad.getLsbD i && ok.any (fun e => e.1 / 32 = i) then s.markPoison (.granule (v.key / 32 + i))
    else if (wholeGranules ok).getLsbD i then s.clearPoison (v.key + 32 * i) 32 else s) s
  s.evictReplicas fun r => r.key = v.key

/-- One version of a confirmed id goes to `q`: it becomes q's, or its bytes are written over q's version or the ordinary line (03:R102). -/
def State.mergeVersion (s : State) (q : Nat) (v : Version) : State :=
  if q = 0 then s.mergeRoot v
  else if s.versions.any fun w => w.slot = v.slot && w.hyp = q && w.key = v.key then
    { s with versions := s.versions.map fun w => if w.slot = v.slot && w.hyp = q && w.key = v.key then
        { w with line := w.line.merge v.line v.mask, mask := w.mask ||| v.mask,
                 bad := (w.bad &&& ~~~maskGranules v.mask true) ||| (v.bad &&& maskGranules v.mask false) } else w }
  else { s with versions := s.versions ++ [{ v with hyp := q }] }

/-- Confirms `h` in a tree: it is redirected to its nearest open ancestor. -/
def Context.confirm (c : Context) (h : Nat) : Context := { c with hyps := NMap.adjust c.hyps h fun x => { x with state := .confirmed } }

/-- Refutes `h` and what lies below it in a tree (03:R101). -/
def Context.refute (c : Context) (h : Nat) : Context :=
  { c with hyps := c.hyps.map fun e => if c.under e.1 h && e.2.state ≠ .free then (e.1, { e.2 with state := .refuted }) else e }

/-- The tree after a resolve: the refutes take effect first, then the confirms in ascending order, each of an id that is still open
(08:R259). -/
def Context.resolved (c : Context) (confirms refutes : List Nat) : Context :=
  confirms.foldl (fun c h => if (c.hyp h).state = .opened then c.confirm h else c) (refutes.foldl Context.refute c)

/-- A confirm as one home slice applies it, `c` being the tree that the slice knows: the merge of its versions, and the tree afterwards. -/
def confirmAt (slot u : Nat) (x : Context × State) (h : Nat) : Context × State :=
  if (x.1.hyp h).state ≠ .opened then x else
  let c := x.1.confirm h
  let mine (v : Version) : Bool := v.slot = slot && v.hyp = h && x.2.sliceUnit v.key = u
  (c, (x.2.versions.filter mine).foldl (fun s v => s.mergeVersion (c.acting h) v) { x.2 with versions := x.2.versions.filter fun v => !mine v })

/-- A unit applies a resolve (03:R100, R102 to R104): a home slice discards the versions of the refuted ids and merges those of the
confirmed ones; an L1 loses its lines of nonzero ids. -/
def State.applyAt (s : State) (slot u : Nat) (r : Resolve) : State :=
  if 128 ≤ u then { s with l1 := s.l1.filter fun l => !(l.slot = slot && l.hyp ≠ 0 && l.core = u - 128) } else
  let c := r.refutes.foldl Context.refute (s.ctxAt slot u)
  let gone (v : Version) : Bool := v.slot = slot && s.sliceUnit v.key = u && (c.hyp v.hyp).state = .refuted
  (r.confirms.foldl (confirmAt slot u) (c, { s with versions := s.versions.filter fun v => !gone v })).2

/-- The units that apply a resolve: the home slices and the L1s of the device (03:R104). -/
def resolveUnits : List Nat := List.range 384

/-- The hypothesis unit takes a resolve for the party numbered `id`: the tree changes, the teams under the refuted ids are marked, and the
units are still to apply it (03:R102 to R104). -/
def State.beginResolve (s : State) (slot id : Nat) (confirms refutes : List Nat) : State :=
  let c := s.ctx slot
  let c' := c.resolved confirms refutes
  let old := List.filter (fun e : Nat × Hyp => c'.hyp e.1 ≠ e.2) c.hyps
  let gone := (List.filter (fun e : Nat × Hyp => (c'.hyp e.1).state = .refuted) old).map (·.1)
  (s.setCtx slot { c' with resolves := c.resolves ++ [⟨id, confirms, refutes, old, resolveUnits⟩] }).orphan slot gone

/-- Replaces a context's resolves. -/
def State.setResolves (s : State) (slot : Nat) (l : List Resolve) : State := s.setCtx slot { s.ctx slot with resolves := l }

/-- Unit `u` applies resolve number `i` of a context, unless an older one still waits for it. -/
def State.unitApplies (s : State) (slot i u : Nat) : State :=
  let l := (s.ctx slot).resolves
  match l[i]? with
  | none => s
  | some r =>
    if !r.pending.contains u || (l.take i).any (·.pending.contains u) then s
    else (s.applyAt slot u r).setResolves slot (l.set i { r with pending := r.pending.filter (· ≠ u) })

/-- The units of some contexts apply their resolves, each in its own time: which of them do so at this step is a free choice (log 76). -/
def State.resolvesGoOn (s : State) : State :=
  s.contexts.foldl (fun s c => (List.range c.2.resolves.length).foldl (fun s i =>
    (((s.ctx c.1).resolves[i]?.map (·.pending)).getD []).foldl (fun s u =>
      if Config.stays (s.draw (60000 + u)) then s else s.unitApplies c.1 i u) s) s) s

/-- The resolve of a party of a context that every unit has applied; none while there is none, or not all have. -/
def Context.resolveOver (c : Context) (id : Nat) : Bool := c.resolves.any fun r => r.team = id && r.pending = []

/-! ## Commands -/

/-- A hypothesis command. -/
def onHy (s : State) (i : Instr) (f : SX) (k : Nat → Team → Out) : Out := onSx s i f 5 false k

/-- The earlier accesses of the team have been performed: its scalar accesses and those of its lane blocks (08:R254). -/
def State.settled (s : State) (t : Nat) (tm : Team) : Bool := tm.drained && s.released t tm.core 4

/-- A command that waits for the earlier accesses of its team, those into tiles included (08:R254, R256, R259, R260). -/
def whenSettled (s : State) (t : Nat) (tm : Team) (f : SX) (k : State → Out) : Out :=
  if !tm.drained then sxHold s t tm f else sxRelease s t tm f k

/-- `HY.FORK`. -/
def execHyFork (f : SX) (s : State) : Out :=
  onHy s (.hyFork f) f fun t tm =>
    let a := tm.rd f.a
    let p := fld a 7 0
    let n := fld a 13 8 + 1
    let c := s.ctx tm.slot
    match c.freeRun n with
    | none => sxRefuse s t tm f 0x1F 0x00 1
    | some h =>
      if (c.hyp p).state ≠ .opened then sxRefuse s t tm f 0x1F 0x00 2
      else if hypDepth < (c.hyp p).depth + 1 then sxRefuse s t tm f 0x1F 0x00 3
      else sxDone (s.setCtx tm.slot (c.fork h n p)) t f (BitVec.ofNat 64 h)

/-- `HY.RESOLVE`: after the team's earlier accesses the resolve begins; the reply comes once every unit has applied it (03:R104). A posted one
lets the stream go on as soon as it has begun (05:R139). -/
def execHyResolve (f : SX) (s : State) : Out :=
  onHy s (.hyResolve f) f fun t tm =>
    let a := tm.rd f.a
    let h := fld a 7 0
    let ids := (List.range (fld a 13 8 + 1)).map (h + ·)
    let c := s.ctx tm.slot
    if c.resolveOver t then sxDone (s.setResolves tm.slot (c.resolves.filter fun r => r.team ≠ t)) t f 0
    else if c.resolves.any fun r => r.team = t then sxWaits s t tm
    else if ids.any fun x => x = 0 || 255 < x || (c.hyp x).state ≠ .opened then sxRefuse s t tm f 0x1F 0x01 4
    else whenSettled s t tm f fun s =>
      let yes (x : Nat) : Bool := (tm.rd f.b).getLsbD (x - h)
      let s := s.beginResolve tm.slot (if f.r then t else noUnit) (ids.filter yes) (ids.filter fun x => !yes x)
      let tm := { tm with kill := s.killOf t tm }
      if f.r then sxWaits s t tm else sxDone (s.setTeam t tm) t f 0

/-- `HY.ENTER`: to an open ancestor or descendant of the id the team acts under; that id itself is neither (DEDUCED, log 83). -/
def execHyEnter (f : SX) (s : State) : Out :=
  onHy s (.hyEnter f) f fun t tm =>
    let h := fld (tm.rd f.a) 7 0
    let c := s.ctx tm.slot
    let g := c.acting tm.hyp
    if (c.hyp h).state ≠ .opened || h = g || !(c.under h g || c.under g h) then sxRefuse s t tm f 0x1F 0x02 5
    else whenSettled s t tm f fun s => sxDone (s.setTeam t { tm with hyp := h }) t f (BitVec.ofNat 64 tm.hyp)

/-- A state of a hypothesis as `HY.INFO` numbers it. -/
def HypState.num : HypState → Nat
  | .free => 0
  | .opened => 1
  | .confirmed => 2
  | .refuted => 3

/-- What `HY.INFO` returns. -/
def Context.hypInfo (c : Context) (h : Nat) : Nat :=
  let x := c.hyp h
  x.state.num + x.parent % 256 * 2 ^ 8 + x.depth % 16 * 2 ^ 16 +
    (match x.state with
     | .opened => h % 256
     | .confirmed => c.acting h % 256
     | _ => 0) * 2 ^ 24

/-- `HY.INFO`. -/
def execHyInfo (f : SX) (s : State) : Out :=
  onHy s (.hyInfo f) f fun t tm => sxDone s t f (BitVec.ofNat 64 ((s.ctx tm.slot).hypInfo (fld (tm.rd f.a) 7 0)))

end Sys2Proof.Machine
end

