-- ==== Sys2Proof/Machine/Arena.lean ====
section
/-!
DEFINITION. The device pool, arenas and haloed regions: the commands of the arena controller (03:R89 to R97; 08:R252 to R256; 17:R401).
-/
namespace Sys2Proof.Machine

/-! ## The device pool (03:R93; 08:R253; log 13) -/

/-- Do [a, a + n) and [b, b + m) share a byte? -/
def overlaps (a n b m : Nat) : Bool := a < b + m && b < a + n && 0 < n && 0 < m

/-- Bytes of a failure area (19:R421), and those kept for an image (log 13). -/
def areaBytes : Nat := 2097152

/-- Where the HBM of some ranges that meet each other ends, from an address on. -/
def runFrom (ranges : List (Nat × Nat)) : Nat → Nat → Nat
  | 0, a => a
  | f + 1, a => match List.find? (fun r : Nat × Nat => r.1 ≤ a && a < r.1 + r.2) ranges with
    | some r => runFrom ranges f (r.1 + r.2)
    | none => a

/-- The `n` bytes at `pa` lie in some ranges, over several of them that meet too. -/
def inRanges (ranges : List (Nat × Nat)) (pa n : Nat) : Bool := pa + n ≤ runFrom ranges ranges.length pa

/-- They lie in the HBM ranges of a partition. -/
def Partition.holds (p : Partition) (pa n : Nat) : Bool := inRanges p.ranges pa n

/-- HBM of a partition that is in use, and so not in a device pool: mapped pages, pages withheld, the pools and areas that the Stage
Manager placed, lines with a request under way. -/
def State.inUse (s : State) (p : Partition) (pa n : Nat) : Bool :=
  (s.contexts.any fun c => c.2.pages.any fun e => overlaps pa n e.2.phys e.2.size) ||
  (s.withheld.any fun w => overlaps pa n w.1 w.2) ||
  overlaps pa n p.frameBase (512 * p.frames) || overlaps pa n p.failBase areaBytes || overlaps pa n p.payload areaBytes ||
  (s.flight.any fun r => overlaps pa n r.line 128)

/-- The page of `n` bytes at `pa` is in the device pool of a die, among the HBM ranges of a partition. -/
def State.poolFree (s : State) (p : Partition) (die n pa : Nat) : Bool :=
  dieOfPhys pa = die && p.holds pa n && !s.inUse p pa n

/-- The first page of the pool among `f` page places of a die, from place `k` on and round the end. -/
def State.poolFrom (s : State) (p : Partition) (die n : Nat) : Nat → Nat → Option Nat
  | 0, _ => none
  | f + 1, k =>
    let pa := die * dieBytes + k % (dieBytes / n) * n
    if s.poolFree p die n pa then some pa else s.poolFrom p die n f (k + 1)

/-- A page of the pool; which one is free (log 13). -/
def State.poolPick (s : State) (p : Partition) (die n i : Nat) : Option Nat :=
  s.poolFrom p die n (dieBytes / n) (Config.pick (s.draw i))

/-- At least `m` pages of the pool lie among `f` page places of a die, from place `k` on. -/
def State.poolHas (s : State) (p : Partition) (die n : Nat) : Nat → Nat → Nat → Bool
  | _, _, 0 => true
  | 0, _, _ + 1 => false
  | f + 1, k, m + 1 => s.poolHas p die n f (k + 1) (if s.poolFree p die n (die * dieBytes + k * n) then m else m + 1)

/-- [pa, pa + n) reads as zero from now on, and no cache holds what it was (03:R94). -/
def State.zeroRange (s : State) (pa n : Nat) : State :=
  let here (k : Nat) : Bool := pa ≤ k && k < pa + n
  { s.evictReplicas (fun r => here r.key) with
    mem := s.mem.filter fun c => !here c.1
    stamps := List.filter (fun e : Nat × Stamp => !here e.1) s.stamps
    home := List.filter (fun e : Nat × HomeLine => !here (e.1 * 128)) s.home
    l1 := s.l1.filter fun l => !here l.key
    versions := s.versions.filter fun v => !here v.key
    poison := s.poison.filter fun p => match p with
      | .granule g => !here (g * 32)
      | _ => true }

/-- Adds a page to a context. -/
def State.mapPage (s : State) (slot va : Nat) (pg : Page) : State :=
  let c := s.ctx slot
  s.setCtx slot { c with pages := NMap.insert c.pages (va / 65536) pg }

/-- Bytes of a page (03:R64). -/
def pageBytes (big : Bool) : Nat := if big then 2097152 else 65536

/-- Takes a page of the pool for a virtual address: 2 MiB or 64 KiB. -/
def State.takePage (s : State) (p : Partition) (slot va arena die : Nat) (big : Bool) : Option State :=
  (s.poolPick p die (pageBytes big) va).map fun pa =>
    (s.zeroRange pa (pageBytes big)).mapPage slot va ⟨pa, die, arena, true, true, big, true⟩

/-- Takes a page of the pool of a die for `va`, and says whether it is a large one: 2 MiB where an aligned run below `hi` and `whole` has room for it and the
pool has one. -/
def State.takeNext (s : State) (p : Partition) (slot arena die hi whole va : Nat) : Option (State × Bool) :=
  match (if va % pageBytes true = 0 ∧ va + pageBytes true ≤ min hi whole then s.takePage p slot va arena die true else none) with
  | some s' => some (s', true)
  | none => (s.takePage p slot va arena die false).map fun s' => (s', false)

/-- Maps [va, hi) from the pool of a die. -/
def State.mapRun (p : Partition) (slot arena die hi whole : Nat) : Nat → Nat → State → Option State
  | 0, _, s => some s
  | f + 1, va, s =>
    if hi ≤ va then some s else
    (s.takeNext p slot arena die hi whole va).bind fun r => State.mapRun p slot arena die hi whole f (va + pageBytes r.2) r.1

/-! ## Arenas (03:R89 to R91) -/

/-- Greatest depth of an arena (03:R89). -/
def arenaDepth : Nat := 15

/-- Sets arena `a`. -/
def Context.setArena (c : Context) (a : Nat) (x : Arena) : Context := { c with arenas := NMap.insert c.arenas a x }

/-- Bytes that [base, x) covers, in whole pages (03:R90). -/
def Arena.covered (a : Arena) (x : Nat) : Nat := alignUp (x - a.base) 65536

/-- Alloc of 03:R90: the address, the charge, the arena afterwards. -/
def Arena.alloc (a : Arena) (size align : Nat) : Nat × Nat × Arena :=
  let p := alignUp a.bump align
  if size = 0 then (p, 0, a) else
  let d := a.covered (p + size) - a.covered a.bump
  (p, d, { a with charge := a.charge + d, bump := p + size })

/-- `x` is `a` or lies below it. -/
def Context.arenaUnder (c : Context) : Nat → Nat → Nat → Bool
  | 0, x, a => x = a
  | n + 1, x, a => x = a || (x ≠ 0 && (c.arena x).state ≠ .free && c.arenaUnder n (c.arena x).parent a)

/-- The arenas at or below `a` in one of some states. -/
def Context.arenasBelow (c : Context) (a : Nat) (ok : ArenaState → Bool) : List Nat :=
  (c.arenas.filter fun e => ok e.2.state && c.arenaUnder arenaDepth e.1 a).map (·.1)

/-- The lowest free arena number. -/
def Context.freeArena (c : Context) : Option Nat := firstFrom (fun n => (c.arena n).state = .free) 1024 0

/-- An arena command. -/
def onAr (s : State) (i : Instr) (f : SX) (k : Nat → Team → Out) : Out := onSx s i f 4 false k

/-- A refused arena command. -/
def arRefuse (s : State) (t : Nat) (tm : Team) (f : SX) (fn code : Nat) : Out := sxRefuse s t tm f 0x1E fn code

/-- The child that New of 03:R90 makes of parent `p` at region [b, b + q). -/
def newArena (x : Arena) (p : Nat) (parent : Arena) (b q : Nat) : Arena :=
  { x with state := .live, parent := p, depth := parent.depth + 1, quota := q, charge := 0, base := b, stop := b + q, bump := b, root := 0,
           autoFree := false }

/-- `AR.NEW`. -/
def execArNew (f : SX) (s : State) : Out :=
  onAr s (.arNew f) f fun t tm =>
    let p := fld (tm.rd f.a) 9 0
    let c := s.ctx tm.slot
    let x := c.arena p
    let q := alignUp (tm.rd f.b).toNat 65536
    let r := x.alloc q 65536
    if x.state ≠ .live then arRefuse s t tm f 0x00 1
    else if arenaDepth < x.depth + 1 then arRefuse s t tm f 0x00 2
    else if x.quota < x.charge + r.2.1 then arRefuse s t tm f 0x00 3
    else match c.freeArena with
      | none => arRefuse s t tm f 0x00 4
      | some n =>
        let c := (c.setArena p r.2.2).setArena n (newArena (c.arena n) p x r.1 q)
        sxDone (s.setCtx tm.slot c) t f (BitVec.ofNat 64 (n + (c.arena n).gen.toNat * 2 ^ 10))

/-- Does a partition have HBM on a die? -/
def Partition.hasHbm (p : Partition) (die : Nat) : Bool :=
  p.ranges.any fun r => 0 < r.2 && dieOfPhys r.1 ≤ die && die ≤ dieOfPhys (r.1 + r.2 - 1)

/-- Performs Alloc of 03:R90 in a context and maps the pages that it newly covers; none when the pool cannot supply them. -/
def State.allocIn (s : State) (p : Partition) (slot a die size align : Nat) : Option (State × Nat) :=
  let c := s.ctx slot
  let x := c.arena a
  let r := x.alloc size align
  let lo := x.base + x.covered x.bump
  (State.mapRun p slot a die (lo + r.2.1) (r.1 + size) (r.2.1 / 65536 + 1) lo (s.setCtx slot (c.setArena a r.2.2))).map fun s => (s, r.1)

/-- `AR.ALLOC`. -/
def execArAlloc (f : SX) (s : State) : Out :=
  onAr s (.arAlloc f) f fun t tm =>
    let v := tm.rd f.a
    let a := fld v 9 0
    let lg := fld v 20 16
    let die := if bitOf v 24 then fld v 23 22 else dieOfCore tm.core
    let size := (tm.rd f.b).toNat
    let x := (s.ctx tm.slot).arena a
    if x.state ≠ .live then arRefuse s t tm f 0x01 1
    else if x.quota < x.charge + (x.alloc size (2 ^ lg)).2.1 then arRefuse s t tm f 0x01 3
    else if lg < 3 ∨ 21 < lg then arRefuse s t tm f 0x01 6
    else match s.partOf tm.slot with
      | none => arRefuse s t tm f 0x01 6
      | some (_, p) =>
        if !p.hasHbm die then arRefuse s t tm f 0x01 6
        else match s.allocIn p tm.slot a die size (2 ^ lg) with
          | none => arRefuse s t tm f 0x01 5
          | some (s, va) => sxDone s t f (BitVec.ofNat 64 va)

/-- The arenas of a list take a state. -/
def Context.markArenas (c : Context) (ids : List Nat) (g : Arena → Arena) : Context :=
  { c with arenas := c.arenas.map fun e => if ids.contains e.1 then (e.1, g e.2) else e }

/-- An arena that takes no seal and no drop. -/
def Context.unsealable (c : Context) (a : Nat) : Bool :=
  a = 0 || !((c.arena a).state = .live || (c.arena a).state = .sealed)

/-- Some arenas are sealed: the home slices mark their lines (03:R85, R92). -/
def State.sealArenas (s : State) (slot : Nat) (ids : List Nat) : State :=
  { s.setCtx slot ((s.ctx slot).markArenas ids fun x => { x with state := .sealed }) with
    home := List.map (fun e : Nat × HomeLine => if e.2.slot = slot && ids.contains e.2.arena then (e.1, { e.2 with sealed := true }) else e) s.home }

/-- `AR.SEAL`: a release at device scope, then the seal of the arena and its live descendants; a sealed arena stays as it is (17:R401). -/
def execArSeal (f : SX) (s : State) : Out :=
  onAr s (.arSeal f) f fun t tm =>
    let a := fld (tm.rd f.a) 9 0
    let c := s.ctx tm.slot
    if c.unsealable a then arRefuse s t tm f 0x02 7
    else whenSettled s t tm f fun s =>
      if (c.arena a).state = .sealed then sxDone s t f 0
      else sxDone (s.sealArenas tm.slot (c.arenasBelow a fun x => x = .live)) t f 0

/-- Haloed regions of some arenas end without write-back (03:R93; 08:R256). -/
def State.dropTiles (s : State) (slot : Nat) (ids : List Nat) : State :=
  let c := s.ctx slot
  { (s.setCtx slot { c with tiles := List.filter (fun e : Nat × TileRegion => !ids.contains e.2.arena) c.tiles }) with
    l1 := s.l1.filter fun l => !(l.slot = slot && l.haloed && ids.contains l.arena) }

/-- The audits of which a replay has read one of some arenas lose their inputs (19:R426). -/
def State.loseInputs (s : State) (slot : Nat) (ids : List Nat) : State :=
  { s with audits := s.audits.map fun a =>
      if !a.closed && (s.unit? a.unit).any (fun u => u.slot = slot) && a.reads.any (ids.contains ·) then { a with lost := true } else a }

/-- Step 1 of a drop: the generations advance (03:R93). -/
def State.dropArenas (s : State) (slot a : Nat) : State :=
  let c := s.ctx slot
  let ids := c.arenasBelow a fun x => x = .live || x = .sealed
  (s.setCtx slot (c.markArenas ids fun x => { x with state := .dropping, gen := x.gen + 1, root := a })).dropTiles slot ids |>.loseInputs slot ids

/-- `AR.DROP`: waits for the team's earlier accesses, and returns after step 1. -/
def execArDrop (f : SX) (s : State) : Out :=
  onAr s (.arDrop f) f fun t tm =>
    let a := fld (tm.rd f.a) 9 0
    if (s.ctx tm.slot).unsealable a then arRefuse s t tm f 0x03 7
    else whenSettled s t tm f fun s =>
      let s := s.dropArenas tm.slot a
      sxDone s t f (((s.ctx tm.slot).arena a).gen.zeroExtend 64)

/-- The arena and the descendants dropped with it. -/
def Context.dropSet (c : Context) (a : Nat) : List Nat :=
  (c.arenasBelow a fun x => x = .dropping || x = .dropped).filter fun x => (c.arena x).root = (c.arena a).root

/-- Has the drop of `a` reached step 3 throughout? -/
def Context.dropDone (c : Context) (a : Nat) : Bool := (c.dropSet a).all fun x => (c.arena x).state = .dropped

/-- The numbers return to the free list; a free arena keeps its generation only. -/
def Context.freeArenas (c : Context) (a : Nat) : Context :=
  c.markArenas (c.dropSet a) fun x => ⟨.free, x.gen, 0, 0, 0, 0, 0, 0, 0, 0, false⟩

/-- `AR.WAIT`. -/
def execArWait (f : SX) (s : State) : Out :=
  onAr s (.arWait f) f fun t tm =>
    let a := fld (tm.rd f.a) 9 0
    let c := s.ctx tm.slot
    let x := c.arena a
    if !(x.state = .dropping || x.state = .dropped) then arRefuse s t tm f 0x04 8
    else if c.dropDone a then sxDone (s.setCtx tm.slot (c.freeArenas a)) t f 1
    else if tm.rd f.b ≠ 0 then sxDone s t f 0
    else if f.r then sxWaits s t tm
    else sxDone (s.setCtx tm.slot (c.setArena a { x with autoFree := true })) t f 0

/-- A state of an arena as `AR.INFO` numbers it. -/
def ArenaState.num : ArenaState → Nat
  | .free => 0
  | .live => 1
  | .sealed => 2
  | .dropping => 3
  | .dropped => 4

/-- What `AR.INFO` returns. -/
def Arena.info (x : Arena) (sel : Nat) : Nat :=
  match sel with
  | 0 => x.state.num + x.gen.toNat * 2 ^ 8 + x.parent % 1024 * 2 ^ 14 + x.depth % 16 * 2 ^ 24
  | 1 => x.quota
  | 2 => x.charge
  | 3 => x.base
  | 4 => x.stop
  | 5 => x.bump
  | _ => 0

/-- `AR.INFO`. -/
def execArInfo (f : SX) (s : State) : Out :=
  onAr s (.arInfo f) f fun t tm =>
    sxDone s t f (BitVec.ofNat 64 (((s.ctx tm.slot).arena (fld (tm.rd f.a) 9 0)).info (tm.rd f.b).toNat))

/-! ## Haloed regions (03:R95 to R97; 08:R256) -/

/-- The region that a descriptor, as a number of 256 bits, describes; arena and owners are still to come. -/
def tileOfDesc (w : Nat) : TileRegion where
  base := w % 2 ^ 64
  pitch := w / 2 ^ 64 % 2 ^ 32
  across := w / 2 ^ 96 % 2 ^ 16
  down := w / 2 ^ 112 % 2 ^ 16
  width := w / 2 ^ 128 % 2 ^ 16
  height := w / 2 ^ 144 % 2 ^ 16
  esize := 2 ^ (w / 2 ^ 160 % 4)
  halo := w / 2 ^ 162 % 16
  owners := []
  arena := 0

/-- The descriptor is as 03:R95 gives it; tiles of no element are not accepted (log 31). A row pitch smaller than the bytes of a row of tiles is
accepted, and the columns beyond the pitch belong to no tile (DESIGN CHOICE, log 84). -/
def tileDescOk (w : Nat) : Bool :=
  let r := tileOfDesc w
  r.base % 128 = 0 && r.pitch % 128 = 0 && r.pitch ≠ 0 && r.across ≠ 0 && r.down ≠ 0 && r.width ≠ 0 && r.height ≠ 0 &&
    r.width * r.esize % 128 = 0 && w / 2 ^ 166 % 2 ^ 26 = 0

/-- One past the last byte of a region. -/
def TileRegion.stop (r : TileRegion) : Nat := r.base + (r.down * r.height - 1) * r.pitch + r.across * r.width * r.esize

/-- The live arena within which a region lies: no child of it holds a byte of the region. -/
def Context.arenaOf (c : Context) (lo hi : Nat) : Option Nat :=
  let used (x : Arena) : Bool := x.state ≠ .free && x.state ≠ .dropped
  (List.find? (fun e : Nat × Arena => e.2.state = .live && e.2.base ≤ lo && hi ≤ e.2.stop &&
    !(c.arenas.any fun d => used d.2 && d.1 ≠ 0 && d.2.parent = e.1 && overlaps lo (hi - lo) d.2.base (d.2.stop - d.2.base))) c.arenas).map (·.1)

/-- The bytes at some places as a team's command reads them: at the home, with the posted stores of its core and the bytes of its own tiles;
physical memory has no version (06:R192; 12:R346). A request that its home drops reads 0 (17:R400). Bytes of host and peer memory are free
(log 29). -/
def State.teamBytes (s : State) (tm : Team) (pl : List Place) : List Byte :=
  pl.flatMap fun p =>
    if p.remote then (List.range p.len).map fun i => Config.freeByte (s.draw (60000 + p.key % 128 + i)) else
    let tg := s.placeTags (s.tagsOf 0 tm) none p
    let k0 := lineOf p.key
    if (s.homeCheck tg p.key).isSome then List.replicate p.len 0 else
    let line := (s.withOwn tg k0 (s.viewOf tg.slot k0)).see (s.ctxAt tg.slot (s.sliceUnit k0)) (s.actingOf tg k0)
    let line := match s.l1.find? fun l => l.core = tm.core && l.slot = tm.slot && l.key = k0 && l.dirty ≠ 0 && p.win = .virt with
      | some l => line.merge l.line l.dirty
      | none => line
    line.slice (p.key % 128) p.len

/-- Pieces of [p, p + n), by lines. -/
def cutLines : Nat → Nat → Nat → List Piece
  | 0, _, _ => []
  | f + 1, a, n => if n = 0 then [] else ⟨.virt, a, min n (128 - a % 128), false⟩ :: cutLines f (a + min n (128 - a % 128)) (n - min n (128 - a % 128))

/-- Reads `n` bytes at a global pointer for a team's command. -/
def State.readGlobal (s : State) (tm : Team) (p : W64) (n : Nat) : Except Miss (List Byte) :=
  match globalCause p with
  | some c => .error ⟨c, 0⟩
  | none => match s.placed tm.slot .load (cutLines (n / 128 + 2) p.toNat n) with
    | .error m => .error m
    | .ok pl => if pl.any fun x => x.remote && s.peerDead tm x.key then .error ⟨0x1D, 0⟩ else .ok (s.teamBytes tm pl)

/-- The cores of a partition, retired ones included. -/
def Partition.cores (p : Partition) : List Nat := p.islands.flatMap fun i => (List.range 16).map fun k => 16 * i + k

/-- A declared region: ordinary lines of the context leave the caches, so that none shadows a haloed one. -/
def State.declareTile (s : State) (slot n : Nat) (r : TileRegion) : State :=
  let c := s.ctx slot
  { s.setCtx slot { c with tiles := NMap.insert c.tiles n r } with l1 := s.l1.filter fun l => l.slot ≠ slot || l.haloed }

/-- `TILE.DECL`: after the team's earlier accesses the descriptor and its owner map are read; the lowest free region number is taken. -/
def execTileDecl (f : SX) (s : State) : Out :=
  onAr s (.tileDecl f) f fun t tm => whenSettled s t tm f fun s =>
    let c := s.ctx tm.slot
    match (List.range 8).find? fun n => (NMap.find? c.tiles n).isNone with
    | none => arRefuse s t tm f 0x08 9
    | some n =>
      match s.readGlobal tm (tm.rd f.a) 32 with
      | .error m => sxMemTrap s t tm (tm.rd f.a) m
      | .ok bs =>
        let w := leNat bs
        let r := tileOfDesc w
        if !tileDescOk w then arRefuse s t tm f 0x08 10 else
        match c.arenaOf r.base r.stop with
        | none => arRefuse s t tm f 0x08 10
        | some a =>
          let op : W64 := BitVec.ofNat 64 (w / 2 ^ 192)
          match s.readGlobal tm op (r.across * r.down) with
          | .error m => sxMemTrap s t tm op m
          | .ok os =>
            let mine : List Nat := match s.partOf tm.slot with
              | some (_, p) => p.cores
              | none => []
            if os.any fun o => !mine.contains o.toNat then arRefuse s t tm f 0x08 10
            else sxDone (s.declareTile tm.slot n { r with owners := os, arena := a }) t f (BitVec.ofNat 64 n)

/-- Is an L1 line a haloed line of a region of the context? -/
def Context.lineOfTile (c : Context) (n : Nat) (key : Nat) : Bool :=
  match NMap.find? c.tiles n, c.vaOf key with
  | some r, some va => (r.tileOf va).isSome
  | _, _ => false

/-- `TILE.FREE`: the owners' dirty lines are posted, and once they are performed the haloed lines go and the number is free. -/
def execTileFree (f : SX) (s : State) : Out :=
  onAr s (.tileFree f) f fun t tm =>
    let n := fld (tm.rd f.a) 2 0
    let c := s.ctx tm.slot
    if (NMap.find? c.tiles n).isNone then arRefuse s t tm f 0x09 11
    else whenSettled s t tm f fun s =>
      let mine (l : L1Line) : Bool := l.slot = tm.slot && l.haloed && c.lineOfTile n l.key
      let dirty := s.l1.filter fun l => mine l && l.dirty ≠ 0
      if dirty.isEmpty then
        sxDone { (s.setCtx tm.slot { c with tiles := NMap.erase c.tiles n }) with l1 := s.l1.filter fun l => !mine l } t f 0
      else sxHold (dirty.foldl (fun s l =>
        if s.mayStore (dieOfCore l.core) then s.writeBack { s.tagsOf t tm with core := l.core } l else s) s) t tm f

end Sys2Proof.Machine
end

