-- ==== Sys2Proof/Machine/Fp.lean ====
section
/-!
DEFINITION. Number formats and arithmetic (04:R112 to R135): formats, exact values, rounding, NaNs, special functions.
Bit patterns of sub-elements are Nat; an exact finite magnitude is m x 2^e.
-/
namespace Sys2Proof.Machine

/-! ## Element types (05:R141) -/

/-- Width in bits of a TY code; Q4 has 4. -/
def tyWidth (ty : Nat) : Nat :=
  match ty with
  | 0 => 8 | 1 => 8 | 2 => 16 | 3 => 16 | 4 => 32 | 5 => 32 | 6 => 64 | 7 => 64
  | 8 => 16 | 9 => 16 | 10 => 32 | 11 => 8 | 12 => 8 | 13 => 4 | _ => 64

/-- Sub-elements of a register. -/
def tyCount (ty : Nat) : Nat := 64 / tyWidth ty

/-- TY 0 to 7. -/
def tyInt (ty : Nat) : Bool := ty < 8
/-- A signed integer type. -/
def tySigned (ty : Nat) : Bool := ty < 8 && ty % 2 = 0
/-- F16, BF16, F32. -/
def tyFp (ty : Nat) : Bool := 8 ≤ ty && ty ≤ 10
/-- E4M3, E5M2. -/
def tyF8 (ty : Nat) : Bool := ty = 11 || ty = 12

/-! ## Integers (04:R112, R113) -/

/-- The integer a pattern of type `ty` stands for. -/
def intOf (ty x : Nat) : Int := if tySigned ty then asInt (tyWidth ty) x else (x % 2 ^ tyWidth ty : Nat)

/-- Least value of an integer type. -/
def intMin (ty : Nat) : Int := if tySigned ty then -(2 ^ (tyWidth ty - 1) : Nat) else 0
/-- Greatest value of an integer type. -/
def intMax (ty : Nat) : Int := if tySigned ty then (2 ^ (tyWidth ty - 1) : Nat) - 1 else (2 ^ tyWidth ty : Nat) - 1
/-- Is `x` representable? -/
def intFits (ty : Nat) (x : Int) : Bool := intMin ty ≤ x && x ≤ intMax ty
/-- `x` limited to the range. -/
def intClamp (ty : Nat) (x : Int) : Int := if x < intMin ty then intMin ty else if intMax ty < x then intMax ty else x

/-- A result pattern and whether the exact result did not fit (04:R113). -/
structure Res where
  bits : Nat
  ov   : Bool
  deriving DecidableEq, Repr

/-- `IntResult`: wrapped, or saturated (04:R113). -/
def intResult (ty : Nat) (sat : Bool) (x : Int) : Res :=
  ⟨ofIntMod (tyWidth ty) (if sat then intClamp ty x else x), !intFits ty x⟩

/-! ## Floating-point formats (04:R114) -/

/-- A floating-point format: fraction bits, exponent bits, bias, largest finite pattern, infinity if any. -/
structure Fmt where
  mb   : Nat
  eb   : Nat
  bias : Nat
  maxF : Nat
  inf  : Option Nat
  deriving DecidableEq, Repr

/-- F32. -/
def f32 : Fmt := ⟨23, 8, 127, 0x7F7FFFFF, some 0x7F800000⟩
/-- F16. -/
def f16 : Fmt := ⟨10, 5, 15, 0x7BFF, some 0x7C00⟩
/-- BF16. -/
def bf16 : Fmt := ⟨7, 8, 127, 0x7F7F, some 0x7F80⟩
/-- E4M3: no infinity; all ones alone are NaN. -/
def e4m3 : Fmt := ⟨3, 4, 7, 0x7E, none⟩
/-- E5M2. -/
def e5m2 : Fmt := ⟨2, 5, 15, 0x7B, some 0x7C⟩

/-- The format of a TY code. -/
def fmtOf (ty : Nat) : Fmt :=
  match ty with
  | 8 => f16 | 9 => bf16 | 11 => e4m3 | 12 => e5m2 | _ => f32

/-- Bits of a pattern. -/
def Fmt.width (f : Fmt) : Nat := f.mb + f.eb + 1
/-- The sign bit as a number. -/
def Fmt.signBit (f : Fmt) (s : Bool) : Nat := if s then 2 ^ (f.width - 1) else 0

/-- A value of a format. -/
inductive Fv where
  /-- A NaN with its fraction field. -/
  | nan (sign : Bool) (frac : Nat)
  | inf (sign : Bool)
  /-- (-1)^sign x m x 2^e; m = 0 is a signed zero. -/
  | fin (sign : Bool) (m : Nat) (e : Int)
  deriving DecidableEq, Repr

/-- The value of a pattern (04:R114). -/
def Fmt.read (f : Fmt) (x : Nat) : Fv :=
  let s := x / 2 ^ (f.width - 1) % 2 = 1
  let mag := x % 2 ^ (f.width - 1)
  if f.maxF < mag then
    if f.inf = some mag then .inf s else .nan s (mag % 2 ^ f.mb)
  else
    let e := mag / 2 ^ f.mb
    let fr := mag % 2 ^ f.mb
    if e = 0 then .fin s fr (1 - (f.bias : Int) - (f.mb : Int))
    else .fin s (2 ^ f.mb + fr) ((e : Int) - (f.bias : Int) - (f.mb : Int))

/-- The quiet NaN of a format with a payload, the quiet bit being set (04:R116). -/
def Fmt.nan (f : Fmt) (s : Bool) (payload : Nat) : Nat :=
  if f = e4m3 then f.signBit s + 0x7F
  else f.signBit s + (2 ^ f.eb - 1) * 2 ^ f.mb + (2 ^ (f.mb - 1) ||| payload % 2 ^ f.mb)

/-- Fraction bits that survive a change of format (04:R123). -/
def nanKept (src dst : Fmt) : Nat :=
  if src = dst then src.mb
  else if src.width = 8 || dst.width = 8 then 0
  else if src = bf16 || dst = bf16 then 6 else 9

/-- A NaN of format `src` in format `dst` (04:R123). -/
def nanTo (src dst : Fmt) (s : Bool) (frac : Nat) : Nat := dst.nan s (frac % 2 ^ nanKept src dst)

/-- The origin NaN (04:R122): lane, and the lane-word index. -/
def originNaN (f : Fmt) (lane idx : Nat) : Nat :=
  let h := (idx % 4096) ^^^ (idx / 4096 % 4096)
  if f = f32 then 0x7FC00000 ||| (lane % 1024 * 4096) ||| h
  else if f = f16 then 0x7E00 ||| (h % 512)
  else if f = bf16 then 0x7FC0 ||| (h % 64)
  else if f = e5m2 then 0x7E else 0x7F

/-! ## Rounding (04:R115 to R118) -/

/-- Does the magnitude go up: the kept number `n`, the part cut off `rem` below `unit`, and whether more lies below it?
Modes: 0 RNE, 1 RZ, 2 RDN, 3 RUP (04:R117). -/
def roundsUp (mode : Nat) (sign : Bool) (n rem unit : Nat) (sticky : Bool) : Bool :=
  match mode with
  | 0 => unit < 2 * rem || (unit = 2 * rem && (sticky || n % 2 = 1))
  | 1 => false
  | 2 => sign && (rem ≠ 0 || sticky)
  | _ => !sign && (rem ≠ 0 || sticky)

/-- What an overflow gives (04:R118). -/
def Fmt.overflow (f : Fmt) (mode : Nat) (sat sign : Bool) : Nat :=
  f.signBit sign + match f.inf with
    | none => f.maxF
    | some i =>
      if sat then f.maxF else
      match mode with
      | 0 => i
      | 1 => f.maxF
      | 2 => if sign then i else f.maxF
      | _ => if sign then f.maxF else i

/-- Rounds (-1)^sign x (m + below) x 2^e, `below` in (0, 1) when `sticky`; then m must have more bits than the format keeps
(04:R115 to R118). -/
def Fmt.round (f : Fmt) (mode : Nat) (sat sign : Bool) (m : Nat) (e : Int) (sticky : Bool) : Res :=
  if m = 0 then ⟨f.signBit sign, false⟩ else
  let minq : Int := 1 - (f.bias : Int) - (f.mb : Int)
  let q0 : Int := e + (Nat.log2 m : Int) - (f.mb : Int)
  let q := if q0 < minq then minq else q0
  let sh := q - e
  let n := if sh ≤ 0 then m * 2 ^ (-sh).toNat else m / 2 ^ sh.toNat
  let unit := if sh ≤ 0 then 1 else 2 ^ sh.toNat
  let rem := if sh ≤ 0 then 0 else m % unit
  let n' := if roundsUp mode sign n rem unit sticky then n + 1 else n
  let bits := (q - minq).toNat * 2 ^ f.mb + n'
  if f.maxF < bits then ⟨f.overflow mode sat sign, true⟩ else ⟨f.signBit sign + bits, false⟩

/-- An infinity in a format; the greatest finite value where there is none (04:R124). -/
def Fmt.infinity (f : Fmt) (s : Bool) : Nat := f.signBit s + f.inf.getD f.maxF

/-! ## Sums and products (04:R115, R121) -/

/-- The signed integer that a finite term contributes at exponent `e0`. -/
def termAt (e0 : Int) : Fv → Int
  | .fin s m e => (if s then -1 else 1) * ((m * 2 ^ (e - e0).toNat : Nat) : Int)
  | _ => 0

/-- The least exponent among finite nonzero terms. -/
def leastExp (ts : List Fv) : Int :=
  ts.foldl (fun a t => match t with
    | .fin _ m e => if m ≠ 0 && e < a then e else a
    | _ => a) 4096

/-- The exact sum of finite terms as sign, magnitude, exponent; a zero takes its sign by 04:R115. -/
def exactSum (mode : Nat) (ts : List Fv) : Bool × Nat × Int :=
  let e0 := leastExp ts
  let n := ts.foldl (fun a t => a + (match t with | .fin _ 0 _ => 0 | _ => termAt e0 t)) (0 : Int)
  if n = 0 then
    (if ts.all fun t => match t with | .fin s m _ => s && m = 0 | _ => false then (true, 0, 0) else (mode = 2, 0, 0))
  else (n < 0, n.natAbs, e0)

/-- The product of two values that are no NaNs; none is 0 x infinity. -/
def fvMul (a b : Fv) : Option Fv :=
  match a, b with
  | .fin s m e, .fin t n g => some (.fin (s != t) (m * n) (e + g))
  | .inf s, .fin t n _ => if n = 0 then none else some (.inf (s != t))
  | .fin s m _, .inf t => if m = 0 then none else some (.inf (s != t))
  | .inf s, .inf t => some (.inf (s != t))
  | _, _ => none

/-- The negated value. -/
def fvNeg : Fv → Fv
  | .nan s f => .nan s f
  | .inf s => .inf (!s)
  | .fin s m e => .fin (!s) m e

/-- The sum of terms that are no NaNs, rounded once; none for infinities of both signs (04:R117, R121). -/
def sumRound (f : Fmt) (mode : Nat) (sat : Bool) (ts : List Fv) : Option Res :=
  let pos := ts.any fun t => t == .inf false
  let neg := ts.any fun t => t == .inf true
  if pos && neg then none
  else if pos then some ⟨f.infinity false, false⟩
  else if neg then some ⟨f.infinity true, false⟩
  else
    let (s, m, e) := exactSum mode ts
    some (f.round mode sat s m e false)

/-- One value rounded to a format; a zero keeps its sign. -/
def roundFv (f : Fmt) (mode : Nat) (sat : Bool) : Fv → Res
  | .nan s fr => ⟨f.nan s fr, false⟩
  | .inf s => ⟨f.infinity s, false⟩
  | .fin s m e => f.round mode sat s m e false

/-- The first NaN among operands of one format, made quiet (04:R121). -/
def firstNaN (f : Fmt) (xs : List Nat) : Option Nat :=
  xs.findSome? fun x => match f.read x with
    | .nan s fr => some (f.nan s fr)
    | _ => none

/-- The origin NaN as a result. -/
def originRes (f : Fmt) (lane idx : Nat) : Res := ⟨originNaN f lane idx, false⟩

/-- An operation on operands of one format that has NaNs taken out first (04:R121). -/
def nanFirst (f : Fmt) (xs : List Nat) (k : Unit → Res) : Res :=
  match firstNaN f xs with
  | some b => ⟨b, false⟩
  | none => k ()

/-- a + b, or a - b (07:R208). -/
def fpAdd (f : Fmt) (mode : Nat) (sat : Bool) (lane idx : Nat) (sub : Bool) (a b : Nat) : Res :=
  nanFirst f [a, b] fun _ =>
    (sumRound f mode sat [f.read a, if sub then fvNeg (f.read b) else f.read b]).getD (originRes f lane idx)

/-- a x b. -/
def fpMul (f : Fmt) (mode : Nat) (sat : Bool) (lane idx a b : Nat) : Res :=
  nanFirst f [a, b] fun _ =>
    match fvMul (f.read a) (f.read b) with
    | some p => roundFv f mode sat p
    | none => originRes f lane idx

/-- a x b + c, rounded once. -/
def fpMad (f : Fmt) (mode : Nat) (sat : Bool) (lane idx a b c : Nat) : Res :=
  nanFirst f [a, b, c] fun _ =>
    match fvMul (f.read a) (f.read b) with
    | some p => (sumRound f mode sat [p, f.read c]).getD (originRes f lane idx)
    | none => originRes f lane idx

/-- a / b (07:R215). -/
def fpDiv (f : Fmt) (mode : Nat) (sat : Bool) (lane idx a b : Nat) : Res :=
  nanFirst f [a, b] fun _ =>
    match f.read a, f.read b with
    | .fin s m e, .fin t n g =>
      if n = 0 then (if m = 0 then originRes f lane idx else ⟨f.infinity (s != t), false⟩)
      else f.round mode sat (s != t) (m * 2 ^ 80 / n) (e - g - 80) (m * 2 ^ 80 % n ≠ 0)
    | .fin s _ _, .inf t => ⟨f.signBit (s != t), false⟩
    | .inf s, .fin t _ _ => ⟨f.infinity (s != t), false⟩
    | _, _ => originRes f lane idx

/-- The integer square root, bit by bit from bit k - 1 down. -/
def isqrtFrom (x : Nat) : Nat → Nat → Nat
  | 0, r => r
  | k + 1, r => if (r + 2 ^ k) * (r + 2 ^ k) ≤ x then isqrtFrom x k (r + 2 ^ k) else isqrtFrom x k r

/-- The integer square root of a number. -/
def isqrt (x : Nat) : Nat := isqrtFrom x (Nat.log2 x / 2 + 1) 0

/-- The square root of a finite nonzero magnitude m x 2^e as magnitude, exponent, sticky. -/
def sqrtMag (m : Nat) (e : Int) : Nat × Int × Bool :=
  let m := m * 2 ^ 100
  let e := e - 100
  let (m, e) := if e % 2 = 0 then (m, e) else (2 * m, e - 1)
  let r := isqrt m
  (r, e / 2, r * r ≠ m)

/-- The square root (07:R215). -/
def fpSqrt (f : Fmt) (mode : Nat) (sat : Bool) (lane idx a : Nat) : Res :=
  nanFirst f [a] fun _ =>
    match f.read a with
    | .fin s m e =>
      if m = 0 then ⟨f.signBit s, false⟩
      else if s then originRes f lane idx
      else let (r, g, st) := sqrtMag m e; f.round mode sat false r g st
    | .inf s => if s then originRes f lane idx else ⟨f.infinity false, false⟩
    | .nan s fr => ⟨f.nan s fr, false⟩

/-! ## Comparisons (07:R204, R210) -/

/-- A finite or infinite value as a key that orders it: exact, with the zeros equal. -/
def fvLt (a b : Fv) : Bool :=
  match a, b with
  | .inf s, .inf t => s && !t
  | .inf s, .fin _ _ _ => s
  | .fin _ _ _, .inf t => !t
  | .fin s m e, .fin t n g =>
    let e0 := if e < g then e else g
    termAt e0 (.fin s m e) < termAt e0 (.fin t n g)
  | _, _ => false

/-- Is the value a NaN? -/
def Fv.isNaN : Fv → Bool
  | .nan _ _ => true
  | _ => false

/-- A relation of `VCMP` on floating-point values: 0 eq, 1 ne, 2 lt, 3 le, 4 gt, 5 ge, 6 ord, 7 uno. -/
def fvRel (r : Nat) (a b : Fv) : Bool :=
  let u := a.isNaN || b.isNaN
  match r with
  | 0 => !u && !fvLt a b && !fvLt b a
  | 1 => u || fvLt a b || fvLt b a
  | 2 => !u && fvLt a b
  | 3 => !u && !fvLt b a
  | 4 => !u && fvLt b a
  | 5 => !u && !fvLt a b
  | 6 => !u
  | _ => u

/-- The minimum or maximum of two patterns of a format: an operand exactly, -0 below +0 (07:R210). -/
def fpMinMax (f : Fmt) (max : Bool) (a b : Nat) : Res :=
  nanFirst f [a, b] fun _ =>
    let va := f.read a
    let vb := f.read b
    let less := fvLt va vb || (!fvLt vb va && decide (2 ^ (f.width - 1) ≤ a) && !decide (2 ^ (f.width - 1) ≤ b))
    ⟨if less != max then a else b, false⟩

/-! ## Conversions (04:R119, R123, R124) -/

/-- A finite magnitude rounded to an integer by a mode (04:R117). -/
def roundInt (mode : Nat) (s : Bool) (m : Nat) (e : Int) : Int :=
  let n := if 0 ≤ e then m * 2 ^ e.toNat else m / 2 ^ (-e).toNat
  let unit := if 0 ≤ e then 1 else 2 ^ (-e).toNat
  let rem := if 0 ≤ e then 0 else m % unit
  let n := if roundsUp mode s n rem unit false then n + 1 else n
  if s then -(n : Int) else n

/-- A value to an integer type (04:R124). -/
def toInt (ty mode : Nat) : Fv → Nat
  | .nan _ _ => 0
  | .inf s => ofIntMod (tyWidth ty) (if s then intMin ty else intMax ty)
  | .fin s m e => ofIntMod (tyWidth ty) (intClamp ty (roundInt mode s m e))

/-- `Convert` of `CVT`, `PACK` and `UNPACK`: from type `src` to type `dst` (04:R124; 07:R218). -/
def convert (dst src mode : Nat) (sat : Bool) (x : Nat) : Nat :=
  if tyInt src then
    let v := intOf src x
    if tyInt dst then (intResult dst sat v).bits
    else ((fmtOf dst).round mode sat (v < 0) v.natAbs 0 false).bits
  else
    let f := fmtOf src
    let v := f.read x
    if tyInt dst then toInt dst mode v
    else match v with
      | .nan s fr => nanTo f (fmtOf dst) s fr
      | v => (roundFv (fmtOf dst) mode (sat || dst = 11) v).bits

/-- Q of 04:R119, from the exact magnitude (m x 2^e) and the magnitudes a and b as multiples of 2^g: the part of the way from a
to b, in 2^16ths, at most 2^16. -/
def stochQ (m : Nat) (e : Int) (a b : Nat) (g : Int) : Nat :=
  let e0 := if e < g then e else g
  let x := m * 2 ^ (e - e0).toNat
  let a' := a * 2 ^ (g - e0).toNat
  let b' := b * 2 ^ (g - e0).toNat
  if b' ≤ a' then 0 else min ((x - a') * 65536 / (b' - a')) 65536

/-- `CVTS`: stochastic rounding with 16 random bits; OV when the target cannot hold the source (04:R119). -/
def convertStoch (dst src : Nat) (sat : Bool) (rnd x : Nat) : Res :=
  let f := fmtOf src
  match f.read x with
  | .nan s fr => if tyInt dst then ⟨0, true⟩ else ⟨nanTo f (fmtOf dst) s fr, false⟩
  | .inf s => if tyInt dst then ⟨toInt dst 0 (.inf s), true⟩ else ⟨(fmtOf dst).infinity s, false⟩
  | .fin s m e =>
    if tyInt dst then
      let lim : Int := if s then intMin dst else intMax dst
      let t := roundInt 1 s m e
      let exact := if 0 ≤ e then true else m % 2 ^ (-e).toNat = 0
      let out := !intFits dst t || (t = lim && !exact)
      let a := (intClamp dst t).natAbs
      let q := stochQ m e a (a + 1) 0
      if !out && exact then ⟨ofIntMod (tyWidth dst) t, false⟩ else
      let mag := if rnd < q then a + 1 else a
      ⟨ofIntMod (tyWidth dst) (intClamp dst (if s then -(mag : Int) else mag)), out⟩
    else
      let g := fmtOf dst
      let minq : Int := 1 - (g.bias : Int) - (g.mb : Int)
      let tr := g.round 1 false s m e false
      let mag := tr.bits % 2 ^ (g.width - 1)
      let lo := match g.read mag with | .fin _ n _ => n | _ => 0
      let ex := match g.read mag with | .fin _ _ k => k | _ => minq
      let q := stochQ m e lo (lo + 1) ex
      -- exact when the truncation lost nothing
      let same := m = 0 || (let e0 := if e < ex then e else ex
                           m * 2 ^ (e - e0).toNat = lo * 2 ^ (ex - e0).toNat)
      let out := mag = g.maxF && !same
      if same then ⟨tr.bits, false⟩
      else if rnd < q then
        if mag = g.maxF then ⟨g.signBit s + (if sat then g.maxF else g.inf.getD g.maxF), out⟩ else ⟨g.signBit s + (mag + 1), out⟩
      else ⟨g.signBit s + mag, out⟩

/-! ## The Q4 family (04:R125 to R128) -/

/-- The values of codes 0 to 7 of a block type, in eighths; the negative half mirrors them, but for uniform integers. -/
def q4Mag (qt c : Nat) : Nat :=
  match qt with
  | 0 => 8 * c
  | 1 => [0, 4, 8, 12, 16, 24, 32, 48].getD c 0
  | 2 => [0, 1, 2, 4, 8, 16, 32, 64].getD c 0
  | _ => [0, 8, 16, 24, 32, 48, 64, 96].getD c 0

/-- The value of a code in eighths (04:R126). -/
def q4Value (qt c : Nat) : Int :=
  if qt = 0 then 8 * asInt 4 c
  else if c < 8 then (q4Mag qt c : Int) else -(q4Mag qt (c - 8) : Int)

/-- The code of a type for a sign and a magnitude index; zero is always code 0x0. -/
def q4Code (qt : Nat) (s : Bool) (i : Nat) : Nat := if i = 0 then 0 else if qt = 0 then (if s then 16 - i else i) else if s then 8 + i else i

/-- The largest magnitude index of a sign. -/
def q4Top (qt : Nat) (s : Bool) : Nat := if qt = 0 && s then 8 else 7

/-- The magnitude in eighths of an index, 8 being that of the uniform integer -8. -/
def q4Index (qt i : Nat) : Nat := if i = 8 then 64 else q4Mag qt i

/-- Rounds the magnitude num / den (in eighths) over the values of a type (04:R128): the greatest index at or below, then up by
the mode. -/
def q4Round (qt mode : Nat) (s : Bool) (num den : Nat) : Nat :=
  let top := q4Top qt s
  let i := (List.range (top + 1)).foldl (fun a k => if q4Index qt k * den ≤ num then k else a) 0
  if i = top then i else
  let lo := q4Index qt i * den
  let hi := q4Index qt (i + 1) * den
  if num = lo then i else
  if (match mode with
    | 0 => hi - num < num - lo || (hi - num = num - lo && i % 2 = 1)
    | 1 => false
    | 2 => s
    | _ => !s) then i + 1 else i

/-- `QENC` of one value with a scale byte (04:R124, R128). -/
def qenc (src mode x scale : Nat) : Nat :=
  let qt := scale / 64 % 4
  let qe := scale % 64
  if qe = 63 then 0 else
  match (fmtOf src).read x with
  | .nan _ _ => 0
  | .inf s => q4Code qt s (q4Top qt s)
  | .fin s m e =>
    let k : Int := e + 32 - (qe : Int) + 3
    let num := if 0 ≤ k then m * 2 ^ k.toNat else m
    let den := if 0 ≤ k then 1 else 2 ^ (-k).toNat
    q4Code qt s (q4Round qt mode s num den)

/-- `QDEC` of one code: its exact value in a format, 0x8 of the signed-magnitude types being +0 (07:R223). -/
def qdec (dst qt c : Nat) : Nat :=
  let v := q4Value qt c
  ((fmtOf dst).round 0 false (v < 0) v.natAbs (-3) false).bits

/-! ## Special functions (04:R134, R135) -/

/-- Bits after the point in the fixed-point numbers of the special functions (log 21). -/
def spBits : Nat := 512

/-- arctan(1/n) x 2^k, by its series, `terms` terms. -/
def atanInv (n k terms : Nat) : Int :=
  (List.range terms).foldl (fun a i =>
    let t : Int := ((2 ^ k / n ^ (2 * i + 1) / (2 * i + 1) : Nat) : Int)
    if i % 2 = 0 then a + t else a - t) 0

/-- pi x 2^k, by Machin's formula. -/
def piFixed (k : Nat) : Nat := (16 * atanInv 5 (k + 16) (k / 4 + 8) - 4 * atanInv 239 (k + 16) (k / 15 + 8)).toNat / 2 ^ 16

/-- ln 2 x 2^k, by the series of 1 / (i x 2^i). -/
def ln2Fixed (k : Nat) : Nat := (List.range (k + 16)).foldl (fun a i => a + 2 ^ (k + 16) / ((i + 1) * 2 ^ (i + 1))) 0 / 2 ^ 16

/-- exp(x) - 1 for a fixed-point x, by its series. -/
def expm1Fixed (x : Int) : Int :=
  ((List.range 700).foldl (fun (a : Int × Int) i =>
    let t := a.1 * x / (2 ^ spBits : Nat) / ((i + 1 : Nat) : Int)
    (t, a.2 + t)) ((2 ^ spBits : Nat), 0)).2

/-- sin(x) for a fixed-point x of magnitude at most 4, by its series. -/
def sinFixed (x : Int) : Int :=
  let x2 := x * x / (2 ^ spBits : Nat)
  ((List.range 100).foldl (fun (a : Int × Int) i =>
    let t := -(a.1 * x2 / (2 ^ spBits : Nat)) / (((2 * i + 2) * (2 * i + 3) : Nat) : Int)
    (t, a.2 + t)) (x, x)).2

/-- ln(1 + d) / 2 for 1 + d = y, as artanh of z = (y - 1) / (y + 1), by its series. -/
def atanhFixed (z : Int) : Int :=
  let z2 := z * z / (2 ^ spBits : Nat)
  ((List.range 260).foldl (fun (a : Int × Int) i =>
    let t := a.1 * z2 / (2 ^ spBits : Nat)
    (t, a.2 + t / ((2 * i + 3 : Nat) : Int))) (z, z)).2

/-- A fixed-point number that is no exact value, rounded to a format (04:R134). -/
def roundFixed (f : Fmt) (x : Int) : Nat := (f.round 0 false (x < 0) x.natAbs (-(spBits : Int)) true).bits

/-- m x 2^e as a fixed-point number, cut off below. -/
def toFixed (s : Bool) (m : Nat) (e : Int) : Int :=
  let k := e + (spBits : Int)
  let n := if 0 ≤ k then m * 2 ^ k.toNat else m / 2 ^ (-k).toNat
  if s then -(n : Int) else n

/-- x modulo 2 pi, in fixed point, between -pi and pi, for x = m x 2^e; the reduction loses nothing that counts. -/
def reduceTwoPi (s : Bool) (m : Nat) (e : Int) : Int :=
  let k := spBits + 192
  let twoPi := 2 * piFixed k
  let x : Nat := if 0 ≤ e + (k : Int) then m * 2 ^ (e + (k : Int)).toNat else 0
  let r := x % twoPi
  let r : Int := if twoPi < 2 * r then (r : Int) - twoPi else r
  (if s then -r else r) / (2 ^ 192 : Nat)

/-- The special functions, by opcode less 0x088: 0 FRCP, 1 FRSQ, 2 FEXP2, 3 FLOG2, 4 FSIN, 5 FCOS, 6 FTANH (04:R134, R135). -/
def special (fn : Nat) (f : Fmt) (lane idx x : Nat) : Nat :=
  let origin := originNaN f lane idx
  match f.read x with
  | .nan s fr => f.nan s fr
  | .inf s =>
    match fn with
    | 0 => f.signBit s
    | 1 => if s then origin else 0
    | 2 => if s then 0 else f.infinity false
    | 3 => if s then origin else f.infinity false
    | 6 => (f.round 0 false s 1 0 false).bits
    | _ => origin
  | .fin s m e =>
    match fn with
    | 0 => if m = 0 then f.infinity s else (f.round 0 false s (2 ^ 120 / m) (-e - 120) (2 ^ 120 % m ≠ 0)).bits
    | 1 =>
      if m = 0 then f.infinity s else if s then origin else
      -- 1 / sqrt(m x 2^e) = sqrt(2^200 / m) x 2^(-100 - e/2), e made even
      let (m, e) := if e % 2 = 0 then (m, e) else (2 * m, e - 1)
      let r := isqrt (2 ^ 200 / m)
      (f.round 0 false false r (-100 - e / 2) (r * r * m ≠ 2 ^ 200)).bits
    | 2 =>
      if m = 0 then (f.round 0 false false 1 0 false).bits
      else if 0 ≤ e then
        let n := if 4096 < m * 2 ^ (min e.toNat 16) then 4096 else m * 2 ^ e.toNat
        (f.round 0 false false 1 (if s then -(n : Int) else n) false).bits
      else
        let i : Int := (if s then -(m : Int) else m) / (2 ^ (-e).toNat : Nat)
        let frac : Int := (if s then -(m : Int) else m) - i * (2 ^ (-e).toNat : Nat)
        if frac = 0 then (f.round 0 false false 1 i false).bits else
        let y := toFixed false frac.toNat e * (ln2Fixed spBits : Int) / (2 ^ spBits : Nat)
        let v := (expm1Fixed y + (2 ^ spBits : Nat)).toNat
        (f.round 0 false false v (i - (spBits : Int)) true).bits
    | 3 =>
      if m = 0 then f.infinity true else if s then origin else
      let l := Nat.log2 m
      let n : Int := e + (l : Int)
      if m = 2 ^ l then (f.round 0 false (n < 0) n.natAbs 0 false).bits else
      let z : Int := (((m - 2 ^ l) * 2 ^ spBits / (m + 2 ^ l) : Nat) : Int)
      let lg := 2 * atanhFixed z * (2 ^ spBits : Nat) / (ln2Fixed spBits : Int)
      roundFixed f (n * (2 ^ spBits : Nat) + lg)
    | 4 => if m = 0 then f.signBit s else
      if e + (Nat.log2 m : Int) < -60 then (f.round 0 false s (m * 2 ^ 60 - 1) (e - 60) true).bits
      else roundFixed f (sinFixed (reduceTwoPi s m e))
    | 5 => if m = 0 then (f.round 0 false false 1 0 false).bits else
      if e + (Nat.log2 m : Int) < -60 then (f.round 0 false false (2 ^ 120 - 1) (-120) true).bits
      else
        -- cos x = 1 - 2 sin^2 (x / 2)
        let h := sinFixed (reduceTwoPi false m e / 2)
        roundFixed f ((2 ^ spBits : Nat) - 2 * (h * h / (2 ^ spBits : Nat)))
    | _ => if m = 0 then f.signBit s else
      if e + (Nat.log2 m : Int) < -60 then (f.round 0 false s (m * 2 ^ 60 - 1) (e - 60) true).bits
      else if 6 < e + (Nat.log2 m : Int) then (f.round 0 false s (2 ^ 120 - 1) (-120) true).bits
      else
        let y := expm1Fixed (2 * toFixed false m e)
        let r := y * (2 ^ spBits : Nat) / (y + 2 * (2 ^ spBits : Nat))
        (f.round 0 false s r.natAbs (-(spBits : Int)) true).bits

end Sys2Proof.Machine
end

