-- ==== Sys2Proof/Machine/Operands.lean ====
section
/-!
DEFINITION. Operand forms of the lane words: sub-elements (00:R8), stepped registers (05:R148), source B (05:R142), the
effective mask (02:R41).
-/
namespace Sys2Proof.Machine

/-! ## Sub-elements (00:R8) -/

/-- Sub-element k of width w. -/
def sub (x : W64) (w k : Nat) : Nat := x.toNat / 2 ^ (k * w) % 2 ^ w

/-- A register from its sub-elements of width w, sub-element 0 first. -/
def ofSubs (w : Nat) : List Nat → Nat
  | [] => 0
  | x :: r => x % 2 ^ w + 2 ^ w * ofSubs w r

/-- `x` in every sub-element of width w. -/
def replicate64 (w x : Nat) : W64 := BitVec.ofNat 64 (ofSubs w (List.replicate (64 / w) x))

/-- The sign-extended immediate. -/
def immS (f : LaneF) : W64 := f.imm.signExtend 64

/-! ## The lane word that moves -/

/-- What a lane word works on: the team, its run, the fields as stepped by a repeat, the word's index. -/
structure LaneEnv where
  s   : State
  t   : Nat
  tm  : Team
  rb  : RunBlock
  f   : LaneF
  vd  : Nat
  va  : Nat
  vb  : Nat
  vc  : Nat
  idx : Nat
  eff : Mask
  deriving DecidableEq, Repr

/-- TY as a number. -/
def LaneEnv.ty (e : LaneEnv) : Nat := e.f.ty.toNat
/-- SRC as a number. -/
def LaneEnv.src (e : LaneEnv) : Nat := e.f.src.toNat
/-- MOD as a number. -/
def LaneEnv.mod (e : LaneEnv) : Nat := e.f.mod.toNat
/-- RM as a number. -/
def LaneEnv.rm (e : LaneEnv) : Nat := e.f.rm.toNat
/-- SSEL (05:R140). -/
def LaneEnv.ssel (e : LaneEnv) : Nat := e.f.sub.toNat / 16
/-- DSEL (05:R140). -/
def LaneEnv.dsel (e : LaneEnv) : Nat := e.f.sub.toNat % 16
/-- `.chk` (07:R200). -/
def LaneEnv.chk (e : LaneEnv) : Bool := e.f.mod.getLsbD 3

/-- The repeat index of the word, and its steps (05:R148). -/
def RunBlock.stepAt (rb : RunBlock) : RepState := rb.rep.getD ⟨0, 1, 0, 0, 0, 0⟩

/-- The effective mask of a word (02:R41; 07:R195). -/
def Team.effMask (tm : Team) (f : LaneF) : Mask := tm.mreg f.msk.toNat &&& tm.topMask &&& tm.exist

/-- Sub-element of width `g` in which a part lies. -/
def PartWrite.granule (w : PartWrite) (g : Nat) : Nat × Nat × Nat := (w.reg, w.lane, w.lo / g)

/-- Every bit of the sub-element of width `g` in which a part lies is still to be written by these parts. -/
def wholeGranule (g : Nat) (ws : List PartWrite) (w : PartWrite) : Bool :=
  (ws.filter fun x => x.granule g = w.granule g).foldl (fun a x => a + x.width) 0 = g

/-- The parts of a sub-element of width `g`, all of it, as one part. -/
def joinParts (g : Nat) (ws : List PartWrite) (w : PartWrite) : PartWrite :=
  ⟨w.reg, w.lane, w.lo, g, (ws.filter fun x => x.granule g = w.granule g).foldl
    (fun v x => v ||| ((x.val &&& BitVec.ofNat 64 (2 ^ x.width - 1)) <<< (x.lo - w.lo))) 0⟩

/-- Before a word uses registers in sub-elements of width `g`: of results that narrower parts bring, one that has been written in part is
written whole, so that the word finds the old or the new value; in a register that the word writes the others stay together, so that one of
the two writers remains (05:R151). -/
def Team.settle (tm : Team) (g dst : Nat) (regs : List Nat) : Team :=
  if tm.pending.isEmpty then tm else
  tm.pending.foldl (fun (tm : Team) p =>
    let narrow := p.writes.filter fun w => (w.reg = dst || regs.contains w.reg) && w.width < g
    let now := narrow.filter fun w => !wholeGranule g narrow w
    let rest := (p.writes.filter fun w => !now.contains w).filterMap fun w =>
      if w.reg = dst && w.width < g then (if w.lo % g = 0 then some (joinParts g narrow w) else none) else some w
    { tm.putParts now with pending := tm.pending ++ [{ p with writes := rest }] }) { tm with pending := [] }

/-- The environment of a word of a team's run. VB is stepped when SRC is 00 or 11 (05:R148). -/
def laneEnv (s : State) (t : Nat) (tm : Team) (rb : RunBlock) (f : LaneF) : LaneEnv :=
  let r := rb.stepAt
  let src := f.src.toNat
  let vd := f.vd.toNat + r.i * r.sd
  let va := f.va.toNat + r.i * r.sa
  let vb := f.vb.toNat + (if src = 0 ∨ src = 3 then r.i * r.sb else 0)
  let vc := f.vc.toNat + r.i * r.sc
  { s := s, t := t, tm := tm.settle (tyWidth f.ty.toNat) vd [va, vb, vc], rb := rb, f := f,
    vd := vd, va := va, vb := vb, vc := vc, idx := rb.pos.toNat, eff := tm.effMask f }

/-- The active lanes, in ascending order (02:R41). -/
def LaneEnv.active (e : LaneEnv) : List Nat := (List.range e.tm.lanes).filter fun l => e.eff.getLsbD l

/-- The rows that the word does not skip (02:R42). -/
def LaneEnv.rows (e : LaneEnv) : Nat :=
  ((List.range ((e.tm.lanes + 31) / 32)).filter fun r => e.eff.extractLsb' (32 * r) 32 ≠ 0).length

/-- Lane register `r` of lane `l`; a lane that does not exist reads 0 (07:R226). -/
def LaneEnv.v (e : LaneEnv) (r l : Nat) : W64 := if l < e.tm.lanes then e.tm.lreg l r else 0

/-- Broadcast register `n` of the block's bank (02:R38). -/
def LaneEnv.bank (e : LaneEnv) (n : Nat) : W64 := NMap.get e.rb.blk.bank 0 n

/-- The immediate as one sub-element of type `ty` (05:R142). -/
def immOf (ty : Nat) (f : LaneF) : Nat :=
  if ty = 7 then f.imm.toNat
  else if tyWidth ty = 64 then (immS f).toNat
  else f.imm.toNat % 2 ^ tyWidth ty

/-- Source B of lane `l`, sub-element `k`, at type `ty` (05:R142). -/
def LaneEnv.bop (e : LaneEnv) (ty l k : Nat) : Nat :=
  let w := tyWidth ty
  match e.src with
  | 0 => sub (e.v e.vb l) w k
  | 1 => (e.bank (e.f.vb.toNat % 16)).toNat % 2 ^ w
  | 2 => immOf ty e.f
  | _ => sub (e.v e.vb l) w e.ssel

/-- Source B of a cross-lane word: with SRC = 11 the lane is IMM[9:0] (07:R226). -/
def LaneEnv.bopX (e : LaneEnv) (ty l k : Nat) : Nat :=
  if e.src = 3 then sub (e.v e.vb (e.f.imm.toNat % 1024)) (tyWidth ty) e.ssel else e.bop ty l k

/-- Source B as one 64-bit value (05:R142 for B64; 08:R232). -/
def LaneEnv.b64 (e : LaneEnv) (l : Nat) : W64 :=
  match e.src with
  | 1 => e.bank (e.f.vb.toNat % 16)
  | 2 => immS e.f
  | _ => e.v e.vb l

/-! ## What a lane word does -/

/-- The effects of a lane word on the registers of its team. -/
structure LaneFx where
  /-- Parts of lane registers. -/
  writes : List PartWrite
  /-- Mask registers. -/
  masks  : List (Nat × Mask)
  /-- The mask stack, when the word changes it. -/
  stack  : Option (List Mask)
  /-- Random states, by lane. -/
  rnd    : List (Nat × W64)
  sticky : BitVec 3
  /-- Some of its results come as responses of home slices (03:R108). -/
  resp   : Bool
  deriving DecidableEq, Repr

/-- No effect. -/
def LaneFx.none : LaneFx := ⟨[], [], Option.none, [], 0, false⟩

/-- A whole register of a lane. -/
def wholeWrite (r l : Nat) (x : W64) : PartWrite := ⟨r, l, 0, 64, x⟩

/-- Writes only. -/
def LaneFx.ofWrites (ws : List PartWrite) : LaneFx := { LaneFx.none with writes := ws }

/-- The sub-elements k < n of a lane's result, with the OV of any of them. -/
def packRes (w : Nat) (rs : List Res) : Nat × Bool := (ofSubs w (rs.map (·.bits)), rs.any (·.ov))

/-- An element-wise word (07:R194): `op` gives sub-element k of lane l; OV counts under `.chk` (07:R200). -/
def LaneEnv.elementwise (e : LaneEnv) (ty : Nat) (chk : Bool) (op : Nat → Nat → Res) : LaneFx :=
  let rs := e.active.map fun l => (l, packRes (tyWidth ty) ((List.range (tyCount ty)).map fun k => op l k))
  { LaneFx.none with
    writes := rs.map fun r => wholeWrite e.vd r.1 (BitVec.ofNat 64 r.2.1),
    sticky := if chk && rs.any (fun r => r.2.2) then stickyOV else 0 }

/-- Sub-element k of source A of lane l. -/
def LaneEnv.a (e : LaneEnv) (ty l k : Nat) : Nat := sub (e.v e.va l) (tyWidth ty) k
/-- Sub-element k of source C of lane l. -/
def LaneEnv.c (e : LaneEnv) (ty l k : Nat) : Nat := sub (e.v e.vc l) (tyWidth ty) k
/-- Sub-element k of the destination of lane l, where it is read. -/
def LaneEnv.d (e : LaneEnv) (ty l k : Nat) : Nat := sub (e.v e.vd l) (tyWidth ty) k

end Sys2Proof.Machine
end

