-- ==== Sys2Proof/Machine/Lane.lean ====
section
/-!
DEFINITION. How a lane word issues: the slot, the window, the pass cap, the checks in their order, the effects, the end of a run
(02:R38 to R42, R53; 05:R146 to R151; 16:R366 to R369, R379; 11:R332).
-/
namespace Sys2Proof.Machine

/-- Greatest number of passes of a run (05:R147). -/
def passCap : Nat := 1024
/-- Greatest number of words of a run (05:R146). -/
def wordCap : Nat := 24

/-! ## Fetching lane words (02:R37; 17:R393) -/

/-- Why a fetch yields no word: its page is not mapped, or the address is no global pointer or not readable. -/
inductive FetchMiss where
  | unmapped | unreadable
  deriving DecidableEq, Repr

/-- Lines of 128 bytes in the lane-word cache of 192 KiB and in the scalar one of 64 KiB (01:R15, R16). -/
def codeLines (lane : Bool) : Nat := if lane then 1536 else 512

/-- The tags of the line of an instruction cache that holds a virtual, or a physical, address for a team; the core resolves `%hyp` by the tree
that its L1 knows (03:R104). -/
def State.codeTag (s : State) (tm : Team) (lane phys : Bool) (a : Nat) : CodeLine :=
  if phys then ⟨tm.core, lane, 64, 0, 0, lineOf a, []⟩
  else ⟨tm.core, lane, tm.slot, (s.ctx tm.slot).tgen, (s.ctxAt tm.slot (l1Unit tm.core)).acting tm.hyp, lineOf a, []⟩

/-- A line has some tags. -/
def CodeLine.has (l k : CodeLine) : Bool :=
  l.core = k.core && l.lane = k.lane && l.slot = k.slot && l.tgen = k.tgen && l.hyp = k.hyp && l.at_ = k.at_

/-- The cached line that serves a fetch with some tags; whether it is still there is a free choice (log 19). -/
def State.codeLine (s : State) (k : CodeLine) : Option CodeLine :=
  s.icache.find? fun l => l.has k && Config.stays (s.draw (62000 + k.at_ / 128 % 2))

/-- The cached line that a stream's fetch of an address finds: a matrix stream has no instruction cache. -/
def State.codeHit (s : State) (tm : Team) (cache : Option Bool) (phys : Bool) (a : Nat) : Option CodeLine :=
  cache.bind fun lane => s.codeLine (s.codeTag tm lane phys a)

/-- The hypothesis that a fetch acts under at the home slice of its code (03:R102, R104). -/
def State.codeActs (s : State) (tm : Team) (pa : Nat) : Nat := (s.ctxAt tm.slot (s.sliceUnit pa)).acting tm.hyp

/-- The bytes of the line of code at a physical address, as its home holds it; those of host or peer memory are free (17:R393; log 29). -/
def State.codeSees (s : State) (tm : Team) (phys : Bool) (pa : Nat) : List Byte :=
  if phys then s.bytes (lineOf pa) 128
  else if physClass pa ≠ 0 then (List.range 128).map fun i => Config.freeByte (s.draw (63000 + pa / 128 % 2 * 128 + i))
  else (s.homeSees tm.slot (s.codeActs tm pa) pa).data

/-- A byte of code: from the cache, or as the home holds it. -/
def State.codeByte (s : State) (tm : Team) (cache : Option Bool) (phys : Bool) (a pa : Nat) : Byte :=
  match s.codeHit tm cache phys a with
  | some l => l.data.getD (a % 128) 0
  | none => (s.codeSees tm phys pa).getD (pa % 128) 0

/-- Fetches `n` bytes of an instruction at `p` for a team, in supervisor mode or not (17:R393), through one of its core's instruction caches
(log 19). -/
def State.fetchBytes (s : State) (tm : Team) (cache : Option Bool) (p : W64) (n : Nat) : Except FetchMiss (List Byte) :=
  let tag := p.toNat / 2 ^ 56
  if tag < 2 ∧ tm.ctrl.isNone then
    let va := p.toNat % 2 ^ 57
    (List.range n).foldr (fun i (r : Except FetchMiss (List Byte)) =>
      match r with
      | .error m => .error m
      | .ok bs => match (s.ctx tm.slot).translate (va + i) with
        | none => .error .unmapped
        | some (pg, _, pa) => if pg.read then .ok (s.codeByte tm cache false (va + i) pa :: bs) else .error .unreadable)
      (.ok [])
  else if tag = 0xFF ∧ tm.sup ∧ physClass p.toNat = 0 then
    .ok ((List.range n).map fun i => s.codeByte tm cache true (p.toNat % 2 ^ 54 + i) (p.toNat % 2 ^ 54 + i))
  else .error .unreadable

/-- The line of code at an address as its home holds it. -/
def State.codeData (s : State) (tm : Team) (phys : Bool) (a : Nat) : List Byte :=
  if phys then s.codeSees tm true a else
  match (s.ctx tm.slot).translate (lineOf a) with
  | some (_, _, pa) => s.codeSees tm false pa
  | none => Line.blank.data

/-- The die of the home of the code at an address; code in host or peer memory crosses no die-to-die link that the model numbers. -/
def State.codeHome (s : State) (tm : Team) (phys : Bool) (a : Nat) : Nat :=
  if phys then s.homeDie a else match (s.ctx tm.slot).translate a with
    | some (pg, _, pa) => if physClass pa = 0 then pg.home else dieOfCore tm.core
    | none => dieOfCore tm.core

/-- The line of code may stay in a cache of the core: its home and the core resolve `%hyp` alike (03:R104). -/
def State.codeStays (s : State) (tm : Team) (phys : Bool) (a : Nat) : Bool :=
  phys || match (s.ctx tm.slot).translate (lineOf a) with
    | some (_, _, pa) => s.codeActs tm pa = (s.ctxAt tm.slot (l1Unit tm.core)).acting tm.hyp
    | none => true

/-- A line of code that a fetch missed enters the cache; a full one loses a line, which one is free. -/
def State.fillCode (s : State) (tm : Team) (lane phys : Bool) (a : Nat) : State :=
  let k := s.codeTag tm lane phys a
  if (s.codeLine k).isSome then s else
  if !s.codeStays tm phys a then s.cross (dieOfCore tm.core) (s.codeHome tm phys a) else
  let rest := s.icache.filter fun l => !l.has k
  let part := rest.filter fun l => l.core = tm.core && l.lane = lane
  let rest := if part.length < codeLines lane then rest else
    match part[Config.pick (s.draw 62002) % part.length]? with
    | some v => rest.filter fun l => !l.has v
    | none => rest
  { s.cross (dieOfCore tm.core) (s.codeHome tm phys a) with icache := rest ++ [{ k with data := s.codeData tm phys a }] }

/-- The code that a fetch misses can be read now: links lead to its home (01:R22). -/
def State.codeReady (s : State) (tm : Team) (cache : Option Bool) (p : W64) (n : Nat) : Bool :=
  let phys : Bool := 2 ≤ p.toNat / 2 ^ 56
  let a := if phys then p.toNat % 2 ^ 54 else p.toNat % 2 ^ 57
  [a, a + n - 1].all fun x => (s.codeHit tm cache phys x).isSome || s.reaches (dieOfCore tm.core) (s.codeHome tm phys x)

/-- The lines of a fetched word enter the cache of its stream. -/
def State.cacheCode (s : State) (tm : Team) (cache : Option Bool) (p : W64) (n : Nat) : State :=
  match cache with
  | none => s
  | some lane =>
    let phys : Bool := 2 ≤ p.toNat / 2 ^ 56
    let a := if phys then p.toNat % 2 ^ 54 else p.toNat % 2 ^ 57
    let s := s.fillCode tm lane phys a
    if lineOf a = lineOf (a + n - 1) then s else s.fillCode tm lane phys (a + n - 1)

/-- The trap of a fetch fault: detail A is the address; detail B bits [0] scalar, [1] lane, [2] not mapped, [3] not readable or not
global (17:R393). -/
def fetchTrap (tm : Team) (lane : Option Nat) (p : W64) (m : FetchMiss) : TrapInfo :=
  ⟨0x24, lane, tm.pc, p, BitVec.ofNat 64 ((if lane.isSome then 2 else 1) + (if m = .unmapped then 4 else 8)), p, 0, none, none, none⟩

/-- Byte address of lane word `k` of a team (02:R37). -/
def Team.laneAddr (tm : Team) (k : Nat) : W64 := tm.laneBase + BitVec.ofNat 64 (12 * k)

/-- Lane word `k` of a team. -/
def State.laneWordAt (s : State) (tm : Team) (k : Nat) : Except FetchMiss (BitVec 96) :=
  (s.fetchBytes tm (some true) (tm.laneAddr k) 12).map fun bs => BitVec.ofNat 96 (leNat bs)

/-! ## Issue -/

/-- A team's lane stream may issue: it holds a slot, its block runs, and no kill waits at a run boundary (02:R55). -/
def Team.mayLane (tm : Team) : Bool :=
  tm.live && tm.holding.isSome && match tm.run with
    | some r => !r.ended && (tm.kill.isNone || r.words ≠ 0 || r.passes ≠ 0)
    | none => false

/-- The team whose lane stream moves, with its run. -/
def State.laneTeam (s : State) : Option (Nat × Team × RunBlock) :=
  match s.turn with
  | .lane t => match s.teams[t]? with
    | some tm => if tm.mayLane && !s.noPass tm.core then tm.run.map fun r => (t, tm, r) else none
    | none => none
  | _ => none

/-- The team leaves its slot: its run has ended (02:R52; 11:R332). -/
def Team.endRun (tm : Team) (clock : Nat) : Team :=
  { tm with holding := none, lastSlot := tm.holding.getD tm.lastSlot, state := if tm.state = .running then .ready else tm.state,
            since := clock, run := tm.run.map fun r => { r with words := 0, passes := 0 } }

/-- Results that the next word must wait for: of words whose window is over (05:R150). -/
def Team.mustWait (tm : Team) : Bool := tm.pending.any fun p => !p.inRep && p.left = 0

/-- Results of earlier repeats that a repeat reads, by the registers that it reads (05:R148). -/
def Team.repeatWaits (tm : Team) (reads : List Nat) : Bool :=
  tm.pending.any fun p => p.inRep && p.writes.any fun w => reads.contains w.reg

/-- A team parked in the green room (02:R53; 11:R338). -/
def State.park (s : State) (t : Nat) (tm : Team) : State :=
  let c := clusterOfCore tm.core
  let cl := s.cluster c
  (s.setCluster c { cl with green := cl.green ++ [t] }).setTeam t { tm.endRun s.clock with state := .parked }

/-- The queue whose issue share a team uses; a replay has no reservation (11:R334; 19:R425). -/
def State.shareOf (s : State) (tm : Team) : Option Nat :=
  match s.unit? tm.unit with
  | some u => if u.replay.isSome then none else some u.queue
  | none => none

/-- Adds to the issue service of a team's queue on its core. -/
def State.addUsage (s : State) (tm : Team) (n : Nat) : State :=
  let c := s.core tm.core
  match s.shareOf tm with
  | some q => s.setCore tm.core { c with usage := NMap.put c.usage 0 q (NMap.get c.usage 0 q + n) }
  | none => s

/-- A word of a team has taken some passes in its slot: they count as issue service of its queue in the core's interval (11:R332, R334), and
the first pass after a migration is noted (11:R341). A word that completes outside a slot, at the end of a wait, takes none there. -/
def State.useSlot (s : State) (t : Nat) (tm : Team) (n : Nat) : State :=
  if n = 0 ∨ tm.holding = none then s else
  let s := s.addUsage tm n
  if s.migrations.isEmpty then s else
  { s with migrations := s.migrations.map fun m =>
      if m.team = t && !m.copying && m.firstPass.isNone then { m with firstPass := some (s.islandClock m.new) } else m }

/-- The team waits in its slot at the end of the window of a word that missed the L1: it wants an entry of the green room (02:R53). -/
def Team.wantsGreen (tm : Team) : Bool := tm.state = .running && tm.pending.any fun p => p.miss && !p.inRep && p.left = 0

/-- A request for an entry of the green room of cluster `c` stands: its team still waits before the same word. -/
def State.stillAsks (s : State) (c : Nat) (e : Nat × BitVec 26) : Bool :=
  match s.teams[e.1]? with
  | some tm => clusterOfCore tm.core = c && tm.wantsGreen && tm.run.map (·.pos) = some e.2
  | none => false

/-- The requests that stand, with the team's own at its place: last when it is new. -/
def State.asksWith (s : State) (t : Nat) (tm : Team) (rb : RunBlock) : List (Nat × BitVec 26) :=
  let c := clusterOfCore tm.core
  let l := (s.cluster c).asks.filter (s.stillAsks c)
  if l.contains (t, rb.pos) then l else l ++ [(t, rb.pos)]

/-- Notes the requests for entries of a cluster's green room. -/
def State.setAsks (s : State) (c : Nat) (l : List (Nat × BitVec 26)) : State := s.setCluster c { s.cluster c with asks := l }

/-- A clock in which the team waits in its slot counts as a pass of the run and as issue service; at the cap the run ends before the waiting word (11:R332). -/
def stall (s : State) (t : Nat) (tm : Team) (rb : RunBlock) : State :=
  if rb.passes < passCap then (s.setTeam t { tm with run := some { rb with passes := rb.passes + 1 } }).addUsage tm 1
  else s.setTeam t (tm.endRun s.clock)

/-- The wait at the end of a window: a team that misses the L1 parks when the green room has room and no earlier request stands;
otherwise it stalls in its slot (02:R53; 11:R332, R338). A handler's lanes stall. -/
def laneWait (s : State) (t : Nat) (tm : Team) (rb : RunBlock) : State :=
  if !tm.wantsGreen then stall s t tm rb else
  let c := clusterOfCore tm.core
  let l := s.asksWith t tm rb
  if (s.cluster c).green.length < 64 ∧ l.head? = some (t, rb.pos) then (s.setAsks c l.tail).park t tm
  else stall (s.setAsks c l) t tm rb

/-- Effects of a word on its team's registers (07:R194, R199). -/
def Team.applyFx (tm : Team) (fx : LaneFx) : Team :=
  let tm := { tm with rnd := fx.rnd.foldl (fun (m : NMap W64) (e : Nat × W64) => NMap.put m 0 e.1 e.2) tm.rnd }
  let tm := fx.masks.foldl (fun tm e => tm.setMreg e.1 (e.2 &&& tm.exist)) tm
  let tm := match fx.stack with
    | some st => { tm with stack := st.map (· &&& tm.exist) }
    | none => tm
  tm.stick fx.sticky

/-- Two parts are the same bits of the same register. -/
def PartWrite.sameAs (w x : PartWrite) : Bool := w.reg = x.reg && w.lane = x.lane && w.lo = x.lo && w.width = x.width

/-- After a word, or a repeat of it: a repeat overwrites what an earlier one is still to write to the same place (05:R148); the windows of earlier words shorten when the word is complete; its own results are written, or
wait when it is of long latency (05:R149, R150). -/
def Team.commit (tm : Team) (fx : LaneFx) (long miss last : Bool) (la : Nat) : Team :=
  let tm := tm.applyFx fx
  let old := tm.pending.map fun p =>
    let p := if p.inRep then { p with writes := p.writes.filter fun w => fx.writes.all fun x => !w.sameAs x } else p
    if p.inRep then (if last then { p with inRep := false, left := la } else p)
    else if last then { p with left := p.left - 1 } else p
  if long then { tm with pending := old ++ [⟨fx.writes, la, miss, !last, miss || fx.resp⟩] }
  else { tm.putParts fx.writes with pending := old }

/-- The run after a word or repeat that took `p` passes: on to the next repeat, or past the word; a word with B or E, or the 24th,
ends the run (05:R146 to R148). The word after index 2^26 - 1 is that with index 0, since the lane program counter has 26 bits (02:R35;
DESIGN CHOICE, log 82). -/
def Team.retire (tm : Team) (rb : RunBlock) (f : LaneF) (p clock : Nat) : Team :=
  let r := rb.stepAt
  if r.i + 1 < r.count then { tm with run := some { rb with rep := some { r with i := r.i + 1 }, passes := rb.passes + p } }
  else
    let rb' := { rb with rep := none, pos := rb.pos + 1, words := rb.words + 1, passes := rb.passes + p, ended := f.e }
    let tm := { tm with run := some rb' }
    if f.b || f.e || wordCap ≤ rb'.words then tm.endRun clock else tm

/-- Is this the last repeat of its word? -/
def RunBlock.lastRep (rb : RunBlock) : Bool := !(rb.stepAt.i + 1 < rb.stepAt.count)

/-- The raw bits of a lane instruction. -/
def laneBits (i : Instr) : W96 :=
  match encode i with
  | some (.lane w) => w
  | _ => 0

/-- A trap at a lane word (16:R366): detail A and B hold the word (16:R372). -/
def laneReject (e : LaneEnv) (cause : Nat) (i : Instr) : Out :=
  takeTrap e.s e.t e.tm ⟨cause, some e.idx, e.tm.pc, (laneBits i).extractLsb' 0 64, ((laneBits i).extractLsb' 64 32).zeroExtend 64,
    0, e.eff, none, none, none⟩

/-- How a lane word of one opcode is checked. -/
structure LaneShape where
  /-- The operand form is accepted (16:R379). -/
  form  : LaneEnv → Bool
  /-- The registers the word uses, as stepped. -/
  regs  : LaneEnv → List Nat
  /-- Those of them that it reads. -/
  reads : LaneEnv → List Nat
  /-- Passes; a mask word takes one, `LNOP` none (07:R198). -/
  passes : LaneEnv → Nat
  /-- Long latency (05:R149). -/
  long  : Bool
  /-- Bits of a sub-element of its destination: what a word in its window finds old or new by itself (05:R151). -/
  part  : LaneEnv → Nat := fun e => tyWidth e.ty
  /-- The registers that it reads, each with its lane, where these are not those of the active lanes (07:R226). -/
  cells : Option (LaneEnv → List (Nat × Nat)) := none

/-- The registers that a word reads, each with its lane. -/
def LaneShape.readsOf (sh : LaneShape) (e : LaneEnv) : List (Nat × Nat) :=
  match sh.cells with
  | some f => f e
  | none => e.active.flatMap fun l => (sh.reads e).map fun r => (r, l)

/-- Does the word read a poisoned granule of the lane register file (19:R416)? -/
def LaneEnv.meetsPoison (e : LaneEnv) (cells : List (Nat × Nat)) : Bool :=
  e.s.poison.any fun p => match p with
    | .laneRegs t r l0 => t = e.t && cells.any fun c => c.1 = r && c.2 / 4 * 4 = l0
    | _ => false

/-- Marks of granules of the lane register file that a word writes whole are cleared (19:R415). -/
def State.clearRegPoison (s : State) (t : Nat) (tm : Team) (ws : List PartWrite) : State :=
  { s with poison := s.poison.filter fun p => match p with
    | .laneRegs x r l0 =>
      !(x = t && ((List.range 4).all fun j =>
        tm.lanes ≤ l0 + j || 64 ≤ ((ws.filter fun w => w.reg = r && w.lane = l0 + j).foldl (fun a w => a + w.width) 0)))
    | _ => true }

/-- A lane word up to its effects: waits, cap, and the checks of 16:R369 in order; then `k`. A run whose clocks of waiting before its first
word leave fewer passes than the word takes ends without it, so that no run exceeds the cap (05:R147; 11:R332; DESIGN CHOICE, log 74). -/
def onLane (s : State) (i : Instr) (f : LaneF) (sh : LaneShape) (k : LaneEnv → Out) : Out :=
  match s.laneTeam with
  | none => .next s
  | some (t, tm, rb) =>
    if tm.mustWait then .next (laneWait s t tm rb) else
    let e := laneEnv s t tm rb f
    if passCap < rb.passes + sh.passes e then .next (s.setTeam t (tm.endRun s.clock))
    else if !sh.form e then laneReject e 0x03 i
    else if (sh.regs e).any fun r => tm.budget ≤ r then laneReject e 0x04 i
    else if e.tm.repeatWaits (sh.reads e) then .next (stall s t tm rb)
    else k e

/-- Parts of registers cut into sub-elements of `w` bits. -/
def splitWrites (w : Nat) (ws : List PartWrite) : List PartWrite :=
  ws.flatMap fun p => if w = 0 ∨ p.width % w ≠ 0 then [p] else
    (List.range (p.width / w)).map fun k => ⟨p.reg, p.lane, p.lo + w * k, w, p.val >>> (w * k)⟩

/-- The effects as they are written, or left to be written: a word of long latency leaves sub-elements (05:R151). -/
def LaneShape.cut (sh : LaneShape) (e : LaneEnv) (fx : LaneFx) : LaneFx :=
  if sh.long then { fx with writes := splitWrites (sh.part e) fx.writes } else fx

/-- The state after a word that ran: poison it met is consumed, results and run position are as the rules say. -/
def laneDone (e : LaneEnv) (s : State) (sh : LaneShape) (fx : LaneFx) (miss : Bool) (stamp : Stamp) : Out :=
  let s := if e.meetsPoison (sh.readsOf e) then s.consumePoison e.tm.unit else s
  let s := s.clearRegPoison e.t e.tm fx.writes
  let tm := e.tm.commit (sh.cut e fx) sh.long miss e.rb.lastRep e.f.la.toNat
  .next ((s.setTeam e.t { tm.retire e.rb e.f (sh.passes e) s.clock with seen := joinStamp tm.seen stamp, kill := s.killOf e.t e.tm }).useSlot e.t e.tm (sh.passes e))

/-- A lane word that touches no memory. -/
def laneWord (s : State) (i : Instr) (f : LaneF) (sh : LaneShape) (fx : LaneEnv → LaneFx) : Out :=
  onLane s i f sh fun e => laneDone e e.s sh (fx e) false []

/-! ## Shapes -/

/-- Registers of source B: VB for SRC 00 and 11. -/
def LaneEnv.bRegs (e : LaneEnv) : List Nat := if e.src = 0 ∨ e.src = 3 then [e.vb] else []
/-- SSEL is within the sub-elements when SRC is 11 (05:R142, R143). -/
def LaneEnv.sselOk (e : LaneEnv) (ty : Nat) : Bool := e.src ≠ 3 || e.ssel < tyCount ty

/-- VD, VA, B with a TY condition. -/
def shapeAB (ok : Nat → Bool) (long : Bool) : LaneShape :=
  { form := fun e => ok e.ty && e.sselOk e.ty, regs := fun e => e.vd :: e.va :: e.bRegs, reads := fun e => e.va :: e.bRegs,
    passes := (·.rows), long := long }

/-- VD, VA. -/
def shapeA (ok : Nat → Bool) (long : Bool) : LaneShape :=
  { form := fun e => ok e.ty, regs := fun e => [e.vd, e.va], reads := fun e => [e.va], passes := (·.rows), long := long }

/-- VD, VA, B, VC. -/
def shapeABC (ok : Nat → Bool) : LaneShape :=
  { form := fun e => ok e.ty && e.sselOk e.ty, regs := fun e => e.vd :: e.va :: e.vc :: e.bRegs,
    reads := fun e => e.va :: e.vc :: e.bRegs, passes := (·.rows), long := false }

/-- No lane register, whatever TY; `p` passes. -/
def shapeNone (p : Nat) : LaneShape :=
  { form := fun _ => true, regs := fun _ => [], reads := fun _ => [], passes := fun _ => p, long := false }

end Sys2Proof.Machine
end

