-- ==== Sys2Proof/Machine/LaneAlu.lean ====
section
/-!
DEFINITION. Lane words that move no memory, first part: control and identity, masks, element-wise arithmetic, division, square root and
special functions (07:R201 to R216).
-/
namespace Sys2Proof.Machine

/-! ## Accepted types (07:R196) -/

/-- INT or FP. -/
def okIntFp (ty : Nat) : Bool := tyInt ty || tyFp ty
/-- TY 0 to 14. -/
def okAny (ty : Nat) : Bool := ty < 15
/-- INT or B64. -/
def okIntB64 (ty : Nat) : Bool := tyInt ty || ty = 14
/-- INT, FP or F8. -/
def okNum (ty : Nat) : Bool := tyInt ty || tyFp ty || tyF8 ty
/-- I32, U32, I64, U64, B64. -/
def okField (ty : Nat) : Bool := (4 ≤ ty && ty ≤ 7) || ty = 14

/-! ## Control and identity (07:R201 to R203) -/

/-- `LNOP`. -/
def execLnop (f : LaneF) (s : State) : Out := laneWord s (.lnop f) f (shapeNone 0) fun _ => LaneFx.none

/-- `REP`: the next word issues count times. It looks at that word first: one that cannot be fetched traps there, and the return
issues every repeat of it; another `REP` traps here (05:R148; 16:R367, R379). -/
def execRep (f : LaneF) (s : State) : Out :=
  onLane s (.rep f) f { shapeNone 0 with form := fun e => e.rb.rep.isNone } fun e =>
    let n := f.imm.toNat
    let tm := { e.tm with run := some { e.rb with
      pos := e.rb.pos + 1, words := e.rb.words + 1,
      rep := some ⟨0, n % 64 + 1, n / 64 % 4, n / 256 % 4, n / 1024 % 4, n / 4096 % 4⟩ } }
    match s.laneWordAt e.tm (e.idx + 1) with
    | .error m => takeTrap s e.t tm (fetchTrap e.tm (some (e.idx + 1)) (e.tm.laneAddr (e.idx + 1)) m)
    | .ok w => if (w.extractLsb' 86 10).toNat = 1 then laneReject e 0x03 (.rep f) else s.nextTeam e.t tm

/-- One step of a lane's random state (04:R120). -/
def rndStep (st : W64) : W64 :=
  let st := st ^^^ (st <<< 13)
  let st := st ^^^ (st >>> 7)
  st ^^^ (st <<< 17)

/-- The random state of lane `l` for a seed (04:R120). -/
def rndInit (seed : W64) (l : Nat) : W64 :=
  let st := seed ^^^ BitVec.ofNat 64 ((l + 1) * 0x9E3779B97F4A7C15)
  if st = 0 then 1 else st

/-- Every lane's random state for a seed. -/
def rndAll (seed : W64) (lanes : Nat) : NMap W64 := (List.range lanes).map fun l => (l, rndInit seed l)

/-- The random state of each active lane after one step. -/
def LaneEnv.rndNext (e : LaneEnv) : List (Nat × W64) := e.active.map fun l => (l, rndStep (NMap.get e.tm.rnd 0 l))

/-- `LRND`: one step of each active lane's random state, and the state to VD. -/
def execLrnd (f : LaneF) (s : State) : Out :=
  laneWord s (.lrnd f) f { shapeNone 0 with regs := fun e => [e.vd], passes := (·.rows) } fun e =>
    { LaneFx.none with rnd := e.rndNext, writes := e.rndNext.map fun r => wholeWrite e.vd r.1 r.2 }

/-- `VIDX`: lane, row or flat index in every sub-element. -/
def execVidx (f : LaneF) (s : State) : Out :=
  laneWord s (.vidx f) f
    { form := fun e => tyInt e.ty && e.mod < 3, regs := fun e => [e.vd], reads := fun _ => [], passes := (·.rows), long := false } fun e =>
    e.elementwise e.ty false fun l k =>
      ⟨(match e.mod with | 0 => l | 1 => l / 32 | _ => l * tyCount e.ty + k) % 2 ^ tyWidth e.ty, false⟩

/-! ## Masks (07:R204 to R207) -/

/-- A word on whole mask registers (07:R206). -/
def maskWord (s : State) (i : Instr) (f : LaneF) (op : Mask → Mask → Mask) : Out :=
  laneWord s i f (shapeNone 1) fun e => { LaneFx.none with masks := [(e.vd % 8, op (e.tm.mreg (e.va % 8)) (e.tm.mreg (e.vb % 8)))] }

/-- `MMOV`. -/
def execMmov (f : LaneF) (s : State) : Out := maskWord s (.mmov f) f fun a _ => a
/-- `MAND`. -/
def execMand (f : LaneF) (s : State) : Out := maskWord s (.mand f) f fun a b => a &&& b
/-- `MOR`. -/
def execMor (f : LaneF) (s : State) : Out := maskWord s (.mor f) f fun a b => a ||| b
/-- `MXOR`. -/
def execMxor (f : LaneF) (s : State) : Out := maskWord s (.mxor f) f fun a b => a ^^^ b
/-- `MNOT`. -/
def execMnot (f : LaneF) (s : State) : Out := maskWord s (.mnot f) f fun a _ => ~~~a

/-- A mask-stack word: `cause` when its depth condition fails (07:R207; 16:R372). -/
def stackWord (s : State) (i : Instr) (f : LaneF) (cause : Nat) (ok : Nat → Bool) (op : LaneEnv → List Mask → List Mask) : Out :=
  onLane s i f (shapeNone 1) fun e =>
    if ok e.tm.stack.length then
      laneDone e s (shapeNone 1) { LaneFx.none with stack := some (op e e.tm.stack) } false []
    else laneReject e cause i

/-- `MPUSH`: pushes Top() AND m[VA[2:0]]; at depth 16 cause 0x05. -/
def execMpush (f : LaneF) (s : State) : Out :=
  stackWord s (.mpush f) f 0x05 (· < 16) fun e st => (e.tm.topMask &&& e.tm.mreg (e.va % 8)) :: st
/-- `MPOP`; at depth 0 cause 0x06. -/
def execMpop (f : LaneF) (s : State) : Out := stackWord s (.mpop f) f 0x06 (0 < ·) fun _ st => st.tail
/-- `MINV`: top becomes Below() AND NOT top; at depth 0 cause 0x06. -/
def execMinv (f : LaneF) (s : State) : Out :=
  stackWord s (.minv f) f 0x06 (0 < ·) fun _ st =>
    (st.tail.headD (BitVec.allOnes 1024) &&& ~~~(st.headD 0)) :: st.tail

/-- A mask with the bits of the active lanes replaced (07:R204). -/
def LaneEnv.maskBits (e : LaneEnv) (d : Nat) (bit : Nat → Bool) : Mask :=
  let on := e.active.foldl (fun (m : Mask) l => if bit l then m ||| BitVec.ofNat 1024 (2 ^ l) else m) 0
  (e.tm.mreg d &&& ~~~e.eff) ||| on

/-- A relation of `VCMP` on integers. -/
def intRel (r : Nat) (a b : Int) : Bool :=
  match r with
  | 0 => a = b
  | 1 => a ≠ b
  | 2 => a < b
  | 3 => a ≤ b
  | 4 => b < a
  | 5 => b ≤ a
  | 6 => true
  | _ => false

/-- `VCMP`: one bit per active lane, of sub-element DSEL or of all. With `.all` DSEL names nothing and is not looked at (DESIGN CHOICE,
log 75). -/
def execVcmp (f : LaneF) (s : State) : Out :=
  laneWord s (.vcmp f) f
    { form := fun e => okNum e.ty && e.sselOk e.ty && (e.f.mod.getLsbD 3 || e.dsel < tyCount e.ty),
      regs := fun e => e.va :: e.bRegs, reads := fun e => e.va :: e.bRegs, passes := (·.rows), long := false } fun e =>
    let test (l k : Nat) : Bool :=
      let a := e.a e.ty l k
      let b := e.bop e.ty l k
      if tyInt e.ty then intRel (e.mod % 8) (intOf e.ty a) (intOf e.ty b)
      else fvRel (e.mod % 8) ((fmtOf e.ty).read a) ((fmtOf e.ty).read b)
    { LaneFx.none with masks := [(e.vd % 8, e.maskBits (e.vd % 8) fun l =>
        if e.f.mod.getLsbD 3 then (List.range (tyCount e.ty)).all (test l) else test l e.dsel)] }

/-- Does a value fall in a class that a set selects: bit 0 zero, 1 subnormal, 2 infinity, 3 NaN (07:R205)? -/
def classIn (f : Fmt) (set x : Nat) : Bool :=
  match f.read x with
  | .nan _ _ => set / 8 % 2 = 1
  | .inf _ => set / 4 % 2 = 1
  | .fin _ m _ => if m = 0 then set % 2 = 1 else m < 2 ^ f.mb && set / 2 % 2 = 1

/-- `VCLASS`. -/
def execVclass (f : LaneF) (s : State) : Out :=
  laneWord s (.vclass f) f
    { form := fun e => (tyFp e.ty || tyF8 e.ty) && e.dsel < tyCount e.ty,
      regs := fun e => [e.va], reads := fun e => [e.va], passes := (·.rows), long := false } fun e =>
    { LaneFx.none with masks := [(e.vd % 8, e.maskBits (e.vd % 8) fun l => classIn (fmtOf e.ty) e.mod (e.a e.ty l e.dsel))] }

/-! ## Element-wise arithmetic (07:R208 to R214) -/

/-- An element-wise word of two operands with an integer and a floating-point meaning. -/
def arithWord (s : State) (i : Instr) (f : LaneF) (sh : LaneShape) (chk : Bool)
    (int : LaneEnv → Int → Int → Res) (fp : LaneEnv → Fmt → Nat → Nat → Nat → Res) : Out :=
  laneWord s i f sh fun e =>
    e.elementwise e.ty (chk && e.chk) fun l k =>
      if tyInt e.ty then int e (intOf e.ty (e.a e.ty l k)) (intOf e.ty (e.bop e.ty l k))
      else fp e (fmtOf e.ty) l (e.a e.ty l k) (e.bop e.ty l k)

/-- `IntResult` by the word's SAT. -/
def LaneEnv.intRes (e : LaneEnv) (x : Int) : Res := intResult e.ty e.f.sat x

/-- `VADD`. -/
def execVadd (f : LaneF) (s : State) : Out :=
  arithWord s (.vadd f) f (shapeAB okIntFp false) true (fun e a b => e.intRes (a + b))
    fun e g l a b => fpAdd g e.rm e.f.sat l e.idx false a b
/-- `VSUB`. -/
def execVsub (f : LaneF) (s : State) : Out :=
  arithWord s (.vsub f) f (shapeAB okIntFp false) true (fun e a b => e.intRes (a - b))
    fun e g l a b => fpAdd g e.rm e.f.sat l e.idx true a b
/-- `VMUL`. -/
def execVmul (f : LaneF) (s : State) : Out :=
  arithWord s (.vmul f) f (shapeAB okIntFp false) true (fun e a b => e.intRes (a * b))
    fun e g l a b => fpMul g e.rm e.f.sat l e.idx a b
/-- `VMULH`: the high w bits of the exact product; OV as a `VMUL` of the operands would set it. -/
def execVmulh (f : LaneF) (s : State) : Out :=
  arithWord s (.vmulh f) f (shapeAB tyInt false) true
    (fun e a b => ⟨ofIntMod (tyWidth e.ty) (a * b / (2 ^ tyWidth e.ty : Nat)), !intFits e.ty (a * b)⟩) fun _ _ _ a _ => ⟨a, false⟩
/-- `VMAD`: one rounding. -/
def execVmad (f : LaneF) (s : State) : Out :=
  laneWord s (.vmad f) f (shapeABC okIntFp) fun e =>
    e.elementwise e.ty e.chk fun l k =>
      let a := e.a e.ty l k
      let b := e.bop e.ty l k
      let c := e.c e.ty l k
      if tyInt e.ty then e.intRes (intOf e.ty a * intOf e.ty b + intOf e.ty c)
      else fpMad (fmtOf e.ty) e.rm e.f.sat l e.idx a b c
/-- `VMIN`. -/
def execVmin (f : LaneF) (s : State) : Out :=
  arithWord s (.vmin f) f (shapeAB okIntFp false) false (fun e a b => ⟨ofIntMod (tyWidth e.ty) (min a b), false⟩)
    fun _ g _ a b => fpMinMax g false a b
/-- `VMAX`. -/
def execVmax (f : LaneF) (s : State) : Out :=
  arithWord s (.vmax f) f (shapeAB okIntFp false) false (fun e a b => ⟨ofIntMod (tyWidth e.ty) (max a b), false⟩)
    fun _ g _ a b => fpMinMax g true a b

/-- A word of one operand with an integer and a floating-point meaning. -/
def unaryWord (s : State) (i : Instr) (f : LaneF) (int : LaneEnv → Int → Res) (fp : Fmt → Nat → Nat) : Out :=
  laneWord s i f (shapeA okIntFp false) fun e =>
    e.elementwise e.ty e.chk fun l k =>
      let a := e.a e.ty l k
      if tyInt e.ty then int e (intOf e.ty a)
      else nanKeep (fmtOf e.ty) a (fp (fmtOf e.ty) a)
where
  /-- A NaN operand is given back, made quiet; otherwise the result (07:R210). -/
  nanKeep (g : Fmt) (a r : Nat) : Res := nanFirst g [a] fun _ => ⟨r, false⟩

/-- `VABS`. -/
def execVabs (f : LaneF) (s : State) : Out :=
  unaryWord s (.vabs f) f (fun e a => e.intRes a.natAbs) fun g a => a % 2 ^ (g.width - 1)
/-- `VNEG`. -/
def execVneg (f : LaneF) (s : State) : Out :=
  unaryWord s (.vneg f) f (fun e a => e.intRes (-a)) fun g a => a ^^^ 2 ^ (g.width - 1)

/-- A bitwise word. -/
def bitWord (s : State) (i : Instr) (f : LaneF) (sh : LaneShape) (op : Nat → Nat → Nat) : Out :=
  laneWord s i f sh fun e =>
    e.elementwise e.ty false fun l k => ⟨op (e.a e.ty l k) (e.bop e.ty l k) % 2 ^ tyWidth e.ty, false⟩

/-- `VAND`. -/
def execVand (f : LaneF) (s : State) : Out := bitWord s (.vand f) f (shapeAB okAny false) fun a b => a &&& b
/-- `VOR`. -/
def execVor (f : LaneF) (s : State) : Out := bitWord s (.vor f) f (shapeAB okAny false) fun a b => a ||| b
/-- `VXOR`. -/
def execVxor (f : LaneF) (s : State) : Out := bitWord s (.vxor f) f (shapeAB okAny false) fun a b => a ^^^ b
/-- `VNOT`: B is ignored. -/
def execVnot (f : LaneF) (s : State) : Out :=
  laneWord s (.vnot f) f (shapeA okAny false) fun e =>
    LaneFx.ofWrites (e.active.map fun l => wholeWrite e.vd l (~~~(e.v e.va l)))
/-- `VMOV`: B in every sub-element. -/
def execVmov (f : LaneF) (s : State) : Out :=
  laneWord s (.vmov f) f
    { form := fun e => okAny e.ty && e.sselOk e.ty, regs := fun e => e.vd :: e.bRegs, reads := fun e => e.bRegs,
      passes := (·.rows), long := false } fun e =>
    e.elementwise e.ty false fun l k => ⟨e.bop e.ty l k, false⟩

/-- `VSHL`: IntResult(a x 2^s); a shift of w or more wraps to 0 or saturates. B64 shifts plainly. -/
def execVshl (f : LaneF) (s : State) : Out :=
  laneWord s (.vshl f) f (shapeAB okIntB64 false) fun e =>
    e.elementwise e.ty (e.chk && tyInt e.ty) fun l k =>
      let a := e.a e.ty l k
      let n := min (e.bop e.ty l k) 64
      if tyInt e.ty then e.intRes (intOf e.ty a * (2 ^ n : Nat)) else ⟨a * 2 ^ n % 2 ^ 64, false⟩
/-- `VSHR`: arithmetic for signed TY, logical otherwise. -/
def execVshr (f : LaneF) (s : State) : Out :=
  laneWord s (.vshr f) f (shapeAB okIntB64 false) fun e =>
    e.elementwise e.ty false fun l k =>
      let a := e.a e.ty l k
      let n := min (e.bop e.ty l k) 64
      if tySigned e.ty then ⟨ofIntMod (tyWidth e.ty) (intOf e.ty a / (2 ^ n : Nat)), false⟩ else ⟨a / 2 ^ n, false⟩

/-- `VSEL`: a where the lane's bit of m[VC[2:0]] is 1, else b. -/
def execVsel (f : LaneF) (s : State) : Out :=
  laneWord s (.vsel f) f (shapeAB okAny false) fun e =>
    e.elementwise e.ty false fun l k => ⟨if (e.tm.mreg (e.vc % 8)).getLsbD l then e.a e.ty l k else e.bop e.ty l k, false⟩

/-- `BFX` of one sub-element (07:R213). -/
def bitExtract (ty a b : Nat) : Nat :=
  let w := tyWidth ty
  let off := b % 256
  let wid := min (b / 256 % 256) w
  if wid = 0 ∨ w ≤ off then 0 else
  let x := a / 2 ^ off % 2 ^ wid
  if tySigned ty then ofIntMod w (asInt wid x) else x

/-- `BFI` of one sub-element into `d` (07:R213). -/
def bitInsert (ty d a b : Nat) : Nat :=
  let w := tyWidth ty
  let off := b % 256
  let wid := min (b / 256 % 256) w
  if wid = 0 ∨ w ≤ off then d else
  let m := (2 ^ wid - 1) * 2 ^ off % 2 ^ w
  (d &&& (2 ^ w - 1 - m)) ||| (a * 2 ^ off % 2 ^ w &&& m)

/-- `BFX`. -/
def execBfx (f : LaneF) (s : State) : Out :=
  laneWord s (.bfx f) f (shapeAB okField false) fun e =>
    e.elementwise e.ty false fun l k => ⟨bitExtract e.ty (e.a e.ty l k) (e.bop e.ty l k), false⟩
/-- `BFI`: reads its destination. -/
def execBfi (f : LaneF) (s : State) : Out :=
  laneWord s (.bfi f) f { shapeAB okField false with reads := fun e => e.vd :: e.va :: e.bRegs } fun e =>
    e.elementwise e.ty false fun l k => ⟨bitInsert e.ty (e.d e.ty l k) (e.a e.ty l k) (e.bop e.ty l k), false⟩

/-- A word on the w unsigned bits of each sub-element (07:R214). -/
def bitsWord (s : State) (i : Instr) (f : LaneF) (op : Nat → Nat → Nat) : Out :=
  laneWord s i f (shapeA okIntB64 false) fun e =>
    e.elementwise e.ty false fun l k => ⟨op (tyWidth e.ty) (e.a e.ty l k), false⟩

/-- The number of ones among the low w bits. -/
def ones (w x : Nat) : Nat := (List.range w).foldl (fun a i => a + x / 2 ^ i % 2) 0

/-- `POPC`. -/
def execPopc (f : LaneF) (s : State) : Out := bitsWord s (.popc f) f ones
/-- `CLZ`. -/
def execClz (f : LaneF) (s : State) : Out := bitsWord s (.clz f) f fun w x => if x = 0 then w else w - 1 - Nat.log2 x
/-- `CTZ`. -/
def execCtz (f : LaneF) (s : State) : Out :=
  bitsWord s (.ctz f) f fun w x => ((List.range w).takeWhile fun i => x / 2 ^ i % 2 = 0).length
/-- `BREV`. -/
def execBrev (f : LaneF) (s : State) : Out :=
  bitsWord s (.brev f) f fun w x => (List.range w).foldl (fun a i => 2 * a + x / 2 ^ i % 2) 0

/-! ## Division, square root, special functions (07:R215, R216) -/

/-- `VDIV`: truncated; all ones for an integer zero divisor. -/
def execVdiv (f : LaneF) (s : State) : Out :=
  arithWord s (.vdiv f) f (shapeAB okIntFp true) false
    (fun e a b => if b = 0 then ⟨2 ^ tyWidth e.ty - 1, false⟩ else e.intRes (a.tdiv b))
    fun e g l a b => fpDiv g e.rm e.f.sat l e.idx a b

/-- `VSQRT`. -/
def execVsqrt (f : LaneF) (s : State) : Out :=
  laneWord s (.vsqrt f) f (shapeA tyFp true) fun e =>
    e.elementwise e.ty false fun l k => fpSqrt (fmtOf e.ty) e.rm e.f.sat l e.idx (e.a e.ty l k)

/-- A special function, by number (07:R216). -/
def specialWord (s : State) (i : Instr) (f : LaneF) (fn : Nat) : Out :=
  laneWord s i f (shapeA tyFp true) fun e =>
    e.elementwise e.ty false fun l k => ⟨special fn (fmtOf e.ty) l e.idx (e.a e.ty l k), false⟩

/-- `FRCP`. -/
def execFrcp (f : LaneF) (s : State) : Out := specialWord s (.frcp f) f 0
/-- `FRSQ`. -/
def execFrsq (f : LaneF) (s : State) : Out := specialWord s (.frsq f) f 1
/-- `FEXP2`. -/
def execFexp2 (f : LaneF) (s : State) : Out := specialWord s (.fexp2 f) f 2
/-- `FLOG2`. -/
def execFlog2 (f : LaneF) (s : State) : Out := specialWord s (.flog2 f) f 3
/-- `FSIN`. -/
def execFsin (f : LaneF) (s : State) : Out := specialWord s (.fsin f) f 4
/-- `FCOS`. -/
def execFcos (f : LaneF) (s : State) : Out := specialWord s (.fcos f) f 5
/-- `FTANH`. -/
def execFtanh (f : LaneF) (s : State) : Out := specialWord s (.ftanh f) f 6

end Sys2Proof.Machine
end

