-- ==== Sys2Proof/Machine/LaneConv.lean ====
section
/-!
DEFINITION. Lane words that move no memory, second part: conversions, packed formats, words across lanes (07:R217 to R230).
-/
namespace Sys2Proof.Machine

/-! ## Conversions (07:R217 to R221) -/

/-- Sub-elements that a conversion moves: the smaller of the two counts (07:R217). -/
def convCount (dst src : Nat) : Nat := min (tyCount dst) (tyCount src)

/-- The parts that a group conversion writes (07:R217). -/
def LaneEnv.convWrites (e : LaneEnv) (op : Nat → Nat → Nat → Nat) : List PartWrite :=
  let g := convCount e.ty e.mod
  let w := tyWidth e.ty
  e.active.flatMap fun l => (List.range g).map fun k =>
    ⟨e.vd, l, (e.dsel * g + k) * w, w, BitVec.ofNat 64 (op l k (sub (e.v e.va l) (tyWidth e.mod) (e.ssel * g + k)))⟩

/-- The group selectors are within range (07:R217; 16:R379). -/
def LaneEnv.convSel (e : LaneEnv) : Bool :=
  let g := convCount e.ty e.mod
  e.ssel < tyCount e.mod / g && e.dsel < tyCount e.ty / g

/-- `CVT`. -/
def execCvt (f : LaneF) (s : State) : Out :=
  laneWord s (.cvt f) f { shapeA okNum false with form := fun e => okNum e.ty && okNum e.mod && e.convSel } fun e =>
    LaneFx.ofWrites (e.convWrites fun _ _ x => convert e.ty e.mod e.rm e.f.sat x)

/-- `CVTS`: stochastic rounding, 16 random bits a result; the lane's state advances once; OV by 04:R119. -/
def execCvts (f : LaneF) (s : State) : Out :=
  laneWord s (.cvts f) f { shapeA okNum false with form := fun e => okNum e.ty && tyFp e.mod && e.convSel } fun e =>
    let rnd := e.rndNext
    let res (l k x : Nat) : Res :=
      convertStoch e.ty e.mod e.f.sat (((NMap.get rnd 0 l).toNat / 2 ^ (16 * k)) % 65536) x
    let g := convCount e.ty e.mod
    let ov := e.active.any fun l => (List.range g).any fun k => (res l k (sub (e.v e.va l) (tyWidth e.mod) (e.ssel * g + k))).ov
    { LaneFx.none with rnd := rnd, writes := e.convWrites (fun l k x => (res l k x).bits), sticky := if ov then stickyOV else 0 }

/-- `PACK`: two registers of twice the width become one. -/
def execPack (f : LaneF) (s : State) : Out :=
  laneWord s (.pack f) f
    { form := fun e => okNum e.ty && okNum e.mod && 2 * tyWidth e.ty = tyWidth e.mod && e.src = 0,
      regs := fun e => [e.vd, e.va, e.vb], reads := fun e => [e.va, e.vb], passes := (·.rows), long := false } fun e =>
    let ns := tyCount e.mod
    let cv (x : W64) : List Nat := (List.range ns).map fun k => convert e.ty e.mod e.rm e.f.sat (sub x (tyWidth e.mod) k)
    LaneFx.ofWrites (e.active.map fun l =>
      wholeWrite e.vd l (BitVec.ofNat 64 (ofSubs (tyWidth e.ty) (cv (e.v e.va l) ++ cv (e.v e.vb l)))))

/-- `UNPACK`: one register becomes VD and VD + 1; every conversion is exact. VD = 63 is no accepted form. -/
def execUnpack (f : LaneF) (s : State) : Out :=
  laneWord s (.unpack f) f
    { form := fun e => okNum e.ty && okNum e.mod && tyWidth e.ty = 2 * tyWidth e.mod && (tyInt e.mod || !tyInt e.ty) && e.vd ≠ 63,
      regs := fun e => [e.vd, e.vd + 1, e.va], reads := fun e => [e.va], passes := (·.rows), long := false } fun e =>
    let nd := tyCount e.ty
    let part (l o : Nat) : W64 := BitVec.ofNat 64 (ofSubs (tyWidth e.ty)
      ((List.range nd).map fun k => convert e.ty e.mod 0 false (sub (e.v e.va l) (tyWidth e.mod) (o + k))))
    LaneFx.ofWrites (e.active.flatMap fun l => [wholeWrite e.vd l (part l 0), wholeWrite (e.vd + 1) l (part l nd)])

/-! ## The Q4 family (07:R222 to R224) -/

/-- `QENC`: each source value becomes a code; the other codes are kept. -/
def execQenc (f : LaneF) (s : State) : Out :=
  laneWord s (.qenc f) f
    { form := fun e => e.ty = 13 && tyFp e.mod && e.src ≠ 3 && e.dsel < 16 / tyCount e.mod,
      regs := fun e => e.vd :: e.va :: e.bRegs, reads := fun e => e.va :: e.bRegs, passes := (·.rows), long := false } fun e =>
    let ns := tyCount e.mod
    LaneFx.ofWrites (e.active.flatMap fun l => (List.range ns).map fun k =>
      ⟨e.vd, l, (e.dsel * ns + k) * 4, 4, BitVec.ofNat 64 (qenc e.mod e.rm (sub (e.v e.va l) (tyWidth e.mod) k) ((e.b64 l).toNat % 256))⟩)

/-- `QDEC`: each code becomes its value, unscaled. B is read at B64, so SRC = 11 names sub-element 0 (16:R379; DEDUCED, log 42). -/
def execQdec (f : LaneF) (s : State) : Out :=
  laneWord s (.qdec f) f
    { form := fun e => tyFp e.ty && e.mod = 13 && (e.src ≠ 3 || e.ssel = 0) && e.ssel < 16 / tyCount e.ty,
      regs := fun e => e.vd :: e.va :: e.bRegs, reads := fun e => e.va :: e.bRegs, passes := (·.rows), long := false } fun e =>
    let nd := tyCount e.ty
    LaneFx.ofWrites (e.active.map fun l => wholeWrite e.vd l (BitVec.ofNat 64 (ofSubs (tyWidth e.ty)
      ((List.range nd).map fun k => qdec e.ty ((e.b64 l).toNat / 64 % 4) (sub (e.v e.va l) 4 (e.ssel * nd + k))))))

/-- A value times a power of two. -/
def fvScale (v : Fv) (k : Int) : Fv :=
  match v with
  | .fin s m e => .fin s m (e + k)
  | v => v

/-- One cell of a scaled accumulation (07:R224; 04:R127, R131): `p` as a value, NaN or not, with its pattern when it is F32. -/
def scaledAdd (mode : Nat) (sat : Bool) (p : Fv) (acc ea eb : Nat) (origin : Nat) : Nat :=
  match p with
  | .nan s fr => f32.nan s fr
  | p =>
    if ea = 63 ∨ eb = 63 then 0x7FC0003F else
    match f32.read acc with
    | .nan s fr => f32.nan s fr
    | a => ((sumRound f32 mode sat [a, fvScale p ((ea : Int) + (eb : Int) - 64)]).map (·.bits)).getD origin

/-- An I32 pattern as an exact value. -/
def intFv (x : Nat) : Fv := let v := asInt 32 x; .fin (v < 0) v.natAbs 0

/-- `SCACC`: scale and accumulate, one rounding; B as in `QDEC` (log 42). -/
def execScacc (f : LaneF) (s : State) : Out :=
  laneWord s (.scacc f) f
    { form := fun e => e.ty = 10 && (e.mod = 10 || e.mod = 4),
      regs := fun e => e.vd :: e.va :: e.bRegs, reads := fun e => e.vd :: e.va :: e.bRegs, passes := (·.rows), long := false } fun e =>
    LaneFx.ofWrites (e.active.map fun l => wholeWrite e.vd l (BitVec.ofNat 64 (ofSubs 32 ((List.range 2).map fun k =>
      let p := e.a 10 l k
      let b := (e.b64 l).toNat
      scaledAdd e.rm e.f.sat (if e.mod = 10 then f32.read p else intFv p) (e.d 10 l k) (b / 2 ^ (16 * k) % 64) (b / 2 ^ (16 * k + 8) % 64)
        (originNaN f32 l e.idx)))))

/-- The first NaN of a list of patterns of one format as F32 (04:R121, R123). -/
def nanAsF32 (g : Fmt) (xs : List Nat) : Option Nat :=
  xs.findSome? fun x => match g.read x with
    | .nan s fr => some (nanTo g f32 s fr)
    | _ => none

/-- One floating-point dot product of four, with C (07:R225). -/
def dot4Fp (g : Fmt) (mode : Nat) (sat : Bool) (lane idx : Nat) (as bs : List Nat) (c : Nat) : Nat :=
  match (nanAsF32 g as).orElse fun _ => (nanAsF32 g bs).orElse fun _ => nanAsF32 f32 [c] with
  | some x => x
  | none =>
    let ps := (as.zip bs).map fun p => fvMul (g.read p.1) (g.read p.2)
    if ps.any (·.isNone) then originNaN f32 lane idx else
    ((sumRound f32 mode sat (ps.filterMap id ++ [f32.read c])).map (·.bits)).getD (originNaN f32 lane idx)

/-- `DOT4`. -/
def execDot4 (f : LaneF) (s : State) : Out :=
  laneWord s (.dot4 f) f
    { shapeABC okNum with form := fun e => ((e.ty = 4 && e.mod < 2) || (e.ty = 10 && tyF8 e.mod)) && (e.src ≠ 3 || e.ssel < 8) } fun e =>
    LaneFx.ofWrites (e.active.map fun l => wholeWrite e.vd l (BitVec.ofNat 64 (ofSubs 32 ((List.range 2).map fun k =>
      let as := (List.range 4).map fun j => e.a e.mod l (4 * k + j)
      let bs := (List.range 4).map fun j => e.bop e.mod l (4 * k + j)
      let c := e.c e.ty l k
      if e.ty = 4 then
        (e.intRes (((as.zip bs).foldl (fun a p => a + intOf e.mod p.1 * intOf e.mod p.2) (intOf 4 c)))).bits
      else dot4Fp (fmtOf e.mod) e.rm e.f.sat l e.idx as bs c))))

/-! ## Across lanes (07:R226 to R230) -/

/-- The lane that `SHFL` and `SHFLX` read for sub-element k of lane l (07:R226, R227). -/
def LaneEnv.shflLane (e : LaneEnv) (l k : Nat) : Nat := 32 * (l / 32) + e.bopX e.ty l k % 32
/-- As `shflLane`, of `SHFLX`. -/
def LaneEnv.shflxLane (e : LaneEnv) (l k : Nat) : Nat := l ^^^ (e.bopX e.ty l k % 1024)

/-- What source B of a word across lanes reads (07:R226). -/
def LaneEnv.bCells (e : LaneEnv) : List (Nat × Nat) :=
  if e.src = 0 then e.active.map fun l => (e.vb, l) else if e.src = 3 then [(e.vb, e.f.imm.toNat % 1024)] else []

/-- Shape of a permutation: long latency, any TY; `from_` gives the lane that each sub-element comes from. -/
def shapePerm (from_ : LaneEnv → Nat → Nat → Nat) : LaneShape :=
  { shapeAB okAny true with
    cells := some fun e => e.bCells ++ e.active.flatMap fun l => (List.range (tyCount e.ty)).map fun k => (e.va, from_ e l k) }

/-- A permutation: sub-element k of lane l comes from `op`. -/
def permWord (s : State) (i : Instr) (f : LaneF) (sh : LaneShape) (op : LaneEnv → Nat → Nat → Nat) : Out :=
  laneWord s i f sh fun e => e.elementwise e.ty false fun l k => ⟨op e l k, false⟩

/-- `SHFL`: within the row. -/
def execShfl (f : LaneF) (s : State) : Out :=
  permWord s (.shfl f) f (shapePerm LaneEnv.shflLane) fun e l k => e.a e.ty (e.shflLane l k) k
/-- `SHFLX`: lane l XOR b. -/
def execShflx (f : LaneF) (s : State) : Out :=
  permWord s (.shflx f) f (shapePerm LaneEnv.shflxLane) fun e l k => e.a e.ty (e.shflxLane l k) k
/-- `BCAST`: B; with SRC = 00 the 64 bits of V[VB] in lane IMM[9:0]. VA is ignored. -/
def execBcast (f : LaneF) (s : State) : Out :=
  permWord s (.bcast f) f
    { shapeAB okAny true with
      regs := fun e => e.vd :: e.bRegs, reads := fun e => e.bRegs,
      cells := some fun e => if e.src = 0 then [(e.vb, e.f.imm.toNat % 1024)] else e.bCells } fun e l k =>
    if e.src = 0 then sub (e.v e.vb (e.f.imm.toNat % 1024)) (tyWidth e.ty) k else e.bopX e.ty l k
/-- `VPERM`: within the lane. -/
def execVperm (f : LaneF) (s : State) : Out :=
  permWord s (.vperm f) f (shapePerm fun _ l _ => l) fun e l k => e.a e.ty l (e.bopX e.ty l k % tyCount e.ty)

/-- An operation of `RED` and `SCAN` accepted for a type (07:R228). -/
def redOk (op ty : Nat) : Bool :=
  match op with
  | 0 => okIntFp ty
  | 1 => okIntFp ty
  | 2 => okIntFp ty
  | 3 => okIntB64 ty
  | 4 => okIntB64 ty
  | 5 => okIntB64 ty
  | _ => false

/-- The floating-point sum over lanes (07:R228). -/
def redFpAdd (f : Fmt) (mode : Nat) (sat : Bool) (lane idx : Nat) (xs : List Nat) : Nat :=
  (nanFirst f xs fun _ => (sumRound f mode sat (xs.map f.read)).getD (originRes f lane idx)).bits

/-- `RED` over the values of some lanes, in ascending order, not empty; `lane` is the lowest of them. -/
def reduce (e : LaneEnv) (op lane : Nat) (xs : List Nat) : Nat :=
  let ty := e.ty
  let w := tyWidth ty
  match op with
  | 0 => if tyInt ty then (e.intRes ((xs.map (intOf ty)).foldl (· + ·) 0)).bits
         else redFpAdd (fmtOf ty) e.rm e.f.sat lane e.idx xs
  | 3 => xs.foldl (fun a b => a &&& b) (2 ^ w - 1)
  | 4 => xs.foldl (fun a b => a ||| b) 0
  | 5 => xs.foldl (fun a b => a ^^^ b) 0
  | _ =>
    let mx := op = 2
    let pick (a b : Nat) : Nat :=
      if tyInt ty then (if decide (intOf ty a < intOf ty b) != mx then a else b) else (fpMinMax (fmtOf ty) mx a b).bits
    match xs with
    | [] => 0
    | x :: r => r.foldl pick (if tyFp ty then (nanFirst (fmtOf ty) [x] fun _ => ⟨x, false⟩).bits else x)

/-- The identity of an operation (07:R229). -/
def redIdentity (op ty : Nat) : Nat :=
  let w := tyWidth ty
  match op with
  | 1 => if tyInt ty then ofIntMod w (intMax ty) else (fmtOf ty).infinity false
  | 2 => if tyInt ty then ofIntMod w (intMin ty) else (fmtOf ty).infinity true
  | 3 => 2 ^ w - 1
  | _ => 0

/-- `RED`: every active lane gets the combination over all active lanes. -/
def execRed (f : LaneF) (s : State) : Out :=
  laneWord s (.red f) f { shapeA okAny true with form := fun e => redOk e.mod e.ty } fun e =>
    let r := BitVec.ofNat 64 (ofSubs (tyWidth e.ty) ((List.range (tyCount e.ty)).map fun k =>
      reduce e e.mod (e.active.headD 0) (e.active.map fun l => e.a e.ty l k)))
    LaneFx.ofWrites (e.active.map fun l => wholeWrite e.vd l r)

/-- `SCAN`: over the active lanes up to the writing lane, or below it. -/
def execScan (f : LaneF) (s : State) : Out :=
  laneWord s (.scan f) f { shapeA okAny true with form := fun e => redOk (e.mod % 8) e.ty } fun e =>
    LaneFx.ofWrites (e.active.map fun l =>
      let js := e.active.filter fun j => if e.f.mod.getLsbD 3 then j < l else j ≤ l
      wholeWrite e.vd l (BitVec.ofNat 64 (ofSubs (tyWidth e.ty) ((List.range (tyCount e.ty)).map fun k =>
        if js.isEmpty then redIdentity (e.mod % 8) e.ty else reduce e (e.mod % 8) (js.headD 0) (js.map fun j => e.a e.ty j k)))))

/-- `VOTE`. -/
def execVote (f : LaneF) (s : State) : Out :=
  laneWord s (.vote f) f { shapeA okAny true with form := fun e => okAny e.ty && e.mod < 4 && e.dsel < tyCount e.ty } fun e =>
    let yes := e.active.filter fun l => e.a e.ty l e.dsel ≠ 0
    let row (r : Nat) : Nat := (yes.filter fun l => l / 32 = r).foldl (fun a l => a + 2 ^ (l % 32)) 0
    let rows : Nat := ((List.range 32).filter fun q => row q ≠ 0).foldl (fun a q => a + 2 ^ q) 0
    LaneFx.ofWrites (e.active.map fun l => wholeWrite e.vd l (BitVec.ofNat 64 (match e.mod with
      | 0 => if yes.isEmpty then 0 else 1
      | 1 => if yes.length = e.active.length then 1 else 0
      | 2 => row (l / 32) + rows * 2 ^ 32
      | _ => yes.length)))

end Sys2Proof.Machine
end

