-- ==== Sys2Proof/Machine/LaneMem.lean ====
section
/-!
DEFINITION. Lane memory words, atomics, scratchpad pointer words and circular-buffer words (08:R231 to R251; 03:R66 to R78; 17:R391).
-/
namespace Sys2Proof.Machine

/-! ## Addresses (03:R66 to R68; 08:R232, R233) -/

/-- The buffer record that a word names: VA[3:0] (08:R231). -/
def LaneEnv.recNo (e : LaneEnv) : Nat := e.va % 16
/-- Its contents. -/
def LaneEnv.rec_ (e : LaneEnv) : Rec := e.tm.breg e.recNo

/-- The access of one lane: its pointer, and whether it runs out of the extent of b1 to b15. -/
structure LaneAcc where
  lane : Nat
  ptr  : W64
  out  : Bool
  deriving DecidableEq, Repr

/-- The access of lane `l`, of `z` bytes (03:R67). Accesses through b0 are not bounds-checked (03:R70). -/
def LaneEnv.access (e : LaneEnv) (z l : Nat) : LaneAcc :=
  let r := e.rec_
  let o : W64 := BitVec.ofNat 64 l * (r.extractLsb' 128 32).signExtend 64 + e.b64 l
  let sww := fld r 162 160
  let o := if sww = 0 then o else o ^^^ (((o >>> fld r 168 163) &&& BitVec.ofNat 64 (2 ^ sww - 1)) <<< fld r 174 169)
  ⟨l, r.extractLsb' 0 64 + o, e.recNo ≠ 0 && !(o.toNat + z ≤ fld r 127 64)⟩

/-- A lane that CLAMP takes out (03:R68). -/
def LaneEnv.clamped (e : LaneEnv) (a : LaneAcc) : Bool := a.out && bitOf e.rec_ 193

/-- The arena and generation that requests carry; none takes them from the translation (03:R70). -/
def LaneEnv.req (e : LaneEnv) : Option (Nat × BitVec 6) :=
  if e.recNo = 0 then none else some (fld e.rec_ 185 176, e.rec_.extractLsb' 186 6)

/-- Bytes that a load or store moves per lane (08:R233). -/
def LaneEnv.moveSize (e : LaneEnv) : Nat :=
  match e.mod % 4 with
  | 0 => 8
  | 1 => tyWidth e.ty / 8
  | _ => 4

/-- Bytes of an atomic (08:R241). -/
def LaneEnv.atomSize (e : LaneEnv) : Nat := tyWidth e.ty / 8

/-- SUB[33:32]. -/
def LaneEnv.ordering (e : LaneEnv) : Nat := e.f.sub.toNat % 4
/-- SUB[36:34]. -/
def LaneEnv.scope (e : LaneEnv) : Nat := e.f.sub.toNat / 4 % 8

/-- The count of a load or store is accepted: Q4 with MOD 00 only, `.half` not for 64 bits (08:R233). -/
def LaneEnv.countOk (e : LaneEnv) : Bool :=
  e.mod % 4 = 0 || (e.mod % 4 = 1 && e.ty ≠ 13) || (e.mod % 4 = 2 && e.ty ≠ 13 && tyWidth e.ty ≠ 64)

/-! ## Checks (17:R391) -/

/-- The causes in the order of 17:R391, with cause 0x1D of 12:R357 last. -/
def causeOrder : List Nat := [0x14, 0x15, 0x16, 0x17, 0x25, 0x12, 0x13, 0x18, 0x1B, 0x10, 0x11, 0x19, 0x1A, 0x1C, 0x1D]

/-- The parts of an access, translated; none where some part has no translation. -/
def LaneEnv.placesOf (e : LaneEnv) (k : Kind) (z : Nat) (a : LaneAcc) : List Place :=
  match e.s.resolve e.tm a.lane a.ptr z with
  | .error _ => []
  | .ok ps => match e.s.places e.tm.slot k ps with
    | .error _ => []
    | .ok pl => pl

/-- Every cause that an access of `z` bytes meets, with the address for a translation cause. -/
def LaneEnv.causes (e : LaneEnv) (k : Kind) (z align : Nat) (carried : List Place → Bool) (a : LaneAcc) : List Miss :=
  (if a.out then [⟨0x12, 0⟩] else []) ++ (if k.writes && bitOf e.rec_ 192 then [⟨0x13, 0⟩] else [])
    ++ (if a.ptr.toNat % align ≠ 0 then [⟨0x18, 0⟩] else []) ++
  match e.s.resolve e.tm a.lane a.ptr z with
  | .error c => [⟨c, 0⟩]
  | .ok ps =>
    (ps.filterMap fun x => match e.s.places e.tm.slot k [x] with
      | .error m => some m
      | .ok _ => none) ++
    match e.s.places e.tm.slot k ps with
    | .error _ => []
    | .ok pl =>
      (if k.writes then
        match e.s.writeCause e.tm.slot e.tm.core (e.req.map (·.1)) (carried pl) pl with
        | some c => [⟨c, 0⟩]
        | none => []
       else []) ++ (if k ≠ .store && pl.any (fun x => x.remote && e.s.peerDead e.tm x.key) then [⟨0x1D, 0⟩] else [])

/-- The number of the page that holds a virtual address: of its entry when mapped. -/
def Context.pageNo (c : Context) (va : Nat) : Nat :=
  match c.translate va with
  | some (_, n, _) => n
  | none => va / 65536

/-- A mask with the bits of some lanes. -/
def lanesMask (ls : List Nat) : Mask := ls.foldl (fun (m : Mask) l => m ||| BitVec.ofNat 1024 (2 ^ l)) 0

/-- The cause that a word takes. -/
structure LaneFault where
  cause : Nat
  /-- The lowest-numbered lane that meets it. -/
  acc   : LaneAcc
  va    : Nat
  lanes : Mask
  deriving DecidableEq, Repr

/-- The first cause, in order, that any lane meets; for causes 0x10 and 0x11 with the lanes in the page of the lowest. -/
def LaneEnv.firstCause (e : LaneEnv) (l : List (LaneAcc × List Miss)) : Option LaneFault :=
  causeOrder.findSome? fun c =>
    match l.filter fun x => x.2.any fun m => m.cause = c with
    | [] => none
    | x :: r =>
      let va := ((x.2.find? fun m => m.cause = c).map (·.va)).getD 0
      let page := (e.s.ctx e.tm.slot).pageNo
      let hit := if c = 0x10 ∨ c = 0x11 then (x :: r).filter fun y => y.2.any fun m => m.cause = c && page m.va = page va else x :: r
      some ⟨c, x.1, va, lanesMask (hit.map fun y => y.1.lane)⟩

/-- The arena and generation in detail B, and whether a buffer record gave them (17:R391). -/
def LaneEnv.detailArena (e : LaneEnv) (p : W64) : Nat × Nat × Bool :=
  match e.req with
  | some (a, g) => (a, g.toNat, true)
  | none => let a := e.s.detailArena e.tm p
            (a.1, a.2, false)

/-- The team once it blocks in this word: its run ends, and a lane word that waits keeps its effective mask (08:R250; 16:R371). -/
def LaneEnv.stopped (e : LaneEnv) : Team := { e.tm.endRun e.s.clock with waitMask := e.eff }

/-- A memory cause at a lane word: the run ends; cause 0x10 goes through the fault table (17:R394). -/
def laneMemTrap (e : LaneEnv) (k : Kind) (x : LaneFault) : Out :=
  let (a, g, r) := e.detailArena x.acc.ptr
  let ti : TrapInfo := ⟨x.cause, some e.idx, e.tm.pc, x.acc.ptr, memDetailB k.bits 0 a g e.tm.hyp r,
    if x.cause = 0x10 ∨ x.cause = 0x11 then BitVec.ofNat 64 x.va else 0, x.lanes, none, none, none⟩
  if x.cause = 0x10 then pageFault e.s e.t e.stopped x.va ti (BitVec.ofNat 4 k.bits) else takeTrap e.s e.t e.tm ti

/-- How a memory word is formed: what it does, its size, its alignment, the atomics carried to host and peer memory. -/
structure MemShape where
  kind    : Kind
  size    : LaneEnv → Nat
  align   : LaneEnv → Nat
  carried : LaneEnv → List Place → Bool

/-- A plain load or store. -/
def moveShape (k : Kind) : MemShape := { kind := k, size := (·.moveSize), align := fun _ => 1, carried := fun _ _ => true }

/-- The accesses that a word makes: active lanes in ascending order, without those that CLAMP takes out. -/
def LaneEnv.work (e : LaneEnv) (ms : MemShape) : List (LaneAcc × List Place) :=
  ((e.active.map (e.access (ms.size e))).filter fun a => !e.clamped a).map fun a => (a, e.placesOf ms.kind (ms.size e) a)

/-- A lane memory word up to its accesses: every check of 16:R366 and 17:R391, then `k`. -/
def laneMem (s : State) (i : Instr) (f : LaneF) (sh : LaneShape) (ms : MemShape) (k : LaneEnv → Out) : Out :=
  onLane s i f sh fun e =>
    let accs := (e.active.map (e.access (ms.size e))).filter fun a => !e.clamped a
    match e.firstCause (accs.map fun a => (a, e.causes ms.kind (ms.size e) (ms.align e) (ms.carried e) a)) with
    | some x => laneMemTrap e ms.kind x
    | none => k e

/-! ## Loads (08:R236 to R239) -/

/-- The tags of the requests of a lane word with a scope and an ordering (03:R86). -/
def LaneEnv.tags (e : LaneEnv) (scope order : Nat) : Tags :=
  { e.s.tagsOf e.t e.tm with block := true, scope := if order = 0 then 0 else scope, order := order }

/-- What the lanes of a row name of one line: one request (03:R69). -/
structure RowLine where
  /-- A part in the line. -/
  place : Place
  /-- The bytes that a store writes, by offset in the line. -/
  bytes : NMap Byte
  /-- The lines of the same accesses that are performed first (06:R173). -/
  prevs : List Nat
  deriving DecidableEq, Repr

/-- The number of the line of a memory part: of its virtual, or of its physical address. -/
def Place.lineNo (p : Place) : Nat := if p.win = .phys then 2 ^ 58 + lineOf p.key else lineOf p.va

/-- One access joins the requests of its row, part by part: a byte that a lower lane stores too takes the higher lane's value (08:R235). -/
def addParts (m : NMap RowLine) : List (Place × List Byte) → List Nat → NMap RowLine
  | [], _ => m
  | (p, b) :: r, prevs =>
    if p.win = .pad then addParts m r prevs else
    let x := (NMap.find? m p.lineNo).getD ⟨p, [], []⟩
    let bytes := List.foldl (fun o (e : Nat × Byte) => NMap.insert o e.1 e.2) x.bytes (lineBytes p.key b)
    addParts (NMap.insert m p.lineNo ⟨x.place, bytes, x.prevs ++ prevs⟩) r [lineOf p.key]

/-- The parts of a lane's store with their bytes. -/
def splitParts : List Place → List Byte → List (Place × List Byte)
  | [], _ => []
  | p :: r, bs => (p, bs.take p.len) :: splitParts r (bs.drop p.len)

/-- The accesses of row `r`. -/
def ofRow (r : Nat) (all : List (LaneAcc × List Place)) : List (LaneAcc × List Place) := all.filter fun x => x.1.lane / 32 = r

/-- The requests of the lanes of a row, one for each line that they name, in ascending order (03:R69). -/
def rowLines (data : Nat → List Byte) (l : List (LaneAcc × List Place)) : NMap RowLine :=
  l.foldl (fun m x => addParts m (splitParts x.2 (data x.1.lane)) []) []

/-- What the loads of a word give. -/
structure LaneGot where
  s      : State
  /-- The lines of the row that were loaded, by number. -/
  lines  : NMap Line
  /-- The value of each lane. -/
  vals   : List (Nat × Nat)
  stamp  : Stamp
  miss   : Bool
  poison : Bool
  /-- Some value is the response of a home slice to an atomic. -/
  resp   : Bool
  /-- It waits: for a link, or for the copy of a footprint. -/
  stuck  : Bool
  /-- The bytes of host or peer memory still to hand out. -/
  ext    : List Byte
  deriving DecidableEq, Repr

/-- Nothing loaded yet. -/
def LaneGot.start (s : State) (ext : List Byte) : LaneGot := ⟨s, [], [], [], false, false, false, false, ext⟩

/-- The lines of a row, one request each. -/
def LaneGot.loadLines (g : LaneGot) (tg : Tags) (o : LoadOpts) (req : Option (Nat × BitVec 6)) : Nat → NMap RowLine → LaneGot
  | _, [] => g
  | i, (n, x) :: r =>
    if x.place.remote then g.loadLines tg o req (i + 8) r else
    let a := g.s.loadMem tg o req i x.place
    LaneGot.loadLines { g with s := a.s, lines := NMap.insert g.lines n a.line, miss := g.miss || a.miss, stuck := g.stuck || a.stuck }
      tg o req (i + 8) r

/-- The bytes of one access, part by part: from the lines of its row, from a scratchpad, or from the answer of host or peer memory. -/
def LaneGot.gather (tg : Tags) (o : LoadOpts) (req : Option (Nat × BitVec 6)) : List Place → LaneGot → List Byte → LaneGot × List Byte
  | [], g, bs => (g, bs)
  | p :: r, g, bs =>
    if p.remote then LaneGot.gather tg o req r { g with ext := g.ext.drop p.len } (bs ++ g.ext.take p.len)
    else if p.win = .pad then
      let x := g.s.loadPlace tg o req 0 p
      LaneGot.gather tg o req r { g with s := x.s, poison := g.poison || x.poison, stuck := g.stuck || x.stuck } (bs ++ x.data)
    else
      let l := NMap.get g.lines Line.blank p.lineNo
      LaneGot.gather tg o req r
        { g with stamp := joinStamp g.stamp (l.stampOf (p.key % 128) p.len), poison := g.poison || g.s.placePoisoned tg req p }
        (bs ++ l.slice (p.key % 128) p.len)

/-- The loads of a word, row by row in ascending order (08:R235). -/
def LaneEnv.loadLanes (e : LaneEnv) (tg : Tags) (o : LoadOpts) (ext : List Byte) (all : List (LaneAcc × List Place)) : LaneGot :=
  (List.range 32).foldl (fun g r =>
    let row := ofRow r all
    let g := LaneGot.loadLines { g with lines := [] } tg o e.req (512 * r) (rowLines (fun _ => []) row)
    row.foldl (fun (g : LaneGot) x =>
      let y := LaneGot.gather tg o e.req x.2 g []
      { y.1 with vals := y.1.vals ++ [(x.1.lane, leNat y.2)] }) g) (LaneGot.start e.s ext)

/-- The same next state with a change. -/
def thenDo (o : Out) (g : State → State) : Out :=
  match o with
  | .next s => .next (g s)
  | o => o

/-- The team stays in its slot before this word (08:R239; 02:R53). -/
def LaneEnv.hold (e : LaneEnv) : Out := .next (laneWait e.s e.t e.tm e.rb)

/-- VD of every active lane: the value of a lane, 0 where CLAMP took it out (03:R68). -/
def LaneEnv.vdFx (e : LaneEnv) (vals : List (Nat × Nat)) : LaneFx :=
  LaneFx.ofWrites (e.active.map fun l => wholeWrite e.vd l (BitVec.ofNat 64 (((vals.find? fun v => v.1 = l).map (·.2)).getD 0)))

/-- The word reaches host or peer memory: the team waits for the answer, and no later word issues (17:R392). -/
def LaneEnv.sendRemote (e : LaneEnv) (i : Instr) (all : List (LaneAcc × List Place)) : Out :=
  e.s.nextTeam e.t (e.stopped.awaitRemote
    ⟨i, all.flatMap fun x => (x.2.filter (·.remote)).map fun p => (x.1.lane, p.key, p.len), true, e.s.clock⟩)

/-- The accesses of a word that reach host or peer memory from an old incarnation are dropped by the core's issue port and counted; each
reads 0 (03:R108). -/
def LaneEnv.dropRemote (e : LaneEnv) (all : List (LaneAcc × List Place)) : LaneEnv :=
  let n := ((List.range 32).map fun r => ((rowLines (fun _ => []) (ofRow r all)).filter fun x => x.2.place.remote).length).foldl (· + ·) 0
  { e with s := (List.range n).foldl (fun s _ => s.countDrop e.tm.slot 0) e.s }

/-- Zeros in the place of an answer. -/
def noAnswer (all : List (LaneAcc × List Place)) : List Byte :=
  all.flatMap fun x => x.2.flatMap fun p => if p.remote then List.replicate p.len 0 else []

/-- Completes a word that writes VD with values: poison, acquire, retirement. With an answer from host or peer memory the results are
written at once. -/
def LaneEnv.complete (e : LaneEnv) (sh : LaneShape) (acq : Option Nat) (answered : Bool) (g : LaneGot) : Out :=
  let s := if g.poison then g.s.consumePoison e.tm.unit else g.s
  let o := laneDone e s { sh with long := sh.long && !answered } { e.vdFx g.vals with resp := g.resp } g.miss g.stamp
  match acq with
  | some sc => thenDo o (·.acquire e.t sc)
  | none => o

/-- A load word: `acq` is the scope of its acquire, if it is one. A load that acquires at die scope or wider waits until the die's clock
covers what the team has read (10:R312). `ext` is the answer of host or peer memory, when it has arrived. -/
def loadAct (e : LaneEnv) (i : Instr) (sh : LaneShape) (ldr : Bool) (acq : Option Nat) (ext : Option (List Byte)) : Out :=
  let all := e.work (moveShape .load)
  let remote := ext.isNone && all.any fun x => x.2.any (·.remote)
  if remote && !e.s.oldInc e.tm then e.sendRemote i all else
  let (e, ext) := if remote then (e.dropRemote all, some (noAnswer all)) else (e, ext)
  let g := e.loadLanes (e.tags (acq.getD 0) (if acq.isSome then 1 else 0)) ⟨ldr, bitOf e.rec_ 194, e.tm.acquired⟩ (ext.getD []) all
  if g.stuck || acq.any fun sc => !e.s.mayAcquire { e.tm with seen := joinStamp e.tm.seen g.stamp } sc then
    (if ext.isNone || remote then e.hold else .next e.s)
  else e.complete sh acq ext.isSome g

/-- Shape of a load: form by `ok` beside TY, SRC and count. -/
def shapeLoad (ok : LaneEnv → Bool) : LaneShape :=
  { form := fun e => okAny e.ty && e.src ≠ 3 && e.countOk && ok e, regs := fun e => e.vd :: (if e.src = 0 then [e.vb] else []),
    reads := fun e => if e.src = 0 then [e.vb] else [], passes := (·.rows), long := true }

/-- `LD` accepts ordering 00 and 01, MOD[3:2] = 0 (08:R231). -/
def shapeLd : LaneShape :=
  shapeLoad fun e => e.mod < 4 && (e.ordering = 0 || (e.ordering = 1 && e.scope < 6))

/-- The acquire of an `LD`. -/
def LaneEnv.ldAcq (e : LaneEnv) : Option Nat := if e.ordering = 1 then some e.scope else none

/-- `LD`. -/
def execLd (f : LaneF) (s : State) : Out :=
  laneMem s (.ld f) f shapeLd (moveShape .load) fun e => loadAct e (.ld f) shapeLd false e.ldAcq none

/-- `LDR`: through the read-only sub-array. -/
def execLdr (f : LaneF) (s : State) : Out :=
  laneMem s (.ldr f) f (shapeLoad fun _ => true) (moveShape .load) fun e =>
    loadAct e (.ldr f) (shapeLoad fun _ => true) true none none

/-- Shape of `LDACQ`. -/
def shapeLdacq : LaneShape := shapeLoad fun e => e.scope < 6

/-- `LDACQ`: `LD` with acquire. -/
def execLdacq (f : LaneF) (s : State) : Out :=
  laneMem s (.ldacq f) f shapeLdacq (moveShape .load) fun e => loadAct e (.ldacq f) shapeLdacq false (some e.scope) none

/-! ## Stores (08:R235, R236, R239) -/

/-- The stores of a row to scratchpads, lane by lane in ascending order. -/
def storePads (tg : Tags) (s : State) : List (Place × List Byte) → State
  | [] => s
  | (p, b) :: r => storePads tg (if p.win = .pad then s.storePad tg p.shared p.key b else s) r

/-- The scratchpad bytes that a part of a store writes at once: none of a footprint that is being copied or was lost (11:R341). -/
def State.padKeys (s : State) (x : Place × List Byte) : List Nat :=
  if x.1.win ≠ .pad then [] else
  match if x.1.shared then s.forwards x.1.key else none with
  | none => (List.range x.2.length).map (x.1.key + ·)
  | some (_, m) => if m.ended || m.copying then [] else (List.range x.2.length).map (x.1.key - padBase m.old + padBase m.new + ·)

/-- The scratchpad granules that the stores of a row write whole, all lanes together, lose their marks (19:R415). -/
def State.clearRow (s : State) (row : List (Place × List Byte)) : State :=
  s.poison.foldl (fun s' p => match p with
    | .granule g => if (List.range 32).all fun i => (row.flatMap s.padKeys).contains (g * 32 + i) then s'.clearPoison (g * 32) 32 else s'
    | _ => s') s

/-- The requests of the stores of a row; `row` numbers them. -/
def storeLines (tg : Tags) (req : Option (Nat × BitVec 6)) (row : Nat) (s : State) : NMap RowLine → State
  | [] => s
  | (_, x) :: r => storeLines tg req row (s.storeMem tg req x.place x.bytes row x.prevs) r

/-- The stores of a word, row by row in ascending order (08:R235, R236). -/
def LaneEnv.storeLanes (e : LaneEnv) (tg : Tags) (z : Nat) (all : List (LaneAcc × List Place)) (s : State) : State :=
  let data (l : Nat) : List Byte := leBytes z (e.v e.vc l).toNat
  (List.range 32).foldl (fun s r =>
    let row := ofRow r all
    let parts := row.flatMap fun x => splitParts x.2 (data x.1.lane)
    storeLines tg e.req (r + 1) ((storePads tg s parts).clearRow parts) (rowLines data row)) s

/-- A release by a lane word at a scope: posts the write-back of the core's tiles, waits until the team's stores are performed, then
`k` (08:R239; 03:R97). -/
def LaneEnv.release (e : LaneEnv) (scope : Nat) (k : State → Out) : Out :=
  if scope ≠ 0 ∧ e.s.dirtyTiles e.tm.core then .next (e.s.releaseTiles (e.s.tagsOf e.t e.tm) e.tm.core)
  else if e.s.released e.t e.tm.core scope then k (e.s.afterRelease e.t scope) else e.hold

/-- A store word; `rel` is the scope of its release, if it is one. -/
def storeAct (e : LaneEnv) (sh : LaneShape) (rel : Option Nat) : Out :=
  let all := e.work (moveShape .store)
  let go (s : State) : Out :=
    if e.s.storeRoom e.tm (all.flatMap (·.2)) then
      laneDone e (e.storeLanes (e.tags (rel.getD 0) (if rel.isSome then 2 else 0)) e.moveSize all s) sh LaneFx.none false []
    else e.hold
  match rel with
  | some sc => e.release sc go
  | none => go e.s

/-- Shape of a store. -/
def shapeStore (ok : LaneEnv → Bool) : LaneShape :=
  { form := fun e => okAny e.ty && e.src ≠ 3 && e.countOk && ok e, regs := fun e => e.vc :: (if e.src = 0 then [e.vb] else []),
    reads := fun e => e.vc :: (if e.src = 0 then [e.vb] else []), passes := (·.rows), long := false }

/-- Shape of `ST`: ordering 00 and 10. -/
def shapeSt : LaneShape := shapeStore fun e => e.ordering = 0 || (e.ordering = 2 && e.scope < 6)

/-- `ST`. -/
def execSt (f : LaneF) (s : State) : Out :=
  laneMem s (.st f) f shapeSt (moveShape .store) fun e => storeAct e shapeSt (if e.ordering = 2 then some e.scope else none)

/-- `STREL`: `ST` with release. -/
def execStrel (f : LaneF) (s : State) : Out :=
  laneMem s (.strel f) f (shapeStore fun e => e.scope < 6) (moveShape .store) fun e =>
    storeAct e (shapeStore fun e => e.scope < 6) (some e.scope)

/-! ## Atomics (08:R240 to R242) -/

/-- The operations of `ATOM` accepted for a type (08:R240). -/
def atomOk (op ty : Nat) : Bool :=
  let int := 4 ≤ ty && ty ≤ 7
  match op with
  | 0 => int || ty = 10
  | 1 => int || ty = 10
  | 2 => int || ty = 10
  | 3 => int || ty = 14
  | 4 => int || ty = 14
  | 5 => int || ty = 14
  | 6 => int || ty = 10 || ty = 14
  | _ => false

/-- The new value of an `ATOM` on w-bit patterns. -/
def atomOp (op ty lane idx old v : Nat) : Nat :=
  let w := tyWidth ty
  match op with
  | 0 => if ty = 10 then (fpAdd f32 0 false lane idx false old v).bits else (old + v) % 2 ^ w
  | 1 => if ty = 10 then (fpMinMax f32 false old v).bits else if intOf ty v < intOf ty old then v else old
  | 2 => if ty = 10 then (fpMinMax f32 true old v).bits else if intOf ty old < intOf ty v then v else old
  | 3 => old &&& v
  | 4 => old ||| v
  | 5 => old ^^^ v
  | _ => v

/-- Is an atomic carried to host memory (PCIe AtomicOps, or every one with CXL) or to peer memory (RoCE atomics): `op` is the `ATOM`
operation, none for `CAS` (12:R355, R356)? -/
def LaneEnv.atomCarried (e : LaneEnv) (op : Option Nat) (pl : List Place) : Bool :=
  pl.all fun p => !p.remote ||
    (if physClass p.key = 1 then e.s.port.cxl || op = none || op = some 0 || op = some 6
     else (op = none || op = some 0) && tyWidth e.ty = 64)

/-- Shape of the accesses of an atomic. -/
def atomShape (op : LaneEnv → Option Nat) : MemShape :=
  { kind := .atomic, size := (·.atomSize), align := (·.atomSize), carried := fun e pl => e.atomCarried (op e) pl }

/-- One atomic on one place: the new value from the old, none to leave it. A replay works on its shadow buffer (19:R425). -/
def State.atomPlace (s : State) (tg : Tags) (req : Option (Nat × BitVec 6)) (p : Place) (op : Nat → Option Nat) : State × Nat × Bool :=
  match p.win with
  | .pad =>
    match (if p.shared then s.forwarded p.key else some p.key) with
    | none => (s.countDrop tg.slot 4, 0, false)
    | some k =>
      let old := s.bytes k p.len
      if s.poisoned k p.len then (s, leNat old, true) else
      match op (leNat old) with
      | some x => (s.storePad tg p.shared p.key (leBytes p.len x), leNat old, false)
      | none => (s, leNat old, false)
  | w =>
    match (s.unit? tg.unit).bind fun u => u.replay.map fun k => (u, k) with
    | some (u, k) =>
      let old := leNat (s.shadowBytes u p.va (s.bytes p.key p.len))
      (match op old with
       | some x => s.storeShadow u k (lineOf p.va) (lineBytes p.key (leBytes p.len x))
       | none => s, old, s.placePoisoned tg req p)
    | none =>
      let s := if w = .virt then s.touchTlb tg.slot (p.va / 65536) else s
      let r := s.atomicAt (s.placeTags tg req p) (dieOfCore tg.core) p.home p.key p.len fun bs => (op (leNat bs)).map (leBytes p.len)
      (r.1, leNat r.2, s.placePoisoned tg req p)

/-- The atomics of a word wait for the team's own stores to the same lines, written back with the tiles of its core too, for a footprint that is
being copied, and for the home to know what the die has issued (log 10). -/
def LaneEnv.atomWait (e : LaneEnv) (all : List (LaneAcc × List Place)) : Bool :=
  all.any fun x => x.2.any fun p =>
    if p.win = .pad then p.shared && e.s.inCopy p.key else !p.remote &&
      ((e.s.flight.any fun r => (r.tags.team = e.t || (r.halo && r.tags.core = e.tm.core)) && r.line = lineOf p.key) || !e.s.atomicReady (dieOfCore e.tm.core) p.home p.key)

/-- The core holds tile bytes, not written back, of a line that an atomic names. -/
def LaneEnv.atomTile (e : LaneEnv) (all : List (LaneAcc × List Place)) : Bool :=
  all.any fun x => x.2.any fun p => e.s.l1.any fun l => l.core = e.tm.core && l.dirty ≠ 0 && l.key = lineOf p.key

/-- The elements of a list in an order of free choice. -/
def State.shuffle (s : State) (i : Nat) : List α → List α
  | [] => []
  | a :: r =>
    let l := s.shuffle (i + 1) r
    let k := Config.pick (s.draw i) % (l.length + 1)
    l.take k ++ a :: l.drop k

/-- The requests of the atomics of a row: one for each line that its lanes name; a scratchpad or host access stands alone (03:R69). -/
def atomLines (row : List (LaneAcc × List Place)) : List (List (LaneAcc × List Place)) :=
  (row.foldl (fun (m : NMap (List (LaneAcc × List Place))) x => match x.2.head? with
    | none => m
    | some p =>
      let k := if p.win = .pad || p.remote then 2 ^ 60 + x.1.lane else p.lineNo
      NMap.insert m k ((NMap.find? m k).getD [] ++ [x])) []).map (·.2)

/-- The requests of an atomic word in the order in which they take effect, with the lanes of each in theirs. Both orders are free choices
(08:R241; DESIGN CHOICE, log 70); of a word that acquires or releases, the rows come in ascending order (08:R239). -/
def LaneEnv.atomOrder (e : LaneEnv) (all : List (LaneAcc × List Place)) : List (List (LaneAcc × List Place)) :=
  let rows := (List.range 32).map fun r => atomLines (ofRow r all)
  let reqs := if e.ordering = 0 then e.s.shuffle 0 rows.flatten else (rows.mapIdx fun r l => e.s.shuffle (32 * r) l).flatten
  reqs.mapIdx fun j l => e.s.shuffle (2048 + 32 * j) l

/-- The answers of host or peer memory, by lane: one part each. -/
def answersOf : List (LaneAcc × List Place) → List Byte → NMap (List Byte)
  | [], _ => []
  | x :: r, bs => match x.2.find? (·.remote) with
    | some p => (x.1.lane, bs.take p.len) :: answersOf r (bs.drop p.len)
    | none => answersOf r bs

/-- One lane of an atomic word. -/
def LaneGot.atom (g : LaneGot) (tg : Tags) (req : Option (Nat × BitVec 6)) (answers : NMap (List Byte)) (op : Nat → Option Nat)
    (x : LaneAcc × List Place) : LaneGot :=
  match x.2.head? with
  | none => g
  | some p =>
    if p.remote then { g with vals := g.vals ++ [(x.1.lane, leNat (NMap.get answers [] x.1.lane))] }
    else
      let st := if p.win = .pad then [] else g.s.stampAt (g.s.placeTags tg req p) p.key p.len
      let r := g.s.atomPlace tg req p op
      { g with s := r.1, vals := g.vals ++ [(x.1.lane, r.2.1)], poison := g.poison || r.2.2, stamp := joinStamp g.stamp st }

/-- One request of an atomic word: the atomics of its lanes are separate events, one after another (08:R241). -/
def LaneGot.atoms (g : LaneGot) (tg : Tags) (req : Option (Nat × BitVec 6)) (answers : NMap (List Byte)) (op : Nat → Nat → Option Nat)
    (l : List (LaneAcc × List Place)) : LaneGot :=
  match l.head?.bind (·.2.head?) with
  | none => g
  | some p =>
    if p.win = .pad || p.remote || ((g.s.unit? tg.unit).bind (·.replay)).isSome then
      l.foldl (fun g x => LaneGot.atom g tg req answers (op x.1.lane) x) g
    else
      let s := if p.win = .virt then g.s.touchTlb tg.slot (p.va / 65536) else g.s
      let t := s.placeTags tg req p
      let ps := l.filterMap fun x => x.2.head?.map fun q => (x.1.lane, q)
      let r := s.atomicLine t (dieOfCore tg.core) p.home (lineOf p.key)
        (ps.map fun x => ⟨x.2.key % 128, x.2.len, fun bs => (op x.1 (leNat bs)).map (leBytes x.2.len)⟩)
      { g with s := r.1, vals := g.vals ++ (ps.zip r.2).map fun y => (y.1.1, leNat y.2), resp := true,
               stamp := ps.foldl (fun st x => joinStamp st (s.stampAt t x.2.key x.2.len)) g.stamp,
               poison := g.poison || ps.any fun x => s.placePoisoned tg req x.2 }

/-- An atomic word: every lane's read and write is one event, in the order of `atomOrder` (08:R241, R242). Its release comes first; the
access of host or peer memory follows it. -/
def atomAct (e : LaneEnv) (i : Instr) (sh : LaneShape) (ms : MemShape) (op : Nat → Nat → Option Nat) (ext : Option (List Byte)) : Out :=
  let all := e.work ms
  let remote := ext.isNone && all.any fun x => x.2.any (·.remote)
  if e.atomTile all then .next (e.s.releaseTiles (e.s.tagsOf e.t e.tm) e.tm.core) else
  let go (s : State) : Out :=
    let e := { e with s := s }
    if remote && !s.oldInc e.tm then e.sendRemote i all else
    let (e, ext) := if remote then (e.dropRemote all, some (noAnswer all)) else (e, ext)
    let tg := e.tags e.scope e.ordering
    let g := (e.atomOrder all).foldl (fun g l => g.atoms tg e.req (answersOf all (ext.getD [])) op l) (LaneGot.start e.s [])
    if e.atomWait all || !s.mayStore (dieOfCore e.tm.core) (e.atomOrder all).length ||
        (e.ordering % 2 = 1 && !g.s.mayAcquire { e.tm with seen := joinStamp e.tm.seen g.stamp } e.scope) then
      (if ext.isNone || remote then e.hold else .next s)
    else e.complete sh (if e.ordering % 2 = 1 then some e.scope else none) ext.isSome g
  if e.ordering / 2 = 1 && ext.isNone then e.release e.scope go else go e.s

/-- The scope of an atomic is accepted: not looked at when relaxed (08:R242; 16:R379). -/
def LaneEnv.atomScopeOk (e : LaneEnv) : Bool := e.ordering = 0 || e.scope < 6

/-- Shape of `ATOM`. -/
def shapeAtom : LaneShape :=
  { form := fun e => atomOk e.mod e.ty && e.src ≠ 3 && e.atomScopeOk, regs := fun e => e.vd :: e.vc :: (if e.src = 0 then [e.vb] else []),
    reads := fun e => e.vc :: (if e.src = 0 then [e.vb] else []), passes := (·.rows), long := true }

/-- The low w bits of lane `l` of a register. -/
def LaneEnv.low (e : LaneEnv) (r l : Nat) : Nat := (e.v r l).toNat % 2 ^ tyWidth e.ty

/-- `ATOM` with or without the answer of host or peer memory. -/
def atomWord (e : LaneEnv) (f : LaneF) (ext : Option (List Byte)) : Out :=
  atomAct e (.atom f) shapeAtom (atomShape fun e => some e.mod) (fun l old => some (atomOp e.mod e.ty l e.idx old (e.low e.vc l))) ext

/-- `ATOM`. -/
def execAtom (f : LaneF) (s : State) : Out :=
  laneMem s (.atom f) f shapeAtom (atomShape fun e => some e.mod) fun e => atomWord e f none

/-- Shape of `CAS`: VD holds the expected value. -/
def shapeCas : LaneShape :=
  { shapeAtom with
    form := fun e => atomOk 6 e.ty && e.src ≠ 3 && e.atomScopeOk,
    reads := fun e => e.vd :: e.vc :: (if e.src = 0 then [e.vb] else []) }

/-- `CAS` with or without the answer of host or peer memory. -/
def casWord (e : LaneEnv) (f : LaneF) (ext : Option (List Byte)) : Out :=
  atomAct e (.cas f) shapeCas (atomShape fun _ => none) (fun l old => if old = e.low e.vd l then some (e.low e.vc l) else none) ext

/-- `CAS`. -/
def execCas (f : LaneF) (s : State) : Out :=
  laneMem s (.cas f) f shapeCas (atomShape fun _ => none) fun e => casWord e f none

/-- A lane word whose host or peer answer has arrived completes (17:R392). -/
def laneAnswer (e : LaneEnv) (i : Instr) (data : List Byte) : Out :=
  match i with
  | .ld f => loadAct e (.ld f) shapeLd false e.ldAcq (some data)
  | .ldr f => loadAct e (.ldr f) (shapeLoad fun _ => true) true none (some data)
  | .ldacq f => loadAct e (.ldacq f) shapeLdacq false (some e.scope) (some data)
  | .atom f => atomWord e f (some data)
  | .cas f => casWord e f (some data)
  | _ => .next e.s

/-! ## Scratchpad pointer words (08:R245, R246) -/

/-- The window code of a generic pointer for a team. -/
def windowCode (tm : Team) (p : W64) : Nat :=
  let tag := p.toNat / 2 ^ 56
  if tag < 2 then 0
  else if tag < 0xFC then 5
  else if tag = 0xFC then 1
  else if tag = 0xFD then (if p.toNat / 2 ^ 48 % 256 = tm.tag then 2 else 6)
  else if tag = 0xFE then 3
  else 4

/-- Shape of a pointer word. -/
def shapePtr (ok : LaneEnv → Bool) : LaneShape :=
  { form := ok, regs := fun e => [e.vd, e.va], reads := fun e => [e.va], passes := (·.rows), long := true, part := fun _ => 64 }

/-- `SPTEST`. -/
def execSptest (f : LaneF) (s : State) : Out :=
  laneWord s (.sptest f) f (shapePtr fun _ => true) fun e =>
    LaneFx.ofWrites (e.active.map fun l => wholeWrite e.vd l (BitVec.ofNat 64 (windowCode e.tm (e.v e.va l))))

/-- The conversion of a pointer toward window `win`: 0 global, 2 local, 3 cluster-shared. -/
def spcast (s : State) (tm : Team) (win l : Nat) (p : W64) : W64 :=
  let off := p.toNat % 2 ^ 19
  match windowCode tm p, win with
  | 0, 0 => p
  | 1, 0 =>
    let o := p.toNat % 2 ^ 24
    if o < (s.ctx tm.slot).privSize then BitVec.ofNat 64 (tm.priv + o / 8 * 8192 + l * 8 + o % 8) else 0
  | 2, 2 => p
  | 2, 3 => BitVec.ofNat 64 (0xFE * 2 ^ 56 + tm.core % 4 * 2 ^ 20 + off)
  | 3, 2 => if p.toNat / 2 ^ 20 % 4 = tm.core % 4 then BitVec.ofNat 64 (0xFD * 2 ^ 56 + tm.tag % 256 * 2 ^ 48 + off) else 0
  | 3, 3 => p
  | _, _ => 0

/-- `SPCAST`. -/
def execSpcast (f : LaneF) (s : State) : Out :=
  laneWord s (.spcast f) f (shapePtr fun e => e.mod = 0 || e.mod = 2 || e.mod = 3) fun e =>
    LaneFx.ofWrites (e.active.map fun l => wholeWrite e.vd l (spcast s e.tm e.mod l (e.v e.va l)))

/-! ## Circular buffers (03:R77, R78; 08:R249 to R251) -/

/-- A circular-buffer descriptor in a scratchpad: base, slot size, slot count, free, filled, write index, read index. -/
structure CbDesc where
  base   : Nat
  size   : Nat
  count  : Nat
  free   : Nat
  filled : Nat
  wr     : Nat
  rd     : Nat
  deriving DecidableEq, Repr

/-- Reads the descriptor at a scratchpad key. -/
def State.cbRead (s : State) (k : Nat) : CbDesc :=
  let a := leNat (s.bytes k 8)
  let b := leNat (s.bytes (k + 8) 8)
  ⟨a % 2 ^ 19, a / 2 ^ 32 % 2 ^ 16, a / 2 ^ 48 % 256, b % 256, b / 2 ^ 8 % 256, b / 2 ^ 16 % 256, b / 2 ^ 24 % 256⟩

/-- Writes the counters back as one indivisible update; bits [63:32] of the second half are kept. -/
def State.cbWrite (s : State) (k : Nat) (d : CbDesc) : State :=
  s.poke (k + 8) (leBytes 4 (d.free % 256 + d.filled % 256 * 2 ^ 8 + d.wr % 256 * 2 ^ 16 + d.rd % 256 * 2 ^ 24))

/-- A descriptor whose fields are refused with cause 0x1B. -/
def CbDesc.bad (d : CbDesc) : Bool := d.count = 0 || d.base % 32 ≠ 0 || d.size % 32 ≠ 0

/-- The pointer to a slot: the window and core fields of `p` with the slot's offset. -/
def CbDesc.slotPtr (d : CbDesc) (p : W64) (idx : Nat) : W64 :=
  let keep := if p.toNat / 2 ^ 56 = 0xFD then p.toNat / 2 ^ 48 % 256 * 2 ^ 48 else p.toNat / 2 ^ 20 % 4 * 2 ^ 20
  BitVec.ofNat 64 (p.toNat / 2 ^ 56 * 2 ^ 56 + keep + (d.base + idx * d.size) % 2 ^ 19)

/-- The producer takes a slot: the new counters and the index taken; none while no slot is free. -/
def CbDesc.take (d : CbDesc) : Option (CbDesc × Nat) :=
  if d.free = 0 then none else some ({ d with free := d.free - 1, wr := (d.wr + 1) % d.count }, d.wr)

/-- The consumer takes a slot; none while no slot is filled. -/
def CbDesc.get (d : CbDesc) : Option (CbDesc × Nat) :=
  if d.filled = 0 then none else some ({ d with filled := d.filled - 1, rd := (d.rd + 1) % d.count }, d.rd)

/-- The key of the descriptor that a circular-buffer pointer names, or a cause (08:R249; 17:R391). -/
def State.cbKey (s : State) (tm : Team) (lane : Nat) (p : W64) : Except Nat Nat :=
  match s.resolve tm lane p 16 with
  | .error c => .error c
  | .ok ps => match ps with
    | [x] =>
      let k := if x.shared then (s.forwarded x.at_).getD x.at_ else x.at_
      if x.win ≠ .pad ∨ p.toNat % 16 ≠ 0 then .error 0x1B
      else if (s.cbRead k).bad then .error 0x1B else .ok k
    | _ => .error 0x1B

/-- It reaches a footprint that is being copied to another core (11:R341). -/
def State.cbCopying (s : State) (tm : Team) (lane : Nat) (p : W64) : Bool :=
  match s.resolve tm lane p 16 with
  | .ok [x] => x.shared && s.inCopy x.at_
  | _ => false

/-- A circular-buffer word that reaches an old footprint after forwarding has ended (17:R400, R407). -/
def State.cbLate (s : State) (tm : Team) (lane : Nat) (p : W64) : Bool :=
  match s.resolve tm lane p 16 with
  | .ok [x] => x.shared && (s.forwarded x.at_).isNone
  | _ => false

/-- Shape of a circular-buffer word; `wr` when it writes VD. -/
def shapeCb (wr : Bool) : LaneShape :=
  { form := fun e => e.src ≠ 3, regs := fun e => (if wr then [e.vd] else []) ++ (if e.src = 0 then [e.vb] else []),
    reads := fun e => if e.src = 0 then [e.vb] else [], passes := (·.rows), long := wr, part := fun _ => 64 }

/-- A circular-buffer word: `k` gets the pointer and the descriptor's key. With no active lane it does nothing. -/
def cbWord (s : State) (i : Instr) (f : LaneF) (wr : Bool) (k : LaneEnv → W64 → Nat → Out) : Out :=
  onLane s i f (shapeCb wr) fun e =>
    match e.active.head? with
    | none => laneDone e s (shapeCb wr) LaneFx.none false []
    | some l =>
      if s.cbCopying e.tm l (e.b64 l) then e.hold else
      if s.cbLate e.tm l (e.b64 l) then
        laneDone e (s.countDrop e.tm.slot 4) { shapeCb wr with long := false }
          (if wr then LaneFx.ofWrites (e.active.map fun l => wholeWrite e.vd l 0) else LaneFx.none) false []
      else
      match s.cbKey e.tm l (e.b64 l) with
      | .error c => takeTrap s e.t e.tm ⟨c, some e.idx, e.tm.pc, e.b64 l, memDetailB 4 0 0 0 e.tm.hyp false, 0, lanesMask [l], none, none, none⟩
      | .ok key => k e (e.b64 l) key

/-- The state with poison of a descriptor consumed (19:R416). -/
def LaneEnv.cbPoison (e : LaneEnv) (s : State) (key : Nat) : State :=
  if s.poisoned key 16 then s.consumePoison e.tm.unit else s

/-- A word that takes a slot: it writes the pointer, or the run ends and the team is blocked (08:R250). -/
def cbTakeWord (e : LaneEnv) (p : W64) (key : Nat) (op : CbDesc → Option (CbDesc × Nat)) (long : Bool) : Option Out :=
  let d := e.s.cbRead key
  (op d).map fun r =>
    laneDone e ((e.cbPoison e.s key).cbWrite key r.1) { shapeCb true with long := long }
      (LaneFx.ofWrites (e.active.map fun l => wholeWrite e.vd l (d.slotPtr p r.2))) false []

/-- The team is blocked in a circular-buffer word; in a handler it stays trapped (02:R52). -/
def LaneEnv.cbBlock (e : LaneEnv) : Out :=
  e.s.nextTeam e.t { e.stopped.undue with
    state := if e.tm.state = .trapped then .trapped else .blocked, wait := some .cb, since := e.s.clock }

/-- `CBTAKE`. -/
def execCbtake (f : LaneF) (s : State) : Out :=
  cbWord s (.cbtake f) f true fun e p key => (cbTakeWord e p key CbDesc.take true).getD e.cbBlock

/-- `CBGET`: for scratchpad accesses an acquire; L1 is kept. -/
def execCbget (f : LaneF) (s : State) : Out :=
  cbWord s (.cbget f) f true fun e p key => (cbTakeWord e p key CbDesc.get true).getD e.cbBlock

/-- `CBPUB`: after every earlier access of the team has been performed at troupe scope, the write-back of tiles included. -/
def execCbpub (f : LaneF) (s : State) : Out :=
  cbWord s (.cbpub f) f false fun e _ key =>
    e.release 1 fun s =>
    let d := s.cbRead key
    laneDone e ((e.cbPoison s key).cbWrite key { d with filled := d.filled + 1 }) (shapeCb false) LaneFx.none false []

/-- `CBRET`: the team's loads are performed where they read. -/
def execCbret (f : LaneF) (s : State) : Out :=
  cbWord s (.cbret f) f false fun e _ key =>
    let d := s.cbRead key
    laneDone e ((e.cbPoison s key).cbWrite key { d with free := d.free + 1 }) (shapeCb false) LaneFx.none false []

end Sys2Proof.Machine
end

