-- ==== Sys2Proof/Machine/Copy.lean ====
section
/-!
DEFINITION. The commands of the copy engine and of the tile walker (09:R279 to R288).
-/
namespace Sys2Proof.Machine

/-! ## Tokens (11:R343) -/

/-- Tokens that the passes and copy streams of a unit have in use. -/
def State.tokensInUse (s : State) (u : Nat) : Nat :=
  ((s.clusters.filter fun c => (c.2.current.map fun p => decide (p.unit = u)).getD false).length) * 4 +
  (s.ce.filter fun c => c.2.entries.any fun e => e.begun && e.tags.unit = u).length

/-! ## Pointers of the copy engine (09:R280) -/

/-- The requester number of queue `q` of the copy engine of core `c`: its stores are its own, not a team's. -/
def ceTeam (c q : Nat) : Nat := 2 ^ 32 + 4 * c + q

/-- A part of a copy at a generic pointer, for an engine on core `core` and a team with scratchpad tag `tag`: at most `n` bytes, within one
line, or a cause: global, local and cluster-shared windows only. -/
def cePiece (core tag : Nat) (p : W64) (n : Nat) : Except Nat Piece :=
  let w := p.toNat / 2 ^ 56
  let o := p.toNat % 2 ^ 19
  if w < 2 then .ok ⟨.virt, p.toNat, min n (128 - p.toNat % 128), false⟩
  else if w = 0xFF then .error (if physClass p.toNat = 3 then 0x14 else 0x15)
  else if w < 0xFD then .error 0x14
  else if w = 0xFD then
    if p.toNat / 2 ^ 48 % 256 ≠ tag then .error 0x17
    else if padSize < o + n then .error 0x25
    else .ok ⟨.pad, padBase core + o, min n (128 - o % 128), false⟩
  else if padSize < o + n then .error 0x25
  else .ok ⟨.pad, padBase (clusterOfCore core * 4 + p.toNat / 2 ^ 20 % 4) + o, min n (128 - o % 128), true⟩

/-- The range of a command runs out of its scratchpad at row `t`: offsets do not wrap (03:R74; DEDUCED, log 41). -/
def ceRowOut (p step : W64) (len t : Nat) : Bool :=
  let o := Int.ofNat (p.toNat % 2 ^ 19) + t * step.toInt
  0xFD ≤ p.toNat / 2 ^ 56 && p.toNat / 2 ^ 56 < 0xFF && (o < 0 || Int.ofNat padSize < o + len)

/-- The first window cause among the rows of a command. With a row length of 0 no row has a byte, and the pointer alone is looked at
(09:R280, R288; log 41). -/
def ceRowsCause (core tag : Nat) (p step : W64) (len rows : Nat) : Option Nat :=
  (List.range (if len = 0 then 1 else rows)).findSome? fun t => match cePiece core tag (p + BitVec.ofNat 64 t * step) len with
    | .error c => some c
    | .ok _ => if ceRowOut p step len t then some 0x25 else none

/-- The migration that took the footprint with the circular buffer at a scratchpad part away from its core: any, for a part reached through
slot 7; for a local pointer one of unit `u`, whose teams have left that core (11:R341; 17:R407). -/
def State.cbMoved (s : State) (u : Nat) (x : Piece) : Option Migration :=
  if x.shared then (s.forwards x.at_).map (·.2) else
  match s.unit? u with
  | none => none
  | some v => s.migrations.find? fun m =>
      v.teams.contains m.team && padBase m.old ≤ x.at_ && x.at_ < padBase m.old + v.launch.scratch &&
        !v.teams.any fun t => (s.teams[t]?).any fun tm => tm.state ≠ .exited && tm.core = m.old

/-- The footprint with a circular buffer is being copied to another core: the engine waits. -/
def State.cbInCopy (s : State) (u : Nat) (x : Piece) : Bool := (s.cbMoved u x).any (·.copying)

/-- The key of a circular buffer's descriptor: the engine addresses the team's current core (17:R407). -/
def State.padKey (s : State) (u : Nat) (x : Piece) : Nat :=
  match s.cbMoved u x with
  | some m => if m.copying then x.at_ else x.at_ - padBase m.old + padBase (((s.teams[m.team]?).map (·.core)).getD m.new)
  | none => x.at_

/-- An engine of a unit reads a circular buffer's descriptor: one that is poisoned is consumed (19:R416). -/
def State.cbMeets (s : State) (u key : Nat) : State := if s.poisoned key 16 then s.consumePoison u else s

/-! ## Commands -/

/-- A copy-engine command. -/
def onCe (s : State) (i : Instr) (f : SX) (k : Nat → Team → Out) : Out := onSx s i f 0 false k

/-- `CE.LEN`: row length, queue, 2-D flag, rows. -/
def execCeLen (f : SX) (s : State) : Out :=
  onCe s (.ceLen f) f fun t tm =>
    let b := tm.rd f.b
    sxDone (s.setTeam t { tm with ceLen := (tm.rd f.a).extractLsb' 0 32, ceQueue := b.extractLsb' 0 2, ce2d := b.getLsbD 2,
                                  ceRows := b.extractLsb' 8 24 }) t f 0

/-- `CE.STRIDE`. -/
def execCeStride (f : SX) (s : State) : Out :=
  onCe s (.ceStride f) f fun t tm => sxDone (s.setTeam t { tm with ceSrc := tm.rd f.a, ceDst := tm.rd f.b }) t f 0

/-- Rows of the next command. -/
def Team.ceRowCount (tm : Team) : Nat := if tm.ce2d then tm.ceRows.toNat + 1 else 1

/-- Places a copy or fill: it waits in its word for room, and for the team's earlier accesses (09:R279, R282); it takes the binding of
`CE.CB`. A control core, to which 01:R15 gives no copy engine, has queues of its own here (DESIGN CHOICE, log 69). -/
def ceEnqueue (s : State) (t : Nat) (tm : Team) (f : SX) (kind : CeKind) (dst src : W64) : Out :=
  let q := tm.ceQueue.toNat
  let cq := s.ceq tm.core q
  let rows := tm.ceRowCount
  let cause := (match tm.ceCb with
    | some _ => none
    | none => (ceRowsCause tm.core tm.tag dst tm.ceDst tm.ceLen.toNat rows).map fun c => (c, dst)).orElse fun _ =>
      match kind with
      | .copy => (ceRowsCause tm.core tm.tag src tm.ceSrc tm.ceLen.toNat rows).map fun c => (c, src)
      | _ => none
  match cause with
  | some (c, p) => sxMemTrap s t tm p ⟨c, 0⟩
  | none =>
    if 16 ≤ cq.entries.length then sxWaits s t tm else
    if !s.ceOrdered t then sxHold s t tm f else
    let e : CeEntry := { kind := kind, seq := cq.next, dst := dst, src := src, len := tm.ceLen.toNat, rows := rows, srcStep := tm.ceSrc,
                         dstStep := tm.ceDst, twoD := tm.ce2d, cb := tm.ceCb, taken := false, begun := false,
                         tags := { s.tagsOf t tm with team := ceTeam tm.core q }, state := .waiting, bytes := 0, actions := [] }
    let s := s.setCeq tm.core q { cq with entries := cq.entries ++ [e], next := cq.next + 1 }
    sxDone (s.setTeam t { tm with ceCb := none, ceLast := some (tm.core, q, cq.next) }) t f (cq.next.zeroExtend 64)

/-- `CE.COPY`. -/
def execCeCopy (f : SX) (s : State) : Out :=
  onCe s (.ceCopy f) f fun t tm => ceEnqueue s t tm f .copy (tm.rd f.a) (tm.rd f.b)

/-- `CE.FILL`. -/
def execCeFill (f : SX) (s : State) : Out :=
  onCe s (.ceFill f) f fun t tm => ceEnqueue s t tm f (.fill (tm.rd f.b)) (tm.rd f.a) 0

/-- `CE.CB`: binds a circular buffer, checked as the circular-buffer words check it. -/
def execCeCb (f : SX) (s : State) : Out :=
  onCe s (.ceCb f) f fun t tm =>
    let p := tm.rd f.a
    match cePiece tm.core tm.tag p 16 with
    | .error c => sxMemTrap s t tm p ⟨c, 0⟩
    | .ok x =>
      let key := s.padKey tm.unit x
      if x.win ≠ .pad ∨ p.toNat % 16 ≠ 0 ∨ (s.cbRead key).bad then sxMemTrap s t tm p ⟨0x1B, 0⟩
      else sxDone ((s.cbMeets tm.unit key).setTeam t { tm with ceCb := some p }) t f 0

/-- `CE.FUT`: attaches an action to the team's latest command. When that has completed, or there is none, the action is performed from now on,
in no order with the team's engine 3 commands (14:R362); the team's earlier scalar stores stand before it (09:R282). -/
def execCeFut (f : SX) (s : State) : Out :=
  onCe s (.ceFut f) f fun t tm =>
    let b := tm.rd f.b
    let a : CeAction := ⟨tm.rd f.a, b.getLsbD 63, b.extractLsb' 0 48⟩
    let now (code : Option Nat) : Out :=
      if s.ceOrdered t then sxDone { s with lateActions := s.lateActions ++ [⟨s.tagsOf t tm, a, code⟩] } t f 0 else sxHold s t tm f
    match tm.ceLast with
    | none => now none
    | some (c, q, n) =>
      let cq := s.ceq c q
      if cq.entries.any fun e => e.seq = n then
        sxDone (s.setCeq c q { cq with entries := cq.entries.map fun e => if e.seq = n then { e with actions := e.actions ++ [a] } else e }) t f 0
      else now (NMap.find? cq.failed n.toNat)

/-- `CE.QJOIN`: a join entry in each named queue, once all have room; a mask of 0 places nothing. -/
def execCeQjoin (f : SX) (s : State) : Out :=
  onCe s (.ceQjoin f) f fun t tm =>
    let m := (tm.rd f.a).extractLsb' 0 4
    let qs := (List.range 4).filter fun q => m.getLsbD q
    match qs with
    | [] => sxDone s t f allOnes
    | q0 :: _ =>
      if qs.any fun q => 16 ≤ (s.ceq tm.core q).entries.length then sxWaits s t tm else
      let n0 := (s.ceq tm.core q0).next
      let s' := qs.foldl (fun s q =>
        let cq := s.ceq tm.core q
        let e : CeEntry := { kind := .join m s.tick, seq := cq.next, dst := 0, src := 0, len := 0, rows := 0, srcStep := 0, dstStep := 0,
                             twoD := false, cb := none, taken := false, begun := false, tags := { s.tagsOf t tm with team := ceTeam tm.core q },
                             state := .waiting, bytes := 0, actions := [] }
        s.setCeq tm.core q { cq with entries := cq.entries ++ [e], next := cq.next + 1 }) s
      sxDone (s'.setTeam t { tm with ceLast := some (tm.core, q0, n0) }) t f (n0.zeroExtend 64)

/-- The head entry waits for a slot of its circular buffer (09:R285). -/
def State.ceWaitsCb (s : State) (e : CeEntry) : Bool :=
  match e.cb with
  | some p => e.state = .waiting && !e.taken && (match cePiece e.tags.core (p.toNat / 2 ^ 48 % 256) p 16 with
    | .ok x => (s.cbRead (s.padKey e.tags.unit x)).free = 0
    | .error _ => false)
  | none => false

/-- What `CE.STAT` replies for a queue. The stall of a fault shows once the bytes before it have been performed (17:R397). -/
def State.ceStat (s : State) (core q : Nat) : Nat :=
  let cq := s.ceq core q
  cq.done.toNat + cq.entries.length * 2 ^ 32 +
    (match cq.entries.head? with
     | some e => (if s.ceWaitsCb e then 2 ^ 40 else 0) + (match e.state with
         | .stalled _ _ => if s.performed (ceTeam core q) 4 then 2 ^ 41 else 0
         | _ => 0)
     | none => 0)

/-- `CE.STAT`: an acquire at device scope for the writes of the entries it reports complete, if there are any. -/
def execCeStat (f : SX) (s : State) : Out :=
  onCe s (.ceStat f) f fun t tm =>
    let q := (tm.rd f.a).toNat % 4
    let v : W64 := BitVec.ofNat 64 (s.ceStat tm.core q)
    if !(s.ceq tm.core q).any then sxDone s t f v
    else if s.mayAcquire tm 4 then sxDone (s.acquire t 4) t f v
    else sxHold s t tm f

/-! ## The tile walker (09:R286 to R288) -/

/-- A tile-walker command. -/
def onTw (s : State) (i : Instr) (f : SX) (k : Nat → Team → Out) : Out := onSx s i f 2 false k

/-- `TW.DIM`: stages an extent. -/
def execTwDim (f : SX) (s : State) : Out :=
  onTw s (.twDim f) f fun t tm =>
    sxDone (s.setTeam t { tm with twDim := NMap.put tm.twDim 0 ((tm.rd f.a).toNat % 4) ((tm.rd f.b).toNat % 65536) }) t f 0

/-- `TW.START`: takes the lowest free handle; all ones when none is free. More than 4 dimensions are taken as 4 (log 39). A control core, to
which 01:R15 gives no tile walker, has walks of its own here (DESIGN CHOICE, log 69). -/
def execTwStart (f : SX) (s : State) : Out :=
  onTw s (.twStart f) f fun t tm =>
    match (List.range 8).find? fun h => (NMap.find? s.walks (8 * tm.core + h)).isNone with
    | none => sxDone s t f allOnes
    | some h =>
      let w : Walk := ⟨tm.unit, (List.range (min ((tm.rd f.a).toNat % 8) 4)).map fun d => NMap.get tm.twDim 0 d, []⟩
      sxDone { s with walks := NMap.insert s.walks (8 * tm.core + h) w } t f (BitVec.ofNat 64 h)

/-- Coordinates of a walk. -/
def Walk.total (w : Walk) : Nat := w.extents.foldl (· * ·) 1

/-- The packed coordinates number `n` of a nest of extents; unused dimensions read 0. -/
def coordOf : List Nat → Nat → Nat
  | [], _ => 0
  | e :: r, n => n % e + 65536 * coordOf r (n / e)

/-- A coordinate not handed out yet; which one is free (09:R287; log 23). -/
def Walk.nextOf (w : Walk) (free : Nat) : Option Nat :=
  if w.total ≤ w.given.length then none else
  ((List.range (w.given.length + 1)).map fun j => (free + j) % w.total).find? fun n => !w.given.contains n

/-- The walk that a team names, if it is its troupe's. -/
def State.walkOf (s : State) (tm : Team) (h : Nat) : Option Walk :=
  match NMap.find? s.walks (8 * tm.core + h) with
  | some w => if w.unit = tm.unit then some w else none
  | none => none

/-- `TW.NEXT`. -/
def execTwNext (f : SX) (s : State) : Out :=
  onTw s (.twNext f) f fun t tm =>
    let h := (tm.rd f.a).toNat % 8
    match s.walkOf tm h with
    | none => sxDone s t f allOnes
    | some w => match w.nextOf (Config.pick (s.draw 0)) with
      | none => sxDone s t f allOnes
      | some n =>
        sxDone { s with walks := NMap.insert s.walks (8 * tm.core + h) { w with given := w.given ++ [n] } } t f
          (BitVec.ofNat 64 (coordOf w.extents n))

/-- `TW.DONE`: frees the handle. -/
def execTwDone (f : SX) (s : State) : Out :=
  onTw s (.twDone f) f fun t tm =>
    let h := (tm.rd f.a).toNat % 8
    match s.walkOf tm h with
    | none => sxDone s t f allOnes
    | some w => sxDone { s with walks := NMap.erase s.walks (8 * tm.core + h) } t f (BitVec.ofNat 64 w.given.length)

end Sys2Proof.Machine
end

