-- ==== Sys2Proof/Machine/CopyRun.lean ====
section
/-!
DEFINITION. The copy engine at work: the start and the completion of an entry, and the delivery of its page fault (09:R281 to R285;
11:R343; 17:R397, R398; 16:R441).
-/
namespace Sys2Proof.Machine

/-! ## Moving bytes (09:R280, R281, R283) -/

/-- Row and byte in the row at which an entry stands after some bytes. -/
def CeEntry.rowAt (e : CeEntry) (b : Nat) : Nat × Nat := if e.len = 0 then (0, 0) else (b / e.len, b % e.len)

/-- Destination pointer of byte `b`: rows are consecutive in a slot of a circular buffer. -/
def CeEntry.dstAt (e : CeEntry) (b : Nat) : W64 :=
  if e.cb.isSome then e.dst + BitVec.ofNat 64 b
  else e.dst + BitVec.ofNat 64 (e.rowAt b).1 * e.dstStep + BitVec.ofNat 64 (e.rowAt b).2

/-- Source pointer of byte `b`. -/
def CeEntry.srcAt (e : CeEntry) (b : Nat) : W64 := e.src + BitVec.ofNat 64 (e.rowAt b).1 * e.srcStep + BitVec.ofNat 64 (e.rowAt b).2

/-- Bytes of an entry. -/
def CeEntry.total (e : CeEntry) : Nat := e.len * e.rows

/-- The scratchpad tag in a pointer: an accepted command named its own. -/
def tagIn (p : W64) : Nat := p.toNat / 2 ^ 48 % 256

/-- A number for the byte at a pointer, equal for pointers to one byte of a scratchpad. -/
def cePoint (core : Nat) (p : W64) : Nat :=
  match cePiece core (tagIn p) p 1 with
  | .ok x => if x.win = .pad then 2 ^ 60 + x.at_ else x.at_
  | .error _ => p.toNat

/-- Source and destination of a copy share a byte (09:R281). -/
def CeEntry.overlapping (e : CeEntry) : Bool :=
  match e.kind with
  | .copy => (List.range e.rows).any fun i => (List.range e.rows).any fun j =>
      overlaps (cePoint e.tags.core (e.dstAt (i * e.len))) e.len (cePoint e.tags.core (e.srcAt (j * e.len))) e.len
  | _ => false

/-- What moving some bytes gives: the state, the bytes performed, and why it stopped. -/
structure CeMove where
  s    : State
  /-- The bytes that go into a line and are not yet posted: consecutive rows may meet in an 8-byte unit (10:R314). -/
  line : Option RowLine
  done : Nat
  /-- A page is not mapped: its address. -/
  miss : Option Nat
  /-- A failure code (17:R398; 19:R416). -/
  fail : Option Nat
  deriving DecidableEq, Repr

/-- The place of a part of an access of the engine, or its cause. -/
def State.cePlace (s : State) (tg : Tags) (k : Kind) (p : W64) (n : Nat) : Except Miss Place :=
  match cePiece tg.core (tagIn p) p n with
  | .error c => .error ⟨c, 0⟩
  | .ok x =>
    match s.places tg.slot k [x] with
    | .error m => .error m
    | .ok pl =>
      match (if k.writes then s.writeCause tg.slot tg.core none true pl else none), pl with
      | some c, _ => .error ⟨c, 0⟩
      | none, [p] => if k = .load ∧ p.remote ∧ s.peerDead { Team.atReset with slot := tg.slot } p.key then .error ⟨0x1D, 0⟩ else .ok p
      | none, _ => .error ⟨0x14, 0⟩

/-- The engine waits for a source part: its footprint is being copied, or no link leads to its home. -/
def State.ceStuck (s : State) (tg : Tags) (p : Place) : Bool :=
  if p.win = .pad then p.shared && s.inCopy p.key else !p.remote && !s.reaches (dieOfCore tg.core) p.home

/-- The bytes of a source part: as the home holds them, with those of the core's own tiles, or 0 when the request is dropped there; free for
host and peer memory (log 29). -/
def State.ceRead (s : State) (tg : Tags) (p : Place) (i : Nat) : State × List Byte :=
  if p.remote then (s, (List.range p.len).map fun j => Config.freeByte (s.draw (i + j)))
  else if p.win = .pad then
    match (if p.shared then s.forwarded p.key else some p.key) with
    | some k => (s, s.bytes k p.len)
    | none => (s.countDrop tg.slot 4, List.replicate p.len 0)
  else
    let tg := s.placeTags tg none p
    let s := s.cross (dieOfCore tg.core) p.home
    match s.homeCheck tg p.key with
    | some d => (s.countDrop tg.slot d.counter, List.replicate p.len 0)
    | none =>
      let line := s.homeSees tg.slot (s.actingOf tg p.key) p.key
      let line := match s.l1.find? fun l => l.core = tg.core && l.slot = tg.slot && l.key = lineOf p.key && l.dirty ≠ 0 with
        | some l => line.merge l.line l.dirty
        | none => line
      let data := line.slice (p.key % 128) p.len
      (s.noteRead tg p.arena, match s.unit? tg.unit with
          | some u => s.shadowBytes u p.va data
          | none => data)

/-- The source places of `n` bytes of a row from byte `b` on, as far as they have one, and what stops them. -/
def State.ceSources (s : State) (e : CeEntry) : Nat → Nat → Nat → List Place × Option Miss
  | 0, _, _ => ([], none)
  | f + 1, b, n =>
    if n = 0 then ([], none) else
    match s.cePlace e.tags .load (e.srcAt b) n with
    | .error m => ([], some m)
    | .ok p => let r := s.ceSources e f (b + p.len) (n - p.len)
               (p :: r.1, r.2)

/-- Posts the line in hand. -/
def CeMove.flush (m : CeMove) (tg : Tags) : CeMove :=
  match m.line with
  | some x => { m with s := m.s.storeMem tg none x.place x.bytes 0 [], line := none }
  | none => m

/-- Bytes go to a place: to a scratchpad at once, to memory with the other bytes of their line. -/
def CeMove.give (m : CeMove) (tg : Tags) (p : Place) (bs : List Byte) : CeMove :=
  if p.win = .pad then { m with s := m.s.storePad tg p.shared p.key bs } else
  let m := match m.line with
    | some x => if x.place.lineNo = p.lineNo then m else m.flush tg
    | none => m
  let old := (m.line.map (·.bytes)).getD []
  { m with line := some ⟨p, List.foldl (fun o (e : Nat × Byte) => NMap.insert o e.1 e.2) old (lineBytes p.key bs), []⟩ }

/-- Reads the source parts one after another. -/
def State.ceGather (s : State) (tg : Tags) : Nat → List Place → State × List Byte
  | _, [] => (s, [])
  | i, p :: r => let a := s.ceRead tg p i
                 let b := a.1.ceGather tg (i + p.len) r
                 (b.1, a.2 ++ b.2)

/-- The destination lies in a tile of the engine's core whose line is neither held nor to be filled now (03:R96). -/
def State.ceTileWaits (s : State) (tg : Tags) (p : Place) : Bool :=
  p.win = .virt && !p.remote && match (s.ctx tg.slot).tileAt p.va with
    | some (r, k) => r.owner k = tg.core && !s.tileReady tg.core tg.slot p.home (lineOf p.key)
    | none => false

/-- What an entry does at byte `b`, after what it moved before: it goes on with some bytes, or it stops. Whether a host or peer source
answers within its 2 ms is a free choice (17:R398; log 29). -/
def ceStep (e : CeEntry) (b : Nat) (m : CeMove) : Except CeMove (Nat × CeMove) :=
  let s := m.s
  let left := e.len - (e.rowAt b).2
  let stop (x : Miss) : CeMove := if x.cause = 0x10 then { m with done := b, miss := some x.va } else { m with done := b, fail := some (0x400 + x.cause) }
  match s.cePlace e.tags .store (e.dstAt b) left with
  | .error x => .error (stop x)
  | .ok dst =>
    let src : List Place × Option Miss := match e.kind with
      | .copy => s.ceSources e 4 b dst.len
      | _ => ([], none)
    let n : Nat := match e.kind with
      | .copy => (src.1.map (·.len)).foldl (· + ·) 0
      | _ => dst.len
    match src.2, n with
    | some x, 0 => .error (stop x)
    | _, _ =>
      if src.1.any (s.ceStuck e.tags) || !(dst.win = .pad || dst.remote || s.reaches (dieOfCore e.tags.core) dst.home) ||
          !s.mayStore (dieOfCore e.tags.core) 2 || s.ceTileWaits e.tags dst then
        .error { m with done := b }
      else if src.1.any (·.remote) && !Config.stays (s.draw (58000 + b % 1000)) then .error { m with done := b, fail := some 0x41D }
      else if src.1.any (s.placePoisoned e.tags none) then
        .error { m with s := s.consumePoison e.tags.unit, done := b, fail := some 0x513 }
      else
        let r := match e.kind with
          | .fill pat => (s, (List.range n).map fun j => (leBytes 8 pat.toNat).getD (((e.rowAt b).2 + j) % 8) 0)
          | _ => s.ceGather e.tags b src.1
        let data := if e.overlapping then (List.range n).map fun j => Config.freeByte (s.draw (b + j)) else r.2
        .ok (n, { m with s := r.1 }.give e.tags { dst with len := n } data)

/-- Moves the bytes of an entry from byte `b` up, in the entry's order, until all are performed, a cause is met, or it must wait. -/
def ceMove (e : CeEntry) : Nat → Nat → CeMove → CeMove
  | 0, b, m => ({ m with done := b } : CeMove).flush e.tags
  | f + 1, b, m =>
    if e.total ≤ b then ({ m with done := b } : CeMove).flush e.tags else
    match ceStep e b m with
    | .error m => m.flush e.tags
    | .ok (n, m) => ceMove e f (b + n) m

/-! ## Start (09:R281, R283, R284; 11:R343) -/

/-- Replaces the head entry of a queue. -/
def State.setCeHead (s : State) (c q : Nat) (e : CeEntry) : State :=
  let cq := s.ceq c q
  s.setCeq c q { cq with entries := e :: cq.entries.tail }

/-- The tokens t of a unit (11:R342). -/
def LUnit.power (u : LUnit) : Nat := max u.launch.tokens (if u.seqr.isSome then 4 else 1)

/-- May one more copy stream of the entry's unit start? -/
def State.ceTokens (s : State) (e : CeEntry) : Bool :=
  match s.unit? e.tags.unit with
  | some u => s.tokensInUse e.tags.unit + (if e.begun then 0 else 1) ≤ u.power
  | none => true

/-- The entry takes a slot of its circular buffer as a producer; none while no slot is free. -/
def State.ceTakeSlot (s : State) (e : CeEntry) : Option (State × CeEntry) :=
  match e.cb with
  | none => some (s, e)
  | some p =>
    if e.taken then some (s, e) else
    match cePiece e.tags.core (tagIn p) p 16 with
    | .error _ => some (s, e)
    | .ok x =>
      let k := s.padKey e.tags.unit x
      let d := s.cbRead k
      if s.cbInCopy e.tags.unit x then none else
      d.take.map fun r => ((s.cbMeets e.tags.unit k).cbWrite k r.1, { e with taken := true, dst := d.slotPtr p r.2 })

/-- The head entry of a queue (an entry whose data an error in the engine's buffer has poisoned fails) starts, or goes on from the byte at which it stopped. A wait for a slot, for tokens, for a link or for a
copy of a footprint holds that queue only. -/
def startEntry (s : State) (c q : Nat) : State :=
  match (s.ceq c q).entries.head? with
  | none => s
  | some e =>
    match e.kind with
    | .join _ _ => s
    | _ =>
      if e.state ≠ .waiting || !s.ceTokens e then s else
      match s.ceTakeSlot e with
      | none => s
      | some (s, e) =>
        let r := if s.poison.contains (.ceBuffer c q) ∧ e.bytes < e.total then (⟨s.consumePoison e.tags.unit, none, e.bytes, none, some 0x513⟩ : CeMove)
          else ceMove e (e.total + 1) e.bytes ⟨s, none, e.bytes, none, none⟩
        let st : CeState := match r.miss, r.fail with
          | some va, _ => .stalled false va
          | none, some c => .failed c
          | none, none => if r.done < e.total then .waiting else .active
        ({ r.s with poison := r.s.poison.filter (· ≠ .ceBuffer c q) } : State).setCeHead c q { e with bytes := r.done, state := st, begun := true }

/-- `CE_ENTRY_START`. -/
def execCeEntryStart (s : State) : Out :=
  match s.turn with
  | .event (.ceEntryStart c q) => .next (startEntry s c q)
  | _ => .next s

/-! ## Completion (09:R281, R285; 17:R398) -/

/-- The entry's writes have been performed at device scope; a join has every entry before it in its queues behind it. -/
def State.ceOver (s : State) (c q : Nat) (e : CeEntry) : Bool :=
  match e.kind with
  | .join m id => (List.range 4).all fun k => !m.getLsbD k ||
      match (s.ceq c k).entries.findIdx? fun x => x.kind = .join m id with
      | some i => i = 0
      | none => true
  | _ => (match e.state with
      | .active => true
      | .failed _ => true
      | _ => false) && s.released (ceTeam c q) c 4

/-- The code of a failed entry. -/
def CeEntry.code (e : CeEntry) : Option Nat :=
  match e.state with
  | .failed c => some c
  | _ => none

/-- The actions of an entry may act now. -/
def State.ceActReady (s : State) (e : CeEntry) : Bool :=
  s.hwRoom (8 * (e.actions.length + 1)) && s.homesReady [dieOfCore e.tags.core] (e.actions.flatMap fun a => s.actionHomes e.tags.slot a.addr (!a.counter))

/-- An entry about a copy command in the failure record of its unit's queue (19:R422). -/
def State.ceRecord (s : State) (tg : Tags) (code kind addr bytes : Nat) : State :=
  let u := s.unit? tg.unit
  s.recordFailure tg.queue ⟨code, kind, (u.map (·.attempt)).getD 0, (u.map (·.troupe)).getD 0, addr, bytes, s.clock⟩

/-- The filled slot is published (09:R283). -/
def State.cePublish (s : State) (e : CeEntry) : State :=
  match e.cb with
  | none => s
  | some p => match cePiece e.tags.core (tagIn p) p 16 with
    | .error _ => s
    | .ok x => let k := s.padKey e.tags.unit x
               let d := s.cbRead k
               (s.cbMeets e.tags.unit k).cbWrite k { d with filled := d.filled + 1 }

/-- The filled slot lies in a footprint that is being copied: the publication waits (11:R341). -/
def State.cePublishWaits (s : State) (e : CeEntry) : Bool :=
  match e.cb with
  | none => false
  | some p => match cePiece e.tags.core (tagIn p) p 16 with
    | .error _ => false
    | .ok x => s.cbInCopy e.tags.unit x

/-- The head entry of a queue completes, or fails, and its actions act. What it wrote into tiles of its core is written back first
(09:R281; 03:R97). -/
def completeEntry (s : State) (c q : Nat) : State :=
  let cq := s.ceq c q
  match cq.entries.head? with
  | none => s
  | some e =>
    if s.dirtyTiles c && !(e.kind matches .join _ _) && e.state ≠ .waiting then s.releaseTiles e.tags c else
    if !s.ceOver c q e || !s.ceActReady e || s.cePublishWaits e then s else
    let failed := match e.code with
      | some k => NMap.insert cq.failed e.seq.toNat k
      | none => List.filter (fun x : Nat × Nat => x.1 ≠ e.seq.toNat) cq.failed
    let s := s.setCeq c q { cq with entries := cq.entries.tail, done := e.seq, any := true, failed := failed }
    let s := match e.code with
      | some k => s.ceRecord e.tags k 4 e.dst.toNat e.bytes
      | none => s.cePublish e
    e.actions.foldl (fun s a => s.ceAct e.tags a e.code) s

/-- `CE_ENTRY_COMPLETE`. -/
def execCeEntryComplete (s : State) : Out :=
  match s.turn with
  | .event (.ceEntryComplete c q) => .next (completeEntry s c q)
  | _ => .next s

/-! ## Delivery of a trap at a kill point (16:R441) -/

/-- Is a repeated or plain lane word the one that a blocked team waits in? Its lane-word index. -/
def Team.laneWaitAt (tm : Team) : Option Nat := tm.run.map (·.pos.toNat)

/-- It is an atomic. -/
def RemoteOp.atomic (r : RemoteOp) : Bool :=
  match r.word with
  | .atom _ => true
  | .cas _ => true
  | _ => false

/-- Whether a team stands at a kill point at which a trap is delivered: the lane index of the word it waits in, and the barrier wait it
is in or resumes. None while it runs a lane block, waits in an SX word or for a remote atomic, which may have acted, is parked, evicted,
trapped, or is to be killed. -/
def Team.atDelivery (tm : Team) : Option (Option Nat × Option (Nat × BitVec 32)) :=
  if tm.kill.isSome || tm.reply.isSome || tm.sxWait || tm.lost then none else
  match tm.state, tm.wait with
  | .ready, _ => if tm.holding.isNone then some (none, tm.rewait) else none
  | .blocked, some (.barWait n ph) => some (none, some (n, ph))
  | .blocked, some (.barArrive _) => some (none, none)
  | .blocked, some .cb => some (tm.laneWaitAt, none)
  | .blocked, some .remote => match tm.remote with
    | some r => if r.atomic then none else some (if r.lane then tm.laneWaitAt else none, none)
    | none => some (none, none)
  | .blocked, some (.faultEntry _ _ l) => some (if l then tm.laneWaitAt else none, none)
  | .blocked, some (.faultNone l) => some (if l then tm.laneWaitAt else none, none)
  | _, _ => none

/-- The lowest-numbered team of a unit that has not exited. -/
def State.firstTeam (s : State) (u : LUnit) : Option Nat :=
  u.teams.find? fun t => match s.teams[t]? with
    | some tm => tm.state ≠ .exited
    | none => false

/-- Delivers a trap to team `t`, if it stands at such a kill point. -/
def State.deliver (s : State) (t cause : Nat) (a b : W64) (copy : Option (Nat × Nat)) : Option Out :=
  match s.teams[t]? with
  | none => none
  | some tm => if s.gated tm.core || s.moving t || !s.frameReached tm then none else tm.atDelivery.map fun d =>
      takeTrap (s.abandonRemote tm) t { tm with wait := none, remote := none }
        ⟨cause, d.1, tm.pc, a, b, 0, if d.1.isSome then tm.waitMask else 0, d.2, none, copy⟩

/-- Detail B of cause 0x23 (17:R397). -/
def CeEntry.faultB (e : CeEntry) (q : Nat) : W64 :=
  BitVec.ofNat 64 (q + (e.rowAt e.bytes).1 % 2 ^ 24 * 2 ^ 2 + (e.rowAt e.bytes).2 % 2 ^ 32 * 2 ^ 26)

/-- The page fault of the head entry of a queue is delivered to the lowest-numbered team of its unit that has not exited, or posted, once
every byte before it has been performed (17:R397). -/
def deliverCopyFault (s : State) (c q : Nat) : Out :=
  match (s.ceq c q).entries.head? with
  | none => .next s
  | some e =>
    match e.state with
    | .stalled false va =>
      if s.dirtyTiles c then .next (s.releaseTiles e.tags c) else
      if !s.released (ceTeam c q) c 4 then .next s else
      let told := s.setCeHead c q { e with state := .stalled true va }
      match (s.unit? e.tags.unit).bind s.firstTeam with
      | some t => (told.deliver t 0x23 (BitVec.ofNat 64 va) (e.faultB q) (some (c, q))).getD (.next s)
      | none => match s.partOf e.tags.slot with
        | some (p, _) => .next (told.post (.copyFault p c q))
        | none => .next told
    | _ => .next s

/-- `CE_FAULT_DELIVERY`. -/
def execCeFaultDelivery (s : State) : Out :=
  match s.turn with
  | .event (.ceFaultDelivery c q) => deliverCopyFault s c q
  | _ => .next s

/-- A `PG.MAP` of a page retries the entries of the context that stand at it (17:R397). -/
def State.retryCopies (s : State) (slot va n : Nat) : State :=
  { s with ce := List.map (fun q : Nat × CeQueue => (q.1, { q.2 with entries := q.2.entries.map fun e =>
      match e.state with
      | .stalled _ x => if e.tags.slot = slot ∧ va ≤ x ∧ x < va + n then { e with state := .waiting } else e
      | _ => e })) s.ce }

end Sys2Proof.Machine
end

