-- ==== Sys2Proof/Machine/Slots.lean ====
section
/-!
DEFINITION. Issue slots, lane blocks and the ends of waits: the steps of the issue hardware of a core (02:R38, R52, R53; 05:R147, R150;
08:R250; 11:R332 to R335, R338; 06:R192).
-/
namespace Sys2Proof.Machine

/-! ## The choice of a team (11:R333, R334) -/

/-- Clocks of an interval (11:R334). -/
def issueInterval : Nat := 65536

/-- A team that asks for a slot: ready, or in a handler, with a word of its running block to issue, not to be killed, and not at a
run boundary that its deadline made a blocking point (02:R52, R55; 16:R386). -/
def Team.asksSlot (tm : Team) : Bool :=
  tm.live && tm.holding.isNone && tm.kill.isNone && !tm.due && match tm.run with
    | some r => !r.ended
    | none => false

/-- The keys by which a core ranks a team. -/
structure SlotRank where
  owed  : Bool
  prio  : Nat
  since : Nat
  share : Nat
  usage : Nat
  deriving DecidableEq, Repr

/-- The keys of a team. A queue is owed while its teams have held the core's slots for fewer than share / 256 x 4 x 65,536 slot-clocks. -/
def State.slotRank (s : State) (tm : Team) : SlotRank :=
  let q := (s.shareOf tm).getD 0
  let share := match s.shareOf tm with
    | some q => ((NMap.find? s.queues q).map fun x => x.shares.getD 2 0).getD 0
    | none => 0
  let usage := NMap.get (s.core tm.core).usage 0 q
  ⟨usage < share * 1024, s.effPrio tm, tm.since, share, usage⟩

/-- `a` comes before `b`. A team that became ready later is never ahead by key 3 or 4, so key 3 counts only between equals in time. -/
def SlotRank.ahead (a b : SlotRank) : Bool :=
  if a.owed ≠ b.owed then a.owed
  else if a.prio ≠ b.prio then b.prio < a.prio
  else if a.since ≠ b.since then a.since < b.since
  else a.share ≠ 0 && (b.share = 0 || a.usage * b.share < b.usage * a.share)

/-- No team of the core that asks for a slot comes before `tm`; a team whose footprint is being copied is not ready (11:R341). -/
def State.heads (s : State) (tm : Team) : Bool :=
  (s.teams.mapIdx fun i x => (i, x)).all fun e =>
    !(e.2.core = tm.core && e.2.asksSlot && !s.moving e.1 && (s.slotRank e.2).ahead (s.slotRank tm))

/-- The slot is free. -/
def State.slotOpen (s : State) (core slot : Nat) : Bool :=
  slot < 4 && s.teams.all fun x => !(x.core = core && x.holding = some slot)

/-- The team takes the slot for one run. -/
def Team.takeSlot (tm : Team) (slot : Nat) : Team :=
  { tm with holding := some slot, wait := none, state := if tm.state = .ready then .running else tm.state,
            run := tm.run.map fun r => { r with words := 0, passes := 0 } }

/-- A free slot goes to a team at the head of the core's order. -/
def grantSlot (s : State) (core slot t : Nat) : State :=
  match s.teams[t]? with
  | none => s
  | some tm =>
    if tm.core = core && s.slotOpen core slot && tm.asksSlot && !s.gated core && !s.moving t && s.heads tm then s.setTeam t (tm.takeSlot slot)
    else s

/-- `SLOT_GRANT`. -/
def execSlotGrant (s : State) : Out :=
  match s.turn with
  | .event (.slotGrant c k t) => .next (grantSlot s c k t)
  | _ => .next s

/-- A run that reaches the cap, in a wait or not, ends before its next word (05:R146, R147; 11:R332). -/
def capReached (s : State) (t : Nat) : State :=
  match s.teams[t]? with
  | none => s
  | some tm => match tm.run with
    | some r => if tm.holding.isSome && passCap ≤ r.passes && !r.ended then s.setTeam t (tm.endRun s.clock) else s
    | none => s

/-- `PASS_CAP_REACHED`. -/
def execPassCapReached (s : State) : Out :=
  match s.turn with
  | .event (.passCapReached t) => .next (capReached s t)
  | _ => .next s

/-- An interval of a core ends (11:R334). -/
def endInterval (s : State) (core : Nat) : State :=
  let c := s.core core
  if c.interval + issueInterval ≤ s.islandClock core then s.setCore core { c with usage := [], interval := c.interval + issueInterval } else s

/-- `ISSUE_INTERVAL_END`. -/
def execIssueIntervalEnd (s : State) : Out :=
  match s.turn with
  | .event (.issueIntervalEnd c) => .next (endInterval s c)
  | _ => .next s

/-! ## Lane blocks (02:R38, R39; 04:R120) -/

/-- The oldest queued block starts, once the one before it has completed; a seed written before its `LRUN` reseeds every lane. -/
def startBlock (s : State) (t : Nat) : State :=
  match s.teams[t]? with
  | none => s
  | some tm => match tm.queue with
    | [] => s
    | b :: r =>
      if tm.run.isNone && tm.pending.isEmpty && tm.live && tm.kill.isNone && !s.moving t && !s.gated tm.core then
        s.setTeam t { tm with
          queue := r, run := some ⟨{ b with reseed := none }, b.start, none, false, 0, 0⟩,
          rnd := match b.reseed with
            | some x => rndAll x tm.lanes
            | none => tm.rnd }
      else s

/-- `LANE_BLOCK_START`. -/
def execLaneBlockStart (s : State) : Out :=
  match s.turn with
  | .event (.laneBlockStart t) => .next (startBlock s t)
  | _ => .next s

/-- A block whose E word has executed completes when its last results are written. -/
def completeBlock (s : State) (t : Nat) : State :=
  match s.teams[t]? with
  | none => s
  | some tm => match tm.run with
    | some r => if r.ended && tm.pending.isEmpty then s.setTeam t { tm with run := none } else s
    | none => s

/-- `LANE_BLOCK_COMPLETE`. -/
def execLaneBlockComplete (s : State) : Out :=
  match s.turn with
  | .event (.laneBlockComplete t) => .next (completeBlock s t)
  | _ => .next s

/-! ## Results of long-latency words (05:R150, R151; 02:R53) -/

/-- The parts of a list that a selection takes: all for 0, else those whose bit is set. -/
def selected (sel : Nat) (ws : List PartWrite) : List PartWrite × List PartWrite :=
  let tag := ws.mapIdx fun i w => (i, w)
  let hit (i : Nat) : Bool := sel = 0 || sel.testBit i
  ((tag.filter fun e => hit e.1).map (·.2), (tag.filter fun e => !hit e.1).map (·.2))

/-- Some of the results of a word are written, in an order the manual does not give. What a load or atomic of an old incarnation brings is discarded
and counted by the core's response port (03:R108). -/
def writeResult (s : State) (t idx sel : Nat) : State :=
  match s.teams[t]? with
  | none => s
  | some tm => match tm.pending[idx]? with
    | none => s
    | some p =>
      if tm.state = .parked && p.miss then s else
      if p.resp && s.oldInc tm then (s.countDrop tm.slot 0).setTeam t { tm with pending := tm.pending.eraseIdx idx } else
      let (now, later) := selected sel p.writes
      let rest := if later.isEmpty then tm.pending.eraseIdx idx else tm.pending.set idx { p with writes := later }
      s.setTeam t { (tm.putParts now) with pending := rest }

/-- `LONG_LATENCY_RESULT`. -/
def execLongLatencyResult (s : State) : Out :=
  match s.turn with
  | .event (.longLatencyResult t i sel) => .next (writeResult s t i sel)
  | _ => .next s

/-- Team `t` leaves the green room of its cluster. -/
def State.leaveGreen (s : State) (t : Nat) (tm : Team) : State :=
  let c := clusterOfCore tm.core
  let cl := s.cluster c
  s.setCluster c { cl with green := cl.green.filter (· ≠ t) }

/-- The data of a parked team's misses arrives: it is written, and the team is ready (11:R338). -/
def wakeParked (s : State) (t : Nat) : State :=
  match s.teams[t]? with
  | none => s
  | some tm =>
    if tm.state ≠ .parked then s else
    let tm' := if s.oldInc tm then tm else tm.putParts ((tm.pending.filter (·.miss)).flatMap (·.writes))
    let s := if s.oldInc tm then s.countDrop tm.slot 0 else s
    (s.leaveGreen t tm).setTeam t { tm' with pending := tm.pending.filter (!·.miss), state := .ready, since := s.clock }

/-- `GREEN_ROOM_WAKE`. -/
def execGreenRoomWake (s : State) : Out :=
  match s.turn with
  | .event (.greenRoomWake t) => .next (wakeParked s t)
  | _ => .next s

/-! ## Circular buffers (08:R250) -/

/-- The word that a team blocked in a circular buffer waits in, with the operation of its descriptor. -/
def State.cbWord? (s : State) (tm : Team) (rb : RunBlock) : Option (LaneF × (CbDesc → Option (CbDesc × Nat))) :=
  match s.laneWordAt tm rb.pos.toNat with
  | .error _ => none
  | .ok w => match decodeLane w with
    | .ok (.cbtake f) => some (f, CbDesc.take)
    | .ok (.cbget f) => some (f, CbDesc.get)
    | _ => none

/-- The slot that a blocked team waits for is there: the team takes it, is ready, and goes on with the next word. An evicted team is
ready when it is restored (02:R54). -/
def wakeCb (s : State) (t : Nat) : Out :=
  match s.teams[t]? with
  | none => .next s
  | some tm =>
    if tm.wait ≠ some .cb || tm.kill.isSome || s.gated tm.core || s.moving t then .next s else
    match tm.run with
    | none => .next s
    | some rb =>
      match s.cbWord? tm rb with
      | none => .next s
      | some (f, op) =>
        let tm' := { tm with wait := none, state := if tm.state = .blocked then .ready else tm.state, since := s.clock }
        let e := laneEnv s t tm' rb f
        match e.active.head? with
        | none => .next s
        | some l =>
          if s.cbCopying tm l (e.b64 l) then .next s else
          match s.cbKey tm l (e.b64 l) with
          | .error _ => .next s
          | .ok key => (cbTakeWord e (e.b64 l) key op false).getD (.next s)

/-- `CB_WAIT_WAKE`. -/
def execCbWaitWake (s : State) : Out :=
  match s.turn with
  | .event (.cbWaitWake t) => wakeCb s t
  | _ => .next s

/-! ## Replies of engines (05:R139; 06:R192) -/

/-- The reply of a command arrives: S[sd] is written and the scalar stream goes on. The reply of a suspended spawn waits for its segment,
and a reply under an old incarnation is dropped and counted: its command waits on, to the team's kill (03:R108; 02:R55). -/
def replyArrives (s : State) (t : Nat) : State :=
  match s.teams[t]? with
  | none => s
  | some tm => match tm.reply with
    | none => s
    | some (d, v) =>
      match tm.wait with
      | some (.spawn _) => s
      | _ =>
        if tm.ctrl.isNone && tm.inc ≠ (s.ctx tm.slot).inc then (s.countDrop tm.slot 0).setTeam t { tm with reply := none, lost := true }
        else s.setTeam t { (tm.wr d v) with reply := none }

/-- `ENGINE_REPLY_ARRIVAL`. -/
def execEngineReplyArrival (s : State) : Out :=
  match s.turn with
  | .event (.engineReplyArrival t) => .next (replyArrives s t)
  | _ => .next s

end Sys2Proof.Machine
end

