-- ==== Sys2Proof/Machine/Lifetimes.lean ====
section
/-!
DEFINITION. Kills at kill points, the collection of page faults, migration (02:R34, R55, R57; 11:R341; 16:R441; 17:R394, R405, R407;
10:R316).
-/
namespace Sys2Proof.Machine

/-! ## Kills (02:R55; 15:R365; 17:R405) -/

/-- The team stands at a kill point: a blocked, parked, evicted or stopped team at once; else at a run boundary, between two scalar
words while no lane block runs, or in a wait inside an SX word. -/
def Team.atKillPoint (tm : Team) : Bool :=
  let free := tm.holding.isNone || tm.reply.isSome || tm.sxWait || tm.lost || match tm.run with
    | some r => r.words = 0 && r.passes = 0
    | none => true
  match tm.state with
  | .exited => false
  | .blocked => true
  | .parked => true
  | .evicted => true
  | .trapped => tm.level ≠ 1 || free
  | .ready => free
  | .running => free

/-- The unit of a team killed under a refuted hypothesis fails its future with code 0x2 (15:R365). -/
def State.noteRefuted (s : State) (tm : Team) : State :=
  match tm.kill, s.unit? tm.unit with
  | some .refuted, some u => s.setUnit tm.unit { u with ending := some (u.ending.getD .refuted) }
  | _, _ => s

/-- No queue waits to resume team `t`. -/
def State.unsuspend (s : State) (t : Nat) : State :=
  { s with queues := List.map (fun q : Nat × Queue => if q.2.suspended = some t then (q.1, { q.2 with suspended := none }) else q) s.queues }

/-- A marked team exits at a kill point. -/
def killTeam (s : State) (t : Nat) : State :=
  match s.teams[t]? with
  | none => s
  | some tm =>
    if tm.kill.isSome && tm.atKillPoint then ((s.noteRefuted tm).unsuspend t).exitTeam t 0 else s

/-- `KILL_AT_KILL_POINT`. -/
def execKillAtKillPoint (s : State) : Out :=
  match s.turn with
  | .event (.killAtKillPoint t) => .next (killTeam s t)
  | _ => .next s

/-! ## The collection of a page fault (17:R391, R394) -/

/-- Clocks for which the opener of an entry collects. -/
def collectClocks : Nat := 16

/-- Detail B with the union of the access kinds and the number of waiters. -/
def FaultEntry.detail (e : FaultEntry) : W64 :=
  (e.detailB &&& ~~~(0xFFFF000F : W64)) ||| BitVec.ofNat 64 (e.kinds.toNat + e.waiters % 65536 * 2 ^ 16)

/-- Marks entry `i` of a cluster's fault table as vectored. -/
def State.takeEntry (s : State) (c i : Nat) (e : FaultEntry) : State :=
  let cl := s.cluster c
  s.setCluster c { cl with faults := cl.faults.set i { e with taken := true } }

/-- The opener of an entry vectors to its handler with cause 0x10, 16 clocks after the entry opened. -/
def collectExpires (s : State) (c i : Nat) : Out :=
  match (s.cluster c).faults[i]? with
  | none => .next s
  | some e =>
    match s.teams[e.opener]? with
    | none => .next s
    | some tm =>
      if e.taken || s.islandClock tm.core < e.t0 + collectClocks || tm.state ≠ .trapped || tm.level ≠ 0 || s.gated tm.core ||
        !s.frameReached tm then .next s else
      takeTrap (s.takeEntry c i e) e.opener tm
        ⟨0x10, if e.lane then tm.laneWaitAt else none, tm.pc, e.ptr, e.detail, e.addr, e.lanes, none, some (e.slot, e.page), none⟩

/-- `FAULT_COLLECT_EXPIRY`. -/
def execFaultCollectExpiry (s : State) : Out :=
  match s.turn with
  | .event (.faultCollectExpiry c i) => collectExpires s c i
  | _ => .next s

/-! ## Room on a core (02:R34; 11:R326) -/

/-- Lane registers that a team is charged. -/
def chargeOf (lanes budget : Nat) : Nat := (lanes + 31) / 32 * 32 * budget

/-- The teams resident on a core. -/
def State.residents (s : State) (c : Nat) : List Team :=
  s.teams.filter fun t => t.ctrl.isNone && t.core = c && t.state ≠ .exited && t.state ≠ .evicted

/-- Lane registers in use on a core. -/
def State.chargeOn (s : State) (c : Nat) : Nat := (s.residents c).foldl (fun a t => a + chargeOf t.lanes t.budget) 0

/-- Room for some more teams with these charges. -/
def State.roomOn (s : State) (c : Nat) (charges : List Nat) : Bool :=
  s.chargeOn c + charges.foldl (· + ·) 0 ≤ 131072 && (s.residents c).length + charges.length ≤ 32

/-- Bytes of a core's scratchpad in the footprints of units. -/
def State.padUsed (s : State) (c : Nat) : Nat :=
  s.units.foldl (fun a u => if !u.complete && u.cores.contains c then a + u.launch.scratch else a) 0

/-- The core takes new teams: neither retired nor about to be. -/
def State.openCore (s : State) (c : Nat) : Bool := !(s.core c).retired && !(s.core c).closing

/-- The units that hold resources. -/
def State.liveUnits (s : State) : List LUnit := s.units.filter fun u => !u.complete

/-- Tokens that a launch holds (11:R342). -/
def Launch.power (l : Launch) : Nat := max l.tokens (if l.mtx = 0 then 1 else 4)

/-- The tokens of a launch fit on an island; a replay holds none against its context's grant (19:R425). -/
def State.tokenRoom (s : State) (slot island : Nat) (l : Launch) (replay : Bool) : Bool :=
  let held (ok : LUnit → Bool) : Nat := s.liveUnits.foldl (fun a u => if u.island = island && ok u then a + u.tokens else a) 0
  held (fun _ => true) + l.power ≤ (s.island island).budget &&
    (replay || held (fun u => u.slot = slot && u.replay.isNone) + l.power ≤ NMap.get (s.ctx slot).grants 0 island)

/-- The island of a core has the tokens of a unit, or could take them (11:R342). -/
def State.tokensMove (s : State) (u : LUnit) (c : Nat) : Bool :=
  islandOfCore c = u.island || s.tokenRoom u.slot (islandOfCore c) u.launch u.replay.isSome

/-- A unit holds a walk. -/
def State.holdsWalk (s : State) (u : Nat) : Bool := s.walks.any fun w => w.2.unit = u

/-- A core that a team of a unit may move to: of the cluster for a troupe, of the partition for a task. -/
def State.inReach (s : State) (tm : Team) (u : LUnit) (core : Nat) : Bool :=
  (match s.partOf tm.slot with
   | some (_, p) => p.cores.contains core
   | none => false) && (!u.launch.cast || clusterOfCore core = u.cluster)

/-- Bytes of a scratchpad copied to the same offsets on another core, with the marks of their granules (19:R415). -/
def State.copyPad (s : State) (old new n : Nat) : State :=
  let s' := s.poke (padBase new) (s.bytes (padBase old) n)
  let inPad (c g : Nat) : Bool := padBase c ≤ g * 32 && g * 32 < padBase c + n
  let kept := s.poison.filter fun p => match p with
    | .granule g => !inPad new g
    | _ => true
  { s' with poison := kept ++ s.poison.filterMap fun p => match p with
    | .granule g => if inPad old g then some (.granule (g + padBase new / 32 - padBase old / 32)) else none
    | _ => none }

/-- The footprint of a unit on two cores becomes one: a byte of which the two differ is free, since the manual says nothing of it (DESIGN
CHOICE, log 61); a granule marked on either is marked. -/
def State.joinPad (s : State) (old new n : Nat) : State :=
  let free (i : Nat) (a : Byte) : Byte := if a = s.byte (padBase new + i) then a else Config.freeByte (s.draw i)
  let s' := s.poke (padBase new) ((s.bytes (padBase old) n).mapIdx free)
  s.poison.foldl (fun s p => match p with
    | .granule g => if padBase old ≤ g * 32 && g * 32 < padBase old + n then s.markPoison (.granule (g + padBase new / 32 - padBase old / 32)) else s
    | _ => s) s'

/-- A team restored or resumed on a core performs an acquire at device scope (10:R316). -/
def State.resumeAcquire (s : State) (t : Nat) : State := s.acquire t 4

/-! ## Migration (11:R341; 02:R57) -/

/-- The blocked team may move: no load, atomic or reply outstanding, and no copy of its footprint under way. One that waits on the fault table of
its cluster stays there (DESIGN CHOICE, log 61). -/
def State.mayMove (s : State) (t : Nat) (tm : Team) : Bool :=
  tm.state = .blocked && tm.kill.isNone && tm.reply.isNone && tm.remote.isNone && tm.pending.isEmpty &&
  (match tm.wait with
   | some (.faultEntry _ _ _) => false
   | some (.faultNone _) => false
   | some .remote => false
   | _ => true) && s.migrations.all fun m => m.team ≠ t || m.ended

/-- The unit's footprint gets a place on one more core; a task is in the cluster and holds its tokens on the island of its core. -/
def LUnit.addCore (u : LUnit) (c : Nat) : LUnit :=
  { u with cores := if u.cores.contains c then u.cores else u.cores ++ [c], cluster := clusterOfCore c, island := islandOfCore c }

/-- The sequencer of a core runs the matrix stream of some unit (01:R15). -/
def State.seqBusy (s : State) (c : Nat) : Bool :=
  s.liveUnits.any fun u => (u.seqr.map fun q => !q.done).getD false && s.leaderCore u = c

/-- A team may come to a core: the matrix stream that goes with team 0 finds the core's sequencer free (01:R15). -/
def State.seqFits (s : State) (tm : Team) (u : LUnit) (c : Nat) : Bool :=
  tm.teamid ≠ 0 || !(u.seqr.map fun q => !q.done).getD false || !s.seqBusy c

/-- The unit's footprint leaves a core on which none of its teams lives any more. -/
def State.leaveCore (s : State) (n c : Nat) : State :=
  match s.unit? n with
  | some u =>
    if u.teams.any fun t => match s.teams[t]? with
      | some tm => tm.state ≠ .exited && tm.core = c
      | none => false then s
    else s.setUnit n { u with cores := u.cores.filter (· ≠ c) }
  | none => s

/-- Teams that would be ahead of a team for the slots of a core (11:R333). -/
def State.aheadOn (s : State) (t : Nat) (tm : Team) (c : Nat) : Nat :=
  ((s.teams.mapIdx fun i x => (i, x)).filter fun e =>
    e.1 ≠ t && e.2.ctrl.isNone && e.2.core = c && e.2.state ≠ .exited && e.2.state ≠ .evicted &&
      (s.slotRank e.2).ahead (s.slotRank { tm with core := c })).length

/-- A blocked team may move to a core: one of its scope where fewer teams rank before it (DEDUCED, log 77), with room for it, for its footprint and
for its tokens. -/
def State.mayMigrate (s : State) (t : Nat) (tm : Team) (u : LUnit) (core : Nat) : Bool :=
  s.mayMove t tm && s.inReach tm u core && s.openCore core && core ≠ tm.core && !u.cores.contains core && !s.gated tm.core && !s.gated core &&
    s.roomOn core [chargeOf tm.lanes tm.budget] && s.padUsed core + u.launch.scratch ≤ padSize && !s.holdsWalk tm.unit && s.seqFits tm u core &&
    s.aheadOn t tm core < s.aheadOn t tm tm.core && s.tokensMove u core

/-- A dispatcher moves a blocked team to another core: first its stores are performed, then the copy of its footprint starts. -/
def migrateTeam (s : State) (t core : Nat) : State :=
  match s.teams[t]? with
  | none => s
  | some tm =>
    match s.unit? tm.unit with
    | none => s
    | some u =>
      if !s.mayMigrate t tm u core then s
      else if s.dirtyTiles tm.core then s.releaseTiles (s.tagsOf t tm) tm.core
      else if !s.released t tm.core 4 then s
      else
        let rest := s.migrations.filter fun m => !(m.team = t && m.old = core)
        let move : Migration := ⟨t, tm.core, core, true, [], none, false⟩
        (({ s with migrations := rest ++ [move] }).setUnit tm.unit (u.addCore core)).setTeam t
          { tm with core := core }

/-- `TEAM_MIGRATE`. -/
def execTeamMigrate (s : State) : Out :=
  match s.turn with
  | .event (.teamMigrate t c) => .next (migrateTeam s t c)
  | _ => .next s

/-- The messages that came to the old core during the copy are applied on the new one, in their order. -/
def State.applyWaiting (s : State) (m : Migration) : State :=
  m.waiting.foldl (fun s w =>
    if w.halo then s.haloTakes w.slot w.key (fun l => l.core = m.new) w.bytes [] else
    let k := w.key - padBase m.old + padBase m.new
    (List.foldl (fun s (e : Nat × Byte) => s.poke (k + e.1) [e.2]) s w.bytes).clearPoison k w.bytes.length) s

/-- The copy of a footprint completes; an acquire is performed for the team. -/
def copyCompletes (s : State) (t : Nat) : State :=
  match s.teams[t]? with
  | none => s
  | some tm =>
    match s.migrations.find? (fun m => m.team = t && m.copying), s.unit? tm.unit with
    | some m, some u =>
      if !s.mayAcquire tm 4 || s.gated m.new then s else
      let s := (s.copyPad m.old m.new u.launch.scratch).applyWaiting m
      ({ s with migrations := s.migrations.map fun x => if x = m then { m with copying := false, waiting := [] } else x }).resumeAcquire t
    | _, _ => s

/-- `MIGRATION_COPY_COMPLETE`. -/
def execMigrationCopyComplete (s : State) : Out :=
  match s.turn with
  | .event (.migrationCopyComplete t) => .next (copyCompletes s t)
  | _ => .next s

/-- Clocks after the first pass for which the old core forwards. -/
def forwardClocks : Nat := 4096

/-- Forwarding ends, so many clocks of the new core's island after the first pass there; the footprint on the old core is free. -/
def endForwarding (s : State) (t : Nat) : State :=
  let ends (m : Migration) : Bool := m.team = t && !m.copying && !m.ended && match m.firstPass with
    | some f => decide (f + forwardClocks ≤ s.islandClock m.new)
    | none => false
  let s' := { s with migrations := s.migrations.map fun m => if ends m then { m with ended := true } else m }
  match s.teams[t]? with
  | some tm => (s.migrations.filter ends).foldl (fun s m => s.leaveCore tm.unit m.old) s'
  | none => s'

/-- `MIGRATION_FORWARD_END`. -/
def execMigrationForwardEnd (s : State) : Out :=
  match s.turn with
  | .event (.migrationForwardEnd t) => .next (endForwarding s t)
  | _ => .next s

/-- A message that reached an old core late is dropped and counted (17:R400, R407). -/
def dropLate (s : State) (i : Nat) : State :=
  match s.late[i]? with
  | none => s
  | some m => ({ s with late := s.late.eraseIdx i }).countDrop m.slot 4

/-- `LATE_FOOTPRINT_MESSAGE`. -/
def execLateFootprintMessage (s : State) : Out :=
  match s.turn with
  | .event (.lateFootprintMessage i) => .next (dropLate s i)
  | _ => .next s

end Sys2Proof.Machine
end

