-- ==== Sys2Proof/Machine/Matrix.lean ====
section
/-!
DEFINITION. The uniform sequencer of a troupe: the matrix words, the passes, their operands and sums (09:R262 to R278; 04:R125 to R132;
11:R337, R343; 16:R380, R381).
-/
namespace Sys2Proof

/-! ## Fields of a matrix word (05:R145; 09:R266, R273, R275) -/

/-- FLG as a signed number. -/
def MtxF.simm (f : MtxF) : W64 := f.flg.signExtend 64

/-- The counter that XR names. -/
def MtxF.cnt (f : MtxF) : Nat := f.xr.toNat % 4

/-- `hb`, `p1`, `int`, `z` (09:R266). -/
def MtxF.hb (f : MtxF) : Bool := f.flg.getLsbD 0

/-- `p1`. -/
def MtxF.p1 (f : MtxF) : Bool := f.flg.getLsbD 1

/-- `int`. -/
def MtxF.int (f : MtxF) : Bool := f.flg.getLsbD 2

/-- `z`. -/
def MtxF.z (f : MtxF) : Bool := f.flg.getLsbD 3

/-- A Q4 pair. -/
def MtxF.q4 (f : MtxF) : Bool := f.ta = 13 && f.tb = 13

/-- Type of A. -/
def MtxF.tya (f : MtxF) : Nat := f.ta.toNat

/-- Type of B. -/
def MtxF.tyb (f : MtxF) : Nat := f.tb.toNat

/-- The partial step s (04:R129). -/
def MtxF.step (f : MtxF) : Nat := 2 ^ (4 + min f.bsa.toNat f.bsb.toNat)

/-- C of `MACLD` and `MACST`. -/
def MtxF.colCount (f : MtxF) : Nat := f.flg.toNat / 4 % 128 + 1

/-- FLG[1:0]. -/
def MtxF.low2 (f : MtxF) : Nat := f.flg.toNat % 4

/-- Bytes of a cell in memory. -/
def MtxF.cellBytes (f : MtxF) : Nat := if f.low2 = 0 then 4 else 2

end Sys2Proof

namespace Sys2Proof.Machine

/-! ## The sequencer that moves -/

/-- The requester number of the sequencer of unit `u`. -/
def mtxTeam (u : Nat) : Nat := 2 ^ 33 + u

/-- The tags of a sequencer's requests (09:R263). -/
def State.seqTags (s : State) (n : Nat) (u : LUnit) : Tags where
  slot := u.slot
  inc := u.inc
  arena := 0
  gen := 0
  hyp := u.launch.hyp
  scope := 0
  order := 0
  phys := false
  block := false
  team := mtxTeam n
  unit := n
  core := s.leaderCore u
  queue := u.queue

/-- The unit is not being killed: a team that ended under its own refuted hypothesis leaves its troupe (15:R365). -/
def LUnit.goesOn (u : LUnit) : Bool := u.ending.isNone || u.ending = some .refuted

/-- The sequencer executes words: it has not ended, waits for no barrier and for no handler, and its unit is not being killed. One that is to
be killed may wait for a barrier: that wait is a kill point (09:R274). -/
def LUnit.seqRuns (u : LUnit) (refuted : Bool) : Bool :=
  match u.seqr with
  | some q => !q.done && (q.wait.isNone || refuted) && q.fault.isNone && u.goesOn
  | none => false

/-- The sequencer that moves: its unit and state. -/
def State.seqUnit (s : State) : Option (Nat × LUnit × Sequencer) :=
  match s.turn with
  | .matrix n => match s.unit? n with
    | some u => if u.seqRuns ((s.ctx u.slot).refuted u.launch.hyp) && !s.noPass (s.leaderCore u) then u.seqr.map fun q => (n, u, q) else none
    | none => none
  | _ => none

/-- Sets the sequencer of a unit. -/
def State.setSeq (s : State) (n : Nat) (q : Sequencer) : State :=
  match s.unit? n with
  | some u => s.setUnit n { u with seqr := some q }
  | none => s

/-- The acquire that a released `MBAR` still owes (09:R274). -/
def State.seqAcquire (s : State) (n : Nat) (u : LUnit) (q : Sequencer) : State :=
  if q.acquires then (s.dropL1 (s.leaderCore u)).setSeq n { q with acquires := false } else s

/-- A sequencer whose hypothesis is refuted is killed before its next word or in its wait for a barrier, and no barrier waits for it (03:R103;
09:R274; 15:R365). -/
def State.killSeq (s : State) (n : Nat) (u : LUnit) (q : Sequencer) : State :=
  (s.setUnit n { u with seqr := some { q with done := true, wait := none }, ending := some (u.ending.getD .refuted) }).testBarriers n

/-- A matrix word: `k` gets the unit and its sequencer. -/
def onSeq (s : State) (k : State → Nat → LUnit → Sequencer → Out) : Out :=
  match s.seqUnit with
  | some (n, u, q) =>
    if (s.ctx u.slot).refuted u.launch.hyp then .next (s.killSeq n u q)
    else k (s.seqAcquire n u q) n u { q with acquires := false }
  | none => .next s

/-- On to the next word. -/
def Sequencer.advance (q : Sequencer) : Sequencer := { q with pc := q.pc + 8 }

/-- The next state of a word that changes the sequencer only. -/
def seqNext (s : State) (n : Nat) (q : Sequencer) : Out := .next (s.setSeq n q.advance)

/-- A word that meets a condition stops the sequencer, and the troupe fails (16:R380). -/
def seqFail (s : State) (n : Nat) (q : Sequencer) (cause : Nat) : Out :=
  .next ((s.setSeq n { q with done := true }).failUnit n .matrix (.matrix cause))

/-- Address, stride and counter registers. -/
def Sequencer.aReg (q : Sequencer) (k : Nat) : W64 := NMap.get q.a 0 (k % 16)
/-- Stride register `k`. -/
def Sequencer.dReg (q : Sequencer) (k : Nat) : W64 := NMap.get q.d 0 (k % 16)

/-! ## Control words (09:R275) -/

/-- `MCNT`. -/
def execMcnt (f : MtxF) (s : State) : Out :=
  onSeq s fun s n _ q => seqNext s n { q with c := NMap.put q.c 0 f.cnt f.k }

/-- `MLOOP`. -/
def execMloop (f : MtxF) (s : State) : Out :=
  onSeq s fun s n _ q =>
    let c := NMap.get q.c 0 f.cnt
    .next (s.setSeq n (if 1 < c.toNat then { q with c := NMap.put q.c 0 f.cnt (c - 1), pc := q.pc + f.simm * 8 }
                       else { q with c := NMap.put q.c 0 f.cnt 0, pc := q.pc + 8 }))

/-- `MADDR`. -/
def execMaddr (f : MtxF) (s : State) : Out :=
  onSeq s fun s n _ q =>
    seqNext s n { q with a := NMap.put q.a 0 f.ar.toNat (q.aReg f.br.toNat + f.simm * q.dReg f.xr.toNat) }

/-- `MDSET`. -/
def execMdset (f : MtxF) (s : State) : Out :=
  onSeq s fun s n _ q => seqNext s n { q with d := NMap.put q.d 0 f.xr.toNat f.simm }

/-- `MTOL`. -/
def execMtol (f : MtxF) (s : State) : Out :=
  onSeq s fun s n _ q => seqNext s n { q with te := f.flg.extractLsb' 0 6 }

/-! ## Operand accesses (09:R265; 16:R380, R381) -/

/-- The cause that an operand address of `n` bytes meets when its word is posted. A pointer of class 11 is none of any window
(17:R390; log 78). -/
def State.operandCause (s : State) (u : LUnit) (p : W64) (n : Nat) : Option Nat :=
  let tag := p.toNat / 2 ^ 56
  if tag < 2 then none
  else if tag = 0xFF then some (if physClass p.toNat = 3 then 0x14 else 0x15)
  else if tag < 0xFD then some 0x14
  else if tag = 0xFD ∧ some (tagIn p) ≠ (s.leader u).map (·.tag) then some 0x17
  else if padSize < p.toNat % 2 ^ 19 + n then some 0x25
  else none

/-- The first cause, in order, among operand addresses. -/
def State.operandsCause (s : State) (u : LUnit) (ps : List (W64 × Nat)) : Option Nat :=
  let cs := ps.filterMap fun x => s.operandCause u x.1 x.2
  [0x14, 0x15, 0x17, 0x25].find? fun c => cs.contains c

/-- Why an operand access gives nothing. -/
inductive SeqStop where
  /-- A fault of 16:R381: translation or permission, or a peer that is not there (DEDUCED, log 80). -/
  | miss
  /-- A cause of 16:R380. -/
  | bad (cause : Nat)
  /-- It waits: for a link, for a copy of a footprint. -/
  | wait
  deriving DecidableEq, Repr

/-- The places of an operand access. -/
def State.seqPlaces (s : State) (u : LUnit) (k : Kind) (p : W64) (n : Nat) : Except SeqStop (List Place) :=
  match s.operandCause u p n with
  | some c => .error (.bad c)
  | none =>
    let tag := p.toNat / 2 ^ 56
    let ps := if tag < 2 then cutLines (n / 128 + 2) p.toNat n
      else if tag = 0xFD then [⟨.pad, padBase (s.leaderCore u) + p.toNat % 2 ^ 19, n, false⟩]
      else [⟨.pad, padBase (u.cluster * 4 + p.toNat / 2 ^ 20 % 4) + p.toNat % 2 ^ 19, n, true⟩]
    match s.placed u.slot k ps with
    | .ok pl =>
      if k.writes && (s.writeCause u.slot (s.leaderCore u) none true pl).isSome then .error .miss
      else if !k.writes && pl.any (fun x => x.remote && s.peerDead { Team.atReset with slot := u.slot } x.key) then .error .miss
      else .ok pl
    | .error _ => .error .miss

/-- A load of the sequencer: through the leader core's L1, then the home. Bytes of host and peer memory are free (log 29), those that an old
incarnation asks of them are 0 (03:R108); poison makes the unit a consumer (19:R416). -/
def State.seqLoad (s : State) (n : Nat) (p : W64) (len i : Nat) : Except SeqStop (State × List Byte) :=
  match s.unit? n with
  | none => .error .miss
  | some u =>
    match s.seqPlaces u .load p len with
    | .error e => .error e
    | .ok pl =>
      if pl.any (·.remote) then
        if u.inc ≠ (s.ctx u.slot).inc then .ok (s.countDrop u.slot 0, List.replicate len 0)
        else .ok (s, (List.range len).map fun j => Config.freeByte (s.draw (i + j)))
      else
        let g := s.loadPlaces (s.seqTags n u) ⟨false, false, 0⟩ none i pl
        if g.stuck then .error .wait else .ok (if g.poison then g.s.consumePoison n else g.s, g.data)

/-- Loads of several ranges, in order. -/
def State.seqLoads (n i : Nat) : List (W64 × Nat) → State → Except SeqStop (State × List (List Byte))
  | [], s => .ok (s, [])
  | (p, len) :: r, s =>
    match s.seqLoad n p len i with
    | .error e => .error e
    | .ok (s, bs) => match State.seqLoads n (i + 8 * (len + 16)) r s with
      | .error e => .error e
      | .ok (s, l) => .ok (s, bs :: l)

/-! ## Elements and sums (04:R125 to R132) -/

/-- Bytes of `k` elements. -/
def elemBytes (ty k : Nat) : Nat := k * tyWidth ty / 8

/-- The `k` element patterns of a vector. -/
def elemsOf (ty k : Nat) (bs : List Byte) : List Nat :=
  let x := leNat bs
  (List.range k).map fun e => x / 2 ^ (e * tyWidth ty) % 2 ^ tyWidth ty

/-- The type pairs of 09:R269: FP8 and integers in any pairing, F16, BF16, Q4. -/
def pairOk (ta tb : Nat) : Bool :=
  (tyF8 ta && tyF8 tb) || (ta < 2 && tb < 2) || (ta = 8 && tb = 8) || (ta = 9 && tb = 9) || (ta = 13 && tb = 13)

/-- A list in runs of 16; the last may be shorter. -/
def chunks16 : Nat → List α → List (List α)
  | 0, _ => []
  | f + 1, l => if l.isEmpty then [] else l.take 16 :: chunks16 f (l.drop 16)

/-- The origin NaN of the matrix engine (04:R122). -/
def mtxNaN (i j : Nat) : Nat := 0x7FC00000 ||| (i * 4096) ||| j

/-- One floating-point group added to a target (04:R130). -/
def fpGroup (ta tb i j : Nat) (as bs : List Nat) (t : Nat) : Nat :=
  match (nanAsF32 (fmtOf ta) as).orElse fun _ => nanAsF32 (fmtOf tb) bs with
  | some x => x
  | none =>
    let ps := (as.zip bs).map fun p => fvMul ((fmtOf ta).read p.1) ((fmtOf tb).read p.2)
    let vs := ps.filterMap id
    if ps.any (·.isNone) || (vs.contains (.inf false) && vs.contains (.inf true)) then mtxNaN i j else
    match f32.read t with
    | .nan s fr => f32.nan s fr
    | a => ((sumRound f32 0 false (vs ++ [a])).map (·.bits)).getD (mtxNaN i j)

/-- The exact sum of the products of an integer group. -/
def intGroup (ta tb : Nat) (as bs : List Nat) : Int := (as.zip bs).foldl (fun a p => a + intOf ta p.1 * intOf tb p.2) 0

/-- One cell of a non-Q4 pass (09:R269), from target `t`. -/
def mmaCell (ta tb i j : Nat) (as bs : List Nat) (t : Nat) : Nat :=
  ((chunks16 (as.length + 1) as).zip (chunks16 (bs.length + 1) bs)).foldl (fun t g =>
    if ta < 2 then ofIntMod 32 (intClamp 4 (asInt 32 t + intGroup ta tb g.1 g.2)) else fpGroup ta tb i j g.1 g.2 t) t

/-- One cell of a Q4 pass: the exact sum, in FP32, or as I32 (09:R270). -/
def q4Cell (int : Bool) (qa qb : Nat) (as bs : List Nat) : Nat :=
  let n := (as.zip bs).foldl (fun (a : Int) p => a + q4Value qa p.1 * q4Value qb p.2) 0
  if int then ofIntMod 32 (n / 64) else (f32.round 0 false (n < 0) n.natAbs (-6) false).bits

/-! ## Accumulators (01:R17) -/

/-- The key of cell (i, j) of the slot that a troupe calls `k`. -/
def LUnit.accKey (u : LUnit) (k i j : Nat) : Nat := (8 * u.cluster + u.acc.getD k 0) * 16384 + 128 * i + j

/-- The slot is assigned to the troupe (16:R380). -/
def LUnit.hasAcc (u : LUnit) (k : Nat) : Bool := k < u.acc.length

/-- Reading some cells (i, j) of a slot consumes the poison of their granules (19:R416). -/
def State.accPoison (s : State) (n : Nat) (u : LUnit) (k : Nat) (reads : Nat → Nat → Bool) : State :=
  let o := u.accKey k 0 0
  if s.poison.any fun p => match p with
    | .accCells x => o ≤ x && x < o + 16384 && (List.range 8).any fun b => reads ((x - o) / 8 * 8 / 128) ((x - o) / 8 * 8 % 128 + b)
    | _ => false then s.consumePoison n else s

/-- Writing some cells (i, j) of a slot clears the marks of the granules that they make up (19:R415). -/
def State.clearAcc (s : State) (u : LUnit) (k : Nat) (writes : Nat → Nat → Bool) : State :=
  let o := u.accKey k 0 0
  { s with poison := s.poison.filter fun p => match p with
    | .accCells x => !(o ≤ x && x < o + 16384 && (List.range 8).all fun b => writes ((x - o) / 8 * 8 / 128) ((x - o) / 8 * 8 % 128 + b))
    | _ => true }

/-- Reading a partial register consumes its poison (19:R416). -/
def State.partPoison (s : State) (n : Nat) (p1 : Bool) : State :=
  if s.poison.any fun p => match p with
    | .partCells u r _ => u = n && decide (r = 1) = p1
    | _ => false then s.consumePoison n else s

/-- Writing a whole partial register clears its marks (19:R415). -/
def State.clearPart (s : State) (n : Nat) (p1 : Bool) : State :=
  { s with poison := s.poison.filter fun p => match p with
    | .partCells u r _ => !(u = n && decide (r = 1) = p1)
    | _ => true }

/-- Passes of a unit that are under way or posted, in program order. -/
def State.unitPasses (s : State) (n : Nat) (u : LUnit) : List Pass :=
  ((s.cluster u.cluster).current.toList ++ (s.cluster u.cluster).table).filter fun p => p.unit = n

/-- A pass into the slot, or into the partial register of a Q4 word, is still to complete. -/
def State.busySlot (s : State) (n : Nat) (u : LUnit) (acc : BitVec 3) : Bool :=
  (s.unitPasses n u).any fun p => p.kind ≠ .mldb && !p.f.q4 && p.f.acc = acc

/-- A Q4 pass into the partial register is still to complete. -/
def State.busyPartial (s : State) (n : Nat) (u : LUnit) (p1 : Bool) : Bool :=
  (s.unitPasses n u).any fun p => p.kind = .mma && p.f.q4 && p.f.p1 = p1

/-- `MZERO`: +0 in every cell of the slot. -/
def execMzero (f : MtxF) (s : State) : Out :=
  onSeq s fun s n u q =>
    let k := f.acc.toNat
    if !u.hasAcc k then seqFail s n q 0x03
    else if s.busySlot n u f.acc then .next s
    else
      let here (x : Nat) : Bool := u.accKey k 0 0 ≤ x && x < u.accKey k 0 0 + 16384
      seqNext ({ s with acc := s.acc.filter fun e => !here e.1 }.clearAcc u k fun _ _ => true) n q

/-! ## Posting (09:R264, R268 to R272; 11:R337) -/

/-- The addresses of the 128 vectors of an operand. -/
def vecAddrs (a d : W64) : List W64 := (List.range 128).map fun v => a + BitVec.ofNat 64 v * d

/-- The pass that a word posts, with every register it reads. -/
def Sequencer.passOf (q : Sequencer) (n : Nat) (kind : PassKind) (f : MtxF) (clock : Nat) : Pass :=
  let y := f.xr.toNat + 1
  { unit := n, kind := kind, f := f, aBase := q.aReg f.ar.toNat, aStep := q.dReg f.ar.toNat, bBase := q.aReg f.br.toNat,
    bStep := q.dReg f.br.toNat, xBase := q.aReg f.xr.toNat, xStep := q.dReg f.xr.toNat, yBase := q.aReg y, yStep := q.dReg y,
    posted := clock, passed := 0, row := 0, differs := false, cols := [], mag := 0, bits := 0, inexact := false, bside := none }

/-- Posts a pass, waiting while the 8 entries of the troupe are in use. -/
def seqPost (s : State) (n : Nat) (u : LUnit) (q : Sequencer) (p : Pass) : Out :=
  if 8 ≤ (s.unitPasses n u).length then .next s else
  let c := s.cluster u.cluster
  seqNext (s.setCluster u.cluster { c with table := c.table ++ [p] }) n q

/-- The B that is held in program order: of the last `MLDB` posted and not complete, or of the register. -/
def State.heldAt (s : State) (n : Nat) (u : LUnit) (q : Sequencer) : Option (BitVec 4 × BitVec 12 × BitVec 2) :=
  match ((s.unitPasses n u).filter fun p => p.kind = .mldb) with
  | p :: r => some (((p :: r).getLastD p).f.tb, ((p :: r).getLastD p).f.k, ((p :: r).getLastD p).f.bsb)
  | [] => q.held.map fun h => (h.tb, h.k, h.bsb)

/-- Operands by vector: addresses with their sizes. -/
def vecRanges (ty k : Nat) (a d : W64) : List (W64 × Nat) := (vecAddrs a d).map fun p => (p, elemBytes ty k)

/-- The scale bytes of an operand. -/
def scaleRanges (a d : W64) : List (W64 × Nat) := (vecAddrs a d).map fun p => (p, 1)

/-- Some vector address is not a multiple of 16. -/
def misVec (a d : W64) : Bool := (vecAddrs a d).any fun p => p.toNat % 16 ≠ 0

/-- `MLDB`. -/
def execMldb (f : MtxF) (s : State) : Out :=
  onSeq s fun s n u q =>
    let p := q.passOf n .mldb f (s.islandClock (4 * u.cluster))
    let tb := f.tyb
    if !(tyF8 tb || tb < 2 || tb = 8 || tb = 9 || tb = 13) || f.k = 0 || (tb = 13 && 128 < f.k.toNat) || misVec p.bBase p.bStep then
      seqFail s n q 0x03
    else match s.operandsCause u (vecRanges tb f.k.toNat p.bBase p.bStep) with
      | some c => seqFail s n q c
      | none => seqPost s n u q p

/-- The form of an `MMA` is accepted (16:R380). -/
def State.mmaOk (s : State) (n : Nat) (u : LUnit) (q : Sequencer) (f : MtxF) : Bool :=
  let p := q.passOf n .mma f 0
  pairOk f.tya f.tyb && f.k ≠ 0 && (f.q4 || u.hasAcc f.acc.toNat) && (!f.q4 || f.k.toNat = f.step) &&
    (!f.hb || (match s.heldAt n u q with
      | some (tb, k, bsb) => tb = f.tb && k = f.k && (!f.q4 || bsb = f.bsb)
      | none => false)) &&
    !misVec p.aBase p.aStep && (f.hb || !misVec p.bBase p.bStep)

/-- The operand addresses of an `MMA`. -/
def Pass.ranges (p : Pass) : List (W64 × Nat) :=
  vecRanges p.f.tya p.f.k.toNat p.aBase p.aStep ++ (if p.f.hb then [] else vecRanges p.f.tyb p.f.k.toNat p.bBase p.bStep) ++
    (if p.f.q4 then scaleRanges p.xBase p.xStep ++ scaleRanges p.yBase p.yStep else [])

/-- `MMA`. -/
def execMma (f : MtxF) (s : State) : Out :=
  onSeq s fun s n u q =>
    let p := q.passOf n .mma f (s.islandClock (4 * u.cluster))
    if !s.mmaOk n u q f then seqFail s n q 0x03
    else match s.operandsCause u p.ranges with
      | some c => seqFail s n q c
      | none => seqPost s n u q p

/-- `MSP`. With K = 0 it adds no product (16:R380 names K = 0 for other words). -/
def execMsp (f : MtxF) (s : State) : Out :=
  onSeq s fun s n u q =>
    let p := q.passOf n .msp f (s.islandClock (4 * u.cluster))
    if !pairOk f.tya f.tyb || f.q4 || f.hb || !u.hasAcc f.acc.toNat || misVec p.aBase p.aStep then seqFail s n q 0x03
    else match s.operandsCause u (vecRanges f.tya f.k.toNat p.aBase p.aStep ++ [(p.xBase, 32)]) with
      | some c => seqFail s n q c
      | none => seqPost s n u q p

/-! ## Passes at work (09:R268 to R272) -/

/-- The nonempty K rows of a compressed B, with the positions of each. -/
def csrRows (ptr : List Nat) : List (Nat × List Nat) :=
  ((List.range (ptr.length - 1)).map fun k =>
    (k, (List.range (ptr.getD (k + 1) 0 - ptr.getD k 0)).map (ptr.getD k 0 + ·))).filter fun r => !r.2.isEmpty

/-- The dense form of the nonempty rows, padded with zero rows to a multiple of 16 (09:R272). -/
def csrSide (ptr idx val : List Nat) : BSide :=
  let rows := csrRows ptr
  let pad := alignUp rows.length 16 - rows.length
  ⟨some (rows.map (·.1) ++ List.replicate pad 4096),
   (List.range 128).map fun j => rows.map (fun r => match r.2.find? fun x => idx.getD x 0 = j with
     | some x => val.getD x 0
     | none => 0) ++ List.replicate pad 0, []⟩

/-- Loads B for a pass: held, dense, or compressed. -/
def State.loadB (s : State) (n : Nat) (p : Pass) : Except SeqStop (State × BSide) :=
  let k := p.f.k.toNat
  let tb := p.f.tyb
  match p.kind with
  | .msp =>
    match s.seqLoad n p.xBase 32 (2 ^ 24) with
    | .error e => .error e
    | .ok (s, d) =>
      let w := leNat d
      match s.seqLoad n (BitVec.ofNat 64 w) (4 * (k + 1)) (2 ^ 24 + 1000) with
      | .error e => .error e
      | .ok (s, ps) =>
        let ptr := elemsOf 5 (k + 1) ps
        let nz := ptr.getD k 0
        match State.seqLoads n (2 ^ 25) [(BitVec.ofNat 64 (w / 2 ^ 64), nz), (BitVec.ofNat 64 (w / 2 ^ 128), elemBytes tb nz)] s with
        | .error e => .error e
        | .ok (s, l) => .ok (s, csrSide ptr (elemsOf 1 nz (l.getD 0 [])) (elemsOf tb nz (l.getD 1 [])))
  | _ =>
    let held := if p.f.hb then ((s.unit? n).bind (·.seqr)).bind (·.held) else none
    let vecs : Except SeqStop (State × List (List Byte)) := match held with
      | some h => .ok (s, h.vecs)
      | none => State.seqLoads n (2 ^ 24) (vecRanges tb k p.bBase p.bStep) s
    match vecs with
    | .error e => .error e
    | .ok (s, vs) =>
      match State.seqLoads n (2 ^ 26) (if p.f.q4 && p.kind = .mma then scaleRanges p.yBase p.yStep else []) s with
      | .error e => .error e
      | .ok (s, sc) => .ok (s, ⟨none, vs.map (elemsOf tb k), sc.map leNat⟩)

/-- The new cells of row `i`, and for an integer pass by how much each differs from the exact increment. -/
def rowCells (f : MtxF) (b : BSide) (i qa : Nat) (as : List Nat) (old : Nat → Nat) : List (Nat × Int) :=
  let as := match b.gather with
    | some g => g.map fun k => as.getD k 0
    | none => as
  (List.range 128).map fun j =>
    let bs := b.cols.getD j []
    if f.q4 then (q4Cell f.int (qa / 64) (b.scales.getD j 0 / 64) as bs, 0) else
    let t := if f.z then 0 else old j
    let x := mmaCell f.tya f.tyb i j as bs t
    (x, if f.ta < 2 then asInt 32 x - asInt 32 t - intGroup f.tya f.tyb as bs else 0)

/-- An element as a number of units of 2^-160; none for a NaN or an infinity. -/
def elemUnits (f : MtxF) (ty qt x : Nat) : Option Int :=
  if f.q4 then some (q4Value qt x * 2 ^ 157) else
  match (fmtOf ty).read x with
  | .fin sg m e => some (if sg then -(m * 2 ^ (e + 160).toNat : Int) else (m * 2 ^ (e + 160).toNat : Int))
  | _ => none

/-- An FP32 cell as a number of units of 2^-320. -/
def cellUnits (x : Nat) : Option Int :=
  match f32.read x with
  | .fin sg m e => some (if sg then -(m * 2 ^ (e + 320).toNat : Int) else (m * 2 ^ (e + 320).toNat : Int))
  | _ => none

/-- What the products of a row of a floating-point pass come to: the pass with their magnitudes, and whether each cell's increment is their
exact sum (09:R276). -/
def Pass.addRow (p : Pass) (b : BSide) (qa : Nat) (as : List Nat) (old new : Nat → Nat) : Pass :=
  let f := p.f
  if f.ta < 2 || (f.q4 && f.int) then p else
  let as := match b.gather with
    | some g => g.map fun k => as.getD k 0
    | none => as
  let us := as.map (elemUnits f f.tya (qa / 64))
  (List.range 128).foldl (fun p j =>
    let ps := (us.zip ((b.cols.getD j []).map (elemUnits f f.tyb (b.scales.getD j 0 / 64)))).map fun x => match x.1, x.2 with
      | some a, some b => some (a * b)
      | _, _ => none
    let vs := ps.filterMap id
    let exact := ps.all (·.isSome) && match cellUnits (old j), cellUnits (new j) with
      | some x, some y => y - x = vs.foldl (· + ·) 0
      | _, _ => false
    { p with
      mag := vs.foldl (fun m v => m + v.natAbs) p.mag
      bits := vs.foldl (fun m v => m ||| v.natAbs) p.bits
      inexact := p.inexact || !exact }) p

/-- Every sum that FP32 arithmetic forms of the increments, or of the products of the checksums, is exact, in whatever order: the products
are multiples of one power of two, not below 2^-149, and their magnitudes together are less than 2^24 of it and than 2^127 (09:R276;
04:R115). -/
def Pass.exact (p : Pass) : Bool :=
  !p.inexact && p.bits % 2 ^ 171 = 0 && p.mag < 2 ^ 447 && p.bits % 2 ^ (if p.mag / 2 ^ 24 = 0 then 0 else Nat.log2 (p.mag / 2 ^ 24) + 1) = 0

/-- Rows formed so far. -/
structure Rows where
  s    : State
  pass : Pass
  stop : Option SeqStop
  deriving DecidableEq, Repr

/-- Stores a row into the slot, or into a partial register. -/
def State.putRow (s : State) (n : Nat) (u : LUnit) (f : MtxF) (i : Nat) (xs : List Nat) : State :=
  if f.q4 then
    match (s.unit? n).bind (·.seqr) with
    | some q =>
      let put (m : NMap W32) : NMap W32 := (xs.mapIdx fun j x => (j, x)).foldl (fun m e => NMap.put m 0 (128 * i + e.1) (BitVec.ofNat 32 e.2)) m
      s.setSeq n (if f.p1 then { q with p1 := put q.p1 } else { q with p0 := put q.p0 })
    | none => s
  else { s with acc := (xs.mapIdx fun j x => (j, x)).foldl (fun m e => NMap.put m 0 (u.accKey f.acc.toNat i e.1) (BitVec.ofNat 32 e.2)) s.acc }

/-- Forms row `i` of a pass. -/
def Rows.row (n : Nat) (u : LUnit) (b : BSide) (r : Rows) (i : Nat) : Rows :=
  if r.stop.isSome then r else
  let p := r.pass
  let f := p.f
  let addr : List (W64 × Nat) := (p.aBase + BitVec.ofNat 64 i * p.aStep, elemBytes f.tya f.k.toNat) ::
    (if f.q4 then [(p.xBase + BitVec.ofNat 64 i * p.xStep, 1)] else [])
  match State.seqLoads n (2 ^ 27 + 2 ^ 20 * i) addr r.s with
  | .error e => { r with stop := some e }
  | .ok (s, l) =>
    let qa := leNat (l.getD 1 [])
    if f.q4 && f.int && (qa / 64 ≠ 0 || b.scales.any fun x => x / 64 ≠ 0) then { r with stop := some (.bad 0x03) } else
    let as := elemsOf f.tya f.k.toNat (l.getD 0 [])
    let old (j : Nat) : Nat := (NMap.get s.acc 0 (u.accKey f.acc.toNat i j)).toNat
    let cells := rowCells f b i qa as old
    let p := p.addRow b qa as (fun j => if f.q4 || f.z then 0 else old j) fun j => (cells.getD j (0, 0)).1
    let cols := (cells.mapIdx fun j x => (j, x.2)).foldl (fun m e => NMap.put m 0 e.1 (NMap.get m 0 e.1 + e.2)) p.cols
    let differs := cells.foldl (fun a x => a + x.2) 0 ≠ 0
    ⟨s.putRow n u f i (cells.map (·.1)),
      { p with row := i + 1, cols := cols, differs := p.differs || differs }, none⟩

/-- The B operand of a pass, which it reads once (09:R264). -/
def State.readB (s : State) (n : Nat) (p : Pass) : Except SeqStop (State × BSide) :=
  match p.bside with
  | some b => .ok (s, b)
  | none => s.loadB n p

/-- Forms the rows of a pass from its first open row to `hi`. -/
def formRows (s : State) (n : Nat) (u : LUnit) (p : Pass) (hi : Nat) : Rows :=
  if hi ≤ p.row then ⟨s, p, none⟩ else
  let s := if p.f.q4 || p.f.z then s else s.accPoison n u p.f.acc.toNat fun i _ => p.row ≤ i
  match s.readB n p with
  | .error e => ⟨s, p, some e⟩
  | .ok (s, b) => ((List.range (hi - p.row)).map (p.row + ·)).foldl (Rows.row n u b) ⟨s, { p with bside := some b }, none⟩

/-- The pass that runs on a cluster. -/
def State.setCurrent (s : State) (c : Nat) (p : Option Pass) : State := s.setCluster c { s.cluster c with current := p }

/-- `%mrow` of a unit. -/
def State.setMrow (s : State) (n row : Nat) : State :=
  match (s.unit? n).bind (·.seqr) with
  | some q => s.setSeq n { q with mrow := row }
  | none => s

/-- A pass stops at an operand: it stays until it need not wait; its entry is withdrawn, and the fault waits for delivery; or the troupe fails
(16:R380, R381). -/
def State.stopPass (s : State) (c n : Nat) (p : Pass) (e : SeqStop) : State :=
  match e, (s.unit? n).bind (·.seqr) with
  | .wait, _ => (s.setCurrent c (some p)).setMrow n p.row
  | .miss, some q => (s.setCurrent c none).setSeq n { q with mrow := p.row, fault := some ⟨some p, p.row, false⟩ }
  | .bad cause, some q => ((s.setCurrent c none).setSeq n { q with done := true }).failUnit n .matrix (.matrix cause)
  | _, none => s.setCurrent c none

/-! ## Grant (11:R337, R343) -/

/-- The effective priority of a sequencer: the greatest of its troupe's teams (02:R63). -/
def State.seqPrio (s : State) (u : LUnit) : Nat :=
  (u.teams.zip (s.effPrios u)).foldl (fun a x => match s.teams[x.1]? with
    | some tm => if tm.state ≠ .exited then max a x.2 else a
    | none => a) 0

/-- The troupe of an entry holds the tokens for a pass (11:R343). -/
def State.passTokens (s : State) (p : Pass) : Bool :=
  match s.unit? p.unit with
  | some u => s.tokensInUse p.unit + 4 ≤ u.power
  | none => false

/-- Does an entry compete: the oldest of its troupe, with the tokens, and nothing of the troupe stopped? -/
def State.competes (s : State) (c : Nat) (p : Pass) : Bool :=
  match s.unit? p.unit with
  | none => false
  | some u =>
    (s.cluster c).table.find? (fun x => x.unit = p.unit) = some p && s.passTokens p && u.goesOn &&
      (match u.seqr with
       | some q => q.fault.isNone
       | none => false) && !s.noPass (s.leaderCore u)

/-- Arbitration priority: the wait counts clocks of the cluster's island. -/
def State.arbPrio (s : State) (c : Nat) (p : Pass) : Nat :=
  min 31 (((s.unit? p.unit).map s.seqPrio).getD 0 + (s.islandClock (4 * c) - p.posted) / 256)

/-- The first entry that is as good as any other: of highest `rank`, and then the oldest. -/
def bestPass (rank : Pass → Nat) (l : List Pass) : Option Pass :=
  l.foldl (fun (b : Option Pass) p => match b with
    | none => some p
    | some x => if rank x < rank p || (rank x = rank p && p.posted < x.posted) then some p else b) none

/-- The entry granted next. -/
def State.granted (s : State) (c : Nat) : Option Pass :=
  let l := (s.cluster c).table.filter (s.competes c)
  match l.filter fun p => 32 ≤ p.passed with
  | [] => bestPass (s.arbPrio c) l
  | due => bestPass (fun _ => 0) due

/-- The grant: the pass starts, and some of its rows are formed at once; how many is free (09:R278). -/
def grantPass (s : State) (c : Nat) : State :=
  if (s.cluster c).current.isSome then s else
  match s.granted c with
  | none => s
  | some p =>
    let cl := s.cluster c
    let rest := (cl.table.erase p).map fun x => if s.passTokens x then { x with passed := x.passed + 1 } else x
    let s := s.setCluster c { cl with table := rest, current := some p }
    match s.unit? p.unit with
    | none => s
    | some u =>
      if p.kind = .mldb then s else
      let r := formRows s p.unit u p (Config.pick (s.draw 1) % 128)
      match r.stop with
      | some e => r.s.stopPass c p.unit r.pass e
      | none => (r.s.setCurrent c (some r.pass)).setMrow p.unit r.pass.row

/-- `RESERVATION_GRANT`. -/
def execReservationGrant (s : State) : Out :=
  match s.turn with
  | .event (.reservationGrant c) => .next (grantPass s c)
  | _ => .next s

/-! ## Completion (09:R276; 19:R420) -/

/-- The pass mismatches its checksums: exactly for integers; for floating point not while every sum is exact, and otherwise by a free value,
the more so the tighter its tolerance (log 22). -/
def State.mismatches (s : State) (n : Nat) (p : Pass) : Bool :=
  if p.f.ta < 2 || (p.f.q4 && p.f.int) then p.differs || p.cols.any fun e => e.2 ≠ 0
  else match (s.unit? n).bind (·.seqr) with
    | some q => q.te ≠ 0 && !p.exact && Config.checksumGap s.tick ≤ q.te.toNat
    | none => false

/-- A mismatch of a cluster is posted; the third within 2^32 clocks quarantines it. -/
def State.reportMismatch (s : State) (c : Nat) : State :=
  let cl := s.cluster c
  let ms := (cl.mismatches.filter fun x => s.clock < x + 2 ^ 32) ++ [s.clock]
  (s.setCluster c { cl with mismatches := ms, quarantined := cl.quarantined || 3 ≤ ms.length }).post (.mismatch c)

/-- MX in `%sticky` of every team of the troupe that has not exited. -/
def State.setMx (s : State) (u : LUnit) : State :=
  { s with teams := s.teams.mapIdx fun i t => if u.teams.contains i && t.state ≠ .exited then { t with sticky := t.sticky ||| 4 } else t }

/-- A pass completes, or stops at an operand. -/
def completePass (s : State) (c : Nat) : State :=
  match (s.cluster c).current with
  | none => s
  | some p =>
    match s.unit? p.unit with
    | none => s.setCurrent c none
    | some u =>
      if s.noPass (s.leaderCore u) then s else
      match p.kind with
      | .mldb =>
        match State.seqLoads p.unit (2 ^ 24) (vecRanges p.f.tyb p.f.k.toNat p.bBase p.bStep) s with
        | .error e => s.stopPass c p.unit p e
        | .ok (s, vs) =>
          match (s.unit? p.unit).bind (·.seqr) with
          | some q => (s.setSeq p.unit { q with held := some ⟨p.f.tb, p.f.k, p.f.bsb, vs⟩, mrow := 0 }).setCurrent c none
          | none => s.setCurrent c none
      | _ =>
        let r := formRows s p.unit u p 128
        match r.stop with
        | some e => r.s.stopPass c p.unit r.pass e
        | none =>
          let s := (r.s.setCurrent c none).setMrow p.unit 0
          let s := if p.f.q4 then s.clearPart p.unit p.f.p1 else s.clearAcc u p.f.acc.toNat fun _ _ => true
          if s.mismatches p.unit r.pass then (s.setMx u).reportMismatch c else s

/-- `MATRIX_PASS_COMPLETE`. -/
def execMatrixPassComplete (s : State) : Out :=
  match s.turn with
  | .event (.matrixPassComplete c) => .next (completePass s c)
  | _ => .next s

/-! ## Scaling (09:R271) -/

/-- A word that is no pass stops at an operand, to go on from `row` when it need not wait, or after the handler. -/
def seqMiss (s : State) (n : Nat) (q : Sequencer) (row : Nat) (e : SeqStop) : Out :=
  match e with
  | .wait => .next (s.setSeq n { q with row := row })
  | .miss => .next (s.setSeq n { q with row := row, fault := some ⟨none, row, false⟩ })
  | .bad c => seqFail s n q c

/-- One cell of `MSCACC`: a NaN in the accumulator stays as it is. -/
def mscaccCell (int : Bool) (i j p ea eb acc : Nat) : Nat :=
  let v := if int then intFv p else f32.read p
  if !v.isNaN && ea ≠ 63 && eb ≠ 63 && (f32.read acc).isNaN then acc else scaledAdd 0 false v acc ea eb (mtxNaN i j)

/-- `MSCACC`: the scale bytes are read first, then every cell is formed. A scale pointer into a window that no operand may name stops it as one
of the words of 16:R380 (DESIGN CHOICE, log 86). -/
def execMscacc (f : MtxF) (s : State) : Out :=
  onSeq s fun s n u q =>
    let k := f.acc.toNat
    let x := f.xr.toNat
    if !u.hasAcc k then seqFail s n q 0x03
    else if s.busySlot n u f.acc || s.busyPartial n u f.p1 then .next s
    else match State.seqLoads n (2 ^ 24) (scaleRanges (q.aReg x) (q.dReg x) ++ scaleRanges (q.aReg (x + 1)) (q.dReg (x + 1))) s with
      | .error e => seqMiss s n q 0 e
      | .ok (s, l) =>
        let sc := l.map leNat
        let p := if f.p1 then q.p1 else q.p0
        let cell (m : NMap W32) (c : Nat) : NMap W32 :=
          let i := c / 128
          let j := c % 128
          NMap.put m 0 (u.accKey k i j) (BitVec.ofNat 32 (mscaccCell f.int i j (NMap.get p 0 c).toNat (sc.getD i 0 % 64)
            (sc.getD (128 + j) 0 % 64) (NMap.get m 0 (u.accKey k i j)).toNat))
        let s := (s.accPoison n u k fun _ _ => true).partPoison n f.p1
        seqNext ({ s with acc := (List.range 16384).foldl cell s.acc }.clearAcc u k fun _ _ => true) n { q with row := 0 }

/-! ## Accumulators and memory (09:R273) -/

/-- The address of row `i`. -/
def rowAddr (q : Sequencer) (f : MtxF) (i : Nat) : W64 := q.aReg f.ar.toNat + BitVec.ofNat 64 i * q.dReg f.ar.toNat

/-- The checks of `MACLD` and `MACST` when they are posted. -/
def State.moveCause (s : State) (u : LUnit) (q : Sequencer) (f : MtxF) (formOk : Bool) : Option Nat :=
  if !u.hasAcc f.acc.toNat || f.k = 0 || 128 < f.k.toNat || !formOk then some 0x03
  else s.operandsCause u ((List.range f.k.toNat).map fun i => (rowAddr q f i, f.colCount * f.cellBytes))

/-- Progress of a move: the state, the next row, why it stopped. -/
structure MoveRows where
  s    : State
  row  : Nat
  stop : Option SeqStop

/-- The copies that the leader core's L1 and its die hold of some lines go, so that a load reads the lines at their homes, together. -/
def State.refreshLines (s : State) (u : LUnit) (pl : List Place) : State :=
  let core := s.leaderCore u
  let named (k : Nat) : Bool := pl.any fun p => p.win = .virt && lineOf p.key = k
  ({ s with l1 := s.l1.filter fun l => !(l.core = core && named l.key && !l.haloed) }).evictReplicas fun r =>
    r.die = dieOfCore core && named r.key

/-- A cell of a row crosses a line, perhaps: both parts are read as one event (10:R314). -/
def State.loadReady (s : State) (u : LUnit) (q : Sequencer) (f : MtxF) (i : Nat) : State :=
  if (rowAddr q f i).toNat % f.cellBytes = 0 then s else
  match s.seqPlaces u .load (rowAddr q f i) (f.colCount * f.cellBytes) with
  | .ok pl => s.refreshLines u pl
  | .error _ => s

/-- Row `i` of `MACLD`. -/
def loadRow (n : Nat) (u : LUnit) (q : Sequencer) (f : MtxF) (r : MoveRows) (i : Nat) : MoveRows :=
  if r.stop.isSome then r else
  match (r.s.loadReady u q f i).seqLoad n (rowAddr q f i) (4 * f.colCount) (2 ^ 24 + 2 ^ 12 * i) with
  | .error e => { r with stop := some e }
  | .ok (s, bs) =>
    let xs := elemsOf 5 f.colCount bs
    let acc := (xs.mapIdx fun j x => (j, x)).foldl (fun m e => NMap.put m 0 (u.accKey f.acc.toNat i e.1) (BitVec.ofNat 32 e.2)) s.acc
    ⟨({ s with acc := acc } : State).clearAcc u f.acc.toNat (fun k j => k = i && j < f.colCount), i + 1, none⟩

/-- The bytes of row `i` of a slot as `MACST` stores them. -/
def State.rowBytes (s : State) (u : LUnit) (f : MtxF) (i : Nat) : List Byte :=
  (List.range f.colCount).flatMap fun j =>
    let x := (NMap.get s.acc 0 (u.accKey f.acc.toNat i j)).toNat
    match f.low2 with
    | 0 => leBytes 4 x
    | 1 => leBytes 2 (convert 9 10 0 false x)
    | _ => leBytes 2 (convert 8 10 0 false x)

/-- Stores one cell of a row. One that crosses a line is two requests, and one event: their common number is that of no other cell
(10:R314). -/
def State.storeCell (s : State) (tg : Tags) (num : Nat) (pl : List Place) (bs : List Byte) : State :=
  match pl with
  | [p, q] => (s.storeMem tg none p (lineBytes p.key (bs.take p.len)) num []).storeMem tg none q (lineBytes q.key (bs.drop p.len)) num
      [lineOf p.key]
  | _ => s.storePlaces tg none [] pl bs

/-- Stores the bytes of row `i`: one request for each line; where cells may cross lines, cell by cell. -/
def State.storeCells (s : State) (n : Nat) (u : LUnit) (f : MtxF) (i : Nat) (a : W64) (pl : List Place) (bs : List Byte) : State :=
  let tg := s.seqTags n u
  let w := f.cellBytes
  if a.toNat % w = 0 then (splitParts pl bs).foldl (fun s x => s.storePlace tg none [] x.1 x.2) s else
  (List.range f.colCount).foldl (fun s j =>
    match s.seqPlaces u .store (a + BitVec.ofNat 64 (j * w)) w with
    | .ok pl => s.storeCell tg (128 * i + j + 1) pl ((bs.drop (j * w)).take w)
    | .error _ => s) s

/-- Row `i` of `MACST`. -/
def storeRow (n : Nat) (u : LUnit) (q : Sequencer) (f : MtxF) (r : MoveRows) (i : Nat) : MoveRows :=
  if r.stop.isSome then r else
  match r.s.seqPlaces u .store (rowAddr q f i) (f.colCount * f.cellBytes) with
  | .error e => { r with stop := some e }
  | .ok pl =>
    if pl.any (r.s.ceTileWaits (r.s.seqTags n u)) then { r with stop := some .wait } else
    ⟨r.s.storeCells n u f i (rowAddr q f i) pl (r.s.rowBytes u f i), i + 1, none⟩

/-- A move of rows of a slot, from the row at which it stopped before. -/
def moveWord (s : State) (n : Nat) (q : Sequencer) (f : MtxF) (step : MoveRows → Nat → MoveRows) : Out :=
  let r := ((List.range (f.k.toNat - q.row)).map (q.row + ·)).foldl step ⟨s, q.row, none⟩
  match r.stop with
  | some e => seqMiss r.s n q r.row e
  | none => seqNext r.s n { q with row := 0 }

/-- `MACLD`. -/
def execMacld (f : MtxF) (s : State) : Out :=
  onSeq s fun s n u q =>
    match s.moveCause u q f (f.low2 = 0) with
    | some c => seqFail s n q c
    | none =>
      if s.busySlot n u f.acc then .next s else
      moveWord s n q f (loadRow n u q f)

/-- `MACST`. -/
def execMacst (f : MtxF) (s : State) : Out :=
  onSeq s fun s n u q =>
    match s.moveCause u q f (f.low2 ≠ 3) with
    | some c => seqFail s n q c
    | none =>
      if s.busySlot n u f.acc || !s.mayStore (dieOfCore (s.leaderCore u)) (2 * f.k.toNat * f.colCount) then .next s else
      moveWord (s.accPoison n u f.acc.toNat fun i j => q.row ≤ i && i < f.k.toNat && j < f.colCount) n q f (storeRow n u q f)

/-! ## Barriers and the end (09:R274, R277) -/

/-- Every earlier pass has completed, and every store has been performed at troupe scope, with the steps of 03:R97. -/
def State.seqSettled (s : State) (n : Nat) (u : LUnit) : Bool :=
  (s.unitPasses n u).isEmpty && s.released (mtxTeam n) (s.leaderCore u) 1

/-- `k` once everything of the sequencer has completed; what it stored into tiles of its core is written back first. -/
def seqSettle (s : State) (n : Nat) (u : LUnit) (k : Out) : Out :=
  if s.dirtyTiles (s.leaderCore u) then .next (s.releaseTiles (s.seqTags n u) (s.leaderCore u))
  else if s.seqSettled n u then k else .next s

/-- The sequencer has arrived in the current phase. -/
def LUnit.seqArrived (u : LUnit) (b : Nat) : Bool := (u.bar b).arrived.getLsbD 16

/-- The sequencer arrives as member 16; the arrival completes the phase if every member has arrived (06:R185; 08:R248). -/
def State.seqArrive (s : State) (n : Nat) (u : LUnit) (b : Nat) : State :=
  (s.setUnit n { u with bars := NMap.insert u.bars b { u.bar b with arrived := (u.bar b).arrived ||| BitVec.ofNat 17 (2 ^ 16) } }).testBarrier n b true

/-- The wait of `MBAR`: blocked while the phase of its arrival is open; afterwards an acquire at troupe scope. The program counter stands
after the word already. -/
def seqWait (s : State) (n b : Nat) (q : Sequencer) : Out :=
  match s.unit? n with
  | none => .next s
  | some u =>
    .next (s.setSeq n { q.advance with acquires := true, wait := if u.seqArrived b then some (b, (u.bar b).phase) else none })

/-- An arrival in a phase in which it has arrived already: the sequencer is held before the word until the phase completes (08:R248). -/
def seqHeld (s : State) (n b : Nat) (u : LUnit) (q : Sequencer) : Out :=
  .next (s.setSeq n { q with acquires := true, wait := some (b, (u.bar b).phase) })

/-- `MBAR`. -/
def execMbar (f : MtxF) (s : State) : Out :=
  onSeq s fun s n u q =>
    let b := f.bar.toNat
    let u := { u with seqr := some q }
    match f.low2 with
    | 3 => seqFail s n q 0x03
    | 2 => seqWait s n b q
    | m =>
      seqSettle s n u <|
        if u.seqArrived b then seqHeld s n b u q
        else if m = 1 then .next ((s.setSeq n q.advance).seqArrive n { u with seqr := some q.advance } b)
        else seqWait (s.seqArrive n u b) n b q

/-- `MEND`: the sequencer stops and leaves the barriers. -/
def execMend (_ : MtxF) (s : State) : Out :=
  onSeq s fun s n u q =>
    seqSettle s n u (.next ((s.setSeq n { q with done := true, held := none }).testBarriers n))

/-! ## The register image (09:R263) -/

/-- Loads the registers that are still to come, from the one at which a fault stopped the load. An image pointer into a window that no operand
may name fails the troupe as one of the words of 16:R380 (DESIGN CHOICE, log 86). -/
def loadImage (s : State) (n : Nat) (u : LUnit) (q : Sequencer) : Out :=
  let r := ((List.range (32 - q.row)).map (q.row + ·)).foldl (fun (r : State × Sequencer × Nat × Option SeqStop) k =>
    if r.2.2.2.isSome then r else
    match r.1.seqLoad n (u.launch.arg + BitVec.ofNat 64 (8 * k)) 8 (2 ^ 24 + 2 ^ 8 * k) with
    | .error e => (r.1, r.2.1, k, some e)
    | .ok (s, bs) =>
      let x : W64 := BitVec.ofNat 64 (leNat bs)
      (s, (if k < 16 then { r.2.1 with a := NMap.put r.2.1.a 0 k x } else { r.2.1 with d := NMap.put r.2.1.d 0 (k - 16) x }), k + 1, none))
    (s, q, q.row, none)
  match r.2.2.2 with
  | some e => seqMiss r.1 n r.2.1 r.2.2.1 e
  | none => .next (r.1.setSeq n { r.2.1 with row := 0, loaded := true })

/-! ## Delivery of an operand fault (16:R381) -/

/-- The fault goes to the lowest-numbered team that has not exited; when none is left, the stopped pass is abandoned. -/
def deliverMatrix (s : State) (n : Nat) : Out :=
  match s.unit? n with
  | none => .next s
  | some u =>
    match u.seqr with
    | none => .next s
    | some q =>
      match q.fault with
      | none => .next s
      | some f =>
        if f.delivered then .next s else
        match s.firstTeam u with
        | none => .next (s.abandonPass n)
        | some t =>
          ((s.setSeq n { q with fault := some { f with delivered := true } }).deliver t 0x30 q.pc (BitVec.ofNat 64 q.mrow) none).getD (.next s)

/-- `MATRIX_FAULT_DELIVERY`. -/
def execMatrixFaultDelivery (s : State) : Out :=
  match s.turn with
  | .event (.matrixFaultDelivery n) => deliverMatrix s n
  | _ => .next s

end Sys2Proof.Machine
end

