-- ==== Sys2Proof/Machine/Task.lean ====
section
/-!
DEFINITION. The commands of the task unit: spawns, successor counters, futures, quorum joins (09:R290 to R300; 15:R362 to R364;
17:R403, R404, R411).
-/
namespace Sys2Proof.Machine

/-- A task-unit command. -/
def onTask (s : State) (i : Instr) (f : SX) (k : Nat → Team → Out) : Out := onSx s i f 3 false k

/-! ## Spawns (09:R290) -/

/-- The `%troupe` value of an entry (02:R43). -/
def troupeOf (queue : Nat) (seq : BitVec 22) : W64 := BitVec.ofNat 64 (queue % 1024 * 2 ^ 22 + seq.toNat)

/-- A spawn into an SX20 queue whose last segment is full: the team is suspended, and the Prompter told (12:R358). -/
def suspendSpawn (s : State) (t : Nat) (tm : Team) (f : SX) (n : Nat) (q : Queue) (e : NewEntry) : Out :=
  let s := (s.setQueue n { q with held := [q.entryOf e 0], next := q.next + 1, suspended := some t }).post (.segmentOverflow n)
  s.nextTeam t { tm.undue with
    state := if tm.state = .trapped then .trapped else .blocked, wait := some (.spawn n), since := s.clock,
    reply := if f.r then some (f.d, troupeOf n q.next) else none }

/-- A spawn of an entry of a kind: 1 task record, 2 cast list. The team's earlier scalar stores stand before it (09:R290, R282). -/
def spawnWord (s : State) (i : Instr) (f : SX) (fn kind : Nat) : Out :=
  onTask s i f fun t tm =>
    let n := (tm.rd f.b).toNat % 1024
    match NMap.find? s.queues n with
    | none => sxRefuse s t tm f 0x21 fn 1
    | some q =>
      if q.slot ≠ tm.slot then sxRefuse s t tm f 0x21 fn 1
      else if !q.held.isEmpty then sxWaits s t tm
      else if !s.ceOrdered t || !s.entryReady (dieOfCore tm.core) q then sxHold s t tm f
      else
        let e : NewEntry := ⟨tm.rd f.a, BitVec.ofNat 64 kind, s.vc (dieOfCore tm.core)⟩
        match s.append q e with
        | .done s' q' => sxDone (s'.putQueue n q q') t f (troupeOf n q.next)
        | .unmapped va => sxMemTrap s t tm (BitVec.ofNat 64 va) ⟨0x10, va⟩
        | .ventFull => sxRefuse s t tm f 0x22 fn 1
        | .overflow => suspendSpawn s t tm f n q e

/-- `TK.SPAWN`. -/
def execTkSpawn (f : SX) (s : State) : Out := spawnWord s (.tkSpawn f) f 0x00 1
/-- `TK.CAST`. -/
def execTkCast (f : SX) (s : State) : Out := spawnWord s (.tkCast f) f 0x01 2

/-! ## Successor counters (09:R292) -/

/-- A counter command up to its effect: window, alignment, translation, then the wait until it may take effect. -/
def counterWord (s : State) (i : Instr) (f : SX) (fn : Nat) (rel : Bool) (k : Nat → Team → List Place → Out) : Out :=
  onTask s i f fun t tm =>
    let p := tm.rd f.a
    match globalCause p with
    | some c => sxMemTrap s t tm p ⟨c, 0⟩
    | none =>
      if p.toNat % 16 ≠ 0 then sxRefuse s t tm f 0x21 fn 2 else
      match s.engineCheck tm p 16 16 true with
      | .error m => sxMemTrap s t tm p m
      | .ok pl =>
        let go (s : State) : Out :=
          if s.dropOvertakes tm pl then sxDone (s.countDrop tm.slot 1) t f 0
          else if s.wordReady t tm pl then k t tm pl else sxHold s t tm f
        if rel then sxRelease s t tm f go else go s

/-- `SC.INIT`: writes the count; the other fields are left. -/
def execScInit (f : SX) (s : State) : Out :=
  counterWord s (.scInit f) f 0x02 false fun t tm pl =>
    let n := (tm.rd f.b).toNat % 2 ^ 32
    sxDone (s.wordEvent (s.tagsOf t tm) (some (dieOfCore tm.core)) pl fun w => some (w / 2 ^ 32 * 2 ^ 32 + n)).1 t f 0

/-- `SC.DEC`: a release at device scope, then the subtraction as one event. -/
def execScDec (f : SX) (s : State) : Out :=
  counterWord s (.scDec f) f 0x03 true fun t tm pl =>
    let n := (tm.rd f.b).toNat % 2 ^ 32
    if s.readPlaces pl % 2 ^ 32 < n then sxRefuse s t tm f 0x21 0x03 3 else
    let r := s.subtract (s.tagsOf t tm) (some (dieOfCore tm.core)) pl n
    sxDone r.1 t f (BitVec.ofNat 64 r.2)

/-! ## Futures (09:R293 to R295) -/

/-- A refused future command (17:R403). -/
def futRefuse (s : State) (t : Nat) (tm : Team) (f : SX) (fn code w v : Nat) : Out :=
  scalarTrap s t tm (.plain 0x20 tm.pc (BitVec.ofNat 64 w)
    (BitVec.ofNat 64 (v % 2 ^ 48 + code * 2 ^ 48 + fn * 2 ^ 56 + (if f.r then 0 else 2 ^ 63))))

/-- A future command up to its effect; `k` gets the places and the word as it stands. -/
def futWordOp (s : State) (i : Instr) (f : SX) (writes rel : Bool) (k : Nat → Team → List Place → Nat → Out) : Out :=
  onTask s i f fun t tm =>
    let p := tm.rd f.a
    match s.engineCheck tm p 8 8 writes with
    | .error m => sxMemTrap s t tm p m
    | .ok pl =>
      let go (s : State) : Out :=
        if s.dropOvertakes tm pl then sxDone (s.countDrop tm.slot 1) t f 0
        else if s.wordReady t tm pl && s.actionReady [dieOfCore tm.core] tm.slot p true then k t tm pl (s.readPlaces pl) else sxHold s t tm f
      if rel then sxRelease s t tm f go else go s

/-- `FUT.AWAIT`: registers a counter, or decrements it at once. -/
def execFutAwait (f : SX) (s : State) : Out :=
  futWordOp s (.futAwait f) f true false fun t tm pl w =>
    let c := tm.rd f.b
    if futState w = 1 then futRefuse s t tm f 0x08 2 w c.toNat
    else if 2 ^ 48 ≤ c.toNat ∨ c.toNat % 16 ≠ 0 then futRefuse s t tm f 0x08 3 w c.toNat
    else
      let tg := s.tagsOf t tm
      if futState w = 0 then
        sxDone (s.wordEvent tg (some (dieOfCore tm.core)) pl fun w => some (futWord w 1 c.toNat)).1 t f (BitVec.ofNat 64 w)
      else if s.actionReady [dieOfCore tm.core] tm.slot c false then
        sxDone ((s.eventPlaces tg (some (dieOfCore tm.core)) none pl).hwDecrement { tg with hyp := 0 } c) t f (BitVec.ofNat 64 w)
      else sxHold s t tm f

/-- A resolve or fail by a team: a registered counter is decremented, if the event takes effect. -/
def settleFuture (s : State) (i : Instr) (f : SX) (fn st : Nat) : Out :=
  futWordOp s i f true true fun t tm pl w =>
    let v := (tm.rd f.b).toNat % 2 ^ 48
    if 2 ≤ futState w then futRefuse s t tm f fn 1 w v else
    let tg := s.tagsOf t tm
    let s' := (s.wordEvent tg (some (dieOfCore tm.core)) pl fun w => some (futWord w st v)).1
    sxDone (if futState w = 1 ∧ s.wordTakes tg pl then s'.hwDecrement { tg with hyp := 0 } (BitVec.ofNat 64 (futVal w)) else s') t f
      (BitVec.ofNat 64 w)

/-- `FUT.RESOLVE`. -/
def execFutResolve (f : SX) (s : State) : Out := settleFuture s (.futResolve f) f 0x09 2
/-- `FUT.FAIL`. -/
def execFutFail (f : SX) (s : State) : Out := settleFuture s (.futFail f) f 0x0A 3

/-- `FUT.READ`: an acquire at device scope. -/
def execFutRead (f : SX) (s : State) : Out :=
  futWordOp s (.futRead f) f false false fun t tm pl w =>
    let seen := joinStamp tm.seen (s.stampOf pl)
    if !s.mayAcquire { tm with seen := seen } 4 then sxHold s t tm f else
    let s := (s.wordEvent (s.tagsOf t tm) (some (dieOfCore tm.core)) pl fun _ => none).1
    sxDone ((s.setTeam t { tm with seen := seen }).acquire t 4) t f (BitVec.ofNat 64 w)

/-! ## Quorum joins (09:R296 to R300) -/

/-- A field of a record read as one number. -/
def bitsAt (w lo len : Nat) : Nat := w / 2 ^ lo % 2 ^ len

/-- The record with a field replaced. -/
def setBits (w lo len v : Nat) : Nat := w - bitsAt w lo len * 2 ^ lo + v % 2 ^ len * 2 ^ lo

/-- A join command up to its effect; `k` gets the places and the 64 bytes of the record. -/
def joinWord (s : State) (i : Instr) (f : SX) (writes rel : Bool) (k : Nat → Team → List Place → Nat → Out) : Out :=
  onTask s i f fun t tm =>
    let p := tm.rd f.a
    match s.engineCheck tm p 64 1 writes with
    | .error m => sxMemTrap s t tm p m
    | .ok pl =>
      let go (s : State) : Out :=
        if s.dropOvertakes tm pl then sxDone (s.countDrop tm.slot 1) t f 0
        else if s.wordReady t tm pl then k t tm pl (s.readPlaces pl) else sxHold s t tm f
      if rel then sxRelease s t tm f go else go s

/-- `QJ.INIT`: forks a child of H for each contributor and clears the counts. -/
def execQjInit (f : SX) (s : State) : Out :=
  joinWord s (.qjInit f) f true false fun t tm pl w =>
    let n := bitsAt w 8 8
    let q := bitsAt w 16 8
    let h := bitsAt w 448 8
    let c := s.ctx tm.slot
    if n = 0 ∨ 64 < n ∨ q = 0 ∨ n < q ∨ bitsAt w 24 2 = 3 ∨ (c.hyp h).state ≠ .opened then sxRefuse s t tm f 0x21 0x10 4
    else if bitsAt w 26 1 = 0 ∧ 0 < bitsAt w 0 8 then sxRefuse s t tm f 0x21 0x10 5
    else match c.freeRun n with
      | none => sxRefuse s t tm f 0x21 0x10 8
      | some x =>
        if hypDepth < (c.hyp h).depth + 1 then sxRefuse s t tm f 0x21 0x10 9 else
        let s := s.setCtx tm.slot (c.fork x n h)
        let clear (w : Nat) : Nat := setBits (setBits (setBits (setBits (setBits w 0 8 0) 26 2 0) 64 64 0) 160 32 0) 456 8 x
        sxDone (s.wordEvent (s.tagsOf t tm) (some (dieOfCore tm.core)) pl fun w => some (clear w)).1 t f (BitVec.ofNat 64 x)

/-- Reads an FP32 element under a hypothesis; none where its address cannot be used (09:R300). -/
def State.fillRead (s : State) (tg : Tags) (p : W64) : Option Nat :=
  (s.hwPlaces tg.slot p 4 1 false).map fun pl =>
    if pl.any (·.remote) then s.readPlaces pl else
    leNat (pl.flatMap fun x => s.homeBytes tg.slot (s.actingOf tg x.key) x.key x.len)

/-- Writes an FP32 element under a hypothesis, as an ordinary store performed at its home. -/
def State.fillWrite (s : State) (tg : Tags) (p : W64) (v : Nat) : Option State :=
  (s.hwPlaces tg.slot p 4 1 true).map fun pl =>
    if pl.any (·.remote) then s.eventPlaces tg none (some (leBytes 4 v)) pl else
    (pl.foldl (fun (r : State × List Byte) x =>
      let (s, stamp) := r.1.issueStamp x.home
      (s.performStore ⟨s.withArena tg x.arena, x.home, x.home, lineOf x.key, lineBytes x.key (r.2.take x.len), stamp, none, false, 0, 0, s.draw 0, [],
        false, false, none⟩, r.2.drop x.len)) (s, leBytes 4 v)).1

/-- Progress of a fill: the state, and the address at which it stopped. -/
structure Fill where
  s    : State
  stop : Option W64

/-- One read or write of a fill, unless it has stopped. -/
def Fill.put (r : Fill) (tg : Tags) (p : W64) (v : Nat) : Fill :=
  match r.stop with
  | some _ => r
  | none => match r.s.fillWrite tg p v with
    | some s => ⟨s, none⟩
    | none => ⟨r.s, some p⟩

/-- The addresses of element `e` of some slots. -/
def slotAddr (w e i : Nat) : W64 := BitVec.ofNat 64 (bitsAt w 192 64 + 4 * (bitsAt w 312 8 + 1) * i + 4 * e)

/-- Element `e` of the rescale rule: the arrived slots are added in ascending index, and the sum scaled. An origin NaN that arises here carries
lane 0 and index 0 (DESIGN CHOICE, log 85). -/
def Fill.rescale (r : Fill) (tg : Tags) (w : Nat) (arrived : List Nat) (e : Nat) : Fill :=
  match r.stop with
  | some _ => r
  | none =>
    let sum := arrived.foldl (fun (a : Except W64 (Option Nat)) i =>
      match a with
      | .error p => .error p
      | .ok acc => match r.s.fillRead tg (slotAddr w e i) with
        | none => .error (slotAddr w e i)
        | some x => .ok (some (match acc with
          | none => x
          | some y => (fpAdd f32 0 false 0 0 false y x).bits))) (.ok none)
    match sum with
    | .error p => ⟨r.s, some p⟩
    | .ok acc =>
      let k := (fpDiv f32 0 false 0 0 (bitsAt w 128 32) (bitsAt w 160 32)).bits
      r.put tg (BitVec.ofNat 64 (bitsAt w 256 56 + 4 * e)) (fpMul f32 0 false 0 0 (acc.getD 0) k).bits

/-- Element `e` of the substitute rule: each straggler's slot takes the substitute's. -/
def Fill.substitute (r : Fill) (tg : Tags) (w : Nat) (late : List Nat) (e : Nat) : Fill :=
  late.foldl (fun r i =>
    match r.stop with
    | some _ => r
    | none =>
      let p : W64 := BitVec.ofNat 64 (bitsAt w 320 64 + 4 * e)
      match r.s.fillRead tg p with
      | some x => r.put tg (slotAddr w e i) x
      | none => ⟨r.s, some p⟩) r

/-- The fill rule of a join (09:R300). -/
def State.fillJoin (s : State) (tg : Tags) (w : Nat) : Fill :=
  let n := bitsAt w 8 8
  let yes (i : Nat) : Bool := bitsAt w (64 + i) 1 = 1
  let es := List.range (bitsAt w 312 8 + 1)
  match bitsAt w 24 2 with
  | 1 => es.foldl (fun r e => r.rescale tg w ((List.range n).filter yes) e) ⟨s, none⟩
  | 2 => es.foldl (fun r e => r.substitute tg w ((List.range n).filter fun i => !yes i) e) ⟨s, none⟩
  | _ => ⟨s, none⟩

/-- A join begins its release: the resolve over the ids still open, which retracts the stragglers' stores and marks their teams
(09:R299; 15:R364). The steps after it follow in their own time. -/
def State.releaseJoin (s : State) (tg : Tags) (addr w : Nat) : State :=
  let f := bitsAt w 456 8
  let c := s.ctx tg.slot
  let opened := (List.range (bitsAt w 8 8)).filter fun i => (c.hyp (f + i)).state = .opened
  let yes (i : Nat) : Bool := bitsAt w (64 + i) 1 = 1
  let id := 2 ^ 37 + s.tick
  let s := s.beginResolve tg.slot id ((opened.filter yes).map (f + ·)) ((opened.filter fun i => !yes i).map (f + ·))
  { s with joins := s.joins ++ [⟨id, { tg with hyp := 0, team := id, phys := false }, addr, w, 1⟩] }

/-- Step 3 of a release: the fill under H; a fill that stops is noted in the record and in the failure record (09:R300). -/
def State.joinFills (s : State) (j : JoinRelease) : State :=
  let r := s.fillJoin { j.tags with hyp := bitsAt j.word 448 8 } j.word
  match r.stop with
  | some p =>
    let s := match r.s.hwPlaces j.tags.slot (BitVec.ofNat 64 j.addr) 64 1 true with
      | some pl => (r.s.wordEvent j.tags none pl fun w => some (setBits w 27 1 1)).1
      | none => r.s
    s.recordDrop j.tags 0x0531 p.toNat 0
  | none => r.s

/-- At most as many stores as a fill makes: 64 slots of 256 elements, and the note of a stop. -/
def fillStores : Nat := 2 ^ 15

/-- The next step of a release, when the one before it is complete: the fill once every unit has applied the resolve; the decrement once the
fill's writes are performed at device scope. -/
def State.joinStep (s : State) (j : JoinRelease) : State :=
  let set (s : State) (l : List JoinRelease) : State := { s with joins := l }
  let c := s.ctx j.tags.slot
  if j.step = 1 then
    if !c.resolveOver j.id || !s.hwRoom fillStores then s else
    let s := s.setResolves j.tags.slot (c.resolves.filter fun r => r.team ≠ j.id)
    set (s.joinFills j) (s.joins.map fun x => if x.id = j.id then { x with step := 4 } else x)
  else
    let p : W64 := BitVec.ofNat 64 (bitsAt j.word 384 64)
    if !s.performed j.id 4 || !s.actionReady [] j.tags.slot p false then s else
    set (s.hwDecrement j.tags p) (s.joins.filter fun x => x.id ≠ j.id)

/-- Joins that release go on, each in its own time: a free choice at every step (log 76). -/
def State.joinsGoOn (s : State) : State :=
  s.joins.foldl (fun s j => if Config.stays (s.draw (61000 + j.id % 1000)) then s else s.joinStep j) s

/-- Resolves that no team and no join waits for any more, and that every unit has applied, are forgotten. -/
def State.forgetResolves (s : State) : State :=
  let waits (id : Nat) : Bool := (s.joins.any fun j => j.id = id) || match s.teams[id]? with
    | some tm => tm.state ≠ .exited
    | none => false
  if s.contexts.all fun c => c.2.resolves.isEmpty then s else
  { s with contexts := List.map (fun c : Nat × Context =>
      (c.1, { c.2 with resolves := c.2.resolves.filter fun r => r.pending ≠ [] || waits r.team })) s.contexts }

/-- The record after an arrival that counts. -/
def arriveJoin (w i wt : Nat) : Nat :=
  let a := bitsAt w 0 8 + 1
  let wa := (fpAdd f32 0 false 0 0 false (bitsAt w 160 32) wt).bits
  setBits (setBits (setBits (setBits w (64 + i) 1 1) 0 8 a) 160 32 wa) 26 1 (if a = bitsAt w 16 8 then 1 else 0)

/-- `QJ.ARRIVE`: a release at device scope, then the arrival; the one that makes the quorum releases the join. An arrival that does not take
effect at the home leaves the record as it is, and releases nothing. -/
def execQjArrive (f : SX) (s : State) : Out :=
  joinWord s (.qjArrive f) f true true fun t tm pl w =>
    let b := tm.rd f.b
    let i := fld b 5 0
    if bitsAt w 8 8 ≤ i then sxRefuse s t tm f 0x21 0x11 6
    else if bitsAt w (64 + i) 1 = 1 ∧ bitsAt w 26 1 = 0 then sxRefuse s t tm f 0x21 0x11 7
    else if bitsAt w 26 1 = 1 then
      sxDone (s.wordEvent (s.tagsOf t tm) (some (dieOfCore tm.core)) pl fun _ => none).1 t f (BitVec.ofNat 64 (bitsAt w 0 8 + 2 ^ 9))
    else
      let w' := arriveJoin w i (fld b 63 32)
      let tg := s.tagsOf t tm
      let takes := s.wordTakes tg pl
      let done := takes ∧ bitsAt w' 26 1 = 1
      let s := (s.wordEvent tg (some (dieOfCore tm.core)) pl fun _ => some w').1
      sxDone (if done then s.releaseJoin tg (tm.rd f.a).toNat w' else s) t f
        (BitVec.ofNat 64 (bitsAt (if takes then w' else w) 0 8 + (if done then 2 ^ 8 else 0)))

/-- `QJ.STAT`: the quadword at offset 0. -/
def execQjStat (f : SX) (s : State) : Out :=
  joinWord s (.qjStat f) f false false fun t tm pl w =>
    sxDone (s.wordEvent (s.tagsOf t tm) (some (dieOfCore tm.core)) pl fun _ => none).1 t f (BitVec.ofNat 64 (w % 2 ^ 64))

end Sys2Proof.Machine
end

