-- ==== Sys2Proof/Machine/Queue.lean ====
section
/-!
DEFINITION. The commands of engine 6: queues, contexts, pages, power (09:R301 to R304; 03:R106 to R111; 11:R331; 16:R383; 17:R396,
R408, R409).
-/
namespace Sys2Proof.Machine

/-! ## Issuers -/

/-- The partition on whose resources the supervisor commands of a team act: none for the Stage Manager, which acts on any (12:R346). -/
def State.issuer (s : State) (tm : Team) : Option (Nat × Partition) :=
  match tm.ctrl with
  | some _ => tm.part.bind fun p => (NMap.find? s.parts p).map fun x => (p, x)
  | none => s.partOf tm.slot

/-- Is the issuer a partition, and not the Stage Manager? -/
def Team.ofPartition (tm : Team) : Bool := tm.ctrl.isNone || tm.part.isSome

/-- A resource is the issuer's to act on. -/
def State.owns (s : State) (tm : Team) (ok : Partition → Bool) : Bool :=
  !tm.ofPartition || (match s.issuer tm with
    | some (_, p) => ok p
    | none => false)

/-- A refused command of engine 6 changes nothing and replies all ones (16:R383). -/
def refuse6 (s : State) (t : Nat) (f : SX) : Out := sxDone s t f allOnes

/-- A command whose object another die holds is forwarded there, over a link (01:R21). Which die holds what is the model's choice where the
manual does not say: a context's pages and state its home die, an island's budget its own die, a queue's state the issuing die
(DESIGN CHOICE, log 87). -/
def sysOn (s : State) (t : Nat) (tm : Team) (f : SX) (d : Nat) (k : Out) : Out := if s.reaches (dieOfCore tm.core) d then k else sxHold s t tm f

/-! ## Queues (09:R301) -/

/-- A queue command, which acts on queues of the issuing context. -/
def onQ (s : State) (i : Instr) (f : SX) (k : Nat → Team → Out) : Out := onSx s i f 6 false k

/-- A command that names a queue of the issuing context. -/
def onOwnQ (s : State) (i : Instr) (f : SX) (k : Nat → Team → Nat → Queue → Out) : Out :=
  onQ s i f fun t tm =>
    let n := fld (tm.rd f.a) 9 0
    match NMap.find? s.queues n with
    | none => refuse6 s t f
    | some q => if q.slot ≠ tm.slot then refuse6 s t f else k t tm n q

/-- The queue that a descriptor, as a number of 256 bits, describes. -/
def queueOfDesc (slot w : Nat) : Queue where
  slot := slot
  ring := BitVec.ofNat 64 w
  log2 := w / 2 ^ 64 % 32
  sx20 := w / 2 ^ 69 % 2 = 1
  prio := w / 2 ^ 70 % 32
  ventBase := BitVec.ofNat 64 (w / 2 ^ 128)
  ventSize := w / 2 ^ 192 % 2 ^ 32
  enabled := true
  shares := [0, 0, 0]
  entries := []
  vent := []
  ventNext := 0
  held := []
  next := 0
  headSince := 0
  shortSince := []
  told := []
  served := []
  tailSeg := BitVec.ofNat 64 w
  tailIdx := 0
  headSeg := BitVec.ofNat 64 w
  headIdx := 0
  suspended := none

/-- The conditions of 16:R383 on a queue descriptor; log2 entries and the vent area are ignored in the SX20 format (12:R358). -/
def queueDescOk (w : Nat) : Bool :=
  let q := queueOfDesc 0 w
  q.ring.toNat % 64 = 0 && q.prio ≤ 23 && w / 2 ^ 75 % 2 ^ 53 = 0 && w / 2 ^ 224 % 2 ^ 32 = 0 &&
    (q.sx20 || (4 ≤ q.log2 && q.log2 ≤ 20 && q.ventBase.toNat % 64 = 0))

/-- The bytes of a descriptor at an aligned global pointer; none when they cannot be read. -/
def State.descAt (s : State) (tm : Team) (p : W64) (n align : Nat) : Option Nat :=
  if p.toNat % align ≠ 0 then none else
  match s.readGlobal tm p n with
  | .ok bs => some (leNat bs)
  | .error _ => none

/-- Queue numbers that a context may take: its partition's. -/
def State.queueNumbers (s : State) (slot : Nat) : List Nat :=
  match s.partOf slot with
  | some (_, p) => p.queues
  | none => []

/-- `Q.CREATE`: takes the lowest number of the partition that no queue holds, and zeroes its failure record (19:R421). -/
def execQCreate (f : SX) (s : State) : Out :=
  onQ s (.qCreate f) f fun t tm =>
    match s.descAt tm (tm.rd f.a) 32 8 with
    | none => refuse6 s t f
    | some w =>
      if !queueDescOk w || 1024 ≤ s.queues.length || 64 ≤ (s.queues.filter fun q => q.2.slot = tm.slot).length then refuse6 s t f else
      match firstFrom (fun n => (s.queueNumbers tm.slot).contains n && (NMap.find? s.queues n).isNone) 1024 0 with
      | none => refuse6 s t f
      | some n =>
        let s := s.setQueue n { queueOfDesc tm.slot w with headSince := s.clock }
        let s := match s.partOfQueue n with
          | some (_, p) => s.pokeRecord (p.failBase + 2048 * n) (List.replicate 64 0)
          | none => s
        sxDone s t f (BitVec.ofNat 64 n)

/-- A queue holds no entry. -/
def Queue.empty (q : Queue) : Bool := q.entries.isEmpty && q.vent.isEmpty && q.held.isEmpty

/-- `Q.DESTROY`. -/
def execQDestroy (f : SX) (s : State) : Out :=
  onOwnQ s (.qDestroy f) f fun t _ n q =>
    if q.empty then sxDone { s with queues := NMap.erase s.queues n } t f 0 else refuse6 s t f

/-- `Q.CONF`. -/
def execQConf (f : SX) (s : State) : Out :=
  onOwnQ s (.qConf f) f fun t tm n q =>
    let b := tm.rd f.b
    if 23 < fld b 4 0 then refuse6 s t f
    else sxDone (s.setQueue n { q with prio := fld b 4 0, enabled := bitOf b 8 }) t f 0

/-- The sum of share `k` over some queues, with those of queue `n` replaced. -/
def State.shareSum (s : State) (ok : Nat → Bool) (n : Nat) (new : List Nat) (k : Nat) : Nat :=
  (s.queues.filter fun q => ok q.1).foldl (fun a q => a + (if q.1 = n then new.getD k 0 else q.2.shares.getD k 0)) 0

/-- The sums of 11:R331 hold with the shares of queue `n` replaced. -/
def State.sharesOk (s : State) (n : Nat) (new : List Nat) : Bool :=
  (List.range 3).all fun k => s.shareSum (fun _ => true) n new k ≤ 256 &&
    match s.partOfQueue n with
    | some (_, p) => s.shareSum p.queues.contains n new k ≤ p.shareCeil.getD k 0
    | none => true

/-- `Q.RESV`. -/
def execQResv (f : SX) (s : State) : Out :=
  onOwnQ s (.qResv f) f fun t tm n q =>
    let b := tm.rd f.b
    let new := [fld b 7 0, fld b 15 8, fld b 23 16]
    if s.sharesOk n new then sxDone (s.setQueue n { q with shares := new }) t f 0 else refuse6 s t f

/-- What `Q.STAT` replies. -/
def Queue.stat (q : Queue) : Nat :=
  (q.entries.length + q.vent.length + q.held.length) % 2 ^ 32 + (if q.enabled then 2 ^ 32 else 0) +
    (if q.vent.isEmpty then 0 else 2 ^ 33) + q.prio % 32 * 2 ^ 34

/-- `Q.STAT`. -/
def execQStat (f : SX) (s : State) : Out :=
  onOwnQ s (.qStat f) f fun t _ _ q => sxDone s t f (BitVec.ofNat 64 q.stat)

/-! ## Contexts (09:R302; 03:R106 to R111) -/

/-- A supervisor command of engine 6. -/
def onSup (s : State) (i : Instr) (f : SX) (k : Nat → Team → Out) : Out := onSx s i f 6 true k

/-- A context slot that a new context may take: none lives there (03:R111). -/
def State.slotFree (s : State) (n : Nat) : Bool := !(s.ctx n).live

/-- The conditions of 16:R383 on a context descriptor, as a number of 512 bits. -/
def ctxDescOk (w : Nat) : Bool :=
  let base := bitsAt w 64 64
  let stop := bitsAt w 128 64
  let pb := bitsAt w 320 64
  let pl := bitsAt w 384 64
  bitsAt w 0 15 % 8 = 0 && bitsAt w 0 15 ≤ 16384 && bitsAt w 15 1 = 0 && bitsAt w 18 46 = 0 && base % 65536 = 0 && base < stop &&
    bitsAt w 288 32 = 0 && pb % 2097152 = 0 && pl % 2097152 = 0 && !overlaps pb pl base (stop - base) && bitsAt w 448 64 = 0

/-- The context of a descriptor: arena 0 with its quota, the root hypothesis, the token limits of its partition (09:R304). The slot keeps
its incarnation (03:R106). The generations of its arenas start at 0 again (DESIGN CHOICE, log 55). -/
def newContext (c : Context) (w : Nat) (grants : NMap Nat) : Context :=
  let base := bitsAt w 64 64
  let stop := bitsAt w 128 64
  { Context.free with
    live := true, inc := c.inc, oldest := c.oldest, tgen := c.tgen, sweepLow := c.sweepLow, sweepHigh := c.sweepHigh,
    privSize := bitsAt w 0 15, homeDie := bitsAt w 16 2, ventBase := bitsAt w 192 64, ventSize := bitsAt w 256 32,
    privBase := bitsAt w 320 64, privLen := bitsAt w 384 64, grants := grants, reclaimed := c.inc = c.oldest,
    reclaiming := c.reclaiming,
    arenas := [(0, ⟨.live, 0, 0, 0, stop - base, 0, base, stop, base, 0, false⟩)] }

/-- The limits of a new context: the partition's token ceilings on its islands. -/
def Partition.grants (p : Partition) : NMap Nat :=
  p.islands.foldl (fun m i => NMap.put m 0 i (NMap.get p.tokenCeil 0 i)) []

/-- A partition has a core on a die. -/
def Partition.hasDie (p : Partition) (d : Nat) : Bool := p.islands.any fun i => i / 4 = d

/-- The descriptor of a new context. A control core has no translation: there the global pointer is the physical address of the descriptor in HBM
(DESIGN CHOICE, log 17). -/
def State.ctxDesc (s : State) (tm : Team) (p : W64) : Option Nat :=
  if tm.ctrl.isSome then
    (if p.toNat + 64 ≤ 4 * dieBytes ∧ p.toNat % 64 = 0 then
      some (leNat (s.teamBytes tm ((cutLines 2 p.toNat 64).map fun x => ⟨.phys, 0, x.at_, x.len, s.homeDie x.at_, 0, false⟩)))
     else none)
  else s.descAt tm p 64 64

/-- `CTX.NEW`: takes the lowest free slot. -/
def execCtxNew (f : SX) (s : State) : Out :=
  onSup s (.ctxNew f) f fun t tm =>
    match s.ctxDesc tm (tm.rd f.a) with
    | none => refuse6 s t f
    | some w =>
      let mine (n : Nat) : Bool := s.owns tm fun p => p.slots.contains n
      match firstFrom (fun n => mine n && s.slotFree n) 64 0 with
      | none => refuse6 s t f
      | some n =>
        if !ctxDescOk w || !s.owns tm (fun p => p.hasDie (bitsAt w 16 2)) then refuse6 s t f else
        let grants := match s.partOf n with
          | some (_, p) => p.grants
          | none => []
        sysOn s t tm f (bitsAt w 16 2) <| sxDone (s.setCtx n (newContext (s.ctx n) w grants)) t f (BitVec.ofNat 64 (n + (s.ctx n).inc.toNat * 2 ^ 6))

/-- An entry that a kill removes from a queue is recorded (09:R302; 17:R409). -/
def State.recordRemoved (s : State) (n : Nat) (e : QEntry) : State :=
  let attempt := match e.relaunch with
    | some (_, a, _) => a
    | none => 0
  s.recordFailure n ⟨0x0520, 2, attempt, n % 1024 * 2 ^ 22 + e.seq.toNat, e.record.toNat, 0, s.clock⟩

/-- The queues of a context are disabled, and their unplaced entries removed. -/
def State.killQueues (s : State) (slot : Nat) : State :=
  (s.queues.filter fun q => q.2.slot = slot).foldl (fun s q =>
    let s := { s with reserved := s.reserved.filter fun r => r.queue ≠ q.1 }
    let s := s.setQueue q.1 { q.2 with enabled := false, entries := [], vent := [], held := [], suspended := none,
                                       headSeg := q.2.tailSeg, headIdx := q.2.tailIdx }
    (q.2.entries ++ q.2.vent ++ q.2.held).foldl (fun s e => s.recordRemoved q.1 e) s) s

/-- Is this join entry the one that records its command: the one in the lowest queue that still holds it? -/
def State.joinFirst (s : State) (c q : Nat) (k : CeKind) : Bool :=
  (List.range q).all fun j => !((s.ceq c j).entries.any fun x => x.kind = k)

/-- Bytes of the copy entry at the head of a queue that are posted and not yet performed. -/
def State.ceInFlight (s : State) (c q : Nat) : Nat :=
  (s.flight.filter fun r => r.tags.team = ceTeam c q).foldl (fun n r => n + List.length r.bytes) 0

/-- The copy entries of a context stop; each command is recorded with the bytes performed, and counted as dropped (17:R409, R410; 03:R108): a
join once. -/
def State.killCopies (s : State) (slot : Nat) : State :=
  let recs := s.ce.flatMap fun x => (x.2.entries.filter fun e => e.tags.slot = slot).filterMap fun e =>
    match e.kind with
    | .join _ _ => if s.joinFirst (x.1 / 4) (x.1 % 4) e.kind then some (e.tags, 0, 0) else none
    | _ => some (e.tags, e.dst.toNat, e.bytes - (if e.begun then s.ceInFlight (x.1 / 4) (x.1 % 4) else 0))
  let s := { s with ce := List.map (fun x : Nat × CeQueue => (x.1, { x.2 with entries := x.2.entries.filter fun e => e.tags.slot ≠ slot })) s.ce }
  recs.foldl (fun s r => (s.countDrop slot 0).ceRecord r.1 0x0522 2 r.2.1 r.2.2) s

/-- Every placed unit of a context ends without a completion, and its teams are marked (03:R107; 17:R409). -/
def State.killUnits (s : State) (slot : Nat) : State :=
  { s with
    units := s.units.map fun u => if u.slot = slot && !u.complete then { u with ending := some .context } else u
    teams := s.teams.map fun t => if t.ctrl.isNone && t.slot = slot && t.state ≠ .exited then { t with kill := some .context } else t }

/-- Every hypothesis of a context other than the root is refuted (03:R107). -/
def State.refuteAll (s : State) (slot : Nat) : State :=
  ((s.ctx slot).hyps.filter fun e => e.2.state ≠ .free && e.2.parent = 0).foldl (fun s e => s.refute slot e.1) s

/-- The effect of `CTX.KILL` on a slot. -/
def State.killContext (s : State) (slot : Nat) (free : Bool) : State :=
  let c := s.ctx slot
  let s := s.setCtx slot { c with inc := c.inc + 1, freeing := free, reclaimed := false }
  (((s.killUnits slot).refuteAll slot).killQueues slot).killCopies slot

/-- An increment that 03:R110 refuses. -/
def Context.killTooFar (c : Context) : Bool := 2048 ≤ (c.inc + 1 - c.oldest).toNat

/-- `CTX.KILL`. On a slot where no context lives it acts as on a live one (DESIGN CHOICE, log 87). -/
def execCtxKill (f : SX) (s : State) : Out :=
  onSup s (.ctxKill f) f fun t tm =>
    let n := fld (tm.rd f.a) 5 0
    if !s.owns tm (fun p => p.slots.contains n) || (s.ctx n).killTooFar then refuse6 s t f else
    sysOn s t tm f (s.ctx n).homeDie <|
      let s := s.killContext n (bitOf (tm.rd f.b) 0)
      sxDone s t f ((s.ctx n).inc.zeroExtend 64)

/-- No request of an older incarnation of a slot remains, nor one that may be sent again, nor an update that one has pushed, nor an action on its
behalf; those that wait on a host or peer beyond the bound count as gone (03:R109; 10:R319; 17:R408). -/
def State.reclaimed (s : State) (n : Nat) : Bool :=
  let old (slot : Nat) (inc : BitVec 12) : Bool := slot = n && inc ≠ (s.ctx n).inc
  (s.flight.all fun r => !old r.tags.slot r.tags.inc) && (s.resends.all fun r => !old r.tags.slot r.tags.inc) &&
  (s.pairs.all fun p => p.2.buffer.all fun r => !old r.tags.slot r.tags.inc) && (s.lateActions.all fun a => !old a.tags.slot a.tags.inc) &&
  (s.pushes.all fun p => !old p.slot p.inc) &&
  (s.posted.all fun w => !(old w.slot w.inc && !w.isOver s.clock)) &&
  (s.stray.all fun w => !(old w.slot w.inc && decide (s.clock < w.since + peerBound))) &&
  (s.joins.all fun j => !old j.tags.slot j.tags.inc) &&
  (s.teams.all fun t => !(t.ctrl.isNone && old t.slot t.inc && (match t.remote with
    | some r => decide (s.clock < r.since + peerBound)
    | none => false)))

/-- The oldest unreclaimed incarnation becomes the current one. -/
def Context.reclaim (c : Context) : Context := { c with oldest := c.inc, reclaimed := true, reclaiming := false }

/-- `CTX.RECLAIM`: returns when that holds; a posted one goes on by itself (05:R139). -/
def execCtxReclaim (f : SX) (s : State) : Out :=
  onSup s (.ctxReclaim f) f fun t tm =>
    let n := fld (tm.rd f.a) 5 0
    let c := s.ctx n
    if !s.owns tm (fun p => p.slots.contains n) then refuse6 s t f else
    sysOn s t tm f c.homeDie <|
      if s.reclaimed n then sxDone (s.setCtx n c.reclaim) t f (c.inc.zeroExtend 64)
      else if f.r then sxWaits s t tm
      else sxDone (s.setCtx n { c with reclaiming := true }) t f 0

/-- Posted reclaims return. -/
def State.reclaimsGoOn (s : State) : State :=
  s.contexts.foldl (fun s c => if c.2.reclaiming && s.reclaimed c.1 then s.setCtx c.1 (s.ctx c.1).reclaim else s) s

/-! ## Pages (09:R303; 03:R65, R111; 17:R396) -/

/-- The translation generation after one more increment; none while the increment must wait for a sweep (03:R111). -/
def Context.bumpTgen (c : Context) : Option Context :=
  let g := c.tgen + 1
  if g = 0x8000 then (if c.sweepHigh then none else some { c with tgen := g, sweepLow := true })
  else if g = 0 then (if c.sweepLow then none else some { c with tgen := g, sweepHigh := true })
  else some { c with tgen := g }

/-- The page of one size at a virtual address. -/
def Context.pageAt (c : Context) (va : Nat) (big : Bool) : Option Page :=
  (NMap.find? c.pages (va / 65536)).bind fun p => if p.big = big ∧ (!big ∨ va % 2097152 = 0) then some p else none

/-- A page that would overlap a mapping of the other size. -/
def Context.pageClash (c : Context) (va : Nat) (big : Bool) : Bool :=
  if big then c.pages.any fun e => !e.2.big && va ≤ e.1 * 65536 && e.1 * 65536 < va + 2097152
  else c.pages.any fun e => e.2.big && e.1 * 65536 ≤ va && va < e.1 * 65536 + 2097152

/-- [pa, pa + n) is no longer withheld from the device pool; the rest of what was withheld stays so. -/
def State.unwithhold (s : State) (pa n : Nat) : State :=
  { s with withheld := s.withheld.flatMap fun w =>
      if !overlaps w.1 w.2 pa n then [w] else
      (if w.1 < pa then [(w.1, pa - w.1)] else []) ++ (if pa + n < w.1 + w.2 then [(pa + n, w.1 + w.2 - (pa + n))] else []) }

/-- A physical page that a command may map: HBM of the issuer, host memory, or a peer region with a valid import entry (12:R346, R356;
17:R396). -/
def State.physOk (s : State) (tm : Team) (slot pa n : Nat) : Bool :=
  match physClass pa with
  | 0 => pa + n ≤ 4 * dieBytes && s.owns tm fun p => p.holds pa n
  | 1 => true
  | 2 => match s.partOf slot with
    | some (_, p) => match NMap.find? p.imports (pa / 2 ^ 47 % 128) with
      | some d => pa % 2 ^ 47 < bitsAt (leNat d) 448 47
      | none => false
    | none => false
  | _ => false

/-- Fields of a page command: virtual page, slot, size. -/
def pageArgs (a b : W64) : Nat × Nat × Bool := (a.toNat / 2 ^ 16 % 2 ^ 41 * 65536, fld a 5 0, bitOf b 11)

/-- `PG.MAP`. A page that is mapped already keeps its translation; every one retries the copies that stand at it. A 2 MiB page at an
address, or onto one, that is not aligned to 2 MiB is refused (log 31). -/
def execPgMap (f : SX) (s : State) : Out :=
  onSup s (.pgMap f) f fun t tm =>
    let b := tm.rd f.b
    let (va, slot, big) := pageArgs (tm.rd f.a) b
    let n := pageBytes big
    let c := s.ctx slot
    let arena := fld b 9 0
    let die := fld b 13 12
    let pa := b.toNat / 2 ^ 16 % 2 ^ 40 * 65536
    let done (s : State) (pa : Nat) : Out := sxDone (s.retryCopies slot va n) t f (BitVec.ofNat 64 pa)
    if !s.owns tm (fun p => p.slots.contains slot) then refuse6 s t f else
    sysOn s t tm f c.homeDie <|
    match c.pageAt va big with
    | some p => done s p.phys
    | none =>
      if c.pageClash va big || va % n ≠ 0 || (c.arena arena).state ≠ .live then refuse6 s t f
      else if bitOf b 14 then
        match s.partOf slot with
        | none => refuse6 s t f
        | some (_, p) =>
          match s.poolPick p die n 0 with
          | none => refuse6 s t f
          | some pa => done ((s.zeroRange pa n).mapPage slot va ⟨pa, die, arena, true, bitOf b 10, big, true⟩) pa
      else if pa % n ≠ 0 || b.toNat / 2 ^ 56 ≠ 0 || !s.physOk tm slot pa n then refuse6 s t f
      else
        done ((s.unwithhold pa n).mapPage slot va ⟨pa, die, arena, true, bitOf b 10, big, false⟩) pa

/-- `PG.UNMAP`: removes the translation and increments the translation generation, once a sweep allows it. -/
def execPgUnmap (f : SX) (s : State) : Out :=
  onSup s (.pgUnmap f) f fun t tm =>
    let b := tm.rd f.b
    let (va, slot, big) := pageArgs (tm.rd f.a) b
    let c := s.ctx slot
    if !s.owns tm (fun p => p.slots.contains slot) then refuse6 s t f else
    sysOn s t tm f c.homeDie <|
    match c.pageAt va big with
    | none => refuse6 s t f
    | some p =>
      match c.bumpTgen with
      | none => sxHold s t tm f
      | some c =>
        let s := s.setCtx slot { c with pages := NMap.erase c.pages (va / 65536) }
        let s := s.unwithhold p.phys p.size
        sxDone (if bitOf b 14 || physClass p.phys ≠ 0 then s else { s with withheld := s.withheld ++ [(p.phys, p.size)] }) t f 0

/-! ## Power (09:R304; 11:R342) -/

/-- `PW.BUDGET`. -/
def execPwBudget (f : SX) (s : State) : Out :=
  onSup s (.pwBudget f) f fun t tm =>
    let i := fld (tm.rd f.a) 3 0
    let b := fld (tm.rd f.b) 15 0
    if s.owns tm (fun p => p.islands.contains i && b ≤ NMap.get p.tokenCeil 0 i) then
      sysOn s t tm f (i / 4) <| sxDone (s.setIsland i { s.island i with budget := b }) t f (BitVec.ofNat 64 (s.island i).budget)
    else refuse6 s t f

/-- `PW.GRANT`. -/
def execPwGrant (f : SX) (s : State) : Out :=
  onSup s (.pwGrant f) f fun t tm =>
    let slot := fld (tm.rd f.a) 5 0
    let i := fld (tm.rd f.a) 11 8
    let b := fld (tm.rd f.b) 15 0
    let c := s.ctx slot
    if s.owns tm (fun p => p.slots.contains slot && p.islands.contains i && b ≤ NMap.get p.tokenCeil 0 i) then
      sysOn s t tm f c.homeDie <| sxDone (s.setCtx slot { c with grants := NMap.put c.grants 0 i b }) t f (BitVec.ofNat 64 (NMap.get c.grants 0 i))
    else refuse6 s t f

/-! ## Beside the agents -/

/-- What the hardware does beside the agents whose turn comes: units apply resolves, joins go on with their release, late actions of `CE.FUT`
are performed, posted reclaims return (03:R104, R109; 09:R299; 14:R362). -/
def State.hardware (s : State) : State := s.resolvesGoOn.joinsGoOn.lateActionsGoOn.reclaimsGoOn.forgetResolves

end Sys2Proof.Machine
end

