-- ==== Sys2Proof/Machine/Place.lean ====
section
/-!
DEFINITION. The dispatcher: it reads a record or cast list, checks it, and places its teams (02:R44 to R50, R32 to R36; 09:R262, R263, R289,
R290; 11:R324 to R328, R342; 12:R358; 15:R364; 16:R382; 19:R416, R418, R424).
-/
namespace Sys2Proof.Machine

/-! ## Records (02:R48, R49; 16:R382) -/

/-- What the dispatcher finds in an entry: a launch, or a code with the completion that can be read: future or counter, and address. -/
inductive Parsed where
  | launch (l : Launch)
  | bad (code : Nat) (done : Option (Bool × W64))
  deriving DecidableEq, Repr

/-- Registers per lane of a budget code (02:R32). -/
def budgetOf (code : Nat) : Nat := 16 + 8 * code

/-- Bytes that the dispatcher reads at an address of a context, and whether some are poisoned; none when they cannot be read. The ordinary
line is read. Bytes of host and peer memory are free (log 29). -/
def State.recordAt (s : State) (slot : Nat) (p : W64) (n : Nat) : Option (List Byte × Bool) :=
  if 2 ≤ p.toNat / 2 ^ 56 then none else
  match s.places slot .load (cutLines (n / 128 + 2) p.toNat n) with
  | .error _ => none
  | .ok pl => if pl.any fun x => s.peerGone slot x.key then none else
      some (pl.flatMap fun x => if x.remote then (List.range x.len).map fun i => Config.freeByte (s.draw (x.key % 4096 + i)) else s.bytes x.key x.len,
      pl.any fun x => s.poisoned x.key x.len)

/-- Links lead from a die to what it reads at an address of a context (01:R22). -/
def State.linesReached (s : State) (die slot : Nat) (p : W64) (n : Nat) : Bool :=
  match s.places slot .load (cutLines (n / 128 + 2) p.toNat n) with
  | .ok pl => pl.all fun x => x.remote || s.reaches die x.home
  | .error _ => true

/-- The completion of a record. -/
def doneOf (w : Nat) : Bool × W64 := (bitsAt w 191 1 = 1, BitVec.ofNat 64 (bitsAt w 192 64))

/-- Fields that a task record and the header of a cast list share, from its 512 bits. -/
def launchOf (addr : W64) (w : Nat) : Launch where
  cast := false
  addr := addr
  mtx := 0
  arg := BitVec.ofNat 64 (bitsAt w 64 64)
  tile := BitVec.ofNat 48 (bitsAt w 128 48)
  roles := []
  accSlots := 0
  idempotent := bitsAt w 189 1 = 1
  replayable := bitsAt w 190 1 = 1
  future := bitsAt w 191 1 = 1
  completion := BitVec.ofNat 64 (bitsAt w 192 64)
  tokens := bitsAt w 256 8
  prio := bitsAt w 264 5
  arena := bitsAt w 269 10
  hyp := bitsAt w 279 8
  scratch := bitsAt w 320 32
  outBase := BitVec.ofNat 64 (bitsAt w 384 64)
  outLen := bitsAt w 448 32

/-- The first condition, in the order of 16:R382, that holds. -/
def firstCode (l : List (Bool × Nat)) : Option Nat := (l.find? (·.1)).map (·.2)

/-- A task record. One whose scalar entry breaks 02:R49 while the sum is a multiple of 64 gets the code of the sum (DEDUCED, log 30). -/
def parseTask (addr : W64) (w : Nat) : Parsed :=
  let entry := bitsAt w 0 64
  let base : W64 := BitVec.ofNat 64 entry + (BitVec.ofNat 33 (bitsAt w 287 33)).signExtend 64
  let code := bitsAt w 186 3
  match firstCode [(code = 7, 0x301), (23 < bitsAt w 264 5, 0x302), (bitsAt w 352 32 ≠ 0 || bitsAt w 480 32 ≠ 0, 0x303),
      (base.toNat % 64 ≠ 0 || entry % 64 ≠ 0, 0x306)] with
  | some c => .bad c (some (doneOf w))
  | none => .launch { launchOf addr w with roles := [⟨BitVec.ofNat 64 entry, bitsAt w 176 10 + 1, base, budgetOf code, 1⟩] }

/-- A role entry, from its 256 bits, with its budget code. -/
def roleOf (w : Nat) : Role × Nat :=
  (⟨BitVec.ofNat 64 (bitsAt w 0 64), bitsAt w 128 10 + 1, BitVec.ofNat 64 (bitsAt w 64 64), budgetOf (bitsAt w 138 3), bitsAt w 141 4 + 1⟩,
    bitsAt w 138 3)

/-- Reserved bits of a role entry that are not 0. -/
def roleReserved (w : Nat) : Bool := bitsAt w 145 47 ≠ 0 || bitsAt w 192 64 ≠ 0

/-- A cast list, from its header and its role entries. -/
def parseCast (addr : W64) (w : Nat) (roles : List Nat) : Parsed :=
  let rs := roles.map roleOf
  let mtx := bitsAt w 0 64
  match firstCode [(rs.any fun r => r.2 = 7, 0x301), (23 < bitsAt w 264 5, 0x302),
      (bitsAt w 184 5 ≠ 0 || bitsAt w 287 33 ≠ 0 || bitsAt w 352 32 ≠ 0 || bitsAt w 480 32 ≠ 0 || roles.any roleReserved, 0x303),
      (16 < rs.foldl (fun a r => a + r.1.teams) 0 || 8 < bitsAt w 180 4 || rs.any (fun r => r.1.base.toNat % 64 ≠ 0 || r.1.entry.toNat % 4 ≠ 0) ||
        mtx % 8 ≠ 0 || (mtx ≠ 0 && bitsAt w 64 64 % 8 ≠ 0), 0x304)] with
  | some c => .bad c (some (doneOf w))
  | none => .launch { launchOf addr w with cast := true, mtx := BitVec.ofNat 64 mtx, accSlots := bitsAt w 180 4, roles := rs.map (·.1) }

/-- Cuts a list of bytes into numbers of 32 bytes. -/
def words32 : Nat → List Byte → List Nat
  | 0, _ => []
  | n + 1, bs => leNat (bs.take 32) :: words32 n (bs.drop 32)

/-- What an entry is: of a relaunch, the retained record. The record is read as it stands at its home at this moment; which version of a record
written between spawn and placement the dispatcher uses is not architectural (09:R290; DESIGN CHOICE, log 71). -/
def State.parse (s : State) (slot : Nat) (e : QEntry) : Parsed :=
  match e.relaunch with
  | some (l, _, _) => .launch l
  | none =>
    if (e.kind ≠ 1 ∧ e.kind ≠ 2) ∨ e.record.toNat % 64 ≠ 0 then .bad 0x300 none else
    match s.recordAt slot e.record 64 with
    | none => .bad 0x307 none
    | some (bs, hit) =>
      let w := leNat bs
      let done : Option (Bool × W64) := match s.recordAt slot e.record 32 with
        | some (_, false) => some (doneOf w)
        | _ => none
      if hit then .bad 0x305 done
      else if e.kind = 1 then parseTask e.record w
      else
        let n := bitsAt w 176 4 + 1
        match s.recordAt slot (e.record + 64) (32 * n) with
        | none => .bad 0x307 (some (doneOf w))
        | some (rs, hit) => if hit then .bad 0x305 (some (doneOf w)) else parseCast e.record w (words32 n rs)

/-! ## Resources (11:R326, R327, R342) -/

/-- The role of each team, in order (02:R45), with its number. -/
def Launch.teamRoles (l : Launch) : List (Nat × Role) := (l.roles.mapIdx fun i r => List.replicate r.teams (i, r)).flatten

/-- The charges of the teams, in order. -/
def Launch.charges (l : Launch) : List Nat := l.teamRoles.map fun r => chargeOf r.2.lanes r.2.budget

/-- Accumulator slots of a cluster that no troupe holds. -/
def State.freeAcc (s : State) (c : Nat) : List Nat :=
  (List.range 8).filter fun k => !s.liveUnits.any fun u => u.cluster = c && u.acc.contains k

/-- The cluster has what a matrix stream needs (11:R337). -/
def State.mtxRoom (s : State) (c : Nat) (l : Launch) : Bool :=
  l.mtx = 0 || (l.accSlots ≤ (s.freeAcc c).length && (s.liveUnits.filter fun u => u.cluster = c && u.seqr.isSome).length < 4)

/-- Bytes of a private block, in whole pages (03:R72). -/
def Context.blockLen (c : Context) : Nat := alignUp (1024 * c.privSize) 65536

/-- The bases at which a private block may be placed: the private range is cut into blocks from its base on, so that blocks never leave
gaps between them (DESIGN CHOICE, log 13). -/
def Context.freeBlocks (c : Context) : List Nat :=
  let n := c.blockLen
  ((List.range (c.privLen / n)).map fun k => c.privBase + n * k).filter fun b =>
    !c.privUsed.contains b && !(c.pages.any fun e => overlaps b n (e.1 * 65536) e.2.size)

/-- The trap frames that no team holds. -/
def Partition.freeFrames (p : Partition) : List Nat := ((List.range p.frames).map fun i => p.frameBase + 512 * i).filter fun a => !p.framesUsed.contains a

/-- One of the resources of 11:R327 is short for a launch whose teams run on a die. -/
def State.short (s : State) (p : Partition) (slot die teams : Nat) (r : Resource) : Bool :=
  let c := s.ctx slot
  let n := if c.privSize = 0 then 0 else teams
  let a := c.arena 0
  match r with
  | .privateRange => c.freeBlocks.length < n
  | .arenaQuota => a.quota < a.charge + n * c.blockLen
  | .devicePool => !s.poolHas p die 65536 (dieBytes / 65536) 0 (n * (c.blockLen / 65536))
  | .framePool => p.freeFrames.length < teams

/-- None of them is short. -/
def State.supplied (s : State) (p : Partition) (slot die teams : Nat) : Bool :=
  [Resource.privateRange, .arenaQuota, .devicePool, .framePool].all fun r => !s.short p slot die teams r

/-- The priority of a queue. -/
def State.prioOf (s : State) (n : Nat) : Nat := ((NMap.find? s.queues n).map (·.prio)).getD 0

/-- A core that a launch may use, whatever its teams. -/
def State.usable (s : State) (p : Partition) (n prio scratch core : Nat) : Bool :=
  let cl := clusterOfCore core
  p.cores.contains core && s.openCore core && !s.gated core && !(s.cluster cl).retired && !(s.cluster cl).quarantined &&
    s.padUsed core + scratch ≤ padSize &&
    !(s.reserved.any fun r => r.queue ≠ n && prio < s.prioOf r.queue && (r.unit = core || r.unit = 256 + cl))

/-- What a core has left: lane registers, teams, its sequencer. -/
structure CoreRoom where
  regs  : Nat
  teams : Nat
  seq   : Bool
  deriving DecidableEq, Repr

/-- What a core has left. -/
def State.left (s : State) (c : Nat) : CoreRoom := ⟨131072 - s.chargeOn c, 32 - (s.residents c).length, !s.seqBusy c⟩

/-- Some assignment of the charges to the cores fits; `lead` when the first team needs the sequencer of its core. -/
def packs (lead : Bool) : List Nat → List CoreRoom → Bool
  | [], _ => true
  | x :: r, rooms => (List.range rooms.length).any fun i =>
    match rooms[i]? with
    | some c => x ≤ c.regs && 0 < c.teams && (!lead || c.seq) && packs false r (rooms.set i ⟨c.regs - x, c.teams - 1, c.seq⟩)
    | none => false

/-- A launch to be placed: with what entry it comes. -/
structure Start where
  launch  : Launch
  slot    : Nat
  queue   : Nat
  qprio   : Nat
  seq     : BitVec 22
  attempt : Nat
  /-- A cluster to avoid. -/
  avoid   : Option Nat
  stamp   : List (BitVec 32)
  /-- The audit that it replays, with its cluster. -/
  replay  : Option Nat
  deriving DecidableEq, Repr

/-- The launch fits on some cores of a cluster. -/
def State.fitsCluster (s : State) (p : Partition) (x : Start) (cl : Nat) : Bool :=
  let cores := ((List.range 4).map (4 * cl + ·)).filter (s.usable p x.queue x.qprio x.launch.scratch)
  s.mtxRoom cl x.launch && s.tokenRoom x.slot (cl / 4) x.launch x.replay.isSome &&
    s.supplied p x.slot (cl / 16) x.launch.charges.length && packs (x.launch.mtx ≠ 0) x.launch.charges (cores.map s.left)

/-- The clusters of a die, or of the device, on which a launch fits. -/
def State.fitting (s : State) (p : Partition) (x : Start) (dies : List Nat) : List Nat :=
  (List.range 64).filter fun cl => dies.contains (cl / 16) && s.fitsCluster p x cl

/-- The assignment of the teams to cores fits. -/
def State.assignmentOk (s : State) (p : Partition) (x : Start) (cores : List Nat) : Bool :=
  match cores with
  | [] => false
  | c0 :: _ =>
    let cl := clusterOfCore c0
    let cs := x.launch.charges
    cores.length = cs.length && cores.all (fun c => clusterOfCore c = cl && s.usable p x.queue x.qprio x.launch.scratch c) &&
      s.mtxRoom cl x.launch && (x.launch.mtx = 0 || !s.seqBusy c0) && s.tokenRoom x.slot (cl / 4) x.launch x.replay.isSome &&
      s.supplied p x.slot (cl / 16) cs.length &&
      (List.range 4).all (fun k => s.roomOn (4 * cl + k) (((cores.zip cs).filter fun e => e.1 = 4 * cl + k).map (·.2))) &&
      (x.avoid ≠ some cl || (s.fitting p x [0, 1, 2, 3]).all (· = cl))

/-! ## Starting a unit (02:R36, R46, R50; 09:R262, R263) -/

/-- A private block for a team: its pages are mapped from the pool of a die and charged to arena 0; none when something is short. -/
def State.takeBlock (s : State) (p : Partition) (slot die i : Nat) : Option (State × Nat) :=
  let c := s.ctx slot
  if c.privSize = 0 then some (s, 0) else
  let l := c.freeBlocks
  match l[Config.pick (s.draw (50000 + i)) % l.length]? with
  | none => none
  | some b =>
    let a := c.arena 0
    let c := { c.setArena 0 { a with charge := a.charge + c.blockLen } with privUsed := c.privUsed ++ [b] }
    (State.mapRun p slot 0 die (b + c.blockLen) 0 (c.blockLen / 65536) b (s.setCtx slot c)).map fun s => (s, b)

/-- Private blocks for the teams on some cores, in order. -/
def State.takeBlocks (s : State) (p : Partition) (slot : Nat) : List Nat → Option (State × List Nat)
  | [] => some (s, [])
  | c :: r => (s.takeBlock p slot (dieOfCore c) r.length).bind fun x => (x.1.takeBlocks p slot r).map fun y => (y.1, x.2 :: y.2)

/-- A team as it starts (02:R36). -/
def startTeam (x : Start) (inc : BitVec 12) (unit i : Nat) (role : Nat × Role) (core block frame clock tick : Nat) : Team :=
  { Team.atReset with
    unit := unit, slot := x.slot, inc := inc, teamid := i, role := role.1, lanes := role.2.lanes, budget := role.2.budget,
    laneBase := role.2.base, pc := role.2.entry, rnd := rndAll 0 role.2.lanes, hyp := x.launch.hyp, attempt := x.attempt,
    prio := x.launch.prio, tile := x.launch.tile, arg := x.launch.arg, tag := core, core := core, priv := block, frame := frame,
    since := clock, acquired := tick + 1, seen := x.stamp }

/-- A sequencer as it starts (09:R262). -/
def startSeq (pc : W64) : Sequencer where
  pc := pc
  loaded := false
  a := []
  d := []
  c := []
  p0 := []
  p1 := []
  held := none
  te := 12
  mrow := 0
  wait := none
  acquires := false
  row := 0
  fault := none
  done := false

/-- The cells of some accumulator slots of a cluster hold +0. -/
def State.zeroAcc (s : State) (cl : Nat) (slots : List Nat) : State :=
  { s with
    acc := s.acc.filter fun e => !(slots.contains (e.1 / 16384 % 8) && e.1 / 131072 = cl)
    poison := s.poison.filter fun p => match p with
      | .accCells k => !(slots.contains (k / 16384 % 8) && k / 131072 = cl)
      | _ => true }

/-- A unit of a launch, on some cores with some blocks. -/
def startUnit (x : Start) (inc : BitVec 12) (cl : Nat) (teams cores acc blocks : List Nat) (audit : Option Nat) : LUnit where
  launch := x.launch
  slot := x.slot
  inc := inc
  queue := x.queue
  seq := x.seq
  attempt := x.attempt
  teams := teams
  cores := cores.eraseDups
  cluster := cl
  tokens := x.launch.power
  island := cl / 4
  bars := []
  acc := acc
  seqr := if x.launch.mtx = 0 then none else some (startSeq x.launch.mtx)
  exitVal := 0
  ending := none
  complete := false
  blocks := blocks
  poisoned := false
  audit := audit
  replay := x.replay

/-- Places a launch on some cores: takes its resources and starts its teams, and the sequencer, all at once; with the start acquire. None
when a resource of 11:R327 is short. -/
def State.place (s : State) (p : Partition) (x : Start) (cores : List Nat) (audit : Option Nat) : Option State :=
  let cl := clusterOfCore (cores.headD 0)
  (s.takeBlocks p x.slot cores).map fun b =>
    let s := b.1
    let frames := p.freeFrames.take cores.length
    let t0 := s.teams.length
    let u := s.units.length
    let inc := (s.ctx x.slot).inc
    let acc := if x.launch.mtx = 0 then [] else (s.freeAcc cl).take x.launch.accSlots
    let teams := x.launch.teamRoles.mapIdx fun i r =>
      startTeam x inc u i r (cores.getD i 0) (b.2.getD i 0) (frames.getD i 0) s.clock s.tick
    let unit := startUnit x inc cl (teams.mapIdx fun i _ => t0 + i) cores acc (b.2.filter fun a => (s.ctx x.slot).privUsed.contains a) audit
    let s := { s.zeroAcc cl acc with
      teams := s.teams ++ teams
      units := s.units ++ [unit]
      parts := List.map (fun q : Nat × Partition =>
        if q.2.slots.contains x.slot then (q.1, { q.2 with framesUsed := q.2.framesUsed ++ frames }) else q) s.parts }
    cores.foldl (fun s c => s.dropL1 c) s

/-! ## Completions (02:R50; 15:R363, R365; 16:R382) -/

/-- The tags under which hardware acts for a unit (15:R363). -/
def State.unitTags (s : State) (n : Nat) (u : LUnit) : Tags where
  slot := u.slot
  inc := u.inc
  arena := 0
  gen := 0
  hyp := 0
  scope := 4
  order := 2
  phys := false
  block := false
  team := 2 ^ 34 + n
  unit := n
  core := s.leaderCore u
  queue := u.queue

/-- The completion of a unit: the future is resolved with a value, or failed with a code; or the counter is decremented. -/
def State.finish (s : State) (n : Nat) (future : Bool) (addr : W64) (code : Option Nat) (value : Nat) : State :=
  match s.unit? n with
  | none => s
  | some u =>
    let tg := s.unitTags n u
    if future then s.hwResolve tg addr code.isSome (code.getD value) else s.hwDecrement tg addr

/-- A unit that has no team, for an entry that is not launched. -/
def State.emptyUnit (s : State) (x : Start) : State × Nat :=
  ({ s with units := s.units ++ [{ startUnit x (s.ctx x.slot).inc 0 [] [] [] [] none with tokens := 0, seqr := none, complete := true }] },
    s.units.length)

/-! ## The head of a queue -/

/-- The start of the head entry of a queue with a launch. -/
def startOf (n : Nat) (q : Queue) (e : QEntry) (l : Launch) : Start where
  launch := l
  slot := q.slot
  queue := n
  qprio := q.prio
  seq := e.seq
  attempt := match e.relaunch with
    | some (_, a, _) => a
    | none => 0
  avoid := e.relaunch.map fun r => r.2.2
  stamp := e.stamp
  replay := none

/-- The head entry of a queue, as its 16 bytes stand. -/
def State.headEntry (s : State) (q : Queue) : Option QEntry := q.entries.head?.map (s.readEntry q)

/-- A queue's part of a round: its issue share plus 1 (11:R325). -/
def Queue.weight (q : Queue) : Nat := q.shares.getD 2 0 + 1

/-- The queue has placements left in the round of the dispatcher of a die. -/
def Queue.hasTurn (q : Queue) (die : Nat) : Bool := NMap.get q.served 0 die < q.weight

/-- The dispatcher of a die serves a queue: a queue with nothing left in the round begins a new one for those of its priority. -/
def State.serveRound (s : State) (die n : Nat) (q : Queue) : State :=
  let s := if q.hasTurn die then s else
    { s with queues := List.map (fun x : Nat × Queue =>
        if x.2.prio = q.prio then (x.1, { x.2 with served := NMap.put x.2.served 0 die 0 }) else x) s.queues }
  { s with queues := NMap.adjust s.queues n fun x => { x with served := NMap.put x.served 0 die (NMap.get x.served 0 die + 1) } }

/-- The queue after its head entry: in the SX20 format the first segment is the next one once its last entry has been passed and a next one is
linked (12:R358). -/
def State.afterHead (s : State) (q : Queue) : Queue :=
  let q' := { q with entries := q.entries.tail, headSince := s.clock, shortSince := [], told := [] }
  if q.sx20 && ((q.entries.head?.map fun e => e.relaunch.isNone).getD false) then
    let nxt := s.quad q.slot (q.headSeg.toNat + 0xFF0)
    if q.headIdx < 254 || nxt = 0 then { q' with headIdx := q.headIdx + 1 } else { q' with headSeg := BitVec.ofNat 64 nxt, headIdx := 0 }
  else q'

/-- The head entry leaves its queue, served by the dispatcher of a die; the last entry of an SX20 segment gives the segment to the Prompter
(12:R358). -/
def State.popHead (s : State) (die n : Nat) (q : Queue) : State :=
  let last := q.sx20 && q.headIdx = 254 && ((q.entries.head?.map fun e => e.relaunch.isNone).getD false)
  let s' := ({ s with reserved := s.reserved.filter fun r => r.queue ≠ n }.setQueue n (s.afterHead q)).serveRound die n q
  if last then s'.post (.segmentDone n q.headSeg) else s'

/-- The head entry of a queue is refused or refuted, or it fits on a die. -/
def State.headFits (s : State) (die n : Nat) (q : Queue) : Bool :=
  match s.partOfQueue n, s.headEntry q with
  | some (_, p), some e =>
    p.hasDie die && match s.parse q.slot e with
      | .bad _ _ => true
      | .launch l => (s.ctx q.slot).refuted l.hyp || !(s.fitting p (startOf n q e l) [die]).isEmpty
  | _, _ => false

/-- The dispatcher of a die reaches the head entry of a queue and its record (01:R22). -/
def State.headReached (s : State) (die : Nat) (q : Queue) : Bool :=
  match s.headEntry q with
  | none => true
  | some e => e.relaunch.isSome ||
    (s.linesReached die q.slot (BitVec.ofNat 64 e.place) 16 && s.linesReached die q.slot e.record 64 &&
      (e.kind ≠ 2 || match s.recordAt q.slot e.record 64 with
        | some (bs, _) => s.linesReached die q.slot (e.record + 64) (32 * (bitsAt (leNat bs) 176 4 + 1))
        | none => true))

/-- The head entry of a queue is ready for the dispatcher of a die: one that is to be launched waits for the stores that its start acquires. -/
def State.headReady (s : State) (die n : Nat) (q : Queue) : Bool :=
  s.headFits die n q && s.headReached die q && match s.headEntry q with
    | some e => match s.parse q.slot e with
      | .bad _ _ => true
      | .launch l => (s.ctx q.slot).refuted l.hyp || covers (s.vc die) e.stamp
    | none => false

/-- The dispatcher of a die may serve queue `n` next: one of highest priority among those ready to place, and one with placements left in the round,
if any has (11:R325). Which of several goes first is a free choice (log 59). -/
def State.mayServe (s : State) (die n : Nat) (q : Queue) : Bool :=
  q.enabled && s.headReady die n q && s.queues.all fun x => !(x.2.enabled && s.headReady die x.1 x.2) ||
    (x.2.prio ≤ q.prio && (x.2.prio < q.prio || q.hasTurn die || !x.2.hasTurn die))

/-- An entry that is not launched is removed, recorded, and completed as failed where its completion can be read (16:R382). -/
def State.rejectHead (s : State) (die n : Nat) (q : Queue) (e : QEntry) (code : Nat) (done : Option (Bool × W64)) : State :=
  let dies := [0, 1, 2, 3]
  match done with
  | some (f, a) =>
    if !s.actionReady dies q.slot a f then s else
    let r := (s.popHead die n q).emptyUnit { startOf n q e (launchOf e.record 0) with qprio := q.prio }
    let s := r.1.recordFailure n ⟨code, 1, 0, n % 1024 * 2 ^ 22 + e.seq.toNat, e.record.toNat, 0, s.clock⟩
    s.finish r.2 f a (some code) 0
  | none => (s.popHead die n q).recordFailure n ⟨code, 1, 0, n % 1024 * 2 ^ 22 + e.seq.toNat, e.record.toNat, 0, s.clock⟩

/-- An entry whose hypothesis is refuted starts no team and completes at once (15:R364). -/
def State.refuteHead (s : State) (die n : Nat) (q : Queue) (e : QEntry) (l : Launch) : State :=
  if !s.actionReady [0, 1, 2, 3] q.slot l.completion l.future then s else
  let x := startOf n q e l
  let r := (s.popHead die n q).emptyUnit x
  let s := r.1.recordFailure n ⟨0x0002, 3, x.attempt, n % 1024 * 2 ^ 22 + e.seq.toNat, l.addr.toNat, 0, s.clock⟩
  s.finish r.2 l.future l.completion (some 2) 0

/-- A task is eligible for audit (19:R424). -/
def Launch.eligible (l : Launch) : Bool := !l.cast && l.replayable && l.hyp = 0 && l.outLen ≠ 0

/-- Counts an eligible placement, and tells whether it is marked. -/
def State.countAudit (s : State) (pn : Nat) (p : Partition) (l : Launch) : State × Bool :=
  match p.audit with
  | some k =>
    if l.eligible then ({ s with parts := NMap.insert s.parts pn { p with audited := p.audited + 1 } }, (p.audited + 1) % 2 ^ k = 0) else (s, false)
  | none => (s, false)

/-- The snapshot of a marked task: 256 bytes at its argument pointer; free where they cannot be read. -/
def State.snapshot (s : State) (slot : Nat) (p : W64) : List Byte :=
  match s.recordAt slot p 256 with
  | some (bs, _) => bs
  | none => (List.range 256).map fun i => Config.freeByte (s.draw i)

/-- Places the head entry of a queue on some cores. -/
def placeHead (s : State) (pn : Nat) (p : Partition) (n : Nat) (q : Queue) (e : QEntry) (l : Launch) (die : Nat) (cores : List Nat) : State :=
  let x := startOf n q e l
  if !(covers (s.vc die) e.stamp && dieOfCore (cores.headD 0) = die && s.assignmentOk p x cores) then s else
  let (s1, marked) := s.countAudit pn p l
  let audit := if marked then some s1.audits.length else none
  match s1.place p x cores audit with
  | none => s
  | some s2 =>
    let s3 := if marked then { s2 with audits := s2.audits ++ [⟨s.units.length, s.snapshot q.slot l.arg, 0, none, [], [], false, false⟩] } else s2
    s3.popHead die n q

/-- The dispatcher of a die serves the head entry of a queue. -/
def dispatch (s : State) (die n : Nat) (cores : List Nat) : State :=
  match NMap.find? s.queues n, s.partOfQueue n with
  | some q, some (pn, p) =>
    match s.headEntry q with
    | none => s
    | some e =>
      if !s.mayServe die n q then s else
      match s.parse q.slot e with
      | .bad code done => s.rejectHead die n q e code done
      | .launch l => if (s.ctx q.slot).refuted l.hyp then s.refuteHead die n q e l else placeHead s pn p n q e l die cores
  | _, _ => s

/-- `DISPATCH_PLACE`. -/
def execDispatchPlace (s : State) : Out :=
  match s.turn with
  | .event (.dispatchPlace d q cs) => .next (dispatch s d q cs)
  | _ => .next s

/-! ## Entries that do not fit (11:R327, R328) -/

/-- The head entry of a queue fits nowhere. -/
def State.headStuck (s : State) (n : Nat) (q : Queue) : Bool := !q.entries.isEmpty && [0, 1, 2, 3].all fun d => !s.headFits d n q

/-- The number under which a queue notes its wait for a resource. -/
def resourceNo : Resource → Nat
  | .privateRange => 0
  | .arenaQuota => 1
  | .devicePool => 2
  | .framePool => 3

/-- A resource is short for the head entry of a queue on every die that may take it. -/
def State.headShort (s : State) (n : Nat) (q : Queue) (r : Resource) : Bool :=
  match s.partOfQueue n, s.headEntry q with
  | some (_, p), some e => match s.parse q.slot e with
    | .bad _ _ => false
    | .launch l => ([0, 1, 2, 3].filter p.hasDie).all fun d => s.short p q.slot d l.charges.length r
  | _, _ => false

/-- A queue with a note of how long its head entry has waited without a break: without fitting anywhere, and for each resource (11:R327, R328). -/
def State.noteHead (s : State) (n : Nat) (q : Queue) : Queue :=
  if q.entries.isEmpty then q else
  { q with
    headSince := if s.headStuck n q then q.headSince else s.clock
    shortSince := ([Resource.privateRange, .arenaQuota, .devicePool, .framePool].filter (s.headShort n q)).map fun r =>
      (resourceNo r, (NMap.find? q.shortSince (resourceNo r)).getD s.clock)
    told := q.told.filter fun k => [Resource.privateRange, .arenaQuota, .devicePool, .framePool].any fun r => resourceNo r = k && s.headShort n q r }

/-- The waits of the head entries of all queues. -/
def State.noteHeads (s : State) : State := { s with queues := List.map (fun q : Nat × Queue => (q.1, s.noteHead q.1 q.2)) s.queues }

/-- 2 us of the fixed clock. -/
def reserveClocks : Nat := 2100

/-- A placement unit of the partition: a core for a task, a cluster for a cast list. -/
def State.unitOk (s : State) (p : Partition) (cast : Bool) (unit : Nat) : Bool :=
  if cast then 256 ≤ unit && !(s.cluster (unit - 256)).retired && p.cores.any fun c => clusterOfCore c = unit - 256
  else p.cores.contains unit && s.openCore unit

/-- Die of a placement unit. -/
def dieOfUnit (unit : Nat) : Nat := if unit < 256 then unit / 64 else (unit - 256) / 16

/-- The dispatcher keeps a unit for the head entry of the highest-priority queue, which has waited without fitting. -/
def reserveUnit (s : State) (n unit : Nat) : State :=
  match NMap.find? s.queues n, s.partOfQueue n with
  | some q, some (_, p) =>
    match s.headEntry q with
    | none => s
    | some e =>
      let cast := match s.parse q.slot e with
        | .launch l => l.cast
        | .bad _ _ => false
      let served (m : Nat) : Bool := match s.partOfQueue m with
        | some (_, x) => x.hasDie (dieOfUnit unit)
        | none => false
      if q.enabled && s.headStuck n q && q.headSince + reserveClocks ≤ s.clock && s.unitOk p cast unit &&
          !(s.reserved.any fun r => r.queue = n) &&
          s.queues.all fun x => !(x.2.enabled && !x.2.entries.isEmpty && served x.1 && q.prio < x.2.prio) then
        { s with reserved := s.reserved ++ [⟨unit, n⟩] }
      else s
  | _, _ => s

/-- `PLACEMENT_UNIT_RESERVE`. -/
def execPlacementUnitReserve (s : State) : Out :=
  match s.turn with
  | .event (.placementUnitReserve q u) => .next (reserveUnit s q u)
  | _ => .next s

/-- A head entry that has waited 2^24 clocks for a resource is posted, once for each wait. -/
def resourceWait (s : State) (n : Nat) (r : Resource) : State :=
  match NMap.find? s.queues n, s.partOfQueue n with
  | some q, some (pn, _) =>
    match q.entries.head?, NMap.find? q.shortSince (resourceNo r) with
    | some e, some c =>
      if c + 2 ^ 24 ≤ s.clock && s.headShort n q r && !q.told.contains (resourceNo r) then
        (s.setQueue n { q with told := q.told ++ [resourceNo r] }).post (.resourceWait pn n e.seq r)
      else s
    | _, _ => s
  | _, _ => s

/-- `PLACEMENT_RESOURCE_WAIT_EVENT`. -/
def execPlacementResourceWaitEvent (s : State) : Out :=
  match s.turn with
  | .event (.placementResourceWaitEvent q r) => .next (resourceWait s q r)
  | _ => .next s

end Sys2Proof.Machine
end

