-- ==== Sys2Proof/Machine/Finish.lean ====
section
/-!
DEFINITION. The completion of tasks and troupes, audits and their replays, and units that consumed poisoned data (02:R50, R51; 03:R72;
09:R277, R282; 15:R365; 17:R409; 19:R417 to R419, R424 to R426).
-/
namespace Sys2Proof.Machine

/-! ## What a unit gives back (02:R51; 03:R72; 11:R327, R342) -/

/-- The unit's private blocks are unmapped and credited to arena 0; none while the translation generation must wait for a sweep. -/
def Context.freeBlockPages (c : Context) (blocks : List Nat) : Option Context :=
  if blocks.isEmpty then some c else
  c.bumpTgen.map fun c =>
    let n := c.blockLen
    let a := c.arena 0
    { c.setArena 0 { a with charge := a.charge - blocks.length * n } with
      pages := List.filter (fun e : Nat × Page => !blocks.any fun b => overlaps b n (e.1 * 65536) e.2.size) c.pages
      privUsed := c.privUsed.filter fun b => !blocks.contains b }

/-- The entries of a unit leave the reservation table of its cluster. -/
def Cluster.withdraw (c : Cluster) (n : Nat) : Cluster :=
  { c with table := c.table.filter fun p => p.unit ≠ n, current := c.current.filter fun p => p.unit ≠ n }

/-- The unit's walks, tokens, footprint, barriers, sequencer, accumulator slots, blocks and migrations are free. -/
def State.freeUnit (s : State) (n : Nat) (u : LUnit) : Option State :=
  ((s.ctx u.slot).freeBlockPages u.blocks).map fun c =>
    let s := (((s.setCtx u.slot c).freeWalks n).setCluster u.cluster ((s.cluster u.cluster).withdraw n)).setUnit n { u with complete := true }
    { s with migrations := s.migrations.filter fun m => !u.teams.contains m.team }

/-! ## Conditions (02:R50; 09:R277, R282) -/

/-- The sequencer of a unit has ended. -/
def State.seqOver (s : State) (u : LUnit) : Bool :=
  match u.seqr with
  | some q => q.done || !u.goesOn || (s.ctx u.slot).refuted u.launch.hyp
  | none => true

/-- A copy entry of the unit is still in an engine. -/
def State.hasCopies (s : State) (n : Nat) : Bool := s.ce.any fun x => x.2.entries.any fun e => e.tags.unit = n

/-- Every store of the unit's teams, of its sequencer and of its own hardware has been performed at device scope, with the write-backs of the
tiles of its cores (03:R97). -/
def State.unitPerformed (s : State) (n : Nat) (u : LUnit) : Bool :=
  u.teams.all (fun t => s.performed t 4) && s.performed (mtxTeam n) 4 && s.performed (2 ^ 34 + n) 4 &&
    (s.flight.all fun r => r.tags.unit ≠ n) && u.cores.all s.tilesBack

/-- Some core of the unit holds tile bytes that are not written back. -/
def State.unitDirty (s : State) (u : LUnit) : Option Nat := u.cores.find? fun c => s.dirtyTiles c

/-- The teams and the sequencer of a unit have ended. -/
def State.ended (s : State) (u : LUnit) : Bool := !u.complete && s.unitOver u && s.seqOver u

/-! ## The way a unit ends -/

/-- The code of a failed unit (15:R365; 16:R375, R380). -/
def Ending.code : Ending → Nat
  | .levelTwo c => 0x200 + c
  | .matrix c => 0x100 + c
  | .refuted => 2
  | .context => 0x521
  | .poison => 0x510

/-- How a unit whose teams have all exited ends: one whose sequencer a refute ended fails like one with a refuted team. -/
def State.endingOf (s : State) (u : LUnit) : Option Ending :=
  match u.ending, u.seqr with
  | some e, _ => some e
  | none, some q => if !q.done && (s.ctx u.slot).refuted u.launch.hyp then some .refuted else none
  | none, none => none

/-! ## Audits (19:R425) -/

/-- One bit of the CRC-64 of ECMA-182, bit-reflected. -/
def crcBit (c : W64) : W64 := if c.getLsbD 0 then (c >>> 1) ^^^ 0xC96C5795D7870F42 else c >>> 1

/-- One byte. -/
def crcByte (c : W64) (b : Byte) : W64 := (List.range 8).foldl (fun c _ => crcBit c) (c ^^^ b.zeroExtend 64)

/-- The signature of some bytes. -/
def crc64 (bs : List Byte) : W64 := ~~~(bs.foldl crcByte (BitVec.allOnes 64))

/-- The output region of a task; free where it cannot be read. -/
def State.outputBytes (s : State) (u : LUnit) : List Byte :=
  match s.recordAt u.slot u.launch.outBase u.launch.outLen with
  | some (bs, _) => bs
  | none => (List.range u.launch.outLen).map fun i => Config.freeByte (s.draw i)

/-- The shadow buffer over the output region; free where the replay wrote nothing (log 26). -/
def State.shadowBuffer (s : State) (u : LUnit) (a : Audit) : List Byte :=
  (List.range u.launch.outLen).map fun i => (NMap.find? a.shadow (u.launch.outBase.toNat + i)).getD (Config.freeByte (s.draw i))

/-- The replay of a unit: at priority 0, on no share. -/
def replayStart (u : LUnit) (k : Nat) (stamp : List (BitVec 32)) : Start where
  launch := { u.launch with prio := 0 }
  slot := u.slot
  queue := u.queue
  qprio := 0
  seq := u.seq
  attempt := 0
  avoid := none
  stamp := stamp
  replay := some k

/-- A core, off the original's cluster, on which a replay fits and whose start acquire can be; which one is free. -/
def State.replayCore (s : State) (p : Partition) (u : LUnit) (x : Start) : Option Nat :=
  let l := p.cores.filter fun c => clusterOfCore c ≠ u.cluster && covers (s.vc (dieOfCore c)) x.stamp && s.assignmentOk p x [c]
  l[Config.pick (s.draw 60000) % l.length]?

/-- Replaces audit `k`. -/
def State.setAudit (s : State) (k : Nat) (a : Audit) : State := { s with audits := s.audits.set k a }

/-- The replay of an audit is placed, if it fits now (19:R425). -/
def State.placeReplay (s : State) (u : LUnit) (k : Nat) (a : Audit) : State :=
  match s.partOf u.slot with
  | none => s
  | some (_, p) =>
    let x := replayStart u k (s.vc (dieOfCore (s.leaderCore u)))
    match (s.replayCore p u x).bind fun c => s.place p x [c] none with
    | none => s
    | some s' => s'.setAudit k { a with replay := some s.units.length }

/-- The signature of a marked task is computed and its replay placed; one that does not fit is placed later (log 26). -/
def State.startReplay (s : State) (u : LUnit) : State :=
  match u.audit.bind fun k => (s.audits[k]?).map fun a => (k, a) with
  | none => s
  | some (k, a) =>
    if u.ending.isSome then s.setAudit k { a with closed := true } else
    let a := { a with sig := crc64 (s.outputBytes u) }
    (s.setAudit k a).placeReplay u k a

/-! ## `TASK_COMPLETE` (02:R50; 15:R365; 17:R409) -/

/-- A unit of a killed context performs no completion, and is recorded. -/
def endKilled (s : State) (n : Nat) (u : LUnit) : State :=
  match s.freeUnit n u with
  | some s => s.failUnitEntry u 0x521 2 u.launch.addr.toNat 0
  | none => s

/-- The completion of a unit: resources are freed, a failure is recorded, and the future or the counter acts. -/
def State.conclude (s : State) (n : Nat) (u : LUnit) (code : Option Nat) : State :=
  match s.freeUnit n u with
  | none => s
  | some s =>
    let s := match code with
      | some c => s.failUnitEntry u c 3 u.launch.addr.toNat 0
      | none => s
    s.finish n u.launch.future u.launch.completion code u.exitVal.toNat

/-- May the completion's action take place: every store of the unit is performed at device scope, and the homes know of it. -/
def State.releasedAll (s : State) (n : Nat) (u : LUnit) : Bool :=
  s.unitPerformed n u && !s.hasCopies n && ((s.ctx u.slot).freeBlockPages u.blocks).isSome &&
    s.actionReady (u.cores.map dieOfCore) u.slot u.launch.completion u.launch.future

/-- A task or troupe whose last team has exited completes. -/
def completeTask (s : State) (n : Nat) : State :=
  match s.unit? n with
  | none => s
  | some u =>
    if !s.ended u || u.replay.isSome then s else
    match s.endingOf u with
    | some .context => endKilled s n u
    | some .poison => s
    | e =>
      if u.poisoned && e.isNone then s else
      match s.unitDirty u with
      | some c => s.releaseTiles (s.unitTags n u) c
      | none =>
        if !s.releasedAll n u then s else
        let s := s.startReplay { u with ending := e }
        s.conclude n u (e.map Ending.code)

/-- `TASK_COMPLETE`. -/
def execTaskComplete (s : State) : Out :=
  match s.turn with
  | .event (.taskComplete n) => .next (completeTask s n)
  | _ => .next s

/-! ## `AUDIT_REPLAY_COMPLETE` (19:R425, R426) -/

/-- An entry of kind 7 for the audit of a unit: the original signature, and the replay's (19:R422). -/
def State.auditEntry (s : State) (o : LUnit) (code : Nat) (a : Audit) (sig : W64) : State :=
  s.recordFailure o.queue ⟨code, 7, o.attempt, o.troupe, o.launch.addr.toNat, a.sig.toNat, sig.toNat⟩

/-- A cluster takes no new placement. -/
def State.quarantine (s : State) (c : Nat) : State := s.setCluster c { s.cluster c with quarantined := true }

/-- The copy entries of a unit leave their queues. -/
def State.removeCopies (s : State) (n : Nat) : State :=
  { s with ce := List.map (fun x : Nat × CeQueue => (x.1, { x.2 with entries := x.2.entries.filter fun e => e.tags.unit ≠ n })) s.ce }

/-- The audit is over, and the replay's resources are free. -/
def State.closeAudit (s : State) (k : Nat) (a : Audit) (n : Nat) (u : LUnit) : Option State :=
  (s.freeUnit n u).map fun s => (s.removeCopies n).setAudit k { a with closed := true, shadow := [] }

/-- The teams of a unit that have not exited exit. -/
def State.stopTeams (s : State) (u : LUnit) : State :=
  u.teams.foldl (fun s t => match s.teams[t]? with
    | some tm => if tm.state = .exited then s else s.exitTeam t 0
    | none => s) s

/-- The signatures are compared; a difference is reported and quarantines the clusters of the replay `u` and of the original `o`. -/
def State.compareAudit (s : State) (a : Audit) (o u : LUnit) (sig : W64) : State :=
  if sig = a.sig then s else ((s.auditEntry o 0x550 a sig).quarantine u.cluster).quarantine o.cluster

/-- The replay of an audit has ended, with its copies, or has lost its inputs. A replay still to be placed is placed, if it fits. -/
def auditOver (s : State) (k : Nat) : State :=
  match s.audits[k]? with
  | none => s
  | some a =>
    match s.unit? a.unit, a.replay, a.closed with
    | some o, none, false =>
      if !o.complete then s
      else if !(s.ctx o.slot).live || (s.ctx o.slot).inc ≠ o.inc then s.setAudit k { a with closed := true }
      else s.placeReplay o k a
    | some o, some n, false =>
      match s.unit? n with
      | none => s
      | some u =>
        let sig := crc64 (s.shadowBuffer u a)
        if a.lost && u.ending.isNone then
          match (s.stopTeams u).closeAudit k a n u with
          | some s => s.auditEntry o 0x551 a sig
          | none => s
        else if !s.unitOver u || (u.ending.isNone && !u.poisoned && s.hasCopies n) then s
        else match s.closeAudit k a n u with
          | none => s
          | some s => match u.ending with
            | some .context => s
            | some _ => s.auditEntry o 0x551 a sig
            | none => if u.poisoned then s.auditEntry o 0x551 a sig else s.compareAudit a o u sig
    | _, _, _ => s

/-- `AUDIT_REPLAY_COMPLETE`. -/
def execAuditReplayComplete (s : State) : Out :=
  match s.turn with
  | .event (.auditReplayComplete k) => .next (auditOver s k)
  | _ => .next s

/-! ## `POISON_CONSUMED` (19:R417 to R419) -/

/-- A copy entry that has begun is not removed (19:R417). -/
def CeEntry.hasBegun (e : CeEntry) : Bool := e.begun || e.taken

/-- The copy entries of a unit, with core and queue. -/
def State.copiesOf (s : State) (n : Nat) : List (Nat × Nat × CeEntry) :=
  s.ce.flatMap fun x => (x.2.entries.filter fun e => e.tags.unit = n).map fun e => (x.1 / 4, x.1 % 4, e)

/-- What the relaunch decision gives (19:R418). -/
inductive Decision where
  | relaunch (rollback : Bool)
  | fail (code : Nat)
  deriving DecidableEq, Repr

/-- The decision of 19:R418, R419 for a unit. -/
def State.decide (s : State) (u : LUnit) : Decision :=
  let l := u.launch
  if !(NMap.find? s.queues u.queue).isSome then .fail 0x510
  else if !l.idempotent ∧ l.hyp = 0 then .fail 0x510
  else if l.hyp ≠ 0 ∧ ((s.ctx u.slot).hyp l.hyp).state = .confirmed ∧ !l.idempotent then .fail 0x510
  else if 2 ≤ u.attempt then .fail 0x511
  else .relaunch (l.hyp ≠ 0 ∧ ((s.ctx u.slot).hyp l.hyp).state = .opened)

/-- Versions of `h` and its descendants go, and its descendants are refuted; `h` stays open. -/
def State.rollback (s : State) (slot h : Nat) : State :=
  let c := s.ctx slot
  let below := (c.hyps.filter fun e => e.2.state ≠ .free && e.1 ≠ h && e.2.parent = h).map (·.1)
  ((below.foldl (fun s x => s.refute slot x) s).dropVersions slot [h]).dropHypLines slot

/-- The retained record goes to the head of its queue, with the next attempt. -/
def State.requeue (s : State) (u : LUnit) : State :=
  match NMap.find? s.queues u.queue with
  | none => s
  | some q =>
    let e : QEntry := ⟨u.launch.addr, if u.launch.cast then 2 else 1, u.seq, some (u.launch, u.attempt + 1, u.cluster), 0,
      s.vc (dieOfCore (s.leaderCore u))⟩
    s.setQueue u.queue { q with entries := e :: q.entries, headSince := s.clock, shortSince := [], told := [] }

/-- Each removed entry fails: it is recorded, a join once for its command, and its actions act (19:R419). -/
def State.failCopies (s : State) (l : List (Nat × Nat × CeEntry)) : State :=
  l.foldl (fun s x =>
    let e := x.2.2
    let first := match e.kind with
      | .join _ _ => l.all fun y => !(y.2.2.kind = e.kind && y.2.1 < x.2.1)
      | _ => true
    let s := if first then s.ceRecord e.tags 0x512 4 e.dst.toNat e.bytes else s
    e.actions.foldl (fun s a => s.ceAct e.tags a (some 0x512)) s) s

/-- The actions of a unit that is not relaunched may act. -/
def State.failReady (s : State) (u : LUnit) (l : List (Nat × Nat × CeEntry)) : Bool :=
  s.hwRoom (8 * ((l.flatMap fun x => x.2.2.actions).length + 2)) && s.homesReady (u.cores.map dieOfCore)
    (s.actionHomes u.slot u.launch.completion u.launch.future ++
      l.flatMap fun x => x.2.2.actions.flatMap fun a => s.actionHomes u.slot a.addr (!a.counter))

/-- The marked audit of a unit is dropped. -/
def State.dropAudit (s : State) (u : LUnit) : State :=
  match u.audit with
  | some k => match s.audits[k]? with
    | some a => { s with audits := s.audits.set k { a with closed := true } }
    | none => s
  | none => s

/-- Steps 3 to 5 of 19:R417, once every request of the unit has been performed or dropped. -/
def settlePoison (s : State) (n : Nat) (u : LUnit) : State :=
  let l := s.copiesOf n
  if !s.unitPerformed n u || l.any (fun x => x.2.2.hasBegun) || !s.failReady u l then s else
  let s0 := (s.removeCopies n).dropAudit u
  match s.decide u with
  | .relaunch back =>
    match s0.freeUnit n u with
    | none => s
    | some s1 => (if back then s1.rollback u.slot u.launch.hyp else s1).requeue u
  | .fail code =>
    match s0.freeUnit n u with
    | none => s
    | some _ => (s0.conclude n u (some code)).failCopies l

/-- A unit that consumed poisoned data is killed as a whole; when it has ended, it is relaunched or fails. -/
def consumed (s : State) (n : Nat) : State :=
  match s.unit? n with
  | none => s
  | some u =>
    if !u.poisoned || u.complete then s else
    match u.ending with
    | none => s.failUnit n .poison .poison
    | some .refuted => s.failUnit n .poison .poison
    | some .poison =>
      if u.replay.isSome || !s.unitOver u then s else
      match s.unitDirty u with
      | some c => s.releaseTiles (s.unitTags n u) c
      | none => settlePoison s n u
    | some _ => s

/-- `POISON_CONSUMED`. -/
def execPoisonConsumed (s : State) : Out :=
  match s.turn with
  | .event (.poisonConsumed n) => .next (consumed s n)
  | _ => .next s

end Sys2Proof.Machine
end

