-- ==== Sys2Proof/Machine/Arrivals.lean ====
section
/-!
DEFINITION. Requests and messages that arrive: at home slices, at replicas, over the links between dies; and the sweeps that return
numbers (03:R81 to R83, R87, R93, R94, R101, R108, R111; 10:R310, R311; 19:R433, R434, R440).
-/
namespace Sys2Proof.Machine

/-! ## Replicas and notices (03:R83; 10:R310, R311) -/

/-- A byte of a pushed update that a replica takes: one that is newer than what the replica has of that byte, and not one of a store of its
own die that the home orders later or has not yet numbered. The comparison of 03:R83 is made byte by byte, so that every replica comes to the
home order (10:R309; DEDUCED, log 81). -/
def Replica.takes (r : Replica) (p : Push) (o : Nat) : Bool :=
  serialGt p.seq (NMap.get r.seqs r.base o) && match NMap.find? r.own o with
  | none => true
  | some none => false
  | some (some n) => serialGt p.seq n

/-- A replica with an update. -/
def Replica.update (r : Replica) (p : Push) : Replica :=
  if r.die = p.die && r.key = p.line then
    let new := List.filter (fun e : Nat × Byte => r.takes p e.1) p.bytes
    { r with
      seq := if serialGt p.seq r.seq then p.seq else r.seq
      seqs := List.foldl (fun m (e : Nat × Byte) => NMap.insert m e.1 p.seq) r.seqs new
      line := r.line.write new p.stamp }
  else r

/-- A pushed update is applied on its die, or found old, once its predecessors are. -/
def applyPush (s : State) (i : Nat) : State :=
  match s.pushes[i]? with
  | none => s
  | some p =>
    if !(s.clockReady p.die p.src p.stamp && s.reachesOne p.home p.die) then s else
    ({ s.cross p.home p.die with
        pushes := s.pushes.eraseIdx i, replicas := s.replicas.map fun r => Replica.update r p }).noteClock p.die p.src p.stamp

/-- `REPLICA_UPDATE_APPLY`. -/
def execReplicaUpdateApply (s : State) : Out :=
  match s.turn with
  | .event (.replicaUpdateApply i) => .next (applyPush s i)
  | _ => .next s

/-- A clock notice is noted once its predecessors are. -/
def noteNotice (s : State) (i : Nat) : State :=
  match s.notices[i]? with
  | none => s
  | some n =>
    if s.clockReady n.die n.src n.stamp && s.leads n.home n.die then ({ s with notices := s.notices.eraseIdx i }).noteClock n.die n.src n.stamp else s

/-- `CLOCK_NOTICE_ARRIVAL`. -/
def execClockNoticeArrival (s : State) : Out :=
  match s.turn with
  | .event (.clockNoticeArrival i) => .next (noteNotice s i)
  | _ => .next s

/-! ## Home slices (03:R82, R87; 10:R311) -/

/-- Request `x` belongs to a lower row of the same releasing word (08:R239). -/
def Req.lowerRow (r x : Req) : Bool := r.tags.order / 2 = 1 && x.tags.team = r.tags.team && x.born / 2 ^ 32 = r.born / 2 ^ 32 && x.born < r.born

/-- No earlier store of the same die to the same line is still on its way, no lower line of an access that this one completes
(06:R173), and no lower row of a word that releases (08:R239). -/
def State.firstOfLine (s : State) (i : Nat) (r : Req) : Bool :=
  (s.flight.take i).all fun x => !(x.die = r.die && (x.line = r.line || (x.born = r.born && r.prevs.contains x.line) || r.lowerRow x))

/-- The destination answers a request. -/
def State.answer (s : State) (r : Req) (n : BitVec 16) : State :=
  { s with acks := s.acks ++ [⟨r.home, r.die, n, r.tags.slot, r.tags.inc⟩] }

/-- Request `i` is performed, or dropped, and answered over the link on which it came. -/
def State.perform (s : State) (i : Nat) (r : Req) : State :=
  let s := ({ s with flight := s.flight.eraseIdx i } : State).performStore r
  match r.seq with
  | none => s
  | some n => (s.setPair r.die r.home ((s.pair r.die r.home).executes n)).answer r n

/-- The upper part of a cell of `MACST` that crosses a line: the two are one event, whatever their homes (10:R314). No other request has their
number. -/
def State.partner (s : State) (i : Nat) (r : Req) : Option (Nat × Req) :=
  if r.tags.team < 2 ^ 33 || 2 ^ 34 ≤ r.tags.team then none else
  (s.flight.mapIdx fun j x => (j, x)).find? fun e => i < e.1 && e.2.born = r.born && e.2.prevs = [r.line]

/-- The upper part `x`, request `j`, can be performed with the lower part, request `i`: it has come to its home, which admits the lower part's
stamp now. -/
def State.partnerReady (s : State) (i j : Nat) (r x : Req) : Bool :=
  (x.die = x.home || !x.onLink) && ({ s with flight := s.flight.eraseIdx i } : State).firstOfLine (j - 1) x &&
    (x.home = r.home || x.die = x.home || (s.clockReady x.home r.die r.stamp && s.reachesOne r.home x.home))

/-- The push or notice of a store comes to die `d`. -/
def State.tellDie (s : State) (d : Nat) (r : Req) : State :=
  match s.pushes.findIdx? fun p => p.die = d && p.src = r.die && p.stamp = r.stamp with
  | some i => applyPush s i
  | none => match s.notices.findIdx? fun n => n.die = d && n.src = r.die && n.stamp = r.stamp with
    | some i => noteNotice s i
    | none => s

/-- A store is performed, with its partner if it has one, unless a slice stalls new writes to its line; then a replica that lags may go
(10:R311). -/
def State.performSoon (s : State) (i : Nat) (r : Req) : State :=
  match s.partner i r with
  | none => if s.sliceReady r.home r.line then s.perform i r else s.shedLagging r.home r.line
  | some (j, x) =>
    if !s.partnerReady i j r x then s
    else if s.sliceReady r.home r.line && s.sliceReady x.home x.line then
      let s := s.perform i r
      (if x.home = r.home || x.die = x.home then s else s.tellDie x.home r).perform (j - 1) x
    else (s.shedLagging r.home r.line).shedLagging x.home x.line

/-- Request `i` leaves the list of those on their way. -/
def State.dropFlight (s : State) (i : Nat) : State := { s with flight := s.flight.eraseIdx i }

/-- A store of a core of the home die reaches its home slice. -/
def homeArrival (s : State) (i : Nat) : State :=
  match s.flight[i]? with
  | none => s
  | some r => if r.die = r.home && s.firstOfLine i r then s.performSoon i r else s

/-- `HOME_REQUEST_ARRIVAL`. -/
def execHomeRequestArrival (s : State) : Out :=
  match s.turn with
  | .event (.homeRequestArrival i) => .next (homeArrival s i)
  | _ => .next s

/-- A forwarded store is admitted once its home die has applied its predecessors; its acknowledgement goes back. -/
def forwardedArrival (s : State) (i : Nat) : State :=
  match s.flight[i]? with
  | none => s
  | some r =>
    if r.die ≠ r.home && !r.onLink && s.clockReady r.home r.die r.stamp && s.firstOfLine i r then s.performSoon i r else s

/-- `FORWARDED_STORE_ARRIVAL`. -/
def execForwardedStoreArrival (s : State) : Out :=
  match s.turn with
  | .event (.forwardedStoreArrival i) => .next (forwardedArrival s i)
  | _ => .next s

/-! ## Links (19:R432 to R435, R438, R440) -/

/-- The header slot of a message (19:R432). -/
structure Header where
  line : Nat
  stamped : Bool
  scope : Nat
  reservation : Nat
  hyp : Nat
  gen : Nat
  arena : Nat
  inc : Nat
  slot : Nat
  seq : Nat
  kind : Nat
  dst : Nat
  src : Nat
  deriving DecidableEq, Repr

/-- Its 128 bits. -/
def Header.bits (h : Header) : BitVec 128 :=
  BitVec.ofNat 128 (h.src % 4 + h.dst % 4 * 2 ^ 2 + h.kind % 8 * 2 ^ 4 + h.seq % 2 ^ 16 * 2 ^ 7 + h.slot % 64 * 2 ^ 23 + h.inc % 4096 * 2 ^ 29 +
    h.arena % 1024 * 2 ^ 41 + h.gen % 64 * 2 ^ 51 + h.hyp % 256 * 2 ^ 57 + h.reservation % 1024 * 2 ^ 65 + h.scope % 8 * 2 ^ 75 +
    (if h.stamped then 2 ^ 78 else 0) + h.line / 128 % 2 ^ 49 * 2 ^ 79)

/-- The header under which a posted store travels: a write, with the stamp of its die. -/
def Req.header (r : Req) : Header where
  line := r.line
  stamped := true
  scope := r.tags.scope
  reservation := r.tags.queue
  hyp := r.tags.hyp
  gen := r.tags.gen.toNat
  arena := r.tags.arena
  inc := r.tags.inc.toNat
  slot := r.tags.slot
  seq := (r.seq.getD 0).toNat
  kind := 1
  dst := r.home
  src := r.die

/-- A flit has arrived on link k from die `e` at die `d`: no failure stands. -/
def State.received (s : State) (d e k : Nat) : State :=
  s.setModule d (moduleTo d e k) { s.module d (moduleTo d e k) with fails := 0 }

/-- The links of a pair that are up. -/
def State.upLinks (s : State) (d e : Nat) : List Nat := (List.range 6).filter fun k => s.linkUp d e k

/-- Another link of a pair that is up, if any; which one is free. -/
def State.otherLink (s : State) (d e k i : Nat) : Nat := ((s.upLinks d e)[Config.pick (s.draw i) % (s.upLinks d e).length]?).getD k

/-- A request is sent: it gets the pair's next number, when at most 256 are then unanswered, and a module (19:R433, R439). -/
def State.sendRequest (s : State) (i : Nat) (r : Req) : State :=
  let p := s.pair r.die r.home
  if 256 ≤ p.span + 1 then s else
  let r := { r with seq := some p.next, module := s.otherLink r.die r.home r.module i, sent := s.tick }
  { s.setPair r.die r.home { p with next := p.next + 1, buffer := p.buffer ++ [r] } with flight := s.flight.set i r }

/-- A request that was sent on the same link of the same pair before stands before the link still (19:R431); those sent again at once keep the
order of their numbers (19:R434). -/
def Req.after (r x : Req) : Bool :=
  x.die = r.die && x.home = r.home && x.module = r.module && x.seq.isSome && x.seq ≠ r.seq &&
    (x.sent < r.sent || (x.sent = r.sent && seqNewer (r.seq.getD 0) (x.seq.getD 0)))

/-- It is the next one that its link delivers. -/
def State.nextOnLink (s : State) (r : Req) : Bool := (s.flight.all fun x => !(x.onLink && r.after x)) && s.resends.all fun x => !r.after x

/-- A request arrives over a link: a new one is admitted, an old one is dropped. -/
def newArrives (s : State) (i : Nat) (r : Req) : State :=
  match r.seq with
  | none => s.sendRequest i r
  | some n =>
    if !s.linkOpen r.die r.home r.module then
      { s with flight := s.flight.set i { r with module := s.otherLink r.die r.home r.module i, sent := s.tick } } else
    if !s.nextOnLink r then s else
    let s := s.received r.home r.die r.module
    let p := s.pair r.die r.home
    if seqNewer n p.newest || inWindow p.newest n then
      ({ s with flight := s.flight.set i { r with onLink := false } }).setPair r.die r.home
        { p with newest := if seqNewer n p.newest then n else p.newest }
    else s.dropFlight i

/-- A request that was executed arrives again: its checks are made again, and the stored response is sent again (19:R433). -/
def resentArrives (s : State) (j : Nat) (r : Req) : State :=
  if !s.linkOpen r.die r.home r.module then
    { s with resends := s.resends.set j { r with module := s.otherLink r.die r.home r.module j, sent := s.tick } } else
  if !s.nextOnLink r then s else
  let s := { s.received r.home r.die r.module with resends := s.resends.eraseIdx j }
  match r.seq with
  | none => s
  | some n =>
    if !(s.pair r.die r.home).executed.contains n then s else
    let s := match s.homeCheck r.tags r.line with
      | some d => s.countDrop r.tags.slot d.counter
      | none => s
    s.answer r n

/-- A request moves on over its link; those beyond the first ones are sent again. -/
def messageArrives (s : State) (i : Nat) : State :=
  match s.flight[i]? with
  | some r => if r.onLink then newArrives s i r else s
  | none => match s.resends[i - s.flight.length]? with
    | some r => resentArrives s (i - s.flight.length) r
    | none => s

/-- `DIE_MESSAGE_ARRIVAL`. -/
def execDieMessageArrival (s : State) : Out :=
  match s.turn with
  | .event (.dieMessageArrival i) => .next (messageArrives s i)
  | _ => .next s

/-- A response arrives at the source: its request leaves the end-to-end buffer. One whose number no longer stands there is discarded; one
of an old incarnation is counted (03:R108). -/
def responseArrives (s : State) (i : Nat) : State :=
  match s.acks[i]? with
  | none => s
  | some a =>
    let s := { s with acks := s.acks.eraseIdx i }
    let p := s.pair a.dst a.src
    if p.buffer.all fun r => r.seq ≠ some a.seq then s else
    let s := s.setPair a.dst a.src { p with buffer := p.buffer.filter fun r => r.seq ≠ some a.seq }
    if a.inc = (s.ctx a.slot).inc then s else s.countDrop a.slot 0

/-- `DIE_RESPONSE_ARRIVAL`. -/
def execDieResponseArrival (s : State) : Out :=
  match s.turn with
  | .event (.dieResponseArrival i) => .next (responseArrives s i)
  | _ => .next s

/-! ## Sweeps (03:R93, R94, R101, R111) -/

/-- Is a line on a page of one of a context's arenas? -/
def Context.onArena (c : Context) (a key : Nat) : Bool :=
  c.pages.any fun e => e.2.arena = a && e.2.phys ≤ key && key < e.2.phys + e.2.size

/-- The home lines that carry an arena's number are discarded, and read 0 from now on (03:R85, R93; log 14). -/
def State.discardHome (s : State) (slot a : Nat) : State :=
  let mine (e : Nat × HomeLine) : Bool := e.2.slot = slot && e.2.arena = a
  let gone := (List.filter mine s.home).map (·.1)
  let s := s.evictReplicas fun r => gone.contains (r.key / 128)
  gone.foldl (fun s k => s.zeroRange (128 * k) 128) { s with home := List.filter (fun e => !mine e) s.home }

/-- Step 2 of a drop: the lines and versions that carry the arena's number, and those on its pages, are discarded, without write-back
(03:R85, R93). -/
def State.discardArena (s : State) (slot a : Nat) : State :=
  let c := s.ctx slot
  { (s.discardHome slot a).evictReplicas (fun r => (r.slot = slot && r.arena = a) || c.onArena a r.key) with
    l1 := s.l1.filter fun l => !(l.slot = slot && l.arena = a)
    versions := s.versions.filter fun v => !(v.slot = slot && (v.arena = a || c.onArena a v.key)) }

/-- The pages of an arena that no other entry maps read as zero from now on: none of its stores reaches another arena (03:R94; log 14). -/
def State.wipeArena (s : State) (slot a : Nat) : State :=
  let mine := List.filter (fun e : Nat × Page => e.2.arena = a) (s.ctx slot).pages
  let kept (e : Nat × Page) : Bool := s.contexts.any fun c => c.2.pages.any fun x =>
    (c.1 ≠ slot || x.2.arena ≠ a) && overlaps e.2.phys e.2.size x.2.phys x.2.size
  (mine.filter fun e => !kept e && physClass e.2.phys = 0).foldl (fun s e => s.zeroRange e.2.phys e.2.size) s

/-- A request that carries an old generation of an arena is still on its way (03:R91). -/
def State.oldRequests (s : State) (slot a : Nat) : Bool :=
  s.flight.any fun r => r.tags.slot = slot && r.tags.arena = a && !r.tags.phys && r.tags.gen ≠ ((s.ctx slot).arena a).gen

/-- What the parent of a dropped arena gets back. -/
def Arena.credit (parent child : Arena) : Arena :=
  { parent with charge := parent.charge - child.quota, bump := if child.stop = parent.bump then child.base else parent.bump }

/-- Step 3 of a drop: the pages are unmapped, and the parent credited: the arena that bears the parent's number now, if that number was freed
and used again (DESIGN CHOICE, log 88). The numbers that a posted `AR.WAIT` waits for are freed once all of
them have come so far (08:R255). -/
def Context.finishDrop (c : Context) (a : Nat) : Context :=
  let x := c.arena a
  let c := { c with pages := List.filter (fun e : Nat × Page => e.2.arena ≠ a) c.pages }
  let c := if (c.arena x.parent).state = .free then c else c.setArena x.parent ((c.arena x.parent).credit x)
  let c := c.setArena a { x with state := .dropped }
  (List.filter (fun e : Nat × Arena => e.2.autoFree) c.arenas).foldl (fun c e => if c.dropDone e.1 then c.freeArenas e.1 else c) c

/-- The sweep of a dropped arena completes, once no request with the old generation remains and the translation generation may advance. -/
def arenaSwept (s : State) (slot a : Nat) : State :=
  let c := s.ctx slot
  if (c.arena a).state ≠ .dropping || a = 0 || s.oldRequests slot a then s else
  match c.bumpTgen with
  | none => s
  | some c => ((s.discardArena slot a).wipeArena slot a).setCtx slot (c.finishDrop a)

/-- `ARENA_DROP_SWEEP_COMPLETE`. -/
def execArenaDropSweepComplete (s : State) : Out :=
  match s.turn with
  | .event (.arenaDropSweepComplete n a) => .next (arenaSwept s n a)
  | _ => .next s

/-- Nothing carries an id any more: no line, version or request, no `%hyp`, no open or confirmed child. -/
def State.hypUnused (s : State) (slot h : Nat) : Bool :=
  (s.ctx slot).resolves.isEmpty && (s.l1.all fun l => !(l.slot = slot && l.hyp = h)) && (s.versions.all fun v => !(v.slot = slot && v.hyp = h)) &&
  (s.flight.all fun r => !(r.tags.slot = slot && r.tags.hyp = h)) &&
  (s.teams.all fun t => !(t.ctrl.isNone && t.slot = slot && t.hyp = h && t.state ≠ .exited)) &&
  (s.units.all fun u => !(u.slot = slot && u.launch.hyp = h && !u.complete)) &&
  (s.ce.all fun q => q.2.entries.all fun e => !(e.tags.slot = slot && e.tags.hyp = h)) &&
  ((s.ctx slot).hyps.all fun e => !(e.2.parent = h && (e.2.state = .opened || e.2.state = .confirmed)))

/-- The sweeper frees an id that was resolved; the lines of code that were fetched under it go. -/
def hypSwept (s : State) (slot h : Nat) : State :=
  let c := s.ctx slot
  if ((c.hyp h).state = .confirmed || (c.hyp h).state = .refuted) && s.hypUnused slot h then
    { s.setCtx slot { c with hyps := NMap.erase c.hyps h } with icache := s.icache.filter fun l => !(l.slot = slot && l.hyp = h) }
  else s

/-- `HYP_SWEEP_FREE`. -/
def execHypSweepFree (s : State) : Out :=
  match s.turn with
  | .event (.hypSweepFree n h) => .next (hypSwept s n h)
  | _ => .next s

/-- A sweep of half of a context's translation tags completes. -/
def tlbSwept (s : State) (slot : Nat) (upper : Bool) : State :=
  let c := s.ctx slot
  if if upper then c.sweepHigh else c.sweepLow then
    { s.setCtx slot (if upper then { c with sweepHigh := false } else { c with sweepLow := false }) with
      tlb := s.tlb.filter fun e => !(e.slot = slot && decide (2 ^ 15 ≤ e.tgen.toNat) = upper)
      icache := s.icache.filter fun e => !(e.slot = slot && decide (2 ^ 15 ≤ e.tgen.toNat) = upper) }
  else s

/-- `TLB_HALF_SWEEP_COMPLETE`. -/
def execTlbHalfSweepComplete (s : State) : Out :=
  match s.turn with
  | .event (.tlbHalfSweepComplete n u) => .next (tlbSwept s n u)
  | _ => .next s

/-- What a slot keeps when its context ends. -/
def Context.cleared (c : Context) : Context := { Context.free with inc := c.inc, oldest := c.oldest, tgen := c.tgen }

/-- The lines, versions, translations and queues of a slot go; entries that came after the kill are recorded as those that it removed
(19:R423). -/
def State.sweepSlot (s : State) (slot : Nat) : State :=
  let c := s.ctx slot
  let s := s.killQueues slot
  let s := s.evictReplicas fun r => r.slot = slot || (s.homeLine r.key).slot = slot
  { s.setCtx slot c.cleared with
    l1 := s.l1.filter fun l => l.slot ≠ slot
    versions := s.versions.filter fun v => v.slot ≠ slot
    home := List.filter (fun e : Nat × HomeLine => e.2.slot ≠ slot) s.home
    tlb := s.tlb.filter fun e => e.slot ≠ slot
    icache := s.icache.filter fun e => e.slot ≠ slot
    queues := List.filter (fun q : Nat × Queue => q.2.slot ≠ slot) s.queues }

/-- The sweep of a killed context's slot completes: it may be given to a new context (03:R111). -/
def slotSwept (s : State) (slot : Nat) : State :=
  let c := s.ctx slot
  if c.live && c.freeing && c.reclaimed && s.units.all fun u => u.slot ≠ slot || u.complete then s.sweepSlot slot
  else s

/-- `CONTEXT_SLOT_SWEEP_COMPLETE`. -/
def execContextSlotSweepComplete (s : State) : Out :=
  match s.turn with
  | .event (.contextSlotSweepComplete n) => .next (slotSwept s n)
  | _ => .next s

end Sys2Proof.Machine
end

