-- ==== Sys2Proof/Machine/Evict.lean ====
section
/-!
DEFINITION. Pre-emption: eviction, yield deadlines, restore (02:R54; 10:R316; 11:R339, R340; 16:R385 to R389, R441; 19:R427).
-/
namespace Sys2Proof.Machine

/-! ## Who is in need of room (11:R339; 19:R427) -/

/-- A trap is to be delivered to an evicted team, which does not wait inside an SX word (16:R441). -/
def State.trapPending (s : State) (t : Nat) (tm : Team) : Bool :=
  match s.unit? tm.unit with
  | none => false
  | some u => s.firstTeam u = some t && !(tm.wait matches some (.spawn _)) &&
      ((match (u.seqr.bind (·.fault)) with
        | some f => !f.delivered
        | none => false) ||
       s.ce.any fun q => q.2.entries.any fun e => e.tags.unit = tm.unit && (match e.state with
        | .stalled false _ => true
        | _ => false))

/-- An evicted team asks to be resident again. -/
def State.recalled (s : State) (t : Nat) (tm : Team) : Bool :=
  tm.state = .evicted && tm.kill.isNone && (tm.wait.isNone || s.trapPending t tm)

/-- The unit runs to completion on a core to be retired: its sequencer runs there, or it holds a walk there (19:R427). -/
def State.keepsCore (s : State) (u : LUnit) (n c : Nat) : Bool :=
  (u.seqr.isSome && s.leaderCore u = c) || s.walks.any fun w => w.2.unit = n && w.1 / 8 = c

/-- A core takes the footprint of an evicted team: its own core, one that holds the footprint of its unit and forwards none of it, or one with
a place for it, and with its sequencer free for the matrix stream that goes with team 0 (01:R15; 19:R427). -/
def State.takesPad (s : State) (tm : Team) (u : LUnit) (c : Nat) : Bool :=
  c = tm.core || (s.seqFits tm u c &&
    if u.cores.contains c then s.migrations.all fun m => m.ended || m.old ≠ c || !u.teams.contains m.team
    else s.padUsed c + u.launch.scratch ≤ padSize)

/-- The cores on which an evicted team may be restored: of its reach, with room for it and its footprint; the core of its troupe's walk while
there is one (16:R389). It makes progress there, and the unit's tokens can be held there (11:R342; 12:R360). -/
def State.restoreOk (s : State) (tm : Team) (u : LUnit) (c : Nat) : Bool :=
  s.inReach tm u c && (s.openCore c || (!(s.core c).retired && s.keepsCore u tm.unit c)) && s.roomOn c [chargeOf tm.lanes tm.budget] &&
    s.takesPad tm u c && !s.gated c && s.tokensMove u c && s.walks.all fun w => w.2.unit ≠ tm.unit || w.1 / 8 = c

/-- The greatest priority for which room is wanted on a core: of a head entry that fits nowhere, of a recalled team that has no core. -/
def State.wanted (s : State) (c : Nat) : Option Nat :=
  let entries := s.queues.filterMap fun q =>
    match s.partOfQueue q.1, s.headEntry q.2 with
    | some (_, p), some e =>
      if q.2.enabled && p.cores.contains c && s.headStuck q.1 q.2 then
        match s.parse q.2.slot e with
        | .launch l => some l.prio
        | .bad _ _ => none
      else none
    | _, _ => none
  let teams := (s.teams.mapIdx fun t tm => (t, tm)).filterMap fun x =>
    match s.unit? x.2.unit with
    | some u =>
      if s.recalled x.1 x.2 && s.inReach x.2 u c && !((List.range 256).any fun k => s.restoreOk x.2 u k) then some (s.effPrio x.2) else none
    | none => none
  (entries ++ teams).foldl (fun (a : Option Nat) p => some (max p (a.getD 0))) none

/-- A team of this priority must make room on its core. -/
def State.mustYield (s : State) (tm : Team) : Bool :=
  ((s.core tm.core).closing && !((s.unit? tm.unit).map fun u => s.keepsCore u tm.unit tm.core).getD false) || match s.wanted tm.core with
    | some p => s.effPrio tm < p
    | none => false

/-! ## Victims (11:R339; 16:R385, R387, R388) -/

/-- Bytes of the image of a team (16:R387). -/
def imageBytes (tm : Team) : Nat := 8192 + 8 * chargeOf tm.lanes tm.budget

/-- The image fits the save pool of its partition. -/
def State.poolRoom (s : State) (tm : Team) : Bool :=
  match s.partOf tm.slot with
  | none => false
  | some (_, p) =>
    (s.teams.foldl (fun a t => if t.state = .evicted && p.slots.contains t.slot then a + imageBytes t else a) 0) + imageBytes tm ≤ p.saveBytes

/-- The word of a remote access is a load. -/
def RemoteOp.isLoad (r : RemoteOp) : Bool :=
  match r.word with
  | .atom _ => false
  | .cas _ => false
  | _ => true

/-- The group in the victim order: 1 at a barrier or a `YIELD`, 2 at a circular buffer or queue, 3 at a remote load. -/
def Team.victimGroup (tm : Team) : Option Nat :=
  match tm.state, tm.wait with
  | .blocked, some (.barArrive _) => some 1
  | .blocked, some (.barWait _ _) => some 1
  | .ready, some .yield => if tm.holding.isNone then some 1 else none
  | .blocked, some .cb => some 2
  | .blocked, some (.spawn _) => some 2
  | .blocked, some .remote => if (tm.remote.map (·.isLoad)).getD false then some 3 else none
  | _, _ => none

/-- A team that may be saved: no result, reply or copy of it is outstanding. -/
def State.savable (s : State) (t : Nat) (tm : Team) : Bool :=
  tm.ctrl.isNone && tm.kill.isNone && tm.reply.isNone && tm.pending.isEmpty && !s.moving t && s.poolRoom tm

/-- A victim on a core, with its group. -/
def State.victim (s : State) (t : Nat) (tm : Team) : Option Nat :=
  if s.savable t tm && s.mustYield tm then tm.victimGroup else none

/-- `a` is chosen before `b`, given their groups. -/
def State.victimBefore (s : State) (ga : Nat) (a : Team) (gb : Nat) (b : Team) : Bool :=
  if ga ≠ gb then ga < gb
  else if ga = 1 ∧ s.effPrio a ≠ s.effPrio b then s.effPrio a < s.effPrio b
  else a.since < b.since

/-- The victims on a core. -/
def State.victims (s : State) (c : Nat) : List (Nat × Team) :=
  (s.teams.mapIdx fun t tm => (t, tm)).filterMap fun x => if x.2.core = c then (s.victim x.1 x.2).map fun g => (g, x.2) else none

/-- The team is the one that the dispatcher takes next on its core. -/
def State.chosen (s : State) (t : Nat) (tm : Team) : Bool :=
  match s.victim t tm with
  | none => false
  | some g => (s.victims tm.core).all fun x => !s.victimBefore x.1 x.2 g tm

/-- A team whose deadline has passed stands at a run boundary (11:R340). -/
def Team.forced (tm : Team) : Bool := tm.due && tm.state = .ready && tm.holding.isNone

/-- The team is saved with its wake condition: `YIELD` and a deadline leave none. A remote load is issued again. -/
def Team.evicted (tm : Team) : Team :=
  { tm with state := .evicted, deadline := none, expired := false, holding := none,
            wait := match tm.state, tm.wait with
              | .blocked, w => w
              | _, _ => none }

/-- Saves a team: first its stores are performed at device scope (10:R316). -/
def State.save (s : State) (t : Nat) (tm : Team) : State :=
  if s.dirtyTiles tm.core then s.releaseTiles (s.tagsOf t tm) tm.core
  else if s.released t tm.core 4 then s.setTeam t tm.evicted else s

/-- Clocks from the setting of a deadline to its fall, of the team's island. -/
def deadlineClocks : Nat := 262144

/-- A resident team that a deadline can be set on: it is below what room is wanted for, and its image fits the pool. -/
def State.mayOwe (s : State) (tm : Team) : Bool :=
  tm.ctrl.isNone && tm.kill.isNone && tm.state ≠ .evicted && tm.state ≠ .exited && s.mustYield tm && s.poolRoom tm

/-- The resident team of lowest effective priority of a core among those, in whatever state it is (11:R340; 16:R386). -/
def State.lowest (s : State) (tm : Team) : Bool :=
  s.mayOwe tm && (s.residents tm.core).all fun x => !s.mayOwe x || s.effPrio tm ≤ s.effPrio x

/-- The dispatcher makes room on a core: it saves the chosen victim, or sets a deadline when no blocked team qualifies. A team whose deadline has
passed is saved at its run boundary, unless the room is no longer needed or its image has none; a gated island is left as it is (12:R360). -/
def evictTeam (s : State) (t : Nat) : State :=
  match s.teams[t]? with
  | none => s
  | some tm =>
    if s.gated tm.core then s
    else if tm.forced then
      if !s.mustYield tm || !s.poolRoom tm then s.setTeam t { tm with expired := false }
      else if s.savable t tm then s.save t tm else s
    else if s.chosen t tm then s.save t tm
    else if (s.victims tm.core).isEmpty && s.lowest tm && tm.deadline.isNone && !tm.expired then
      s.setTeam t { tm with deadline := some (s.islandClock tm.core + deadlineClocks) }
    else s

/-- `TEAM_EVICT`. -/
def execTeamEvict (s : State) : Out :=
  match s.turn with
  | .event (.teamEvict t) => .next (evictTeam s t)
  | _ => .next s

/-- A deadline passes (16:R386). -/
def deadlinePasses (s : State) (t : Nat) : State :=
  match s.teams[t]? with
  | none => s
  | some tm => match tm.deadline with
    | some d => if d ≤ s.islandClock tm.core then s.setTeam t { tm with deadline := none, expired := true } else s
    | none => s

/-- `YIELD_DEADLINE_EXPIRY`. -/
def execYieldDeadlineExpiry (s : State) : Out :=
  match s.turn with
  | .event (.yieldDeadlineExpiry t) => .next (deadlinePasses s t)
  | _ => .next s

/-! ## Restore (11:R339; 16:R389) -/

/-- A team as it is restored on a core: ready. An access to host or peer memory is given up, to be issued again; of a barrier wait that has not
ended it resumes the word (16:R388, R441; log 62). -/
def Team.restored (tm : Team) (c clock : Nat) : Team :=
  { tm with core := c, state := .ready, wait := none, remote := none, since := clock,
            rewait := match tm.wait with
              | some (.barWait n phase) => some (n, phase)
              | _ => tm.rewait }

/-- A recalled team is restored onto a core, with the acquire of 10:R316 there; its footprint and the unit's tokens come with it. -/
def restoreTeam (s : State) (t c : Nat) : State :=
  match s.teams[t]? with
  | none => s
  | some tm =>
    match s.unit? tm.unit with
    | none => s
    | some u =>
      if !(s.recalled t tm && s.restoreOk tm u c && s.mayAcquire { tm with core := c } 4) then s else
      let moved := c ≠ tm.core
      let s := if !moved then s else
        (if u.cores.contains c then s.joinPad tm.core c u.launch.scratch else s.copyPad tm.core c u.launch.scratch).setUnit tm.unit (u.addCore c)
      let s := (((s.abandonRemote tm).setTeam t (tm.restored c s.clock)).resumeAcquire t)
      if moved then s.leaveCore tm.unit tm.core else s

/-- `TEAM_RESTORE`. -/
def execTeamRestore (s : State) : Out :=
  match s.turn with
  | .event (.teamRestore t c) => .next (restoreTeam s t c)
  | _ => .next s

end Sys2Proof.Machine
end

