-- ==== Sys2Proof/Machine/Port.lean ====
section
/-!
DEFINITION. Enqueues from the host port, and queues that had no room (11:R329; 12:R354, R358; 17:R411).
-/
namespace Sys2Proof.Machine

/-! ## The enqueue port (12:R353, R354) -/

/-- The partition of a virtual function: functions 1 to 8 are those of the partitions 0 to 7. -/
def State.partFn (s : State) (fn : Nat) : Option Partition := if fn = 0 then none else NMap.find? s.parts (fn - 1)

/-- A write to an enqueue port is discarded and counted. -/
def State.discardWrite (s : State) (fn : Nat) : State :=
  { s with port := { s.port with portDisc := NMap.put s.port.portDisc 0 fn (NMap.get s.port.portDisc 0 fn + 1) } }

/-- A write to the enqueue port of a queue. It comes through the port on die 0 (01:R25): the host's earlier writes are covered by that die's
clock, and links lead from there to the place of the entry. While the dispatcher holds an entry of the queue, the port takes no write. -/
def portWrite (s : State) (fn n size : Nat) (lo hi : W64) : State :=
  match s.partFn fn with
  | none => s
  | some p =>
    match NMap.find? s.queues n with
    | none => s.discardWrite fn
    | some q =>
      if size ≠ 16 || !p.queues.contains n then s.discardWrite fn
      else if !q.held.isEmpty || !s.entryReady 0 q then s
      else s.enqueueHw n q ⟨lo, hi, s.vc 0⟩

/-- `HOST_ENQUEUE_PORT_WRITE`. -/
def execHostEnqueuePortWrite (s : State) : Out :=
  match s.turn with
  | .event (.hostEnqueuePortWrite fn n size lo hi) => .next (portWrite s fn n size lo hi)
  | _ => .next s

/-! ## Vent areas and held entries (11:R329; 17:R411) -/

/-- The oldest entry of a vent area passes into the ring, its bytes as they stand, when the ring has room. -/
def ventDrain (s : State) (n : Nat) : State :=
  match NMap.find? s.queues n with
  | none => s
  | some q =>
    match q.vent with
    | [] => s
    | e :: r =>
      if !q.sx20 && q.entries.length < 2 ^ q.log2 && s.hwRoom then
        let x := { s.readEntry q e with place := q.ringPlace e.seq }
        (s.writeEntry q x).putQueue n q { q with entries := q.entries ++ [x], vent := r }
      else s

/-- `QUEUE_VENT_DRAIN`. -/
def execQueueVentDrain (s : State) : Out :=
  match s.turn with
  | .event (.queueVentDrain n) => .next (ventDrain s n)
  | _ => .next s

/-- The oldest held entry enters the vent area or the ring, when there is room; it keeps its number. -/
def heldEnters (s : State) (n : Nat) : State :=
  match NMap.find? s.queues n with
  | none => s
  | some q =>
    match q.held with
    | [] => s
    | e :: r =>
      if q.sx20 || !s.hwRoom then s else
      match s.appendNative { q with next := e.seq } ⟨e.record, e.kind, e.stamp⟩ with
      | .done s' q' => s'.putQueue n q { q' with next := q.next, held := r }
      | _ => s

/-- `HELD_ENTRY_ENTERS_VENT`. -/
def execHeldEntryEntersVent (s : State) : Out :=
  match s.turn with
  | .event (.heldEntryEntersVent n) => .next (heldEnters s n)
  | _ => .next s

/-! ## Overflow of a segmented queue (12:R358) -/

/-- Entries that a segment holds. -/
def segmentEntries : Nat := 255

/-- The entries that waited for a segment, as far as it holds them, at their places in it. -/
def Queue.intoSegment (q : Queue) (seg : W64) : List QEntry :=
  (q.held.take segmentEntries).mapIdx fun i e => { e with place := seg.toNat + 16 * i }

/-- The queue with a new last segment, which takes the entries that waited for it. -/
def Queue.linked (q : Queue) (seg : W64) : Queue :=
  let l := q.intoSegment seg
  { q.follow seg with entries := q.entries ++ l, held := q.held.drop segmentEntries, tailIdx := l.length, suspended := none }

/-- The team of a suspended spawn goes on after its word; an evicted one is to be restored. -/
def State.resumeSpawn (s : State) (n : Nat) (t : Option Nat) : State :=
  match t with
  | none => s
  | some t =>
    match s.teams[t]? with
    | none => s
    | some tm =>
      if tm.wait = some (.spawn n) then
        s.setTeam t { tm with wait := none, pc := tm.pc + 4, since := s.clock, state := if tm.state = .blocked then .ready else tm.state }
      else s

/-- The Prompter writes the address of a new segment into the trailer of the last one, and completes the spawn that waited; entries of
counters and host writes that waited follow. -/
def linkSegment (s : State) (n : Nat) (seg : W64) : State :=
  match NMap.find? s.queues n with
  | none => s
  | some q =>
    if !q.sx20 || q.held.isEmpty || seg = 0 || !s.hwRoom (2 * segmentEntries + 4) then s else
    match s.hwPlaces q.slot (q.tailSeg + 0xFF0) 8 8 true with
    | none => s
    | some pl =>
      let s := s.eventPlaces (s.queueTags q) none (some (leBytes 8 seg.toNat)) pl
      let s := (q.intoSegment seg).foldl (fun s e => s.writeEntry q e) s
      let q' := q.linked seg
      let s := (s.putQueue n q q').resumeSpawn n q.suspended
      if q'.held.isEmpty then s else s.post (.segmentOverflow n)

/-- `SEGMENT_OVERFLOW_COMPLETE`. -/
def execSegmentOverflowComplete (s : State) : Out :=
  match s.turn with
  | .event (.segmentOverflowComplete n seg) => .next (linkSegment s n seg)
  | _ => .next s

end Sys2Proof.Machine
end

