-- ==== Sys2Proof/Machine/Outside.lean ====
section
/-!
DEFINITION. The host and the peers: accesses of theirs to the device, and their answers to accesses of the device (12:R353 to R357; 17:R392,
R412; 19:R421).
-/
namespace Sys2Proof.Machine

/-! ## Accesses from outside (12:R353, R355, R357) -/

/-- A request from outside carries hypothesis 0 and meets no incarnation or arena check; slot 64 is no context slot. -/
def outsideTags (who : Nat) : Tags where
  slot := 64
  inc := 0
  arena := 0
  gen := 0
  hyp := 0
  scope := 5
  order := 2
  phys := true
  block := false
  team := 2 ^ 36 + 2 ^ 20 + who
  unit := noUnit
  core := 256
  queue := 0

/-- The physical places of a range. -/
def State.physPlaces (s : State) (pa n : Nat) : List Place :=
  (cutLines (n / 128 + 2) pa n).map fun x => ⟨.phys, 0, x.at_, x.len, s.homeDie x.at_, 0, false⟩

/-- The home slices of a range are ready for a write that enters on die `d`. -/
def State.outsideReady (s : State) (d : Nat) (pl : List Place) : Bool := s.mayStore d && s.homesReady [d] (homesOf pl)

/-- Writes at the home slices, as a system-scope write that enters on die `d`: every cached copy is invalidated. -/
def State.outsideWrite (s : State) (tg : Tags) (d : Nat) : List Place → List Byte → State
  | [], _ => s
  | p :: r, bs => (s.storeAt tg d p.home p.key (bs.take p.len)).outsideWrite tg d r (bs.drop p.len)

/-- Every place of a range is within reach of die `d`. -/
def State.outsideReach (s : State) (d : Nat) (pl : List Place) : Bool := pl.all fun p => s.reaches d p.home

/-- The number of a queue from an offset among ports or records of `n` bytes each. -/
def queueAt (base n off : Nat) : Nat := (off - base) / n

/-- The places in HBM of some bytes of BAR0 of a function, where its failure records stand: the host port, on die 0, reaches them over the
links (01:R25; 19:R421). -/
def State.recordPlaces (s : State) (fn off n : Nat) : List Place :=
  match s.partFn fn with
  | some p => if 0x400000 ≤ off && off < 0x600000 then s.physPlaces (p.failBase + (off - 0x400000)) n else []
  | none => []

/-- A write to a register of BAR0 of a function: the base of BAR2, or RCNT of a failure record of the partition. Other registers are
read-only, or have a row of their own. -/
def writeRegister (s : State) (fn off : Nat) (v : W64) : State :=
  if 8 < fn then s else
  if off = 0x10 then { s with port := { s.port with bar2 := NMap.put s.port.bar2 0 fn v } } else
  match s.partFn fn with
  | none => s
  | some p =>
    let q := queueAt 0x400000 2048 off
    let pl := s.recordPlaces fn off 4
    if 0x400000 ≤ off && (off - 0x400000) % 2048 = 8 && p.queues.contains q && s.outsideReady 0 pl then
      s.outsideWrite (outsideTags fn) 0 pl (leBytes 4 v.toNat)
    else s

/-- The slot is one of a function's: the physical function sees all (17:R410). -/
def State.seesSlot (s : State) (fn slot : Nat) : Bool :=
  slot < 64 && (fn = 0 || match s.partFn fn with
    | some p => p.slots.contains slot
    | none => false)

/-- The status word of a module (19:R435). -/
def Module.status (m : Module) : Nat :=
  (if m.retraining then 1 else 0) + m.width.toNat * 2 ^ 10 + m.repaired.toNat * 2 ^ 12 + m.retrain.toNat * 2 ^ 16 + m.crcErr.toNat * 2 ^ 32

/-- The eight bytes of a function's control page at a multiple of 8: status, the base of BAR2, PORTDISC, the counters of silent failures,
module status, failure records (12:R353, R354; 17:R410; 19:R421, R435 to R437). None where the manual names no register. -/
def State.bar0Quad (s : State) (fn o : Nat) : Option Nat :=
  if o = 0 then some (if fn = 0 then s.port.boot.toNat + s.port.die.toNat * 2 ^ 8 else NMap.get s.port.vfStatus 0 fn)
  else if o = 0x10 then some (NMap.get s.port.bar2 0 fn).toNat
  else if o = 0x20 then some (NMap.get s.port.portDisc 0 fn).toNat
  else if 0x1000 ≤ o && o < 0x2000 then
    let slot := (o - 0x1000) / 64
    let k := o % 64 / 8
    some (if s.seesSlot fn slot && k < 6 then (NMap.get s.drops 0 (6 * slot + k)).toNat else 0)
  else if fn = 0 && 0x8000 ≤ o && o < 0x8000 + 8 * 72 then some (s.module ((o - 0x8000) / 8 / 18) ((o - 0x8000) / 8 % 18)).status
  else if 0x400000 ≤ o && o < 0x600000 then
    (s.partFn fn).bind fun p => if p.queues.contains (queueAt 0x400000 2048 o) then some (leNat (s.bytes (p.failBase + (o - 0x400000)) 8)) else none
  else none

/-- The byte of a function's control page at an offset; free where the manual names no register (log 29). -/
def State.bar0Byte (s : State) (fn o : Nat) : Byte :=
  match s.bar0Quad fn (o / 8 * 8) with
  | some w => BitVec.ofNat 8 (w / 2 ^ (8 * (o % 8)))
  | none => Config.freeByte (s.draw (o % 8))

/-- A host access to BAR0 of at most 8 bytes. A write in the range of the enqueue ports has not their size; one of 8 bytes, or of the 4 bytes of
RCNT, writes a register. -/
def bar0Access (s : State) (fn off n : Nat) (write : Bool) (v : W64) : State :=
  if 8 < fn || 2 ^ 25 < off + n then s
  else if !write then
    (if s.outsideReach 0 (s.recordPlaces fn off n) then { s with hostData := .data ((List.range n).map fun i => s.bar0Byte fn (off + i)) } else s)
  else if 0x100000 ≤ off && off < 0x100000 + 16 * 1024 then portWrite s fn (queueAt 0x100000 16 off) n v 0
  else if n = 8 || (n = 4 && 0x400000 ≤ off) then writeRegister s fn off v else s

/-- A host access to BAR2 while the device is in recovery: to the recovery buffer (19:R436). -/
def recoveryAccess (s : State) (off n : Nat) (write : Bool) (v : W64) : State :=
  if 2 ^ 26 < off + n then s
  else if write then { s with port := { s.port with
    buffer := ((leBytes n v.toNat).mapIdx fun i b => (off + i, b)).foldl (fun m e => NMap.put m 0 e.1 e.2) s.port.buffer } }
  else { s with hostData := .data ((List.range n).map fun i => NMap.get s.port.buffer 0 (off + i)) }

/-- A host access through BAR2, or through CXL.mem, of at most 8 bytes: it reaches the address at the base register's offset when that lies
in the partition's HBM ranges; elsewhere a read is free and a write has no effect (log 29). It enters on die 0, and comes over a link to what
another die holds. -/
def bar2Access (s : State) (fn off n : Nat) (write : Bool) (v : W64) : State :=
  match s.partFn fn with
  | none => s
  | some p =>
    let pa := (NMap.get s.port.bar2 0 fn).toNat + off
    let pl := s.physPlaces pa n
    if 2 ^ 36 < off + n then s
    else if !p.holds pa n then
      (if write then s else { s with hostData := .data ((List.range n).map fun i => Config.freeByte (s.draw i)) })
    else if write then (if s.outsideReady 0 pl then s.outsideWrite (outsideTags fn) 0 pl (leBytes n v.toNat) else s)
    else if s.outsideReach 0 pl then { s with hostData := .data (s.bytes pa n) } else s

/-- A host access of at most 8 bytes. -/
def hostAccess (s : State) (fn : Nat) (bar0 : Bool) (off n : Nat) (write : Bool) (v : W64) : State :=
  if 8 < n then s
  else if bar0 then bar0Access s fn off n write v
  else if s.port.recovery then (if fn = 0 then recoveryAccess s off n write v else s)
  else bar2Access s fn off n write v

/-- `HOST_APERTURE_ACCESS`. -/
def execHostApertureAccess (s : State) : Out :=
  match s.turn with
  | .event (.hostApertureAccess fn b off n w v) => .next (hostAccess s fn b off n w v)
  | _ => .next s

/-- The port that a connection uses: the lowest-numbered of its mask that is up; none when none is. -/
def State.portOf (s : State) (ports : Nat) : Option Nat := (List.range 8).find? fun k => ports.testBit k && s.port.portsUp.getLsbD k

/-- The port that carries the connection of import entry `k` of a partition, if the entry is valid and a port of it is up. -/
def State.portFor (s : State) (p : Partition) (k : Nat) : Option Nat := (NMap.find? p.imports k).bind fun d => s.portOf (bitsAt (leNat d) 0 8)

/-- The die of an Ethernet port: two on each die (01:R25), ports 2d and 2d + 1 on die d (DESIGN CHOICE, log 72). -/
def dieOfPort (k : Nat) : Nat := k / 2

/-- Offset and bytes of a peer's request. -/
def peerRange : PeerOp → Nat × Nat
  | .read o n => (o, n)
  | .write o bs => (o, bs.length)
  | .fetchAdd o _ => (o, 8)
  | .cas o _ _ => (o, 8)

/-- The permission bit of an export entry that a request needs. -/
def peerPerm : PeerOp → Nat
  | .read _ _ => 160
  | .write _ _ => 161
  | _ => 162

/-- The export entry of a partition that admits a request on connection `conn` with a key; RoCE atomics are aligned to 8 (log 29). -/
def Partition.admits (p : Partition) (conn : Nat) (key : W32) (op : PeerOp) : Option Nat :=
  let r := peerRange op
  (List.find? (fun e : Nat × List Byte =>
    let w := leNat e.2
    bitsAt w 192 7 = conn && bitsAt w 128 32 = key.toNat && r.1 + r.2 ≤ bitsAt w 64 47 && bitsAt w (peerPerm op) 1 = 1 &&
      (peerPerm op ≠ 162 || r.1 % 8 = 0)) p.exports).map fun e => bitsAt (leNat e.2) 0 54 + r.1

/-- A request of a peer at a physical address, which enters on the die of its port. A RoCE atomic lies in one line, and is one event there. -/
def peerPerform (s : State) (die conn pa : Nat) (op : PeerOp) : State :=
  let n := (peerRange op).2
  let pl := s.physPlaces pa n
  let tg := outsideTags (16 + conn)
  let atomic (g : Nat → Option Nat) : State :=
    let r := s.atomicAt tg die (s.homeDie pa) pa 8 fun old => (g (leNat old)).map (leBytes 8)
    { r.1 with hostData := .data r.2 }
  match op with
  | .read _ _ => if s.outsideReach die pl then { s with hostData := .data (s.bytes pa n) } else s
  | .write _ bs => if s.outsideReady die pl then { s.outsideWrite tg die pl bs with hostData := .performed } else s
  | .fetchAdd _ v => if s.outsideReady die pl then atomic fun w => some (w + v.toNat) else s
  | .cas _ x v => if s.outsideReady die pl then atomic fun w => if w = x.toNat then some v.toNat else none else s

/-- A request of a peer on a connection: performed against a valid export entry, or answered with the remote access error, which leaves
nothing. One on a connection of no valid import entry is answered so too; none comes while no port of the connection is up. -/
def peerRequest (s : State) (part conn : Nat) (key : W32) (op : PeerOp) : State :=
  match NMap.find? s.parts part with
  | none => s
  | some p =>
    if (NMap.find? p.imports conn).isNone then { s with hostData := .accessError } else
    match s.portFor p conn with
    | none => s
    | some k => match p.admits conn key op with
      | none => { s with hostData := .accessError }
      | some pa => peerPerform s (dieOfPort k) conn pa op

/-- `PEER_INCOMING_REQUEST`. -/
def execPeerIncomingRequest (s : State) : Out :=
  match s.turn with
  | .event (.peerIncomingRequest p c k op) => .next (peerRequest s p c k op)
  | _ => .next s

/-- `ETHERNET_PORT_LINK_CHANGE`. -/
def execEthernetPortLinkChange (s : State) : Out :=
  match s.turn with
  | .event (.ethernetPortLinkChange k up) =>
    let m : Byte := BitVec.ofNat 8 (2 ^ k)
    .next { s with port := { s.port with portsUp := if up then s.port.portsUp ||| m else s.port.portsUp &&& ~~~m } }
  | _ => .next s

/-! ## Registers with no row of their own (00:R9; 12:R353; 19:R421) -/

/-- `REGISTER_WRITE`. -/
def execRegisterWrite (s : State) : Out :=
  match s.turn with
  | .event (.registerWrite fn off v) => .next (writeRegister s fn off v)
  | _ => .next s

/-! ## Answers from outside (12:R355 to R357; 17:R392, R412) -/

/-- Whose access of host or peer memory it is: a team or control core, else an engine that works for a context. -/
def State.ownerOf (s : State) (t slot : Nat) : Team := (s.teams[t]?).getD { Team.atReset with slot := slot }

/-- An answer for an address may arrive: of the host, or over a connection that is valid. -/
def State.answers (s : State) (tm : Team) (key : Nat) : Bool :=
  physClass key ≠ 2 || match s.partOfTeam tm with
    | some (_, p) => (s.portFor p (key / 2 ^ 47 % 128)).isSome
    | none => false

/-- How a scalar load word ends with its bytes. -/
def scalarLoaded (tm : Team) (i : Instr) (bs : List Byte) : Option Team :=
  let n := leNat bs
  match i with
  | .ldb f => some (tm.wr f.d ((BitVec.ofNat 8 n).signExtend 64)).advance
  | .ldbu f => some (tm.wr f.d (BitVec.ofNat 64 n)).advance
  | .ldh f => some (tm.wr f.d ((BitVec.ofNat 16 n).signExtend 64)).advance
  | .ldhu f => some (tm.wr f.d (BitVec.ofNat 64 n)).advance
  | .ldw f => some (tm.wr f.d ((BitVec.ofNat 32 n).signExtend 64)).advance
  | .ldwu f => some (tm.wr f.d (BitVec.ofNat 64 n)).advance
  | .ldd f => some (tm.wr f.d (BitVec.ofNat 64 n)).advance
  | .bld f => some (tm.setBreg (f.d.toNat % 16) (BitVec.ofNat 256 n)).advance
  | _ => none

/-- Pointer, alignment and size of a scalar load word. -/
def scalarLoadOf (tm : Team) (i : Instr) : Option (W64 × Nat × Nat) :=
  match i with
  | .ldb f => some (tm.scalarPtr f, 1, 1)
  | .ldbu f => some (tm.scalarPtr f, 1, 1)
  | .ldh f => some (tm.scalarPtr f, 1, 2)
  | .ldhu f => some (tm.scalarPtr f, 1, 2)
  | .ldw f => some (tm.scalarPtr f, 1, 4)
  | .ldwu f => some (tm.scalarPtr f, 1, 4)
  | .ldd f => some (tm.scalarPtr f, 1, 8)
  | .bld f => some (tm.scalarPtr f, 32, 32)
  | _ => none

/-- The bytes of a scalar load, part by part; parts in host or peer memory take the bytes of the answer. -/
def State.mixedLoad (s : State) (tg : Tags) (i : Nat) : List Place → List Byte → Got
  | [], _ => ⟨s, [], [], false, false, false⟩
  | p :: r, ext =>
    if p.remote then
      let b := s.mixedLoad tg (i + 8) r (ext.drop p.len)
      { b with data := ext.take p.len ++ b.data }
    else
      let a := s.loadPlace tg ⟨false, false, 0⟩ none i p
      let b := a.s.mixedLoad tg (i + 8) r ext
      ⟨b.s, a.data ++ b.data, joinStamp a.stamp b.stamp, false, a.poison || b.poison, a.stuck || b.stuck⟩

/-- The answer to a scalar load: the word completes, unless a part of it in device memory must wait. -/
def scalarAnswer (s : State) (t : Nat) (tm : Team) (i : Instr) (data : List Byte) : Out :=
  match scalarLoadOf tm i with
  | none => .next s
  | some (p, align, n) =>
    match s.scalarPlaces tm .load align p n with
    | .error m => scalarMemTrap s t tm .load p m
    | .ok pl =>
      let g := s.mixedLoad (s.tagsOf t tm) 0 pl data
      if g.stuck then .next s else
      match scalarLoaded tm i g.data with
      | none => .next s
      | some tm' =>
        let s := if g.poison then g.s.consumePoison tm.unit else g.s
        s.nextTeam t { tm' with seen := joinStamp tm.seen g.stamp }

/-- The fields of the lane words that reach host or peer memory and wait for it. -/
def laneFieldsOf : Instr → Option LaneF
  | .ld f => some f
  | .ldr f => some f
  | .ldacq f => some f
  | .atom f => some f
  | .cas f => some f
  | _ => none

/-- The team whose wait for host or peer memory ends, as it goes on: blocked it becomes ready, a handler's team stays trapped. -/
def Team.answered (tm : Team) (clock : Nat) : Team :=
  { tm with state := if tm.state = .blocked then .ready else tm.state, wait := none, remote := none, since := clock }

/-- Ends the wait of a team with `lane` or `scalar`, by the kind of its word. The wait of an evicted team ends, and its load is issued again
when it is restored (16:R388). -/
def endRemote (s : State) (t : Nat) (tm : Team) (r : RemoteOp) (lane : LaneEnv → Instr → Out) (scalar : Team → Instr → Out) : Out :=
  if tm.state = .evicted then .next (s.setTeam t { tm with wait := none, remote := none }) else
  let tm' := tm.answered s.clock
  if r.lane then
    match laneFieldsOf r.word, tm.run with
    | some f, some rb => lane (laneEnv s t tm' rb f) r.word
    | _, _ => .next s
  else scalar tm' r.word

/-- The answer to a load or atomic of a team. The core's response port discards and counts one of an old incarnation (03:R108). -/
def teamAnswered (s : State) (t : Nat) (data : List Byte) : Out :=
  match s.teams[t]? with
  | none => .next s
  | some tm =>
    match tm.remote with
    | none => .next s
    | some r =>
      if s.gated tm.core || !(r.places.all fun p => s.answers tm p.2.1) || (r.places.foldl (fun a p => a + p.2.2) 0) ≠ data.length then .next s
      else if s.oldInc tm then .next ((s.countDrop tm.slot 0).setTeam t { tm with remote := none })
      else endRemote s t tm r (fun e i => laneAnswer e i data) (fun tm' i => scalarAnswer s t tm' i data)

/-- The acknowledgement of a posted write. The core's response port discards and counts one of an old incarnation (03:R108; 17:R400). -/
def postedAnswered (s : State) (i : Nat) : State :=
  match s.posted[i]? with
  | some w =>
    if !s.answers (s.ownerOf w.team w.slot) w.line then s else
    let s' := { s with posted := s.posted.eraseIdx i }
    if w.slot < 64 ∧ w.inc ≠ (s.ctx w.slot).inc then s'.countDrop w.slot 0 else s'
  | none => s

/-- An answer for which nobody waits any more is discarded; one of an old incarnation is counted (03:R88, R108). -/
def strayAnswered (s : State) (i : Nat) : State :=
  match s.stray[i]? with
  | some w =>
    let s' := { s with stray := s.stray.eraseIdx i }
    if w.inc ≠ (s.ctx w.slot).inc then s'.countDrop w.slot 0 else s'
  | none => s

/-- `PEER_RESPONSE_ARRIVAL`: an answer to a load or atomic, or the acknowledgement of a posted write. -/
def execPeerResponseArrival (s : State) : Out :=
  match s.turn with
  | .event (.peerResponseArrival (.team t) data) => teamAnswered s t data
  | .event (.peerResponseArrival (.posted i) _) => .next (postedAnswered s i)
  | .event (.peerResponseArrival (.stray i) _) => .next (strayAnswered s i)
  | _ => .next s

/-- Cause 0x1D at the lane word that waits: the lanes whose access has no answer (17:R392). -/
def laneTimeout (e : LaneEnv) (i : Instr) : Out :=
  let ms : MemShape := match i with
    | .atom _ => atomShape fun e => some e.mod
    | .cas _ => atomShape fun _ => none
    | _ => moveShape .load
  let all := (e.work ms).filter fun x => x.2.any (·.remote)
  match all with
  | [] => .next e.s
  | x :: _ => laneMemTrap e ms.kind ⟨0x1D, x.1, 0, lanesMask (all.map fun y => y.1.lane)⟩

/-- Cause 0x1D at the scalar word that waits. -/
def scalarTimeout (s : State) (t : Nat) (tm : Team) (i : Instr) : Out :=
  match scalarLoadOf tm i with
  | none => .next s
  | some (p, _, _) => scalarMemTrap s t tm .load p ⟨0x1D, 0⟩

/-- A load or atomic has no answer within the bound, or its connection is gone. -/
def teamTimeout (s : State) (t : Nat) : Out :=
  match s.teams[t]? with
  | none => .next s
  | some tm =>
    match tm.remote with
    | none => .next s
    | some r =>
      if s.gated tm.core || s.clock < r.since + peerBound && !(r.places.any fun p => s.peerDead tm p.2.1) then .next s
      else endRemote s t tm r laneTimeout (fun tm' i => scalarTimeout s t tm' i)

/-- A posted write without acknowledgement is lost; the next release of its team at system scope records it. -/
def postedTimeout (s : State) (i : Nat) : State :=
  match s.posted[i]? with
  | some w => if w.isOver s.clock || s.peerDead (s.ownerOf w.team w.slot) w.line then { s with posted := s.posted.set i { w with lost := true } } else s
  | none => s

/-- An answer for which nobody waits does not come within the bound. -/
def strayTimeout (s : State) (i : Nat) : State :=
  match s.stray[i]? with
  | some w => if w.since + peerBound ≤ s.clock then { s with stray := s.stray.eraseIdx i } else s
  | none => s

/-- `PEER_TIMEOUT`. -/
def execPeerTimeout (s : State) : Out :=
  match s.turn with
  | .event (.peerTimeout (.team t)) => teamTimeout s t
  | .event (.peerTimeout (.posted i)) => .next (postedTimeout s i)
  | .event (.peerTimeout (.stray i)) => .next (strayTimeout s i)
  | _ => .next s

end Sys2Proof.Machine
end

