-- ==== Sys2Proof/Machine/Sys.lean ====
section
/-!
DEFINITION. The commands of engine 7: identity, islands, attestation, peers (12:R350 to R352, R357, R359; 19:R437).
-/
namespace Sys2Proof.Machine

/-- A command of engine 7: all are supervisor commands (12:R350). -/
def onSys (s : State) (i : Instr) (f : SX) (k : Nat → Team → Out) : Out := onSx s i f 7 true k

/-! ## Identity (12:R351) -/

/-- The number of the issuer's partition; 0 for the Stage Manager (log 6). -/
def State.partNo (s : State) (tm : Team) : Nat := ((s.issuer tm).map (·.1)).getD 0

/-- What `SYS.ID` returns. -/
def State.sysId (s : State) (tm : Team) (sel : Nat) : Nat :=
  match sel with
  | 0 => Config.serial.toNat % 2 ^ 64
  | 1 => Config.serial.toNat / 2 ^ 64
  | 2 => 0x0040 + Config.stepping.toNat * 2 ^ 16
  | 3 =>
    let islands := match s.issuer tm with
      | some (_, p) => p.islands
      | none => []
    s.partNo tm % 8 + (List.range 16).foldl (fun a i => if islands.contains i then a + 2 ^ (3 + i) else a) 0
  | 4 => s.port.linkGen.toNat + s.port.linkWidth.toNat * 2 ^ 3 + (if s.port.cxl then 2 ^ 8 else 0)
  | 5 => s.port.portsUp.toNat
  | _ => 0

/-- `SYS.ID`. -/
def execSysId (f : SX) (s : State) : Out :=
  onSys s (.sysId f) f fun t tm => sxDone s t f (BitVec.ofNat 64 (s.sysId tm (tm.rd f.a).toNat))

/-! ## Islands (12:R359, R360) -/

/-- An island moves to the step max(request, limit); a change of step takes a while (12:R360). -/
def Island.settle (x : Island) : Island :=
  { x with step := max x.request x.limit, changing := x.changing || max x.request x.limit ≠ x.step }

/-- The reply of `SYS.ISLAND`: previous step, step applied, whether the limit raised the request. -/
def Island.reply (x : Island) (req : Nat) : Nat := x.step % 8 + max req x.limit % 8 * 2 ^ 3 + (if req < x.limit then 2 ^ 6 else 0)

/-- `SYS.ISLAND`. For an island that is not the partition's nothing happens, and the reply is free (log 31). -/
def execSysIsland (f : SX) (s : State) : Out :=
  onSys s (.sysIsland f) f fun t tm =>
    let i := fld (tm.rd f.a) 3 0
    let req := fld (tm.rd f.b) 2 0
    if s.owns tm fun p => p.islands.contains i then
      let x := s.island i
      sxDone (s.setIsland i { x with request := req }.settle) t f (BitVec.ofNat 64 (x.reply req))
    else sxDone s t f (BitVec.ofNat 64 (Config.pick (s.draw 0)))

/-! ## Memory that these commands reach -/

/-- The pieces of `n` bytes at a global or a supervisor-window pointer; class 11, and class 00 beyond HBM, is no pointer (12:R346). -/
def sysPieces (p : W64) (n : Nat) : Option (List Piece) :=
  let tag := p.toNat / 2 ^ 56
  if tag < 2 then some (cutLines (n / 128 + 2) p.toNat n)
  else if tag = 0xFF ∧ physClass p.toNat ≠ 3 ∧ (physClass p.toNat ≠ 0 ∨ p.toNat % 2 ^ 54 + n ≤ 4 * dieBytes) then
    some ((cutLines (n / 128 + 2) (p.toNat % 2 ^ 56) n).map fun x => { x with win := .phys })
  else none

/-- The places of `n` bytes that a command of engine 7 names; a read of a peer whose import entry is not valid meets cause 0x1D (12:R357). -/
def State.sysPlaces (s : State) (tm : Team) (k : Kind) (p : W64) (n : Nat) : Except Miss (List Place) :=
  match sysPieces p n with
  | none => .error ⟨0x14, 0⟩
  | some ps => match s.placed tm.slot k ps with
    | .error m => .error m
    | .ok pl => if k = .load ∧ pl.any (fun x => x.remote && s.peerDead tm x.key) then .error ⟨0x1D, 0⟩ else .ok pl

/-- The reads of a command that their homes drop are counted (03:R108; 17:R400). -/
def State.countReads (s : State) (tm : Team) (pl : List Place) : State :=
  pl.foldl (fun s p => if p.remote then s else match s.homeCheck (s.placeTags (s.tagsOf 0 tm) none p) p.key with
    | some d => s.countDrop tm.slot d.counter
    | none => s) s

/-- Places that lie in the HBM of the issuer's partition. -/
def State.inPartition (s : State) (tm : Team) (pl : List Place) : Bool :=
  s.owns tm fun p => pl.all fun x => p.holds x.key x.len

/-- Writes bytes at some places, performed at device scope at once: every cached copy is invalidated. -/
def State.writeThrough (s : State) (tg : Tags) : List Place → List Byte → State
  | [], _ => s
  | p :: r, bs =>
    (s.storeAt (s.placeTags tg none p) (dieOfCore tg.core) p.home p.key (bs.take p.len)).writeThrough tg r (bs.drop p.len)

/-! ## Attestation (12:R352; 19:R437) -/

/-- `n` bytes of a function. -/
def bytesOf (g : Nat → Byte) (n : Nat) : List Byte := (List.range n).map g

/-- 64 bytes of a digest; free where there is no image (log 33). -/
def State.digestBytes (s : State) (d : Option (List Byte)) : List Byte :=
  bytesOf (fun i => ((d.bind fun l => l[i]?)).getD (Config.freeByte (s.draw i))) 64

/-- The first 256 bytes of an attestation report (12:R352). -/
def State.report (s : State) (tm : Team) (nonce : List Byte) : List Byte :=
  let pn := s.partNo tm
  let p := (s.issuer tm).map (·.2)
  let islands := (List.range 16).filter fun i => ((p.map (·.islands)).getD []).contains i
  let steps := (List.range islands.length).foldl (fun a i => a + (s.island (islands.getD i 0)).step % 8 * 2 ^ (3 * i)) 0
  leBytes 8 (0x54535842 + 2 ^ 32) ++ leBytes 16 Config.serial.toNat ++
    leBytes 8 (pn % 8 + s.stageVersion % 2 ^ 16 * 2 ^ 8 + (p.map (·.version)).getD (Config.pick (s.draw 64)) % 2 ^ 16 * 2 ^ 24) ++
    s.digestBytes (some s.stageDigest) ++ s.digestBytes (p.map (·.digest)) ++ nonce ++ leBytes 8 steps ++ List.replicate 24 0

/-- The public key or the signed report. -/
def State.attestBytes (s : State) (tm : Team) (key : Bool) (nonce : List Byte) : List Byte :=
  if key then bytesOf Config.identityKey 1952
  else let r := s.report tm nonce
       r ++ bytesOf (Config.signature r) 3309

/-- `SYS.ATTEST`. A nonce or an output outside the partition's HBM, or not aligned, writes nothing and replies all ones, for a
key request too. -/
def execSysAttest (f : SX) (s : State) : Out :=
  onSys s (.sysAttest f) f fun t tm =>
    let a := tm.rd f.a
    let b := tm.rd f.b
    let key := bitOf b 0
    let out : W64 := b &&& ~~~1
    let n := if key then 1952 else 3565
    if a.toNat % 64 ≠ 0 || out.toNat % 4096 ≠ 0 then refuse6 s t f else
    match s.sysPlaces tm .store out n, s.sysPlaces tm .load a 64 with
    | .ok po, .ok pn =>
      if !s.inPartition tm po || !s.inPartition tm pn then refuse6 s t f
      else if !s.wordReady t tm (po ++ pn) then sxHold s t tm f
      else sxDone ((if key then s else s.countReads tm pn).writeThrough (s.tagsOf t tm) po (s.attestBytes tm key (s.teamBytes tm pn))) t f (BitVec.ofNat 64 n)
    | _, _ => refuse6 s t f

/-! ## Peers (12:R357) -/

/-- The partition whose tables a `SYS.PEER` fills. -/
def State.peerPart (s : State) (tm : Team) (b : W64) : Option (Nat × Partition) :=
  if tm.ofPartition then s.issuer tm else (NMap.find? s.parts (fld b 14 12)).map fun p => (fld b 14 12, p)

/-- Local queue pair of an import descriptor. -/
def localQp (w : Nat) : Nat := bitsAt w 216 24

/-- A local queue pair is in use on the device by an entry other than entry `k` of partition `p`. -/
def State.qpUsed (s : State) (p k qp : Nat) : Bool :=
  s.parts.any fun x => x.2.imports.any fun e => !(x.1 = p && e.1 = k) && localQp (leNat e.2) = qp

/-- The reserved fields of an import descriptor are 0, and its port mask names a port. -/
def importOk (w : Nat) : Bool :=
  bitsAt w 9 7 = 0 && bitsAt w 248 8 = 0 && bitsAt w 352 32 = 0 && bitsAt w 495 17 = 0 && bitsAt w 0 8 ≠ 0

/-- The reserved fields of an export descriptor are 0, and its range lies in the partition's HBM. -/
def Partition.exportOk (p : Partition) (w : Nat) : Bool :=
  let base := bitsAt w 0 54
  let len := bitsAt w 64 47
  bitsAt w 54 10 = 0 && bitsAt w 111 17 = 0 && bitsAt w 163 29 = 0 && bitsAt w 199 57 = 0 && bitsAt w 256 256 = 0 &&
    base % 4096 = 0 && len % 4096 = 0 && p.holds base len

/-- `SYS.PEER`. -/
def execSysPeer (f : SX) (s : State) : Out :=
  onSys s (.sysPeer f) f fun t tm =>
    let a := tm.rd f.a
    let b := tm.rd f.b
    let k := fld b 6 0
    let exp := bitOf b 8
    match s.peerPart tm b with
    | none => refuse6 s t f
    | some (n, p) =>
      let set (s : State) (p : Partition) : Out := sxDone { s with parts := NMap.insert s.parts n p } t f 0
      if exp ∧ 63 < k then refuse6 s t f
      else if bitOf b 9 then
        set s (if exp then { p with exports := NMap.erase p.exports k } else { p with imports := NMap.erase p.imports k })
      else if a.toNat % 64 ≠ 0 then sxMemTrap s t tm a ⟨0x18, 0⟩
      else match s.sysPlaces tm .load a 64 with
        | .error m => sxMemTrap s t tm a m
        | .ok pl =>
          let bs := s.teamBytes tm pl
          let s := s.countReads tm pl
          let w := leNat bs
          if exp then (if p.exportOk w then set s { p with exports := NMap.insert p.exports k bs } else refuse6 s t f)
          else if importOk w && !s.qpUsed n k (localQp w) then set s { p with imports := NMap.insert p.imports k bs }
          else refuse6 s t f

end Sys2Proof.Machine
end

