-- ==== Sys2Proof/Machine/Boot.lean ====
section
/-!
DEFINITION. Reset, signed boot, partitions, the steps of islands (12:R345 to R349, R359, R360; 19:R436, R437).
-/
namespace Sys2Proof.Machine

/-! ## Boot (12:R347, R348; 19:R436) -/

/-- The public key, of 1,952 bytes, and the signature, of 3,309, that follow the payload of an image. -/
def keyBytes : Nat := 1952
/-- Bytes of a signature. -/
def signatureBytes : Nat := 3309

/-- The header of an image as a number (12:R347). -/
def headerOf (image : List Byte) : Nat := leNat (image.take 128)

/-- Bytes of payload that a header names. -/
def payloadLength (h : Nat) : Nat := bitsAt h 64 64

/-- The payload of an image. -/
def payloadOf (image : List Byte) : List Byte := (image.drop 128).take (payloadLength (headerOf image))

/-- Offset of the first scalar word in the payload. -/
def entryOf (image : List Byte) : Nat := bitsAt (headerOf image) 128 64

/-- The security version of an image. -/
def versionOf (image : List Byte) : Nat := bitsAt (headerOf image) 192 32

/-- The 512-bit digest of some bytes. -/
def digest64 (bs : List Byte) : List Byte := bytesOf (Config.shake512 bs) 64

/-- The header is as 12:R347 gives it, and the image holds what it names. -/
def headerOk (image : List Byte) : Bool :=
  let h := headerOf image
  128 ≤ image.length && bitsAt h 0 32 = 0x4D495842 && bitsAt h 32 16 = 1 && bitsAt h 48 16 = 0 && bitsAt h 232 24 = 0 && bitsAt h 768 256 = 0 &&
    128 + payloadLength h + signatureBytes + keyBytes ≤ image.length

/-- The check of an image, by the digests of the keys that may sign it and the least security version: 0, or the code of 19:R436 (12:R347, R348).
A digest that is not that of the payload counts as an invalid signature (DEDUCED, log 34). -/
def checkImage (image : List Byte) (key : Nat → Option (List Byte)) (floor : Nat) : Nat :=
  if !headerOk image then 0x82 else
  let rest := image.drop (128 + payloadLength (headerOf image))
  let pub := (rest.drop signatureBytes).take keyBytes
  let idx := bitsAt (headerOf image) 224 8
  match (if idx < 4 then key idx else none) with
  | none => 0x83
  | some d =>
    if bytesOf (Config.shake256 pub) 32 ≠ d then 0x85
    else if !Config.verifies pub (rest.take signatureBytes) (digest64 (image.take 0x60)) || (image.drop 0x20).take 64 ≠ digest64 (payloadOf image) then 0x80
    else if versionOf image < floor then 0x81 else 0

/-- A control core starts an image: its payload is placed, the pc stands at its entry, and its instruction caches are empty. -/
def State.startControl (s : State) (t : Nat) (tm : Team) (part : Option Nat) (payload : Nat) (image : List Byte) : State :=
  ({ s with icache := s.icache.filter fun l => l.core ≠ tm.core }.poke payload (payloadOf image)).setTeam t
    { tm with state := .ready, part := part, pc := supPtr payload + BitVec.ofNat 64 (entryOf image), since := s.clock }

/-- The host port trains to one of its generations and widths, with CXL or without: free (12:R353; log 34). -/
def HostPort.train (p : HostPort) (s : State) : HostPort :=
  { p with linkGen := BitVec.ofNat 3 (4 + Config.pick (s.draw 1) % 3)
           linkWidth := BitVec.ofNat 5 (2 ^ (2 + Config.pick (s.draw 2) % 3))
           cxl := Config.pick (s.draw 3) % 2 = 1 }

/-- The device enters recovery with a code (19:R436). -/
def State.recover (s : State) (code die : Nat) : State :=
  { s with port := { s.port.train s with boot := BitVec.ofNat 8 code, die := BitVec.ofNat 8 die, recovery := true } }

/-- The boot ROM checks the Stage Manager's image, by the fused digests and minimum: it runs on control core 0, and brings up the dies; or the
device enters recovery. -/
def State.boot (s : State) (b : BootInput) : State :=
  match checkImage b.image Config.fusedKey Config.fusedMinimum with
  | 0 => match b.badDie with
    | some d => s.recover 0x84 (d % 4)
    | none =>
      ({ s with port := { s.port.train s with boot := 1, die := 0, recovery := false }, stageVersion := versionOf b.image,
                stageDigest := digest64 (payloadOf b.image) }).startControl 0 (Team.control 0) none b.payload b.image
  | code => s.recover code 0

/-- `DEVICE_RESET`: the device is as after reset, and boots. The model's own counters go on (log 1). -/
def execDeviceReset (s : State) : Out :=
  match s.turn with
  | .event (.deviceReset b) => .next (({ State.reset with turn := s.turn, tick := s.tick }).boot b)
  | _ => .next s

/-- The image in the recovery buffer: as many bytes as its header names, if the buffer holds them. -/
def HostPort.bufferImage (p : HostPort) : List Byte :=
  let at_ (i : Nat) : Byte := NMap.get p.buffer 0 i
  let n := 128 + payloadLength (leNat (bytesOf at_ 128)) + signatureBytes + keyBytes
  bytesOf at_ (min n (2 ^ 26))

/-- `RECOVERY_BOOT_WRITE`: in recovery, a write of 1 boots from the recovery buffer. -/
def execRecoveryBootWrite (s : State) : Out :=
  match s.turn with
  | .event (.recoveryBootWrite v payload bad) => .next (if s.port.recovery && v = 1 then s.boot ⟨s.port.bufferImage, payload, bad⟩ else s)
  | _ => .next s

/-! ## Creating a partition (12:R345, R348; 19:R437) -/

/-- A list of resources is nobody's: none of it is held by a partition, and none is named twice. -/
def State.unheld (s : State) (held : Partition → List Nat) (l : List Nat) (limit : Nat) : Bool :=
  l.Nodup && l.all fun x => x < limit && !(s.parts.any fun p => (held p.2).contains x)

/-- HBM ranges in units of 2 MiB, within HBM, that overlap neither each other nor those of a partition. -/
def State.rangesOk (s : State) (l : List (Nat × Nat)) : Bool :=
  (l.all fun r => r.1 % 2097152 = 0 && r.2 % 2097152 = 0 && 0 < r.2 && r.1 + r.2 ≤ 4 * dieBytes) &&
    (l.Pairwise fun a b => !overlaps a.1 a.2 b.1 b.2) && l.all fun a => s.parts.all fun p => p.2.ranges.all fun b => !overlaps a.1 a.2 b.1 b.2

/-- The sums of the share ceilings stay within 256 each. -/
def State.ceilingsOk (s : State) (l : List Nat) : Bool :=
  (List.range 3).all fun k => s.parts.foldl (fun a p => a + p.2.shareCeil.getD k 0) (l.getD k 0) ≤ 256

/-- The control core: one of 1 to 7 that no partition holds; the eighth partition shares control core 0. -/
def State.controlOk (s : State) (k : Nat) : Bool :=
  if k = 0 then s.parts.length = 7 else k < 8 && !(s.parts.any fun p => p.2.ctrl = k)

/-- The resources that a partition is created with are to be had. -/
def State.specOk (s : State) (r : PartSpec) : Bool :=
  !r.islands.isEmpty && s.unheld (·.islands) r.islands 16 && s.rangesOk r.ranges && s.unheld (·.slots) r.slots 64 &&
    s.unheld (·.queues) r.queues 1024 && s.ceilingsOk r.shareCeil &&
    (r.tokenCeil.all fun e => r.islands.contains e.1 && e.2 ≤ (s.island e.1).budget) && s.controlOk r.ctrl &&
    inRanges r.ranges r.frameBase (512 * r.frames) && inRanges r.ranges r.failBase 2097152 && r.audit.all (· ≤ 16) && r.keys.length ≤ 4 &&
    r.slots.all fun n => !(s.ctx n).live

/-- The partition of a specification and a verified image. -/
def partitionOf (r : PartSpec) (payload : Nat) (image : List Byte) : Partition where
  islands := r.islands
  ranges := r.ranges
  slots := r.slots
  queues := r.queues
  shareCeil := r.shareCeil
  tokenCeil := r.tokenCeil
  ctrl := r.ctrl
  payload := payload
  entry := entryOf image
  digest := digest64 (payloadOf image)
  version := versionOf image
  floor := r.floor
  keys := r.keys
  frameBase := r.frameBase
  frames := r.frames
  framesUsed := []
  saveBytes := r.saveBytes
  failBase := r.failBase
  audit := r.audit
  audited := 0
  imports := []
  exports := []
  running := true

/-- The status word of a virtual function. -/
def State.setVfStatus (s : State) (n code : Nat) : State := { s with port := { s.port with vfStatus := NMap.insert s.port.vfStatus (n + 1) code } }

/-- Starts the image of partition `n` on its control core; the partition that shares control core 0 has a stream of its own there. -/
def State.startPartition (s : State) (n : Nat) (p : Partition) (image : List Byte) : State :=
  let go (s : State) (t : Nat) : State := (s.setVfStatus n 1).startControl t (Team.control p.ctrl) (some n) p.payload image
  if p.ctrl ≠ 0 then go s p.ctrl
  else match s.teams.findIdx? fun t => t.ctrl.isSome && t.part = some n with
    | some t => go s t
    | none => go { s with teams := s.teams ++ [Team.control 0] } s.teams.length

/-- The Stage Manager creates a partition, if its image passes the checks by the keys of its owner and its floor, or leaves it uncreated. -/
def createPartition (s : State) (n : Nat) (r : PartSpec) (b : BootInput) : State :=
  if s.port.boot ≠ 1 || 8 ≤ n || (NMap.find? s.parts n).isSome || !s.specOk r then s else
  match checkImage b.image (fun k => r.keys[k]?) r.floor with
  | 0 =>
    let p := partitionOf r b.payload b.image
    if !p.holds b.payload (payloadOf b.image).length then s else ({ s with parts := NMap.insert s.parts n p }).startPartition n p b.image
  | code => s.setVfStatus n code

/-- `PARTITION_CREATE`. -/
def execPartitionCreate (s : State) : Out :=
  match s.turn with
  | .event (.partitionCreate n r b) => .next (createPartition s n r b)
  | _ => .next s

/-! ## Restarting a partition (12:R349; 19:R437) -/

/-- The control core of a partition stops. -/
def State.haltControl (s : State) (n : Nat) : State :=
  { s with teams := s.teams.map fun t => if t.ctrl.isSome && t.part = some n then { t with state := .blocked } else t }

/-- `CTX.RECLAIM` on a slot, when it returns. -/
def State.tryReclaim (s : State) (slot : Nat) : State :=
  if s.reclaimed slot then s.setCtx slot { s.ctx slot with oldest := (s.ctx slot).inc, reclaimed := true } else s

/-- Step 1: the image stops, and every slot is killed. -/
def State.killPartition (s : State) (n : Nat) (p : Partition) : State :=
  p.slots.foldl (fun s k => s.killContext k true) (({ s with parts := NMap.insert s.parts n { p with running := false } }).haltControl n)

/-- Every slot is reclaimed and swept, and every unit of it has ended. -/
def State.partitionQuiet (s : State) (p : Partition) : Bool :=
  (p.slots.all fun k => (s.ctx k).reclaimed && !(s.ctx k).live) && s.units.all fun u => !p.slots.contains u.slot || u.complete

/-- One step of a restart: the kills, the reclaims, then the sweep to zero and the start of the image, if it passes the checks again. An image
that fails leaves the slots killed and reclaimed, with its code. -/
def restartPartition (s : State) (n : Nat) (image : List Byte) : State :=
  match NMap.find? s.parts n with
  | none => s
  | some p =>
    if p.running then
      (if p.slots.any fun k => (s.ctx k).killTooFar then p.slots.foldl (fun s k => s.tryReclaim k) s else s.killPartition n p)
    else if !s.partitionQuiet p then p.slots.foldl (fun s k => s.tryReclaim k) s
    else
      let s := p.ranges.foldl (fun s r => s.zeroRange r.1 r.2) s
      match checkImage image (fun k => p.keys[k]?) p.floor with
      | 0 =>
        let p := { p with framesUsed := [], running := true, entry := entryOf image, digest := digest64 (payloadOf image), version := versionOf image }
        if !p.holds p.payload (payloadOf image).length then s else ({ s with parts := NMap.insert s.parts n p }).startPartition n p image
      | code => s.setVfStatus n code

/-- `PARTITION_RESTART`. -/
def execPartitionRestart (s : State) : Out :=
  match s.turn with
  | .event (.partitionRestart n image) => .next (restartPartition s n image)
  | _ => .next s

/-! ## Islands (12:R359, R360) -/

/-- The Stage Manager sets the limit of an island, when `ok` holds of the old and the new one. -/
def setLimit (s : State) (i limit : Nat) (ok : Nat → Nat → Bool) : State :=
  let x := s.island i
  if i < 16 && limit < 8 && ok x.limit limit then s.setIsland i { x with limit := limit }.settle else s

/-- `ISLAND_LIMIT_LOWER`: to a slower step, which has the greater number. -/
def execIslandLimitLower (s : State) : Out :=
  match s.turn with
  | .event (.islandLimitLower i l) => .next (setLimit s i l fun old new => old < new)
  | _ => .next s

/-- `ISLAND_LIMIT_RAISE`. -/
def execIslandLimitRaise (s : State) : Out :=
  match s.turn with
  | .event (.islandLimitRaise i l) => .next (setLimit s i l fun old new => new < old)
  | _ => .next s

/-- `ISLAND_STEP_CHANGE_DONE`. -/
def execIslandStepChangeDone (s : State) : Out :=
  match s.turn with
  | .event (.islandStepChangeDone i) => .next (s.setIsland i { s.island i with changing := false })
  | _ => .next s

end Sys2Proof.Machine
end

