-- ==== Sys2Proof/Machine/Fetch.lean ====
section
/-!
DEFINITION. Fetching the next word of a stream (02:R36, R37; 09:R262, R263; 17:R393; 19:R416), and words that are no instruction
(05:R158; 16:R372, R377, R380).
-/
namespace Sys2Proof.Machine

/-! ## Words that are no instruction -/

/-- An encoding that is not an instruction: cause 0x0A for the all-zero scalar word, 0x02 for any other; a matrix word fails the troupe. -/
def execUnassignedEncoding (w : RawWord) (s : State) : Out :=
  match w with
  | .scalar x => onScalar s fun t tm => scalarTrap s t tm (.plain (if x = 0 then 0x0A else 0x02) tm.pc (x.zeroExtend 64) 0)
  | .lane x =>
    match s.laneTeam with
    | none => .next s
    | some (t, tm, rb) =>
      if tm.mustWait then .next (laneWait s t tm rb) else
      takeTrap s t tm ⟨0x02, some rb.pos.toNat, tm.pc, x.extractLsb' 0 64, (x.extractLsb' 64 32).zeroExtend 64, 0,
        tm.effMask (LaneF.read x), none, none, none⟩
  | .matrix _ => onSeq s fun s n _ q => seqFail s n q 0x02

/-! ## Fetch -/

/-- What a fetch comes to: nothing to execute now, with the state that this leaves, or a word, with the state in which it executes. -/
inductive Fetched where
  | instead (o : Out)
  | word (s : State) (w : RawWord)

/-- A fetch of `n` bytes meets a poisoned granule (19:R416). -/
def State.fetchPoisoned (s : State) (tm : Team) (cache : Option Bool) (p : W64) (n : Nat) : Bool :=
  if p.toNat / 2 ^ 56 < 2 then
    let va := p.toNat % 2 ^ 57
    (List.range n).any fun i => (s.codeHit tm cache false (va + i)).isNone && match (s.ctx tm.slot).translate (va + i) with
      | some (_, _, pa) => s.poisonedFor tm.slot (s.codeActs tm pa) pa 1
      | none => false
  else
    let pa := p.toNat % 2 ^ 54
    (List.range n).any fun i => (s.codeHit tm cache true (pa + i)).isNone && s.poisoned (pa + i) 1

/-- The instruction cache of a core through which a stream fetches. -/
def cacheOf : Stream → Option Bool
  | .scalar => some false
  | .lane => some true
  | .matrix => none

/-- The bytes of a word of unit `u` as read by `tm`: what a fetch fault does is `miss`, and while the code cannot be read the state is `wait`. -/
def State.fetchWord (s : State) (tm : Team) (u : Nat) (st : Stream) (p : W64) (wait : State) (miss : FetchMiss → Out) : Fetched :=
  match s.fetchBytes tm (cacheOf st) p st.size with
  | .error m => .instead (miss m)
  | .ok bs =>
    if !s.codeReady tm (cacheOf st) p st.size then .instead (.next wait)
    else if s.fetchPoisoned tm (cacheOf st) p st.size && (s.unit? u).isSome then .instead (.next (s.consumePoison u))
    else .word (s.cacheCode tm (cacheOf st) p st.size) (st.word bs)

/-- The reader that a sequencer fetches as: its context, and the hypothesis of its launch. -/
def LUnit.seqReader (u : LUnit) : Team := { Team.atReset with slot := u.slot, inc := u.inc, hyp := u.launch.hyp }

/-- The next word of the stream whose turn it is. -/
def State.fetch (s : State) : Fetched :=
  match s.turn with
  | .scalar _ =>
    match s.scalarTeam with
    | none => .instead (.next s.resumeBarrier)
    | some (t, tm) => s.fetchWord tm tm.unit .scalar tm.pc s fun m => scalarTrap s t tm (fetchTrap tm none tm.pc m)
  | .lane _ =>
    match s.laneTeam with
    | none => .instead (.next s)
    | some (t, tm, rb) =>
      if tm.mustWait then .instead (.next (laneWait s t tm rb)) else
      s.fetchWord tm tm.unit .lane (tm.laneAddr rb.pos.toNat) (stall s t tm rb) fun m =>
        takeTrap s t tm (fetchTrap tm (some rb.pos.toNat) (tm.laneAddr rb.pos.toNat) m)
  | .matrix _ =>
    match s.seqUnit with
    | none => .instead (.next s)
    | some (n, u, q) =>
      if (s.ctx u.slot).refuted u.launch.hyp then .instead (.next (s.killSeq n u q))
      else if s.poison.contains (.seqBuffer n) then
        .instead (.next (({ s with poison := s.poison.filter (· ≠ .seqBuffer n) } : State).consumePoison n))
      else if !q.loaded then .instead (loadImage s n u q)
      else s.fetchWord u.seqReader n .matrix q.pc s fun _ => seqFail s n q 0x24
  | .event _ => .instead (.next s)

/-- The instruction of a word. -/
def instrOf (w : RawWord) : Instr :=
  match decodeWord w with
  | .ok i => i
  | .error _ => .unassignedEncoding w

/-! ## A machine about to fetch a given word (log 4) -/

/-- A record with nothing in it. -/
def Launch.bare : Launch where
  cast := false
  addr := 0
  mtx := 0
  arg := 0
  tile := 0
  roles := []
  accSlots := 1
  idempotent := false
  replayable := false
  future := false
  completion := 0
  tokens := 0
  prio := 0
  arena := 0
  hyp := 0
  scratch := 0
  outBase := 0
  outLen := 0

/-- Address, virtual and physical, at which the word is placed. -/
def codeAt : Nat := 0x10000

/-- The team that fetches it: one lane, 64 registers, in context slot 0; for a lane word its block runs. -/
def fetchTeam (inc : BitVec 12) (unit : Nat) (lane : Bool) : Team :=
  { Team.atReset with
    state := if lane then .running else .ready, unit := unit, inc := inc, lanes := 1, budget := 64, pc := BitVec.ofNat 64 codeAt,
    laneBase := BitVec.ofNat 64 codeAt, holding := if lane then some 0 else none,
    run := if lane then some ⟨⟨0, [], none, 0⟩, 0, none, false, 0, 0⟩ else none }

/-- The sequencer that fetches it, with its register image read. -/
def fetchSequencer : Sequencer where
  pc := BitVec.ofNat 64 codeAt
  loaded := true
  a := []
  d := []
  c := []
  p0 := []
  p1 := []
  held := none
  te := 0
  mrow := 0
  wait := none
  acquires := false
  row := 0
  fault := none
  done := false

/-- The unit of that team, on core 0. -/
def fetchUnit (inc : BitVec 12) (team : Nat) (matrix : Bool) : LUnit where
  launch := Launch.bare
  slot := 0
  inc := inc
  queue := 0
  seq := 0
  attempt := 0
  teams := [team]
  cores := [0]
  cluster := 0
  tokens := 1
  island := 0
  bars := []
  acc := [0]
  seqr := if matrix then some fetchSequencer else none
  exitVal := 0
  ending := none
  complete := false
  blocks := []
  poisoned := false
  audit := none
  replay := none

/-- A context with one mapped page, at `codeAt`. -/
def fetchContext (c : Context) : Context :=
  { c with
    live := true
    arenas := if (c.arena 0).state = .live then c.arenas else NMap.insert c.arenas 0 ⟨.live, 0, 0, 0, 2 ^ 40, 0, 0, 2 ^ 40, 0, 0, false⟩
    pages := NMap.insert c.pages (codeAt / 65536) ⟨codeAt, 0, 0, true, true, false, false⟩ }

/-- The stream of a word of so many bits. -/
def streamOf (nbits : Nat) : Stream := if nbits ≤ 32 then .scalar else if nbits ≤ 64 then .matrix else .lane

/-- The turn of the new team or unit. -/
def fetchTurn (st : Stream) (team unit : Nat) : Turn :=
  match st with
  | .scalar => .scalar team
  | .lane => .lane team
  | .matrix => .matrix unit

/-- An island whose datapaths issue passes. -/
def Island.awake (x : Island) : Island := if x.step = 7 || x.changing then { x with step := 0, changing := false } else x

/-- The state with a word where the next step fetches: a new unit of one team, on core 0, in context slot 0, as a dispatcher might have
placed it, whose turn it is. -/
def State.placeWord (s : State) (st : Stream) (w : Nat) : State :=
  let t := s.teams.length
  let u := s.units.length
  let inc := (s.ctx 0).inc
  { (((s.setCtx 0 (fetchContext (s.ctx 0))).setIsland 0 (s.island 0).awake).poke codeAt (leBytes st.size w)) with
    icache := s.icache.filter fun l => l.core ≠ 0
    teams := s.teams ++ [fetchTeam inc u (st = .lane)]
    units := s.units ++ [fetchUnit inc t (st = .matrix)]
    versions := s.versions.filter fun v => !(v.slot = 0 && v.key = codeAt)
    poison := s.poison.filter fun p => p ≠ .granule (codeAt / 32) && p ≠ .seqBuffer u
    turn := fetchTurn st t u }

end Sys2Proof.Machine
end

