-- ==== Sys2Proof/Machine/Integrity.lean ====
section
/-!
DEFINITION. Errors in protected arrays, repair in service, and the links between dies (01:R14; 19:R415, R426 to R431, R434, R435, R438,
R439).
-/
namespace Sys2Proof.Machine

/-! ## Errors (19:R415, R417, R428) -/

/-- An error that cannot be corrected: the granule is poisoned; a clean line of an L1 is discarded, a dirty one is poisoned at a granule of
it. The mark of a granule of a store on its way, or of a version, travels with it. -/
def uncorrectable (s : State) (p : ErrPlace) : State :=
  match p with
  | .l1Line i => match s.l1[i]? with
    | none => s
    | some l =>
      if l.dirty = 0 then { s with l1 := s.l1.eraseIdx i } else s.markPoison (.granule (l.key / 32 + Config.pick (s.draw 0) % 4))
  | .version i g => match s.versions[i]? with
    | none => s
    | some v => { s with versions := s.versions.set i { v with bad := v.bad ||| BitVec.ofNat 4 (2 ^ (g % 4)) } }
  | .fabric i o => match s.flight[i]? with
    | none => s
    | some r => if (NMap.find? r.bytes o).isSome then { s with flight := s.flight.set i { r with bad := some o } } else s
  | p => s.markPoison p

/-- `UNCORRECTABLE_ERROR`. -/
def execUncorrectableError (s : State) : Out :=
  match s.turn with
  | .event (.uncorrectableError p) => .next (uncorrectable s p)
  | _ => .next s

/-- `CORRECTABLE_ERROR`: corrected and counted. -/
def execCorrectableError (s : State) : Out :=
  match s.turn with
  | .event (.correctableError _) => .next { s with corrected := s.corrected + 1 }
  | _ => .next s

/-- Dispatch places nothing more on a core (19:R427). -/
def State.closeCore (s : State) (c : Nat) : State := s.setCore c { s.core c with closing := true }

/-- The idle spare of its island takes a core's number; or, with none, or in a retired cluster, the number is gone (01:R14; 19:R427). -/
def State.replaceCore (s : State) (c : Nat) : State :=
  let i := s.island (islandOfCore c)
  if !i.spareUsed && !(s.cluster (clusterOfCore c)).retired then
    (s.setIsland (islandOfCore c) { i with spareUsed := true }).setCore c { s.core c with closing := false }
  else s.setCore c { s.core c with retired := true }

/-- The lines of a core's caches go with it, but for the tile bytes that are still to be written back. -/
def State.dropCoreLines (s : State) (c : Nat) : State :=
  { s with l1 := s.l1.filter fun l => l.core ≠ c || l.dirty ≠ 0, icache := s.icache.filter fun l => l.core ≠ c }

/-- A core detects a logic fault in itself: every unit with a team on it consumes poisoned data, and the core is retired at once (19:R416, R428). -/
def logicFault (s : State) (c : Nat) : State :=
  if (s.core c).retired then s else
  (((s.residents c).foldl (fun s t => s.consumePoison t.unit) s).dropCoreLines c).replaceCore c

/-- `CORE_LOGIC_FAULT`. -/
def execCoreLogicFault (s : State) : Out :=
  match s.turn with
  | .event (.coreLogicFault c) => .next (logicFault s c)
  | _ => .next s

/-! ## Retirement (01:R14; 19:R426, R427, R429) -/

/-- Nothing is left on a core: no team, no copy entry, no sequencer at work, no walk. -/
def State.coreEmpty (s : State) (c : Nat) : Bool :=
  (s.residents c).isEmpty && ((List.range 4).all fun q => (s.ceq c q).entries.isEmpty) &&
    !s.seqBusy c && !(s.walks.any fun w => w.1 / 8 = c)

/-- The requester of the write-back of a core's tiles when the core is retired. -/
def coreTags (c : Nat) : Tags where
  slot := 0
  inc := 0
  arena := 0
  gen := 0
  hyp := 0
  scope := 4
  order := 2
  phys := false
  block := false
  team := 2 ^ 35 + c
  unit := noUnit
  core := c
  queue := 0

/-- The Stage Manager retires a core: first dispatch stops; when the core is empty, and its tiles are written back, it is replaced or gone. -/
def retireCore (s : State) (c : Nat) : State :=
  let x := s.core c
  if x.retired then s
  else if !x.closing then s.closeCore c
  else if !s.coreEmpty c then s
  else if s.dirtyTiles c then s.releaseTiles (coreTags c) c
  else (s.dropCoreLines c).replaceCore c

/-- `CORE_RETIRE`. -/
def execCoreRetire (s : State) : Out :=
  match s.turn with
  | .event (.coreRetire c) => .next (retireCore s c)
  | _ => .next s

/-- The Stage Manager retires a cluster: its four cores are to be retired, and no spare takes their place. -/
def retireCluster (s : State) (cl : Nat) : State :=
  (List.range 4).foldl (fun s k => s.closeCore (4 * cl + k)) (s.setCluster cl { s.cluster cl with retired := true })

/-- `CLUSTER_RETIRE`. -/
def execClusterRetire (s : State) : Out :=
  match s.turn with
  | .event (.clusterRetire c) => .next (retireCluster s c)
  | _ => .next s

/-- A quarantined cluster passes its test. -/
def returnCluster (s : State) (cl : Nat) : State :=
  let c := s.cluster cl
  if c.quarantined && !c.retired then s.setCluster cl { c with quarantined := false, mismatches := [] } else s

/-- `CLUSTER_RETURN_TO_SERVICE`. -/
def execClusterReturnToService (s : State) : Out :=
  match s.turn with
  | .event (.clusterReturnToService c) => .next (returnCluster s c)
  | _ => .next s

/-! ## HBM (19:R430) -/

/-- No request or update to a range is on its way. -/
def State.quietRange (s : State) (pa n : Nat) : Bool :=
  (s.flight.all fun r => !overlaps pa n r.line 128) && (s.pushes.all fun p => !overlaps pa n p.line 128) &&
    s.l1.all fun l => !(overlaps pa n l.key 128 && l.dirty ≠ 0)

/-- The bytes, stamps, tags, versions and marks of a page move to another; no cache holds the old page's lines. -/
def State.movePage (s : State) (old new n : Nat) : State :=
  let here (k : Nat) : Bool := old ≤ k && k < old + n
  let z := (s.zeroRange new n).evictReplicas fun r => here r.key
  { z with
    mem := (s.mem.filter fun c => here c.1).foldl (fun m c => NMap.put m 0 (c.1 - old + new) c.2) z.mem
    stamps := (List.filter (fun e : Nat × Stamp => here e.1) s.stamps).foldl (fun m e => NMap.put m [] (e.1 - old + new) e.2) z.stamps
    home := (List.filter (fun e : Nat × HomeLine => here (e.1 * 128)) s.home).foldl
      (fun m e => NMap.insert m (e.1 - old / 128 + new / 128) { e.2 with presence := 0 }) z.home
    l1 := z.l1.filter fun l => !here l.key
    versions := z.versions.map fun v => if here v.key then { v with key := v.key - old + new } else v
    poison := z.poison ++ s.poison.filterMap fun p => match p with
      | .granule g => if here (g * 32) then some (.granule (g - old / 32 + new / 32)) else none
      | _ => none }

/-- One page is copied and mapped anew, and the old one is not given out again: by `PG.UNMAP` and `PG.MAP`; not before the translation generation may advance. -/
def State.remap (s : State) (m : PageMove) : State :=
  let c := s.ctx m.slot
  match NMap.find? c.pages (m.va / 65536), s.partOf m.slot with
  | some g, some (_, p) =>
    match c.bumpTgen with
    | none => s
    | some c =>
      if physClass g.phys = 0 && m.dst % g.size = 0 && s.quietRange g.phys g.size && s.poolFree p (dieOfPhys g.phys) g.size m.dst then
        ({ s.movePage g.phys m.dst g.size with withheld := s.withheld ++ [(g.phys, g.size)] } : State).setCtx m.slot { c with pages := NMap.insert c.pages (m.va / 65536) { g with phys := m.dst } }
      else s
  | _, _ => s

/-- `HBM_CHANNEL_RETIRE`: the pages on the channel, as the event names them, are moved, and the channel is out of use. Which addresses lie on
which channel the manual does not say (log 12). -/
def execHbmChannelRetire (s : State) : Out :=
  match s.turn with
  | .event (.hbmChannelRetire k c moves) => .next (moves.foldl (fun s m => s.remap m) { s with channels := s.channels ++ [(k, c)] })
  | _ => .next s

/-- `HBM_ROW_REPAIR`: the contents are preserved. -/
def execHbmRowRepair (s : State) : Out := .next s

/-! ## Links (19:R431, R434, R435, R438, R439) -/

/-- The die that module m of die d leads to. -/
def dieTo (d m : Nat) : Nat := if m / 6 < d then m / 6 else m / 6 + 1

/-- The other end of a link: die and module. -/
def farEnd (d m : Nat) : Nat × Nat := (dieTo d m, moduleTo (dieTo d m) d (m % 6))

/-- Something is on its way from die `e` to die `d`, on link k where a request has a link of its own. -/
def State.carriesFor (s : State) (e d k : Nat) : Bool :=
  (s.flight.any fun r => r.onLink && r.seq.isSome && r.die = e && r.home = d && r.module = k) ||
    (s.resends.any fun r => r.die = e && r.home = d && r.module = k) || (s.acks.any fun a => a.src = e && a.dst = d) ||
    (s.pushes.any fun p => p.home = e && p.die = d) || s.notices.any fun n => n.home = e && n.die = d

/-- The module at the far end of module m of die d has a flit to send: a message of the two dies, or one that passes through either of them
(19:R434, R439). -/
def State.carries (s : State) (d m : Nat) : Bool :=
  let e := dieTo d m
  s.carriesFor e d (m % 6) || (List.range 4).any fun a => (List.range 4).any fun b =>
    a ≠ b && (match s.relay a b with
      | some r => (a = e && r = d) || (r = e && b = d)
      | none => false) && (List.range 6).any (s.carriesFor a b)

/-- `FLIT_CRC_FAIL`: counted at the receiving module; the flit is replayed. A module that is down or retrains receives none, nor does one whose
far end has nothing to send (19:R439). -/
def execFlitCrcFail (s : State) : Out :=
  match s.turn with
  | .event (.flitCrcFail d m) =>
    let x := s.module d m
    if 4 ≤ d ∨ 18 ≤ m ∨ !x.up ∨ !s.carries d m then .next s else .next (s.setModule d m { x with crcErr := x.crcErr + 1, fails := x.fails + 1 })
  | _ => .next s

/-- Changes both ends of a link. -/
def State.bothEnds (s : State) (d m : Nat) (f : Module → Module) : State :=
  let s := s.setModule d m (f (s.module d m))
  s.setModule (farEnd d m).1 (farEnd d m).2 (f (s.module (farEnd d m).1 (farEnd d m).2))

/-- Unanswered requests of die `d` to die `e` sent on link k go over another link, in the order of their numbers: those that have not arrived,
and again those that were executed; of these a response on its way may be lost with the replay buffers (19:R431, R434; log 32). -/
def State.resend (s : State) (d e k : Nat) : State :=
  let sent (r : Req) : Bool := r.die = d && r.home = e && r.module = k && r.seq.isSome
  let again := (s.pair d e).buffer.filter fun r => sent r && s.flight.all (fun x => !(x.die = d && x.home = e && x.seq = r.seq)) &&
    s.resends.all fun x => !(x.die = d && x.home = e && x.seq = r.seq)
  let move (i : Nat) (r : Req) : Req := if sent r then { r with module := s.otherLink d e k i, sent := s.tick } else r
  { s.setPair d e { s.pair d e with buffer := (s.pair d e).buffer.mapIdx move } with
    flight := s.flight.mapIdx fun i r => if r.onLink then move i r else r
    resends := s.resends.mapIdx move ++ again.mapIdx move
    acks := (s.acks.mapIdx fun i a => (i, a)).filterMap fun e' =>
      if e'.2.src = e && e'.2.dst = d && again.any (fun r => r.seq = some e'.2.seq) && !Config.stays (s.draw (50000 + e'.1)) then none
      else some e'.2 }

/-- Both directions of link k of a pair. -/
def State.reroute (s : State) (d e k : Nat) : State := (s.resend d e k).resend e d k

/-- A link begins to retrain. -/
def startRetrain (s : State) (d m : Nat) : State :=
  if 4 ≤ d || 18 ≤ m || (s.module d m).retraining || (s.module d m).width = 2 then s else
  (s.bothEnds d m fun x => { x with retraining := true, retrain := x.retrain + 1, fails := 0 }).reroute d (dieTo d m) (m % 6)

/-- `LINK_RETRAIN_START`. -/
def execLinkRetrainStart (s : State) : Out :=
  match s.turn with
  | .event (.linkRetrainStart d m) => .next (startRetrain s d m)
  | _ => .next s

/-- A retrain ends at a width: 0 64 lanes, 1 32 lanes, 2 down. A link of 32 lanes, or down, does not widen but by a maintenance retrain,
which starts at width 0. -/
def endRetrain (s : State) (d m width repaired : Nat) : State :=
  let x := s.module d m
  if !x.retraining || 2 < width || width < x.width.toNat then s else
  let s := s.bothEnds d m fun x => { x with retraining := false, width := BitVec.ofNat 2 width,
                                            repaired := if width = 0 then BitVec.ofNat 4 repaired else x.repaired }
  if width = 2 then s.post (.moduleDown d m) else s

/-- `LINK_RETRAIN_COMPLETE`. -/
def execLinkRetrainComplete (s : State) : Out :=
  match s.turn with
  | .event (.linkRetrainComplete d m w r) => .next (endRetrain s d m w r)
  | _ => .next s

/-- A maintenance retrain, ordered by the Stage Manager, may end at any width. -/
def maintain (s : State) (d m : Nat) : State :=
  if 4 ≤ d || 18 ≤ m || (s.module d m).retraining then s else
  (s.bothEnds d m fun x => { x with retraining := true, retrain := x.retrain + 1, fails := 0, width := 0 }).reroute d (dieTo d m) (m % 6)

/-- `MAINTENANCE_RETRAIN`. -/
def execMaintenanceRetrain (s : State) : Out :=
  match s.turn with
  | .event (.maintenanceRetrain d m) => .next (maintain s d m)
  | _ => .next s

end Sys2Proof.Machine
end

