-- ==== Sys2Proof/Machine/Dispatch.lean ====
section
/-!
DEFINITION. One arm per instruction: each calls its meaning.
-/
namespace Sys2Proof.Machine

/-- What an instruction, or a step of another agent, does. -/
def exec (i : Instr) (s : State) : Host.Outcome State Fault Refusal :=
  match i with
  | .add f => Sys2Proof.Machine.execAdd f s
  | .sub f => Sys2Proof.Machine.execSub f s
  | .mul f => Sys2Proof.Machine.execMul f s
  | .mulh f => Sys2Proof.Machine.execMulh f s
  | .mulhu f => Sys2Proof.Machine.execMulhu f s
  | .div f => Sys2Proof.Machine.execDiv f s
  | .divu f => Sys2Proof.Machine.execDivu f s
  | .rem f => Sys2Proof.Machine.execRem f s
  | .remu f => Sys2Proof.Machine.execRemu f s
  | .and f => Sys2Proof.Machine.execAnd f s
  | .or f => Sys2Proof.Machine.execOr f s
  | .xor f => Sys2Proof.Machine.execXor f s
  | .shl f => Sys2Proof.Machine.execShl f s
  | .shr f => Sys2Proof.Machine.execShr f s
  | .sra f => Sys2Proof.Machine.execSra f s
  | .slt f => Sys2Proof.Machine.execSlt f s
  | .sltu f => Sys2Proof.Machine.execSltu f s
  | .min f => Sys2Proof.Machine.execMin f s
  | .max f => Sys2Proof.Machine.execMax f s
  | .minu f => Sys2Proof.Machine.execMinu f s
  | .maxu f => Sys2Proof.Machine.execMaxu f s
  | .addi f => Sys2Proof.Machine.execAddi f s
  | .andi f => Sys2Proof.Machine.execAndi f s
  | .ori f => Sys2Proof.Machine.execOri f s
  | .xori f => Sys2Proof.Machine.execXori f s
  | .slti f => Sys2Proof.Machine.execSlti f s
  | .sltiu f => Sys2Proof.Machine.execSltiu f s
  | .shli f => Sys2Proof.Machine.execShli f s
  | .shri f => Sys2Proof.Machine.execShri f s
  | .srai f => Sys2Proof.Machine.execSrai f s
  | .lui f => Sys2Proof.Machine.execLui f s
  | .shori f => Sys2Proof.Machine.execShori f s
  | .ldb f => Sys2Proof.Machine.execLdb f s
  | .ldbu f => Sys2Proof.Machine.execLdbu f s
  | .ldh f => Sys2Proof.Machine.execLdh f s
  | .ldhu f => Sys2Proof.Machine.execLdhu f s
  | .ldw f => Sys2Proof.Machine.execLdw f s
  | .ldwu f => Sys2Proof.Machine.execLdwu f s
  | .ldd f => Sys2Proof.Machine.execLdd f s
  | .stb f => Sys2Proof.Machine.execStb f s
  | .sth f => Sys2Proof.Machine.execSth f s
  | .stw f => Sys2Proof.Machine.execStw f s
  | .std f => Sys2Proof.Machine.execStd f s
  | .beq f => Sys2Proof.Machine.execBeq f s
  | .bne f => Sys2Proof.Machine.execBne f s
  | .blt f => Sys2Proof.Machine.execBlt f s
  | .bge f => Sys2Proof.Machine.execBge f s
  | .bltu f => Sys2Proof.Machine.execBltu f s
  | .bgeu f => Sys2Proof.Machine.execBgeu f s
  | .j f => Sys2Proof.Machine.execJ f s
  | .jal f => Sys2Proof.Machine.execJal f s
  | .lrun f => Sys2Proof.Machine.execLrun f s
  | .bld f => Sys2Proof.Machine.execBld f s
  | .bst f => Sys2Proof.Machine.execBst f s
  | .jr f => Sys2Proof.Machine.execJr f s
  | .jalr f => Sys2Proof.Machine.execJalr f s
  | .msum f => Sys2Proof.Machine.execMsum f s
  | .rdsp f => Sys2Proof.Machine.execRdsp f s
  | .wrsp f => Sys2Proof.Machine.execWrsp f s
  | .fence f => Sys2Proof.Machine.execFence f s
  | .tfence f => Sys2Proof.Machine.execTfence f s
  | .yield f => Sys2Proof.Machine.execYield f s
  | .texit f => Sys2Proof.Machine.execTexit f s
  | .syscall f => Sys2Proof.Machine.execSyscall f s
  | .sret f => Sys2Proof.Machine.execSret f s
  | .brset f => Sys2Proof.Machine.execBrset f s
  | .barArrive f => Sys2Proof.Machine.execBarArrive f s
  | .barWait f => Sys2Proof.Machine.execBarWait f s
  | .barSync f => Sys2Proof.Machine.execBarSync f s
  | .lread f => Sys2Proof.Machine.execLread f s
  | .ceLen f => Sys2Proof.Machine.execCeLen f s
  | .ceStride f => Sys2Proof.Machine.execCeStride f s
  | .ceCopy f => Sys2Proof.Machine.execCeCopy f s
  | .ceFill f => Sys2Proof.Machine.execCeFill f s
  | .ceCb f => Sys2Proof.Machine.execCeCb f s
  | .ceFut f => Sys2Proof.Machine.execCeFut f s
  | .ceQjoin f => Sys2Proof.Machine.execCeQjoin f s
  | .ceStat f => Sys2Proof.Machine.execCeStat f s
  | .twDim f => Sys2Proof.Machine.execTwDim f s
  | .twStart f => Sys2Proof.Machine.execTwStart f s
  | .twNext f => Sys2Proof.Machine.execTwNext f s
  | .twDone f => Sys2Proof.Machine.execTwDone f s
  | .tkSpawn f => Sys2Proof.Machine.execTkSpawn f s
  | .tkCast f => Sys2Proof.Machine.execTkCast f s
  | .scInit f => Sys2Proof.Machine.execScInit f s
  | .scDec f => Sys2Proof.Machine.execScDec f s
  | .futAwait f => Sys2Proof.Machine.execFutAwait f s
  | .futResolve f => Sys2Proof.Machine.execFutResolve f s
  | .futFail f => Sys2Proof.Machine.execFutFail f s
  | .futRead f => Sys2Proof.Machine.execFutRead f s
  | .qjInit f => Sys2Proof.Machine.execQjInit f s
  | .qjArrive f => Sys2Proof.Machine.execQjArrive f s
  | .qjStat f => Sys2Proof.Machine.execQjStat f s
  | .arNew f => Sys2Proof.Machine.execArNew f s
  | .arAlloc f => Sys2Proof.Machine.execArAlloc f s
  | .arSeal f => Sys2Proof.Machine.execArSeal f s
  | .arDrop f => Sys2Proof.Machine.execArDrop f s
  | .arWait f => Sys2Proof.Machine.execArWait f s
  | .arInfo f => Sys2Proof.Machine.execArInfo f s
  | .tileDecl f => Sys2Proof.Machine.execTileDecl f s
  | .tileFree f => Sys2Proof.Machine.execTileFree f s
  | .hyFork f => Sys2Proof.Machine.execHyFork f s
  | .hyResolve f => Sys2Proof.Machine.execHyResolve f s
  | .hyEnter f => Sys2Proof.Machine.execHyEnter f s
  | .hyInfo f => Sys2Proof.Machine.execHyInfo f s
  | .qCreate f => Sys2Proof.Machine.execQCreate f s
  | .qDestroy f => Sys2Proof.Machine.execQDestroy f s
  | .qConf f => Sys2Proof.Machine.execQConf f s
  | .qResv f => Sys2Proof.Machine.execQResv f s
  | .qStat f => Sys2Proof.Machine.execQStat f s
  | .ctxNew f => Sys2Proof.Machine.execCtxNew f s
  | .ctxKill f => Sys2Proof.Machine.execCtxKill f s
  | .ctxReclaim f => Sys2Proof.Machine.execCtxReclaim f s
  | .pgMap f => Sys2Proof.Machine.execPgMap f s
  | .pgUnmap f => Sys2Proof.Machine.execPgUnmap f s
  | .pwBudget f => Sys2Proof.Machine.execPwBudget f s
  | .pwGrant f => Sys2Proof.Machine.execPwGrant f s
  | .sysId f => Sys2Proof.Machine.execSysId f s
  | .sysIsland f => Sys2Proof.Machine.execSysIsland f s
  | .sysAttest f => Sys2Proof.Machine.execSysAttest f s
  | .sysPeer f => Sys2Proof.Machine.execSysPeer f s
  | .lnop f => Sys2Proof.Machine.execLnop f s
  | .rep f => Sys2Proof.Machine.execRep f s
  | .lrnd f => Sys2Proof.Machine.execLrnd f s
  | .vidx f => Sys2Proof.Machine.execVidx f s
  | .mpush f => Sys2Proof.Machine.execMpush f s
  | .mpop f => Sys2Proof.Machine.execMpop f s
  | .minv f => Sys2Proof.Machine.execMinv f s
  | .mmov f => Sys2Proof.Machine.execMmov f s
  | .mand f => Sys2Proof.Machine.execMand f s
  | .mor f => Sys2Proof.Machine.execMor f s
  | .mxor f => Sys2Proof.Machine.execMxor f s
  | .mnot f => Sys2Proof.Machine.execMnot f s
  | .vadd f => Sys2Proof.Machine.execVadd f s
  | .vsub f => Sys2Proof.Machine.execVsub f s
  | .vmul f => Sys2Proof.Machine.execVmul f s
  | .vmulh f => Sys2Proof.Machine.execVmulh f s
  | .vmad f => Sys2Proof.Machine.execVmad f s
  | .vmin f => Sys2Proof.Machine.execVmin f s
  | .vmax f => Sys2Proof.Machine.execVmax f s
  | .vabs f => Sys2Proof.Machine.execVabs f s
  | .vneg f => Sys2Proof.Machine.execVneg f s
  | .vand f => Sys2Proof.Machine.execVand f s
  | .vor f => Sys2Proof.Machine.execVor f s
  | .vxor f => Sys2Proof.Machine.execVxor f s
  | .vnot f => Sys2Proof.Machine.execVnot f s
  | .vshl f => Sys2Proof.Machine.execVshl f s
  | .vshr f => Sys2Proof.Machine.execVshr f s
  | .vmov f => Sys2Proof.Machine.execVmov f s
  | .vsel f => Sys2Proof.Machine.execVsel f s
  | .bfx f => Sys2Proof.Machine.execBfx f s
  | .bfi f => Sys2Proof.Machine.execBfi f s
  | .popc f => Sys2Proof.Machine.execPopc f s
  | .clz f => Sys2Proof.Machine.execClz f s
  | .ctz f => Sys2Proof.Machine.execCtz f s
  | .brev f => Sys2Proof.Machine.execBrev f s
  | .vcmp f => Sys2Proof.Machine.execVcmp f s
  | .vclass f => Sys2Proof.Machine.execVclass f s
  | .vdiv f => Sys2Proof.Machine.execVdiv f s
  | .vsqrt f => Sys2Proof.Machine.execVsqrt f s
  | .frcp f => Sys2Proof.Machine.execFrcp f s
  | .frsq f => Sys2Proof.Machine.execFrsq f s
  | .fexp2 f => Sys2Proof.Machine.execFexp2 f s
  | .flog2 f => Sys2Proof.Machine.execFlog2 f s
  | .fsin f => Sys2Proof.Machine.execFsin f s
  | .fcos f => Sys2Proof.Machine.execFcos f s
  | .ftanh f => Sys2Proof.Machine.execFtanh f s
  | .cvt f => Sys2Proof.Machine.execCvt f s
  | .cvts f => Sys2Proof.Machine.execCvts f s
  | .pack f => Sys2Proof.Machine.execPack f s
  | .unpack f => Sys2Proof.Machine.execUnpack f s
  | .qenc f => Sys2Proof.Machine.execQenc f s
  | .qdec f => Sys2Proof.Machine.execQdec f s
  | .scacc f => Sys2Proof.Machine.execScacc f s
  | .dot4 f => Sys2Proof.Machine.execDot4 f s
  | .shfl f => Sys2Proof.Machine.execShfl f s
  | .shflx f => Sys2Proof.Machine.execShflx f s
  | .bcast f => Sys2Proof.Machine.execBcast f s
  | .vperm f => Sys2Proof.Machine.execVperm f s
  | .red f => Sys2Proof.Machine.execRed f s
  | .scan f => Sys2Proof.Machine.execScan f s
  | .vote f => Sys2Proof.Machine.execVote f s
  | .ld f => Sys2Proof.Machine.execLd f s
  | .st f => Sys2Proof.Machine.execSt f s
  | .ldr f => Sys2Proof.Machine.execLdr f s
  | .ldacq f => Sys2Proof.Machine.execLdacq f s
  | .strel f => Sys2Proof.Machine.execStrel f s
  | .atom f => Sys2Proof.Machine.execAtom f s
  | .cas f => Sys2Proof.Machine.execCas f s
  | .cbtake f => Sys2Proof.Machine.execCbtake f s
  | .cbpub f => Sys2Proof.Machine.execCbpub f s
  | .cbget f => Sys2Proof.Machine.execCbget f s
  | .cbret f => Sys2Proof.Machine.execCbret f s
  | .sptest f => Sys2Proof.Machine.execSptest f s
  | .spcast f => Sys2Proof.Machine.execSpcast f s
  | .mzero f => Sys2Proof.Machine.execMzero f s
  | .mldb f => Sys2Proof.Machine.execMldb f s
  | .mma f => Sys2Proof.Machine.execMma f s
  | .msp f => Sys2Proof.Machine.execMsp f s
  | .mscacc f => Sys2Proof.Machine.execMscacc f s
  | .macld f => Sys2Proof.Machine.execMacld f s
  | .macst f => Sys2Proof.Machine.execMacst f s
  | .mbar f => Sys2Proof.Machine.execMbar f s
  | .mloop f => Sys2Proof.Machine.execMloop f s
  | .maddr f => Sys2Proof.Machine.execMaddr f s
  | .mdset f => Sys2Proof.Machine.execMdset f s
  | .mtol f => Sys2Proof.Machine.execMtol f s
  | .mcnt f => Sys2Proof.Machine.execMcnt f s
  | .mend f => Sys2Proof.Machine.execMend f s
  | .unassignedEncoding w => Sys2Proof.Machine.execUnassignedEncoding w s
  | .dispatchPlace => Sys2Proof.Machine.execDispatchPlace s
  | .placementUnitReserve => Sys2Proof.Machine.execPlacementUnitReserve s
  | .placementResourceWaitEvent => Sys2Proof.Machine.execPlacementResourceWaitEvent s
  | .hostEnqueuePortWrite => Sys2Proof.Machine.execHostEnqueuePortWrite s
  | .queueVentDrain => Sys2Proof.Machine.execQueueVentDrain s
  | .heldEntryEntersVent => Sys2Proof.Machine.execHeldEntryEntersVent s
  | .segmentOverflowComplete => Sys2Proof.Machine.execSegmentOverflowComplete s
  | .taskComplete => Sys2Proof.Machine.execTaskComplete s
  | .auditReplayComplete => Sys2Proof.Machine.execAuditReplayComplete s
  | .slotGrant => Sys2Proof.Machine.execSlotGrant s
  | .passCapReached => Sys2Proof.Machine.execPassCapReached s
  | .issueIntervalEnd => Sys2Proof.Machine.execIssueIntervalEnd s
  | .laneBlockStart => Sys2Proof.Machine.execLaneBlockStart s
  | .laneBlockComplete => Sys2Proof.Machine.execLaneBlockComplete s
  | .longLatencyResult => Sys2Proof.Machine.execLongLatencyResult s
  | .greenRoomWake => Sys2Proof.Machine.execGreenRoomWake s
  | .cbWaitWake => Sys2Proof.Machine.execCbWaitWake s
  | .engineReplyArrival => Sys2Proof.Machine.execEngineReplyArrival s
  | .killAtKillPoint => Sys2Proof.Machine.execKillAtKillPoint s
  | .teamEvict => Sys2Proof.Machine.execTeamEvict s
  | .teamRestore => Sys2Proof.Machine.execTeamRestore s
  | .yieldDeadlineExpiry => Sys2Proof.Machine.execYieldDeadlineExpiry s
  | .teamMigrate => Sys2Proof.Machine.execTeamMigrate s
  | .migrationForwardEnd => Sys2Proof.Machine.execMigrationForwardEnd s
  | .lateFootprintMessage => Sys2Proof.Machine.execLateFootprintMessage s
  | .faultCollectExpiry => Sys2Proof.Machine.execFaultCollectExpiry s
  | .matrixFaultDelivery => Sys2Proof.Machine.execMatrixFaultDelivery s
  | .ceFaultDelivery => Sys2Proof.Machine.execCeFaultDelivery s
  | .ceEntryStart => Sys2Proof.Machine.execCeEntryStart s
  | .ceEntryComplete => Sys2Proof.Machine.execCeEntryComplete s
  | .reservationGrant => Sys2Proof.Machine.execReservationGrant s
  | .matrixPassComplete => Sys2Proof.Machine.execMatrixPassComplete s
  | .homeRequestArrival => Sys2Proof.Machine.execHomeRequestArrival s
  | .forwardedStoreArrival => Sys2Proof.Machine.execForwardedStoreArrival s
  | .replicaUpdateApply => Sys2Proof.Machine.execReplicaUpdateApply s
  | .clockNoticeArrival => Sys2Proof.Machine.execClockNoticeArrival s
  | .arenaDropSweepComplete => Sys2Proof.Machine.execArenaDropSweepComplete s
  | .hypSweepFree => Sys2Proof.Machine.execHypSweepFree s
  | .tlbHalfSweepComplete => Sys2Proof.Machine.execTlbHalfSweepComplete s
  | .uncorrectableError => Sys2Proof.Machine.execUncorrectableError s
  | .poisonConsumed => Sys2Proof.Machine.execPoisonConsumed s
  | .coreLogicFault => Sys2Proof.Machine.execCoreLogicFault s
  | .coreRetire => Sys2Proof.Machine.execCoreRetire s
  | .clusterRetire => Sys2Proof.Machine.execClusterRetire s
  | .hbmChannelRetire => Sys2Proof.Machine.execHbmChannelRetire s
  | .hbmRowRepair => Sys2Proof.Machine.execHbmRowRepair s
  | .flitCrcFail => Sys2Proof.Machine.execFlitCrcFail s
  | .linkRetrainStart => Sys2Proof.Machine.execLinkRetrainStart s
  | .linkRetrainComplete => Sys2Proof.Machine.execLinkRetrainComplete s
  | .dieMessageArrival => Sys2Proof.Machine.execDieMessageArrival s
  | .dieResponseArrival => Sys2Proof.Machine.execDieResponseArrival s
  | .peerIncomingRequest => Sys2Proof.Machine.execPeerIncomingRequest s
  | .peerTimeout => Sys2Proof.Machine.execPeerTimeout s
  | .deviceReset => Sys2Proof.Machine.execDeviceReset s
  | .recoveryBootWrite => Sys2Proof.Machine.execRecoveryBootWrite s
  | .partitionRestart => Sys2Proof.Machine.execPartitionRestart s
  | .islandLimitLower => Sys2Proof.Machine.execIslandLimitLower s
  | .islandStepChangeDone => Sys2Proof.Machine.execIslandStepChangeDone s
  | .registerWrite => Sys2Proof.Machine.execRegisterWrite s
  | .peerResponseArrival => Sys2Proof.Machine.execPeerResponseArrival s
  | .hostApertureAccess => Sys2Proof.Machine.execHostApertureAccess s
  | .ethernetPortLinkChange => Sys2Proof.Machine.execEthernetPortLinkChange s
  | .correctableError => Sys2Proof.Machine.execCorrectableError s
  | .clusterReturnToService => Sys2Proof.Machine.execClusterReturnToService s
  | .maintenanceRetrain => Sys2Proof.Machine.execMaintenanceRetrain s
  | .partitionCreate => Sys2Proof.Machine.execPartitionCreate s
  | .islandLimitRaise => Sys2Proof.Machine.execIslandLimitRaise s
  | .contextSlotSweepComplete => Sys2Proof.Machine.execContextSlotSweepComplete s
  | .migrationCopyComplete => Sys2Proof.Machine.execMigrationCopyComplete s

end Sys2Proof.Machine
end

