-- ==== Sys2Proof/Machine/Step.lean ====
section
/-!
DEFINITION. One step of the device: the agent whose turn it is moves; then the next turn is drawn (00:R11; log 1) and time passes (log 2).
-/
namespace Sys2Proof.Machine

/-- The clock of an island at a step, in hundredths of a GHz: 1.05 GHz at step 0, 0.1 GHz less at each
step to step 6, stopped at step 7 (12:R359). -/
def stepRate (step : Nat) : Nat :=
  match step with
  | 0 => 105
  | 1 => 95
  | 2 => 85
  | 3 => 75
  | 4 => 65
  | 5 => 55
  | 6 => 45
  | _ => 0

/-- Each island's clock falls behind the fixed one by what its step is short of 1.05 GHz (01:R28; 12:R359). -/
def State.lagIslands (s : State) (clocks : Nat) : State :=
  { s with islands := List.map (fun e : Nat × Island => (e.1, { e.2 with lag := e.2.lag + (105 - stepRate e.2.step) * clocks })) s.islands }

/-- The turn passes on, and time with it; the hardware beside the agents goes on (log 76), and the waits of queues are noted (11:R327, R328). -/
def State.pass (s : State) : State :=
  let n := Config.elapsed s.tick
  ({ (s.hardware.lagIslands n) with turn := Config.schedule s.tick, tick := s.tick + 1, clock := s.clock + n }).noteHeads

/-- What a step answers, from what the agent's move answers. -/
def passOn (o : Host.Outcome State Fault Refusal) : Host.Outcome State Fault Refusal :=
  match o with
  | .next s => .next s.pass
  | .fault f => .fault f
  | .refused r => .refused r

/-- The move of the agent whose turn it is: an event, or the next word of a stream. -/
def State.move (s : State) : Host.Outcome State Fault Refusal :=
  match s.turn with
  | .event e => exec e.row s
  | _ =>
    match s.fetch with
    | .instead o => o
    | .word s w => exec (instrOf w) s

/-- One step. -/
def step (s : State) : Host.Outcome State Fault Refusal := passOn s.move

/-- The state whose next step fetches and runs a given word: it stands for the load of a program and the placement of its unit (log 4). -/
def State.withFetchWord (s : State) (nbits w : Nat) : State := s.placeWord (streamOf nbits) w

end Sys2Proof.Machine
end

