-- ==== Sys2Proof/WellFormed.lean ====
section
/-!
DEFINITION. Which terms of `Instr` are instructions: those that some word stands for (05:R153, R158), and the steps of the machine, which no
word stands for.
-/
namespace Sys2Proof

/-- Why a term is no instruction. -/
inductive IllFormed where
  /-- A `FENCE` of kind 00 (05:R153). -/
  | fenceKind
  /-- A `FENCE` with scope code 6 or 7 (05:R153). -/
  | fenceScope
  /-- An `unassignedEncoding` of a word that is an instruction (05:R158). -/
  | assigned
  deriving DecidableEq, Repr

/-- Kind and scope of a `FENCE` (06:R184). -/
def checkFence (f : SR) : Option IllFormed :=
  if f.b.extractLsb' 0 2 = 0 then some .fenceKind else if 6 ≤ (f.b.extractLsb' 2 3).toNat then some .fenceScope else none

/-- The word is no instruction. -/
def checkUnassigned (w : RawWord) : Option IllFormed :=
  match decodeWord w with
  | .ok _ => some .assigned
  | .error _ => none

/-- Why a term is no instruction; none when it is one. -/
def check (i : Instr) : Option IllFormed :=
  match i with
  | .fence f => checkFence f
  | .unassignedEncoding w => checkUnassigned w
  | _ => none

/-- The term is an instruction. -/
def WellFormed (i : Instr) : Prop := check i = none

end Sys2Proof
end

