-- ==== Sys2Proof/Safety.lean ====
section
/-!
DEFINITION. What counts as a safe run, the invariant of the state, and the terms in which the statements speak of the words that are about to
issue.
-/
namespace Sys2Proof.Machine

/-! ## Safe runs -/

/-- The canonical form of memory: keys rise strictly, and no listed byte equals what an unlisted key reads as. -/
def Memory.wf (m : Memory) : Bool := NMap.wf 0 m

/-- The invariant: memory is in canonical form, so that equal memories are equal data. -/
def State.Inv (s : State) : Prop := Memory.wf s.mem = true

/-- A step is safe when the machine goes on. -/
def State.safe (s : State) : Prop := ∃ s', step s = .next s'

/-- A run of `n` steps is safe when each of them is. -/
def State.safeRun (s : State) : Nat → Prop
  | 0 => True
  | n + 1 => ∃ s', step s = .next s' ∧ s'.safeRun n

/-! ## What is about to issue, and how it ends -/

/-- Team `t` is the one that the step may give a trap: its stream moves, its access of host or peer memory ends, or a fault is delivered to it. -/
def State.concerns (s : State) (t : Nat) : Prop :=
  match s.turn with
  | .scalar x => x = t
  | .lane x => x = t
  | .matrix _ => False
  | .event (.peerResponseArrival (.team x) _) => x = t
  | .event (.peerTimeout (.team x)) => x = t
  | .event (.faultCollectExpiry c i) => ∃ e, (s.cluster c).faults[i]? = some e ∧ e.opener = t
  | .event (.ceFaultDelivery c q) => ∃ e u, (s.ceq c q).entries.head? = some e ∧ s.unit? e.tags.unit = some u ∧ t ∈ u.teams
  | .event (.matrixFaultDelivery n) => ∃ u, s.unit? n = some u ∧ t ∈ u.teams
  | .event _ => False

/-- The step may give a trap to a control core (01:R24): the manual describes no handler for it (log 16). -/
def State.controlTurn (s : State) : Prop := ∃ t tm, s.teams[t]? = some tm ∧ tm.ctrl.isSome = true ∧ s.concerns t

/-- The lane word with fields `f` issues on a team: its environment is `e`, it waits for no earlier result or repeat, the run has passes left, its
operand form is accepted and its registers are within the budget (05:R147, R148, R150; 16:R369). -/
structure LaneIssues (s : State) (f : LaneF) (sh : LaneShape) (e : LaneEnv) : Prop where
  moves : ∃ tm, s.laneTeam = some (e.t, tm, e.rb) ∧ tm.mustWait = false ∧ e = laneEnv s e.t tm e.rb f
  fresh : e.tm.repeatWaits (sh.reads e) = false
  cap   : e.rb.passes + sh.passes e ≤ passCap
  form  : sh.form e = true
  regs  : ∀ r ∈ sh.regs e, r < e.tm.budget

/-- What a lane word leaves alone that touches neither memory nor a scalar register: memory, the other teams, and of its own team the
scalar stream and its registers, the buffer records, the mode and the trap registers. -/
structure LaneKeeps (s s' : State) (t : Nat) (tm tm' : Team) : Prop where
  mem    : s'.mem = s.mem
  team   : s'.teams = s.teams.set t tm'
  sregs  : tm'.s = tm.s
  recs   : tm'.b = tm.b
  pc     : tm'.pc = tm.pc
  level  : tm'.level = tm.level
  frame  : tm'.frame = tm.frame
  queue  : tm'.queue = tm.queue
  spec   : tm'.seed = tm.seed ∧ tm'.hyp = tm.hyp ∧ tm'.arithmask = tm.arithmask ∧ tm'.repidx = tm.repidx

/-- Register `r` of each active lane holds `val` of the lane; every other lane register is as before. -/
structure LaneWrites (e : LaneEnv) (tm' : Team) (r : Nat) (val : Nat → W64) : Prop where
  active : ∀ l ∈ e.active, tm'.lreg l r = val l
  others : ∀ l k, (∀ j ∈ e.active, 64 * l + k ≠ 64 * j + r) → tm'.lreg l k = e.tm.lreg l k

/-- The bits of `%sticky` only ever gain `OV` by a lane word. -/
def stickyAfter (e : LaneEnv) (tm' : Team) (ov : Bool) : Prop :=
  tm'.sticky = if ov then e.tm.sticky ||| stickyOV else e.tm.sticky

/-- The sub-elements of a register of type `ty`, sub-element 0 first (00:R8). -/
def packed (ty : Nat) (op : Nat → Nat) : W64 := BitVec.ofNat 64 (ofSubs (tyWidth ty) ((List.range (tyCount ty)).map op))

/-- A word of long latency leaves its results to be written later: parts of registers, each cut into sub-elements of `part` bits, in its
window (05:R149 to R151). -/
structure LanePosts (e : LaneEnv) (tm' : Team) (part : Nat) (ws : List PartWrite) : Prop where
  regs    : tm'.v = e.tm.v
  results : ∃ old miss resp, tm'.pending = old ++ [⟨splitWrites part ws, e.f.la.toNat, miss, !e.rb.lastRep, resp⟩]

/-- A lane word runs: the machine goes on with what a word that touches neither memory nor a scalar register leaves alone, and with `P` of the
team afterwards. -/
def LaneRuns (o : Out) (s : State) (e : LaneEnv) (P : Team → Prop) : Prop :=
  ∃ s' tm', o = .next s' ∧ LaneKeeps s s' e.t e.tm tm' ∧ P tm'

/-- The masks and the mask stack are as before. -/
def MasksKept (e : LaneEnv) (tm' : Team) : Prop := tm'.m = e.tm.m ∧ tm'.stack = e.tm.stack

/-- Entering the level-1 handler (16:R370, R371): the team is trapped, its bank is set, the record holds what was interrupted, and no other
byte of memory changes. -/
structure EntersHandler (s s' : State) (t : Nat) (tm : Team) (cause : Nat) (resume a b : W64) : Prop where
  team    : ∃ tm', s'.teams = s.teams.set t tm' ∧ tm'.state = .trapped ∧ tm'.level = 1 ∧ tm'.pc = s'.handlerEntry tm.slot ∧
              tm'.rd 28 = supPtr tm.frame ∧ tm'.rd 29 = BitVec.ofNat 64 cause ∧ tm'.rd 30 = resume ∧ tm'.rd 31 = 0 ∧
              (∀ n : BitVec 5, n.toNat < 28 → tm'.rd n = tm.rd n) ∧ tm'.m = tm.m ∧ tm'.stack = tm.stack ∧ tm'.b = tm.b
  cause   : (s'.byte tm.frame).toNat = cause
  resume  : leNat (s'.bytes (tm.frame + 0x08) 8) = resume.toNat
  detailA : leNat (s'.bytes (tm.frame + 0x18) 8) = a.toNat
  detailB : leNat (s'.bytes (tm.frame + 0x20) 8) = b.toNat
  saved   : ∀ j, j < 4 → leNat (s'.bytes (tm.frame + 0x28 + 8 * j) 8) = (tm.rd (BitVec.ofNat 5 (28 + j))).toNat
  memory  : ∀ k, k < tm.frame ∨ tm.frame + 256 ≤ k → s'.byte k = s.byte k

/-- A scalar word of team `t` may trap into a handler: it runs no handler, holds no issue slot and replays no task; it is no control core, and a
link leads to its trap frame (01:R22). -/
structure MayTrap (s : State) (t : Nat) (tm : Team) : Prop where
  moves  : s.scalarTeam = some (t, tm)
  team   : tm.ctrl = none
  level  : tm.level = 0
  slot   : tm.holding = none
  replay : s.replays tm = false
  reach  : s.frameReached tm = true

/-- What a memory cause does at a word (17:R390, R391, R394): the team enters its handler with the cause, the pointer in detail A, and what the word does
in detail B; with cause 0x10 it keeps the issue of the word and waits for the fault table of its cluster, trapped if it opened an entry. -/
def MeetsCause (o : Out) (s : State) (t : Nat) (tm : Team) (p : W64) (k : Kind) (cause : Nat) : Prop :=
  if cause = 0x10 then ∃ s' tm', o = .next s' ∧ s'.teams[t]? = some tm' ∧ (tm'.state = .blocked ∨ tm'.state = .trapped) ∧ tm'.pc = tm.pc ∧
    tm'.s = tm.s ∧ tm'.v = tm.v
  else ∃ s' b, o = .next s' ∧ EntersHandler s s' t tm cause tm.pc p b ∧ b.toNat % 16 = k.bits

/-- The memory causes of a scalar access of `n` bytes at `p`, in the order of their checks (17:R390, R391): window, alignment, translation, seal. -/
structure ScalarCauses (o : Out) (s : State) (t : Nat) (tm : Team) (k : Kind) (align n : Nat) (p : W64) : Prop where
  noPointer : (2 ≤ p.toNat / 2 ^ 56 ∧ p.toNat / 2 ^ 56 < 0xFC) ∨ (p.toNat / 2 ^ 56 = 0xFF ∧ physClass p.toNat = 3) → MeetsCause o s t tm p k 0x14
  supervisor : p.toNat / 2 ^ 56 = 0xFF → physClass p.toNat ≠ 3 → tm.sup = false → MeetsCause o s t tm p k 0x15
  beyond : p.toNat / 2 ^ 56 = 0xFC → (s.ctx tm.slot).privSize < p.toNat % 2 ^ 24 + n → MeetsCause o s t tm p k 0x16
  foreign : p.toNat / 2 ^ 56 = 0xFD → p.toNat / 2 ^ 48 % 256 ≠ tm.tag → MeetsCause o s t tm p k 0x17
  padEnd : (p.toNat / 2 ^ 56 = 0xFD ∧ p.toNat / 2 ^ 48 % 256 = tm.tag) ∨ p.toNat / 2 ^ 56 = 0xFE → 2 ^ 19 < p.toNat % 2 ^ 19 + n →
    MeetsCause o s t tm p k 0x25
  misaligned : p.toNat < 2 ^ 57 → p.toNat % align ≠ 0 → MeetsCause o s t tm p k 0x18
  unmapped : p.toNat < 2 ^ 57 → p.toNat % align = 0 → p.toNat % 128 + n ≤ 128 → (s.ctx tm.slot).translate p.toNat = none →
    MeetsCause o s t tm p k 0x10
  mapped : p.toNat < 2 ^ 57 → p.toNat % align = 0 → p.toNat % 128 + n ≤ 128 → ∀ pg m pa, (s.ctx tm.slot).translate p.toNat = some (pg, m, pa) →
    (k = .load → pg.read = false → MeetsCause o s t tm p k 0x10) ∧
    (k = .store → pg.write = false → MeetsCause o s t tm p k 0x11) ∧
    (k = .store → pg.write = true → ((s.ctx tm.slot).arena pg.arena).state = .sealed → MeetsCause o s t tm p k 0x19)

/-- The lane word takes the first of the causes `ms` that its accesses meet, in the order of 17:R391: detail A is the pointer of the lowest lane that
meets it, and the record names the lanes that do; for causes 0x10 and 0x11 only those of that lane's page. -/
def LaneMeetsFirst (o : Out) (e : LaneEnv) (k : Kind) (accs : List LaneAcc) (ms : LaneAcc → List Miss) : Prop :=
  e.tm.ctrl = none → e.tm.level = 0 → e.s.replays e.tm = false → e.s.frameReached e.tm = true →
  let order := [0x14, 0x15, 0x16, 0x17, 0x25, 0x12, 0x13, 0x18, 0x1B, 0x10, 0x11, 0x19, 0x1A, 0x1C, 0x1D]
  let meets (a : LaneAcc) (c : Nat) : Prop := ∃ m ∈ ms a, m.cause = c
  ∀ (i c : Nat) (a : LaneAcc), order[i]? = some c → (∀ (j c' : Nat), j < i → order[j]? = some c' → ∀ x ∈ accs, ¬meets x c') → a ∈ accs → meets a c →
    (∀ x ∈ accs, x.lane < a.lane → ¬meets x c) → a.lane < 1024 →
    if c = 0x10 then ∃ s' tm', o = .next s' ∧ s'.teams[e.t]? = some tm' ∧ (tm'.state = .blocked ∨ tm'.state = .trapped) ∧ tm'.pc = e.tm.pc ∧
      tm'.s = e.tm.s ∧ tm'.v = e.tm.v
    else ∃ s' b, o = .next s' ∧ EntersHandler e.s s' e.t e.tm.flush c e.tm.pc a.ptr b ∧ b.toNat % 16 = k.bits ∧
      (c ≠ 0x11 → ∀ l, l < 1024 → ((leNat (s'.bytes (e.tm.frame + 0x80) 128)).testBit l = true ↔ ∃ x ∈ accs, x.lane = l ∧ meets x c))

/-- A trap inside a handler (16:R375): the team stops at level 2 with its record at 0x100 of the frame, and every team of its troupe is to be
killed, with the troupe's failure set down. -/
structure EscalatesTo (s s' : State) (t : Nat) (tm : Team) (cause : Nat) : Prop where
  team   : ∃ tm', s'.teams[t]? = some tm' ∧ tm'.state = .trapped ∧ tm'.level = 2 ∧ tm'.pc = tm.pc ∧ tm'.frame = tm.frame ∧
             tm'.queue = [] ∧ tm'.run = none ∧ ∀ n, tm'.rd n = tm.rd n
  record : (s'.byte (tm.frame + 256)).toNat = cause
  memory : ∀ k, k < tm.frame + 256 ∨ tm.frame + 512 ≤ k → s'.byte k = s.byte k
  troupe : ∀ u, s.unit? tm.unit = some u → ∃ u', s'.unit? tm.unit = some u' ∧ u'.ending = some (u.ending.getD (.levelTwo cause)) ∧
             ∀ i ∈ u.teams, ∀ x, s'.teams[i]? = some x → x.state ≠ .exited → x.kill.isSome = true

/-- A scalar word of team `t` is about to issue inside its handler, and no issue slot is held; a link leads to its trap frame. -/
structure InHandler (s : State) (t : Nat) (tm : Team) : Prop where
  moves  : s.scalarTeam = some (t, tm)
  team   : tm.ctrl = none
  state  : tm.state = .trapped
  level  : tm.level = 1
  slot   : tm.holding = none
  replay : s.replays tm = false
  reach  : s.frameReached tm = true

/-- An SX command issues to an engine and is not dropped there: in supervisor mode where it must be, and not in a replay of engines 3 to 6;
a link leads to the unit (01:R21; 05:R139; 06:R192; 16:R377; 19:R425). -/
structure SxIssues (s : State) (t : Nat) (tm : Team) (engine : Nat) (sup : Bool) : Prop where
  moves  : s.scalarTeam = some (t, tm)
  mode   : sup = true → tm.sup = true
  replay : 3 ≤ engine → engine ≤ 6 → s.replays tm = false
  drop   : s.sxDrop tm engine = none
  reach  : s.unitReached tm engine = true

/-- The command has been performed, with `s` as the state it leaves: the team goes on after the word; in the reply form its reply is on the
way (05:R139). -/
def Replies (o : Out) (s : State) (t : Nat) (f : SX) (v : W64) : Prop :=
  ∃ tm, s.teams[t]? = some tm ∧
    o = .next (s.setTeam t { tm with pc := tm.pc + 4, wait := none, sxWait := false, reply := if f.r then some (f.d, v) else none })

/-- The command of engine 3 to 5 is refused (17:R399): it traps at its word with its cause, with S[sa] in detail A and the sub-code, the function, the
form and S[sb] in detail B. -/
def Refuses (o : Out) (s : State) (t : Nat) (tm : Team) (f : SX) (cause fn code : Nat) : Prop :=
  ∃ s', o = .next s' ∧ EntersHandler s s' t tm cause tm.pc (tm.rd f.a)
    (BitVec.ofNat 64 (code + fn * 2 ^ 8 + (if f.r then 0 else 2 ^ 15) + (tm.rd f.b).toNat % 2 ^ 48 * 2 ^ 16))

/-- A matrix word of unit `n` issues: the unit is `u` and its sequencer `q`, whose hypothesis stands, and which owes no acquire after a
barrier (09:R264, R274; 03:R103). -/
structure SeqIssues (s : State) (n : Nat) (u : LUnit) (q : Sequencer) : Prop where
  moves   : s.seqUnit = some (n, u, q)
  stands  : (s.ctx u.slot).refuted u.launch.hyp = false
  settled : q.acquires = false

/-- Sequencer of unit `n` after a step. -/
def State.seqOf (s : State) (n : Nat) : Option Sequencer := (s.unit? n).bind (·.seqr)

/-- Cell (i, j) of the accumulator slot that a troupe calls `k`. -/
def State.cell (s : State) (u : LUnit) (k i j : Nat) : W32 := NMap.get s.acc 0 (u.accKey k i j)

end Sys2Proof.Machine
end

