-- ==== Sys2Proof/Certificates/Slice0/Obligations.lean ====
section
/-!
DEFINITION. The statements for the provers.
-/
section

open Sys2Proof Sys2Proof.Machine

/-! ## Encodings and the step -/

/-- 05:R137, R140, R145, R152 to R157. The decoder gives back every well-formed instruction from its word, with every operand. -/
def Obligations.DecodeReadsWhatEncodeWrites : Prop :=
  ∀ (i : Instr) (w : RawWord), WellFormed i → encode i = some w →
    instrOf w = i ∧ ((∀ x, i ≠ .unassignedEncoding x) → decodeWord w = .ok i)

/-- 05:R137, R140, R145. No bit of a word that is an instruction is dropped, and no two words decode to one instruction. -/
def Obligations.EncodeWritesWhatDecodeReads : Prop :=
  ∀ (w : RawWord) (i : Instr), decodeWord w = .ok i → encode i = some w ∧ WellFormed i

/-- What one step adds around the move of an agent: a word is fetched through the instruction cache of its stream, the turn passes, time with
it, and each island's clock falls behind the fixed one by what its step is short of 1.05 GHz (01:R28; 12:R359; log 1, log 2, log 19, log 76). -/
def Obligations.StepRunsTheDecodedWord : Prop :=
  (∀ (s : State) (t : Nat) (tm : Team) (bs : List Byte) (i : Instr),
    s.scalarTeam = some (t, tm) → s.fetchBytes tm (some false) tm.pc 4 = .ok bs → s.codeReady tm (some false) tm.pc 4 = true →
    s.fetchPoisoned tm (some false) tm.pc 4 = false → decodeWord (.scalar (BitVec.ofNat 32 (leNat bs))) = .ok i →
    step s = passOn (exec i (s.cacheCode tm (some false) tm.pc 4))) ∧
  (∀ (s : State) (t : Nat) (tm : Team) (rb : RunBlock) (bs : List Byte) (i : Instr),
    let p := tm.laneAddr rb.pos.toNat
    s.laneTeam = some (t, tm, rb) → tm.mustWait = false → s.fetchBytes tm (some true) p 12 = .ok bs → s.codeReady tm (some true) p 12 = true →
    s.fetchPoisoned tm (some true) p 12 = false → decodeWord (.lane (BitVec.ofNat 96 (leNat bs))) = .ok i →
    step s = passOn (exec i (s.cacheCode tm (some true) p 12))) ∧
  (∀ (s : State) (n : Nat) (u : LUnit) (q : Sequencer) (bs : List Byte) (i : Instr),
    s.seqUnit = some (n, u, q) → (s.ctx u.slot).refuted u.launch.hyp = false → q.loaded = true → s.poison.contains (.seqBuffer n) = false →
    s.fetchBytes u.seqReader none q.pc 8 = .ok bs → s.codeReady u.seqReader none q.pc 8 = true →
    s.fetchPoisoned u.seqReader none q.pc 8 = false → decodeWord (.matrix (BitVec.ofNat 64 (leNat bs))) = .ok i →
    step s = passOn (exec i s)) ∧
  (∀ (s : State) (tm : Team) (c : Option Bool) (p : W64) (n : Nat),
    (s.cacheCode tm c p n).mem = s.mem ∧ (s.cacheCode tm c p n).teams = s.teams ∧ (s.cacheCode tm c p n).units = s.units) ∧
  (∀ (s : State) (e : Event), s.turn = .event e → step s = passOn (exec e.row s)) ∧
  (∀ s : State, passOn (.next s) = .next s.pass ∧ s.pass.turn = Config.schedule s.tick ∧ s.pass.tick = s.tick + 1 ∧
    s.pass.clock = s.clock + Config.elapsed s.tick ∧ (∀ i, (s.pass.island i).lag =
      (s.hardware.island i).lag + (105 - stepRate (s.hardware.island i).step) * Config.elapsed s.tick) ∧
    (s.joins = [] → s.lateActions = [] → (∀ c ∈ s.contexts, c.2.resolves = [] ∧ c.2.reclaiming = false) → s.hardware = s)) ∧
  (∀ r, passOn (.fault r) = .fault r) ∧ (∀ r, passOn (.refused r) = .refused r)

/-! ## Reset and the whole machine -/

/-- 03:R106, 12:R348, and log 5 and log 6 for what the manual gives no value: right after reset the boot is about to run, every incarnation is 0, no
context, queue, unit or partition exists, control cores are held, and every register reads 0. -/
def Obligations.ResetLeavesTheseValues : Prop :=
  (∀ n, (State.reset.ctx n).inc = 0 ∧ (State.reset.ctx n).live = false ∧ NMap.find? State.reset.queues n = none ∧
    NMap.find? State.reset.parts n = none) ∧
  State.reset.units = [] ∧ State.reset.teams.length = 8 ∧
  (∀ (k : Nat) (tm : Team), State.reset.teams[k]? = some tm →
    tm.ctrl = some k ∧ tm.state = .blocked ∧ tm.sticky = 0 ∧ ∀ n, tm.rd n = 0) ∧
  (∀ k, State.reset.byte k = 0) ∧ State.reset.port.boot = 0

/-- Memory is in canonical form at reset. -/
def Obligations.ResetMemoryIsCanonical : Prop := State.reset.Inv

/-- Every step keeps memory in canonical form, from every state that has it. -/
def Obligations.StepKeepsMemoryCanonical : Prop := ∀ s s' : State, s.Inv → step s = .next s' → s'.Inv

/-- 16:R366, R370 and log 16: the machine never stops for want of a meaning, and a fault stops it only where a control core meets a trap
cause. No team, event or sequencer stops it. -/
def Obligations.OnlyControlCoresStopTheMachine : Prop :=
  ∀ s : State, (∀ r, step s ≠ .refused r) ∧ ∀ r, step s = .fault r → s.controlTurn

/-! ## Scalar registers, arithmetic, jumps -/

/-- 06:R168. The integer functions: each writes its result to sd, goes on to the next word, and changes nothing else; so do the divisions when
the divisor is not 0. -/
def Obligations.IntegerFunctionsWriteTheirResult : Prop :=
  ∀ (s : State) (t : Nat) (tm : Team) (f : SR), s.scalarTeam = some (t, tm) →
    let a := tm.rd f.a
    let b := tm.rd f.b
    let n := b.toNat % 64
    let gives (i : Instr) (x : W64) : Prop := exec i s = .next (s.setTeam t (tm.wr f.d x).advance)
    gives (.add f) (BitVec.ofNat 64 (a.toNat + b.toNat)) ∧
    gives (.sub f) (BitVec.ofInt 64 (a.toInt - b.toInt)) ∧
    gives (.mul f) (BitVec.ofNat 64 (a.toNat * b.toNat)) ∧
    gives (.mulh f) (BitVec.ofInt 64 (a.toInt * b.toInt / 2 ^ 64)) ∧
    gives (.mulhu f) (BitVec.ofNat 64 (a.toNat * b.toNat / 2 ^ 64)) ∧
    gives (.and f) (a &&& b) ∧ gives (.or f) (a ||| b) ∧ gives (.xor f) (a ^^^ b) ∧
    gives (.shl f) (BitVec.ofNat 64 (a.toNat * 2 ^ n)) ∧
    gives (.shr f) (BitVec.ofNat 64 (a.toNat / 2 ^ n)) ∧
    gives (.sra f) (BitVec.ofInt 64 (a.toInt / 2 ^ n)) ∧
    gives (.slt f) (if a.toInt < b.toInt then 1 else 0) ∧
    gives (.sltu f) (if a.toNat < b.toNat then 1 else 0) ∧
    gives (.min f) (BitVec.ofInt 64 (min a.toInt b.toInt)) ∧
    gives (.max f) (BitVec.ofInt 64 (max a.toInt b.toInt)) ∧
    gives (.minu f) (BitVec.ofNat 64 (min a.toNat b.toNat)) ∧
    gives (.maxu f) (BitVec.ofNat 64 (max a.toNat b.toNat)) ∧
    (b ≠ 0 → gives (.div f) (BitVec.ofInt 64 (a.toInt.tdiv b.toInt)) ∧ gives (.divu f) (BitVec.ofNat 64 (a.toNat / b.toNat)) ∧
      gives (.rem f) (BitVec.ofInt 64 (a.toInt.tmod b.toInt)) ∧ gives (.remu f) (BitVec.ofNat 64 (a.toNat % b.toNat)))

/-- 06:R168, R169. The division functions: quotients truncate toward zero, a remainder has the sign of a, a zero divisor gives all ones or a
and sets DZ, and no other divisor touches `%sticky`. -/
def Obligations.DivisionsWriteTheirResult : Prop :=
  ∀ (s : State) (t : Nat) (tm : Team) (f : SR), s.scalarTeam = some (t, tm) →
    let a := tm.rd f.a
    let b := tm.rd f.b
    let gives (i : Instr) (x : W64) : Prop :=
      exec i s = .next (s.setTeam t ({ tm.wr f.d x with sticky := if b = 0 then tm.sticky ||| 1 else tm.sticky }.advance))
    gives (.div f) (if b = 0 then BitVec.allOnes 64 else BitVec.ofInt 64 (a.toInt.tdiv b.toInt)) ∧
    gives (.divu f) (if b = 0 then BitVec.allOnes 64 else BitVec.ofNat 64 (a.toNat / b.toNat)) ∧
    gives (.rem f) (if b = 0 then a else BitVec.ofInt 64 (a.toInt.tmod b.toInt)) ∧
    gives (.remu f) (if b = 0 then a else BitVec.ofNat 64 (a.toNat % b.toNat))

/-- 06:R170. The immediate functions. -/
def Obligations.ImmediateFunctionsWriteTheirResult : Prop :=
  ∀ (s : State) (t : Nat) (tm : Team) (f : SI), s.scalarTeam = some (t, tm) →
    let a := tm.rd f.a
    let n := f.i.toNat % 64
    let gives (i : Instr) (x : W64) : Prop := exec i s = .next (s.setTeam t (tm.wr f.d x).advance)
    gives (.addi f) (BitVec.ofInt 64 (a.toInt + f.i.toInt)) ∧
    gives (.andi f) (a &&& BitVec.ofNat 64 f.i.toNat) ∧ gives (.ori f) (a ||| BitVec.ofNat 64 f.i.toNat) ∧
    gives (.xori f) (a ^^^ BitVec.ofNat 64 f.i.toNat) ∧
    gives (.slti f) (if a.toInt < f.i.toInt then 1 else 0) ∧
    gives (.sltiu f) (if a.toNat < (BitVec.ofInt 64 f.i.toInt).toNat then 1 else 0) ∧
    gives (.shli f) (BitVec.ofNat 64 (a.toNat * 2 ^ n)) ∧
    gives (.shri f) (BitVec.ofNat 64 (a.toNat / 2 ^ n)) ∧
    gives (.srai f) (BitVec.ofInt 64 (a.toInt / 2 ^ n)) ∧
    gives (.lui f) (BitVec.ofInt 64 (f.i.toInt * 2 ^ 16)) ∧
    gives (.shori f) (BitVec.ofNat 64 (a.toNat * 2 ^ 16) ||| BitVec.ofNat 64 f.i.toNat)

/-- 06:R175, R176; 16:R378. Branches and jumps: where the stream goes on, the link, and the trap of a target that is no multiple of 4, which
writes no link. -/
def Obligations.BranchesAndJumpsGoOnWhereTheRulesSay : Prop :=
  ∀ (s : State) (t : Nat) (tm : Team), s.scalarTeam = some (t, tm) →
    (∀ f : SB,
      let a := tm.rd f.a
      let b := tm.rd f.b
      let goes (i : Instr) (taken : Prop) [Decidable taken] : Prop :=
        exec i s = .next (s.setTeam t { tm with pc := if taken then tm.pc + BitVec.ofInt 64 (4 * f.o.toInt) else tm.pc + 4 })
      goes (.beq f) (a = b) ∧ goes (.bne f) (a ≠ b) ∧ goes (.blt f) (a.toInt < b.toInt) ∧ goes (.bge f) (b.toInt ≤ a.toInt) ∧
      goes (.bltu f) (a.toNat < b.toNat) ∧ goes (.bgeu f) (b.toNat ≤ a.toNat)) ∧
    (∀ f : SJ,
      exec (.j f) s = .next (s.setTeam t { tm with pc := tm.pc + BitVec.ofInt 64 (4 * f.o.toInt) }) ∧
      exec (.jal f) s = .next (s.setTeam t { tm.wr 31 (tm.pc + 4) with pc := tm.pc + BitVec.ofInt 64 (4 * f.o.toInt) })) ∧
    (∀ f : SR, (tm.rd f.a).toNat % 4 = 0 →
      exec (.jr f) s = .next (s.setTeam t { tm with pc := tm.rd f.a }) ∧
      exec (.jalr f) s = .next (s.setTeam t { tm.wr f.d (tm.pc + 4) with pc := tm.rd f.a })) ∧
    (∀ f : SR, (tm.rd f.a).toNat % 4 ≠ 0 → MayTrap s t tm →
      (∃ s', exec (.jr f) s = .next s' ∧ EntersHandler s s' t tm 0x07 tm.pc (tm.rd f.a) 0) ∧
      (∃ s', exec (.jalr f) s = .next s' ∧ EntersHandler s s' t tm 0x07 tm.pc (tm.rd f.a) 0))

/-! ## Scalar memory accesses -/

/-- 06:R171, R172, R174. A scalar load, or a `BLD` once the lane blocks are done, whose places are mapped and lie on the device completes: the
extended bytes are in the register, and of the teams nothing else changes; while no link leads to the home of a part, or the footprint it
reaches is being copied, it waits. A load of host or peer memory blocks the team with the word still to issue; under an old incarnation it is
dropped and reads 0 (03:R108). One that meets a memory cause traps with it (17:R390, R391). -/
def Obligations.ScalarLoadsWriteTheExtendedBytes : Prop :=
  ∀ (s : State) (t : Nat) (tm : Team) (f : SI), s.scalarTeam = some (t, tm) →
    let loads (i : Instr) (align n : Nat) (res : Nat → Team) : Prop :=
      (MayTrap s t tm → ScalarCauses (exec i s) s t tm .load align n (tm.rd f.a + f.i.signExtend 64)) ∧
      ∀ pl, s.scalarPlaces tm .load align (tm.rd f.a + f.i.signExtend 64) n = .ok pl →
        ((∀ x ∈ pl, x.remote = false) →
          let g := s.loadPlaces (s.tagsOf t tm) ⟨false, false, 0⟩ none 0 pl
          let s1 := if g.poison then g.s.consumePoison tm.unit else g.s
          (g.stuck = false → exec i s = .next (s1.setTeam t { res (leNat g.data) with pc := tm.pc + 4, seen := joinStamp tm.seen g.stamp })) ∧
            (g.stuck = true → exec i s = .next s) ∧ g.s.mem = s.mem ∧ g.s.teams = s.teams) ∧
        ((∃ x ∈ pl, x.remote = true) → tm.holding = none →
          (tm.inc = (s.ctx tm.slot).inc →
            ∃ tm', exec i s = .next (s.setTeam t tm') ∧ tm'.wait = some .remote ∧ tm'.pc = tm.pc ∧ tm'.s = tm.s ∧ tm'.b = tm.b) ∧
          (tm.inc ≠ (s.ctx tm.slot).inc → exec i s = .next ((s.countDrop tm.slot 0).setTeam t { res 0 with pc := tm.pc + 4 })))
    loads (.ldb f) 1 1 (fun x => tm.wr f.d ((BitVec.ofNat 8 x).signExtend 64)) ∧
    loads (.ldbu f) 1 1 (fun x => tm.wr f.d (BitVec.ofNat 64 x)) ∧
    loads (.ldh f) 1 2 (fun x => tm.wr f.d ((BitVec.ofNat 16 x).signExtend 64)) ∧
    loads (.ldhu f) 1 2 (fun x => tm.wr f.d (BitVec.ofNat 64 x)) ∧
    loads (.ldw f) 1 4 (fun x => tm.wr f.d ((BitVec.ofNat 32 x).signExtend 64)) ∧
    loads (.ldwu f) 1 4 (fun x => tm.wr f.d (BitVec.ofNat 64 x)) ∧
    loads (.ldd f) 1 8 (fun x => tm.wr f.d (BitVec.ofNat 64 x)) ∧
    (tm.drained = true → loads (.bld f) 32 32 (fun x => tm.setBreg (f.d.toNat % 16) (BitVec.ofNat 256 x)))

/-- 03:R76; 06:R171, R172. Loads and stores through a pointer of the team's own scratchpad move the bytes that stand there, at the offset of
the pointer; nothing else changes but the marks of poisoned data that a store clears. -/
def Obligations.ScratchpadAccessesMoveTheBytesThatStandThere : Prop :=
  ∀ (s : State) (t : Nat) (tm : Team) (f : SI), s.scalarTeam = some (t, tm) → tm.ctrl = none →
    let p := tm.rd f.a + f.i.signExtend 64
    let o := p.toNat % 2 ^ 19
    let k := 2 ^ 56 + tm.core * 2 ^ 19 + o
    p.toNat / 2 ^ 56 = 0xFD → p.toNat / 2 ^ 48 % 256 = tm.tag →
    let loads (i : Instr) (n : Nat) (conv : Nat → W64) : Prop :=
      o + n ≤ 2 ^ 19 → s.poisoned k n = false →
        exec i s = .next (s.setTeam t { tm.wr f.d (conv (leNat (s.bytes k n))) with pc := tm.pc + 4, seen := joinStamp tm.seen [] })
    let stores (i : Instr) (n : Nat) : Prop :=
      o + n ≤ 2 ^ 19 →
        exec i s = .next (((s.poke k (leBytes n (tm.rd f.d).toNat)).clearPoison k n).setTeam t tm.advance)
    loads (.ldb f) 1 (fun x => (BitVec.ofNat 8 x).signExtend 64) ∧ loads (.ldbu f) 1 (BitVec.ofNat 64) ∧
    loads (.ldh f) 2 (fun x => (BitVec.ofNat 16 x).signExtend 64) ∧ loads (.ldhu f) 2 (BitVec.ofNat 64) ∧
    loads (.ldw f) 4 (fun x => (BitVec.ofNat 32 x).signExtend 64) ∧ loads (.ldwu f) 4 (BitVec.ofNat 64) ∧
    loads (.ldd f) 8 (BitVec.ofNat 64) ∧
    stores (.stb f) 1 ∧ stores (.sth f) 2 ∧ stores (.stw f) 4 ∧ stores (.std f) 8

/-- 06:R171, R172, R174; 03:R76, R79. A scalar store, or a `BST`, whose places may be written completes. Of memory only bytes of scratchpad
places change at issue: a store to HBM is posted and reaches memory at its home. No register, mask or record of the team changes.
One that meets a memory cause traps with it (17:R390, R391). -/
def Obligations.ScalarStoresTouchOnlyTheirPlaces : Prop :=
  ∀ (s : State) (t : Nat) (tm : Team) (f : SI), s.scalarTeam = some (t, tm) →
    let stores (i : Instr) (align n : Nat) (val : Nat) : Prop :=
      (MayTrap s t tm → ScalarCauses (exec i s) s t tm .store align n (tm.rd f.a + f.i.signExtend 64)) ∧
      ∀ pl, s.scalarPlaces tm .store align (tm.rd f.a + f.i.signExtend 64) n = .ok pl → s.storeRoom tm pl = true →
        ∃ s', exec i s = .next s' ∧ s' = (s.storePlaces (s.tagsOf t tm) none [] pl (leBytes n val)).setTeam t tm.advance ∧
          s'.teams = s.teams.set t tm.advance ∧ s'.units = s.units ∧ s'.contexts = s.contexts ∧
          ∀ k, (∀ x ∈ pl, x.win = .pad → ∀ j, (if x.shared then s.forwarded x.key else some x.key) = some j → k < j ∨ j + x.len ≤ k) →
            s'.byte k = s.byte k
    stores (.stb f) 1 1 (tm.rd f.d).toNat ∧ stores (.sth f) 1 2 (tm.rd f.d).toNat ∧ stores (.stw f) 1 4 (tm.rd f.d).toNat ∧
    stores (.std f) 1 8 (tm.rd f.d).toNat ∧ stores (.bst f) 32 32 (tm.breg (f.d.toNat % 16)).toNat

/-- 02:R35, R40; 03:R66, R70; 06:R174. s0 reads 0 and ignores writes; records and masks: b0 and m0 are fixed, m0 with a one for each lane that
exists; every other register reads as written, but for the reserved fields of a record, which read 0. -/
def Obligations.RegistersRecordsAndMasksReadAsWritten : Prop :=
  ∀ (tm : Team) (k j : Nat) (x : Rec) (m : Mask),
    (∀ (n r : BitVec 5) (v : W64), tm.rd 0 = 0 ∧ tm.wr 0 v = tm ∧ (tm.wr n v).rd r = if r = n ∧ n ≠ 0 then v else tm.rd r) ∧
    tm.setBreg 0 x = tm ∧ (tm.setBreg k x).breg j = (if j = k ∧ k ≠ 0 then x &&& recordMask else tm.breg j) ∧
    (∀ i, (tm.breg 0).getLsbD i = decide (64 ≤ i ∧ i < 128)) ∧ (∀ i, recordMask.getLsbD i = decide (i < 195 ∧ i ≠ 175)) ∧
    tm.setMreg 0 m = tm ∧ (tm.setMreg k m).mreg j = (if j = k ∧ k ≠ 0 then m else tm.mreg j) ∧
    (tm.lanes ≤ 1024 → ∀ l, (tm.mreg 0).getLsbD l = decide (l < tm.lanes))

/-! ## Control functions of the scalar stream -/

/-- 06:R177, R179, R180; 16:R372. `LRUN` appends a block with its snapshot of s1 to s15, or waits while four are queued. `MSUM` and `LREAD`, once
the lane blocks are done, give the count and summary of a mask and a lane register. That an `LRUN` which must wait leaves the state as it is, and `LRUN` on
a control core, are the model's choice (log 3, log 69). -/
def Obligations.BlockStartsAndResultReads : Prop :=
  ∀ (s : State) (t : Nat) (tm : Team), s.scalarTeam = some (t, tm) →
    (∀ f : SJ, tm.blocks < 4 → ∃ bank : NMap W64,
      exec (.lrun f) s = .next (s.setTeam t { tm with pc := tm.pc + 4, queue := tm.queue ++ [⟨f.o, bank, tm.reseed, tm.hyp⟩], reseed := none }) ∧
      ∀ n : BitVec 5, n.toNat < 16 → NMap.get bank 0 n.toNat = tm.rd n) ∧
    (∀ f : SJ, 4 ≤ tm.blocks → exec (.lrun f) s = .next s) ∧
    (∀ f : SR, tm.drained = true → ∃ x : W64,
      exec (.msum f) s = .next (s.setTeam t (tm.wr f.d x).advance) ∧
      x.toNat / 2 ^ 32 = ((List.range 1024).filter fun l => (tm.mreg (f.b.toNat % 8)).getLsbD l).length ∧
      ∀ k, k < 32 → (x.getLsbD k = true ↔ ∃ l, l < 32 ∧ (tm.mreg (f.b.toNat % 8)).getLsbD (32 * k + l) = true)) ∧
    (∀ f : SRK, tm.drained = true → f.k.toNat < tm.budget →
      ∃ s1, (s1 = s ∨ s1 = s.consumePoison tm.unit) ∧
      exec (.lread f) s = .next (s1.setTeam t
        (tm.wr f.d (if (tm.rd f.a).toNat % 1024 < tm.lanes then tm.lreg ((tm.rd f.a).toNat % 1024) f.k.toNat else 0)).advance)) ∧
    (∀ f : SRK, tm.drained = true → tm.budget ≤ f.k.toNat → MayTrap s t tm → ∃ s' w,
      encode (.lread f) = some (.scalar w) ∧ exec (.lread f) s = .next s' ∧ EntersHandler s s' t tm 0x04 tm.pc (w.zeroExtend 64) 0)

/-- 02:R43; 05:R154; 06:R181, R182, R183; 16:R372. `RDSP` gives each special register by its number; `WRSP` clears bits of `%sticky`, writes
`%arithmask` and `%seed`, and leaves every other assigned one alone. `%core` and `%cluster` of a control core, and the clock behind `%time`, are the
model's choice (log 69, log 2). -/
def Obligations.SpecialRegistersReadAndWriteByNumber : Prop :=
  ∀ (s : State) (t : Nat) (tm : Team) (f : SR), s.scalarTeam = some (t, tm) →
    let reads (n : Nat) (x : Nat) : Prop :=
      f.b.toNat = n → exec (.rdsp f) s = .next (s.setTeam t (tm.wr f.d (BitVec.ofNat 64 x)).advance)
    let writes (n : Nat) (tm' : Team) : Prop := f.b.toNat = n → exec (.wrsp f) s = .next (s.setTeam t tm'.advance)
    reads 0 tm.teamid ∧ reads 2 tm.role ∧ reads 3 (tm.core % 256) ∧ reads 4 (tm.core / 4 % 16) ∧ reads 5 (dieOfCore tm.core) ∧
    reads 7 tm.hyp ∧ reads 8 (tm.slot % 64) ∧ reads 9 tm.inc.toNat ∧ reads 10 tm.attempt ∧ reads 11 (s.effPrio tm * 256 + tm.prio) ∧
    reads 13 tm.arithmask.toNat ∧ reads 17 tm.seed.toNat ∧ reads 18 tm.tile.toNat ∧ reads 19 tm.arg.toNat ∧
    (tm.drained = true → reads 12 tm.sticky.toNat ∧ reads 14 tm.repidx.toNat) ∧
    (∀ u, s.unit? tm.unit = some u →
      reads 1 (u.queue % 1024 * 2 ^ 22 + u.seq.toNat) ∧ reads 15 ((u.seqr.map (·.mrow)).getD 0)) ∧
    reads 6 (s.ncores tm) ∧
    (f.b.toNat = 16 → ∃ x, tm.timeSeen ≤ x ∧ s.clock ≤ x ∧
      exec (.rdsp f) s = .next (s.setTeam t { tm.wr f.d (BitVec.ofNat 64 x) with pc := tm.pc + 4, timeSeen := x })) ∧
    writes 12 { tm with sticky := tm.sticky &&& ~~~((tm.rd f.a).extractLsb' 0 3) } ∧
    writes 13 { tm with arithmask := (tm.rd f.a).extractLsb' 0 3 } ∧
    writes 17 { tm with seed := tm.rd f.a, reseed := some (tm.rd f.a) } ∧
    (∀ n, n < 20 → n ≠ 12 → n ≠ 13 → n ≠ 17 → writes n tm) ∧
    (20 ≤ f.b.toNat → MayTrap s t tm → ∃ s1 s2 w1 w2,
      encode (.rdsp f) = some (.scalar w1) ∧ exec (.rdsp f) s = .next s1 ∧ EntersHandler s s1 t tm 0x03 tm.pc (w1.zeroExtend 64) 0 ∧
      encode (.wrsp f) = some (.scalar w2) ∧ exec (.wrsp f) s = .next s2 ∧ EntersHandler s s2 t tm 0x03 tm.pc (w2.zeroExtend 64) 0)

/-- 06:R184, R187, R188; 08:R243, R244; 17:R412. Fences, once the lane blocks are done. An acquire invalidates and is noted; a release first
posts the write-back of its core's tiles, waits until its stores are performed at its scope, and replies 1 if writes to host or peer memory were
lost, which it records. An arithmetic fence traps on `%sticky` AND `%arithmask`; a yield meets a deadline. -/
def Obligations.FencesAndYieldsComplete : Prop :=
  ∀ (s : State) (t : Nat) (tm : Team) (f : SR), s.scalarTeam = some (t, tm) → tm.drained = true →
    let kind := f.b.toNat % 4
    let scope := f.b.toNat / 4
    let lost : Bool := scope = 5 && s.posted.any fun w => w.team = t
    let st : W64 := if lost then 1 else 0
    let r := s.afterRelease t scope
    (kind = 1 → s.mayAcquire tm scope = true →
      (scope = 0 → exec (.fence f) s = .next (s.setTeam t (tm.wr f.d 0).advance)) ∧
      (scope ≠ 0 → exec (.fence f) s = .next ((s.dropL1 tm.core).setTeam t { tm.wr f.d 0 with pc := tm.pc + 4, acquired := s.tick + 1 }))) ∧
    (kind ≠ 1 → (kind = 2 ∨ s.mayAcquire tm scope = true) →
      (scope ≠ 0 → s.dirtyTiles tm.core = true → exec (.fence f) s = .next (s.releaseTiles (s.tagsOf t tm) tm.core)) ∧
      (scope ≠ 0 → s.dirtyTiles tm.core = false → s.released t tm.core scope = false → exec (.fence f) s = .next s) ∧
      (s.released t tm.core scope = true → (kind = 2 ∨ scope = 0) → exec (.fence f) s = .next (r.setTeam t (tm.wr f.d st).advance)) ∧
      (s.released t tm.core scope = true → kind ≠ 2 → scope ≠ 0 →
        exec (.fence f) s = .next ((r.dropL1 tm.core).setTeam t { tm.wr f.d st with pc := tm.pc + 4, acquired := s.tick + 1 })) ∧
      (lost = false → scope ≠ 0 → r.mem = s.mem ∧ r.flight = s.flight ∧ r.units = s.units) ∧ r.teams = s.teams ∧
      ∀ w ∈ r.posted, scope = 5 → w.team ≠ t) ∧
    (kind ≠ 2 → s.mayAcquire tm scope = false → exec (.fence f) s = .next s) ∧
    (tm.sticky &&& tm.arithmask = 0 → exec (.tfence f) s = .next (s.setTeam t tm.advance)) ∧
    (tm.sticky &&& tm.arithmask ≠ 0 → MayTrap s t tm → ∃ s', exec (.tfence f) s = .next s' ∧
      EntersHandler s s' t tm 0x09 tm.pc ((tm.sticky &&& tm.arithmask).zeroExtend 64) 0) ∧
    (tm.level = 0 → exec (.yield f) s = .next (s.setTeam t
      { tm with pc := tm.pc + 4, state := .ready, wait := some .yield, since := s.clock, deadline := none, expired := false }))

/-! ## Traps and handlers -/

/-- 16:R366, R368, R370, R371, R375. A trap outside a handler enters the handler of level 1; one inside a handler stops the team at level 2 and
fails its troupe. The words already issued have completed first: their results are written, and a reply that is on its way arrives. While no
link leads to the frame the trap waits (01:R22). -/
def Obligations.TrapsEnterAHandlerOrEscalate : Prop :=
  ∀ (s : State) (t : Nat) (tm : Team) (ti : TrapInfo), tm.ctrl = none → s.replays tm = false → ti.cause < 256 → t < s.teams.length →
    (s.frameReached tm = false → takeTrap s t tm ti = .next s) ∧
    (s.frameReached tm = true → tm.level = 0 → ∃ s', takeTrap s t tm ti = .next s' ∧ EntersHandler s s' t tm.flush ti.cause ti.resume ti.detailA ti.detailB) ∧
    (s.frameReached tm = true → tm.level ≠ 0 → ∃ s', takeTrap s t tm ti = .next s' ∧ EscalatesTo s s' t tm.flush ti.cause) ∧
    tm.flush.pc = tm.pc ∧ tm.flush.frame = tm.frame ∧ tm.flush.pending = [] ∧
    (tm.reply = none → tm.flush.s = tm.s) ∧ (∀ d v n, tm.reply = some (d, v) → tm.flush.rd n = (tm.wr d v).rd n ∧ tm.flush.reply = none)

/-- 06:R190; 16:R370, R375, R377. A system call enters the handler with cause 0x01 and the service number, and resumes after the word. In a
handler, the words that only a team outside one may issue escalate with cause 0x08; outside, a return traps with it. -/
def Obligations.SystemCallsAndPrivilegedWordsTrap : Prop :=
  ∀ (s : State) (t : Nat) (tm : Team) (f : SR),
    (MayTrap s t tm → tm.drained = true → ∃ s', exec (.syscall f) s = .next s' ∧ EntersHandler s s' t tm 0x01 (tm.pc + 4) (tm.rd f.a) 0) ∧
    (MayTrap s t tm → tm.inHandler = false → ∃ s' w, encode (.sret f) = some (.scalar w) ∧ exec (.sret f) s = .next s' ∧
      EntersHandler s s' t tm 0x08 tm.pc (w.zeroExtend 64) 0) ∧
    (InHandler s t tm → tm.drained = true →
      ∀ i ∈ [Instr.syscall f, .yield f, .brset f, .barArrive f, .barWait f, .barSync f],
        ∃ s', exec i s = .next s' ∧ EscalatesTo s s' t tm 0x08)

/-- 16:R373, R441. `SRET` in a handler whose blocks are done and whose stores to the frame are performed: s28 to s31 and the address are those
of the record as it then holds, the other registers keep what the handler left, and the team is ready outside the handler; a team that was in
the wait of a barrier takes it up again. -/
def Obligations.ReturnsRestoreWhatTheRecordHolds : Prop :=
  ∀ (s : State) (t : Nat) (tm : Team) (f : SR), s.scalarTeam = some (t, tm) → tm.state = .trapped → tm.level = 1 → tm.drained = true →
    s.frameBusy t tm = false → ∃ s' tm', exec (.sret f) s = .next s' ∧ s'.teams[t]? = some tm' ∧ s'.mem = s.mem ∧
      tm'.state = .ready ∧ tm'.level = 0 ∧ tm'.pc.toNat = leNat (s.bytes (tm.frame + 0x08) 8) ∧
      (∀ j, j < 4 → (tm'.rd (BitVec.ofNat 5 (28 + j))).toNat = leNat (s.bytes (tm.frame + 0x28 + 8 * j) 8)) ∧
      (∀ n : BitVec 5, n.toNat < 28 → tm'.rd n = tm.rd n) ∧ tm'.v = tm.v ∧ tm'.m = tm.m ∧ tm'.stack = tm.stack ∧ tm'.b = tm.b ∧
      tm'.sticky = tm.sticky ∧ tm'.rewait = tm.aside.bind (·.barrier)

/-- 16:R366, R370, R373, R441. A trap and the return of an untouched record give the team back, with the results of the words issued before: its
scalar registers and where it goes on, its lane registers, masks, mask stack, records, random states and `%sticky`, the barrier in whose wait it was,
and its lane blocks: the one that had begun goes on where it stood, with its repeat, and the others are queued behind it in their order. -/
def Obligations.TrapThenReturnGivesTheTeamBack : Prop :=
  ∀ (s : State) (t : Nat) (tm : Team) (ti : TrapInfo), tm.ctrl = none → s.replays tm = false → tm.level = 0 → t < s.teams.length →
    s.frameReached tm = true → ti.cause < 256 → tm.repAt < 64 → tm.queue.length ≤ 4 → (∀ k, ti.lane = some k → k < 2 ^ 26) → ∃ s1 tm1 tm2,
      takeTrap s t tm ti = .next s1 ∧ s1.teams[t]? = some tm1 ∧ (returnFromTrap s1 t tm1).teams[t]? = some tm2 ∧
      tm2.pc = ti.resume ∧ (∀ n, tm2.rd n = tm.flush.rd n) ∧ tm2.state = .ready ∧ tm2.level = 0 ∧ tm2.rewait = ti.barrier ∧
      tm2.v = tm.flush.v ∧ tm2.m = tm.m ∧ tm2.stack = tm.stack ∧ tm2.b = tm.b ∧ tm2.rnd = tm.rnd ∧ tm2.reseed = tm.reseed ∧
      tm2.sticky = tm.sticky ∧
      (tm.asideBlocks = [] → tm2.run = none ∧ tm2.queue = []) ∧
      ∀ r rest, tm.asideBlocks = r :: rest → (∀ k, ti.lane = some k → k = r.pos.toNat) →
        ((r.pos ≠ r.blk.start ∨ r.rep.isSome) → tm2.run = some r ∧ tm2.queue = rest.map (·.blk)) ∧
        (r.pos = r.blk.start → r.rep = none → tm2.run = none ∧ tm2.queue = (r :: rest).map (·.blk))

/-- 06:R185, R186; 08:R247, R248. Barriers: an arrival by a team that has not arrived in the phase joins it and goes on with the phase it
found; one that has waits. A wait goes on once its phase is over. -/
def Obligations.BarriersArriveAndWait : Prop :=
  ∀ (s : State) (t : Nat) (tm : Team) (u : LUnit) (f : SR), s.scalarTeam = some (t, tm) → s.unit? tm.unit = some u →
    tm.level = 0 → tm.ctrl = none →
    let n := f.b.toNat % 16
    let b := u.bar n
    let here := b.arrived ||| BitVec.ofNat 17 (2 ^ tm.teamid)
    (∃ s', exec (.brset f) s = .next s' ∧ s' = ((s.setTeam t tm.advance).setUnit tm.unit
        { u with bars := NMap.insert u.bars n { b with members := (tm.rd f.a).extractLsb' 0 17 &&& (s.setTeam t tm.advance).livingMembers u } }).testBarrier tm.unit n) ∧
    (tm.drained = true → s.released t tm.core 1 = true →
      (b.arrived.getLsbD tm.teamid = false → ∃ s', exec (.barArrive f) s = .next s' ∧
        s' = ((s.setTeam t (tm.wr f.d (b.phase.zeroExtend 64)).advance).setUnit tm.unit
          { u with bars := NMap.insert u.bars n { b with arrived := here } }).testBarrier tm.unit n) ∧
      (b.arrived.getLsbD tm.teamid = true → ∃ tm', exec (.barArrive f) s = .next (s.setTeam t tm') ∧
        tm'.s = tm.s ∧ tm'.v = tm.v ∧ tm'.state = .blocked ∧ tm'.wait = some (.barArrive n) ∧ tm'.pc = tm.pc) ∧
      (b.arrived.getLsbD tm.teamid = false → b.members.getLsbD tm.teamid = true → tm.teamid < 16 →
        (∃ j, j < 16 ∧ b.members.getLsbD j = true ∧ (s.livingMembers u).getLsbD j = true ∧ here.getLsbD j = false) →
        ∃ tm' u', exec (.barSync f) s = .next ((s.setUnit tm.unit u').setTeam t tm') ∧ (∀ k, k ≠ n → u'.bar k = u.bar k) ∧
          (u'.bar n).arrived = here ∧ (u'.bar n).phase = b.phase ∧ tm'.s = tm.s ∧ tm'.v = tm.v ∧
          tm'.state = .blocked ∧ tm'.wait = some (.barWait n b.phase) ∧ tm'.pc = tm.pc) ∧
      (b.arrived.getLsbD tm.teamid = false → tm.teamid < 16 → b.members &&& s.livingMembers u &&& here = b.members &&& s.livingMembers u →
        exec (.barSync f) s = .next (((s.arrive tm n).setTeam t tm.advance).acquire t 1)) ∧
      (b.arrived.getLsbD tm.teamid = true → ∃ tm', exec (.barSync f) s = .next (s.setTeam t tm') ∧
        tm'.s = tm.s ∧ tm'.v = tm.v ∧ tm'.state = .blocked ∧ tm'.wait = some (.barArrive n) ∧ tm'.pc = tm.pc)) ∧
    (tm.drained = true →
      (b.arrived.getLsbD tm.teamid = false →
        exec (.barWait f) s = .next ((s.dropL1 tm.core).setTeam t { tm with pc := tm.pc + 4, acquired := s.tick + 1 })) ∧
      (b.arrived.getLsbD tm.teamid = true → ∃ tm', exec (.barWait f) s = .next (s.setTeam t tm') ∧
        tm'.s = tm.s ∧ tm'.v = tm.v ∧ tm'.state = .blocked ∧ tm'.wait = some (.barWait n b.phase) ∧ tm'.pc = tm.pc))

/-- 06:R185; 08:R248; 09:R274. A phase whose living members have all arrived, and at which some team has, completes: the count goes up by one and
the arrived set is empty; else nothing changes. An arrival, a sequencer's too, completes it whichever members there are. -/
def Obligations.PhasesCompleteWhenEveryMemberHasArrived : Prop :=
  ∀ (s : State) (k n : Nat) (u : LUnit), s.unit? k = some u →
    let b := u.bar n
    let need := b.members &&& s.livingMembers u
    (b.arrived.toNat % 2 ^ 16 ≠ 0 → need &&& b.arrived = need → ∃ u', (s.testBarrier k n).unit? k = some u' ∧
      (u'.bar n).phase = b.phase + 1 ∧ (u'.bar n).arrived = 0 ∧ (u'.bar n).members = b.members) ∧
    ((b.arrived.toNat % 2 ^ 16 = 0 ∨ need &&& b.arrived ≠ need) → s.testBarrier k n = s) ∧
    (need &&& b.arrived = need → ∃ u', (s.testBarrier k n true).unit? k = some u' ∧
      (u'.bar n).phase = b.phase + 1 ∧ (u'.bar n).arrived = 0 ∧ (u'.bar n).members = b.members)

/-- 02:R51; 06:R189. `TEXIT`: the team has exited with the value, which is its unit's, and holds no block, register result or slot. That
a control core just stops there is the model's choice (log 69). -/
def Obligations.ExitsEndATeam : Prop :=
  ∀ (s : State) (t : Nat) (tm : Team) (f : SR), s.scalarTeam = some (t, tm) → tm.drained = true → tm.level = 0 → tm.aside = none →
    ∃ s' tm', exec (.texit f) s = .next s' ∧ s'.teams[t]? = some tm' ∧ tm'.state = .exited ∧ tm'.queue = [] ∧ tm'.run = none ∧ s'.mem = s.mem ∧
      (∀ u, s.unit? tm.unit = some u → ∃ u', s'.unit? tm.unit = some u' ∧ u'.exitVal = (tm.rd f.a).extractLsb' 0 48 ∧
        u'.poisoned = (u.poisoned || tm.sticky.getLsbD 2)) ∧
      (∀ i, i ≠ tm.unit → s'.unit? i = s.unit? i) ∧
      ∀ j x, j ≠ t → s.teams[j]? = some x → ∃ x', s'.teams[j]? = some x' ∧ x'.s = x.s ∧ x'.v = x.v ∧ x'.m = x.m ∧ x'.stack = x.stack ∧ x'.b = x.b

/-! ## Engine commands -/

/-- 09:R279 to R288. Copy-engine and tile-walker commands: what each stages, queues or hands out, and its reply.
That `TW.START` takes 0 and 5 to 7 dimensions, which tile `TW.NEXT` gives, and these commands on a control core are the model's choice (log 39, log 23,
log 69). -/
def Obligations.CopyAndWalkCommandsReply : Prop :=
  ∀ (s : State) (t : Nat) (tm : Team) (f : SX),
    let a := tm.rd f.a
    let b := tm.rd f.b
    let rep (i : Instr) (s1 : State) (v : W64) : Prop := Replies (exec i s) s1 t f v
    let cq := s.ceq tm.core tm.ceQueue.toNat
    let waits (i : Instr) : Prop := exec i s = .next (if f.r then s.setTeam t { tm with sxWait := true } else s)
    (SxIssues s t tm 0 false →
      rep (.ceLen f) (s.setTeam t { tm with ceLen := a.extractLsb' 0 32, ceQueue := b.extractLsb' 0 2, ce2d := b.getLsbD 2,
                                            ceRows := b.extractLsb' 8 24 }) 0 ∧
      rep (.ceStride f) (s.setTeam t { tm with ceSrc := a, ceDst := b }) 0 ∧
      (let queued (e : CeEntry) : State := (s.setCeq tm.core tm.ceQueue.toNat { cq with entries := cq.entries ++ [e], next := cq.next + 1 }).setTeam t
          { tm with ceLast := some (tm.core, tm.ceQueue.toNat, cq.next), ceCb := none }
        let shape (e : CeEntry) : Prop := e.len = tm.ceLen.toNat ∧ e.rows = (if tm.ce2d then tm.ceRows.toNat + 1 else 1) ∧ e.seq = cq.next ∧
          e.srcStep = tm.ceSrc ∧ e.dstStep = tm.ceDst ∧ e.cb = tm.ceCb ∧ e.state = .waiting ∧ e.begun = false ∧ e.bytes = 0 ∧ e.actions = []
        (tm.ceCb = none → ceRowsCause tm.core tm.tag a tm.ceDst tm.ceLen.toNat tm.ceRowCount = none) →
          (cq.entries.length < 16 → s.ceOrdered t = true →
            (ceRowsCause tm.core tm.tag b tm.ceSrc tm.ceLen.toNat tm.ceRowCount = none → ∃ e,
              rep (.ceCopy f) (queued e) (cq.next.zeroExtend 64) ∧ shape e ∧ e.kind = .copy ∧ e.dst = a ∧ e.src = b) ∧
            ∃ e, rep (.ceFill f) (queued e) (cq.next.zeroExtend 64) ∧ shape e ∧ e.kind = .fill b ∧ e.dst = a) ∧
          (16 ≤ cq.entries.length → exec (.ceFill f) s = .next (s.setTeam t { tm with sxWait := true })) ∧
          (cq.entries.length < 16 → s.ceOrdered t = false → waits (.ceFill f))) ∧
      (∀ x, cePiece tm.core tm.tag a 16 = .ok x → x.win = .pad → a.toNat % 16 = 0 →
        let key := s.padKey tm.unit x
        (s.cbRead key).bad = false → ∃ s1, (s1 = s ∨ (s.poisoned key 16 = true ∧ s1 = s.consumePoison tm.unit)) ∧
          rep (.ceCb f) (s1.setTeam t { tm with ceCb := some a }) 0) ∧
      (let act : CeAction := ⟨a, b.getLsbD 63, b.extractLsb' 0 48⟩
       let late (code : Option Nat) : State := { s with lateActions := s.lateActions ++ [⟨s.tagsOf t tm, act, code⟩] }
       (s.ceOrdered t = false → (∀ c q n, tm.ceLast = some (c, q, n) → ∀ e ∈ (s.ceq c q).entries, e.seq ≠ n) → waits (.ceFut f)) ∧
       (∀ c q n, tm.ceLast = some (c, q, n) →
        ((∃ e ∈ (s.ceq c q).entries, e.seq = n) →
          rep (.ceFut f) (s.setCeq c q { s.ceq c q with entries := (s.ceq c q).entries.map fun e =>
            if e.seq = n then { e with actions := e.actions ++ [act] } else e }) 0) ∧
        ((∀ e ∈ (s.ceq c q).entries, e.seq ≠ n) → s.ceOrdered t = true → rep (.ceFut f) (late (NMap.find? (s.ceq c q).failed n.toNat)) 0)) ∧
       (tm.ceLast = none → s.ceOrdered t = true → rep (.ceFut f) (late none) 0)) ∧
      (let m := a.extractLsb' 0 4
       (m = 0 → rep (.ceQjoin f) s (BitVec.allOnes 64)) ∧
       (∀ q0, q0 < 4 → m.getLsbD q0 = true → (∀ j, j < q0 → m.getLsbD j = false) →
        (∀ q, q < 4 → m.getLsbD q = true → (s.ceq tm.core q).entries.length < 16) → ∃ (s1 : State) (e : Nat → CeEntry),
          rep (.ceQjoin f) (s1.setTeam t { tm with ceLast := some (tm.core, q0, (s.ceq tm.core q0).next) })
            ((s.ceq tm.core q0).next.zeroExtend 64) ∧ s1.teams = s.teams ∧ s1.mem = s.mem ∧
          ∀ c q, q < 4 → s1.ceq c q = (if c = tm.core ∧ m.getLsbD q = true then
            { s.ceq c q with entries := (s.ceq c q).entries ++ [e q], next := (s.ceq c q).next + 1 } else s.ceq c q) ∧
            (e q).seq = (s.ceq tm.core q).next ∧ (e q).kind = .join m s.tick)) ∧
      (let q := a.toNat % 4
       ((s.ceq tm.core q).any = false ∨ s.mayAcquire tm 4 = true) →
       ∃ v, rep (.ceStat f) (if (s.ceq tm.core q).any then s.acquire t 4 else s) (BitVec.ofNat 64 v) ∧ v % 2 ^ 32 = (s.ceq tm.core q).done.toNat ∧
         ((s.ceq tm.core q).entries.length ≤ 16 → v / 2 ^ 32 % 2 ^ 8 = (s.ceq tm.core q).entries.length))) ∧
    (SxIssues s t tm 2 false →
      let w h := NMap.find? s.walks (8 * tm.core + h)
      let h := a.toNat % 8
      rep (.twDim f) (s.setTeam t { tm with twDim := NMap.put tm.twDim 0 (a.toNat % 4) (b.toNat % 65536) }) 0 ∧
      (∀ k, k < 8 → w k = none → (∀ j, j < k → w j ≠ none) →
        let new : Walk := ⟨tm.unit, (List.range (min (a.toNat % 8) 4)).map fun d => NMap.get tm.twDim 0 d, []⟩
        rep (.twStart f) { s with walks := NMap.insert s.walks (8 * tm.core + k) new } (BitVec.ofNat 64 k)) ∧
      ((∀ k, k < 8 → w k ≠ none) → rep (.twStart f) s (BitVec.allOnes 64)) ∧
      (∀ x, w h = some x → x.unit = tm.unit →
        (x.given.length < x.total → ∃ n, n < x.total ∧ n ∉ x.given ∧
          rep (.twNext f) { s with walks := NMap.insert s.walks (8 * tm.core + h) { x with given := x.given ++ [n] } }
            (BitVec.ofNat 64 (coordOf x.extents n))) ∧
        (x.total ≤ x.given.length → rep (.twNext f) s (BitVec.allOnes 64)) ∧
        rep (.twDone f) { s with walks := NMap.erase s.walks (8 * tm.core + h) } (BitVec.ofNat 64 x.given.length)) ∧
      ((∀ x, w h = some x → x.unit ≠ tm.unit) → rep (.twNext f) s (BitVec.allOnes 64) ∧ rep (.twDone f) s (BitVec.allOnes 64)))

/-- 09:R289 to R295; 11:R329. Spawns, counters and futures: the entry a spawn appends, its 16 bytes in the ring and the launch number it
returns, the count after a write or a decrement, the words of a future, and the replies; a command that a drop of its arena may overtake is
performed, or dropped and counted (06:R192). Refused commands trap (17:R399, R403, R404). The place of an entry, ring + 16 * (launch number mod
2^log2 entries), is the model's choice (log 15), and so is what a drop overtakes (log 79). -/
def Obligations.TaskCommandsReply : Prop :=
  ∀ (s : State) (t : Nat) (tm : Team) (f : SX), SxIssues s t tm 3 false →
    let a := tm.rd f.a
    let b := tm.rd f.b
    let tg := s.tagsOf t tm
    let here := some (dieOfCore tm.core)
    let rep (i : Instr) (s1 : State) (v : W64) : Prop := Replies (exec i s) s1 t f v
    (∀ q, NMap.find? s.queues (b.toNat % 1024) = some q → q.slot = tm.slot → q.held = [] → s.ceOrdered t = true →
      s.entryReady (dieOfCore tm.core) q = true →
      let e k : NewEntry := ⟨a, k, s.vc (dieOfCore tm.core)⟩
      let num := BitVec.ofNat 64 (b.toNat % 1024 * 2 ^ 22 + q.next.toNat)
      (∀ s1 q', s.append q (e 1) = .done s1 q' → rep (.tkSpawn f) (s1.putQueue (b.toNat % 1024) q q') num) ∧
      (∀ s1 q', s.append q (e 2) = .done s1 q' → rep (.tkCast f) (s1.putQueue (b.toNat % 1024) q q') num) ∧
      (q.sx20 = false → q.vent = [] → q.entries.length < 2 ^ q.log2 → ∀ k,
        let place := q.ring.toNat + 16 * (q.next.toNat % 2 ^ q.log2)
        ∃ s1, s.append q (e k) =
            .done s1 { q with entries := q.entries ++ [⟨a, k, q.next, none, place, s.vc (dieOfCore tm.core)⟩], next := q.next + 1 } ∧
          ∀ pl, s.hwPlaces q.slot (BitVec.ofNat 64 place) 16 16 true = some pl →
            s1 = s.eventPlaces (s.queueTags q) none (some (leBytes 8 a.toNat ++ leBytes 8 k.toNat)) pl)) ∧
    (∀ pl, s.engineCheck tm a 16 16 true = .ok pl →
      let n := b.toNat % 2 ^ 32
      let init : State := (s.wordEvent tg here pl fun w => some (w / 2 ^ 32 * 2 ^ 32 + n)).1
      ((∃ p ∈ pl, p.remote = false ∧ ((s.ctx tm.slot).arena p.arena).state = .dropping) → s.wordReady t tm pl = true →
        rep (.scInit f) (s.countDrop tm.slot 1) 0 ∨ rep (.scInit f) init 0) ∧
      (s.dropOvertakes tm pl = false → s.wordReady t tm pl = true →
        rep (.scInit f) init 0 ∧
        (s.released t tm.core 4 = true → n ≤ s.readPlaces pl % 2 ^ 32 → rep (.scDec f) (s.subtract tg here pl n).1
          (BitVec.ofNat 64 (if s.wordTakes tg pl then s.readPlaces pl % 2 ^ 32 - n else s.readPlaces pl % 2 ^ 32))) ∧
        (s.released t tm.core 4 = true → s.readPlaces pl % 2 ^ 32 < n → MayTrap s t tm → Refuses (exec (.scDec f) s) s t tm f 0x21 0x03 3))) ∧
    (MayTrap s t tm →
      ((∀ q, NMap.find? s.queues (b.toNat % 1024) = some q → q.slot ≠ tm.slot) →
        Refuses (exec (.tkSpawn f) s) s t tm f 0x21 0x00 1 ∧ Refuses (exec (.tkCast f) s) s t tm f 0x21 0x01 1) ∧
      (a.toNat < 2 ^ 57 → a.toNat % 16 ≠ 0 →
        Refuses (exec (.scInit f) s) s t tm f 0x21 0x02 2 ∧ Refuses (exec (.scDec f) s) s t tm f 0x21 0x03 2)) ∧
    (∀ pl, s.engineCheck tm a 8 8 true = .ok pl → s.dropOvertakes tm pl = false → s.wordReady t tm pl = true →
      s.actionReady [dieOfCore tm.core] tm.slot a true = true →
      let w := s.readPlaces pl
      let v := b.toNat % 2 ^ 48
      let set (st : Nat) : State := (s.wordEvent tg here pl fun w => some (futWord w st v)).1
      let no (i : Instr) (fn code : Nat) : Prop := ∃ s', exec i s = .next s' ∧ EntersHandler s s' t tm 0x20 tm.pc (BitVec.ofNat 64 w)
        (BitVec.ofNat 64 (v + code * 2 ^ 48 + fn * 2 ^ 56 + (if f.r then 0 else 2 ^ 63)))
      (MayTrap s t tm →
        (w / 2 ^ 62 % 4 = 1 → no (.futAwait f) 0x08 2) ∧
        (w / 2 ^ 62 % 4 ≠ 1 → (2 ^ 48 ≤ b.toNat ∨ b.toNat % 16 ≠ 0) → no (.futAwait f) 0x08 3) ∧
        (2 ≤ w / 2 ^ 62 % 4 → s.released t tm.core 4 = true → no (.futResolve f) 0x09 1 ∧ no (.futFail f) 0x0A 1)) ∧
      (b.toNat < 2 ^ 48 → b.toNat % 16 = 0 →
        (w / 2 ^ 62 % 4 = 0 → rep (.futAwait f) (set 1) (BitVec.ofNat 64 w)) ∧
        (2 ≤ w / 2 ^ 62 % 4 → s.actionReady [dieOfCore tm.core] tm.slot b false = true →
          rep (.futAwait f) ((s.eventPlaces tg here none pl).hwDecrement { tg with hyp := 0 } b) (BitVec.ofNat 64 w))) ∧
      (s.released t tm.core 4 = true →
        (w / 2 ^ 62 % 4 = 0 → rep (.futResolve f) (set 2) (BitVec.ofNat 64 w) ∧ rep (.futFail f) (set 3) (BitVec.ofNat 64 w)) ∧
        (w / 2 ^ 62 % 4 = 1 → s.wordTakes tg pl = false → rep (.futResolve f) (set 2) (BitVec.ofNat 64 w) ∧ rep (.futFail f) (set 3) (BitVec.ofNat 64 w)) ∧
        (w / 2 ^ 62 % 4 = 1 → s.wordTakes tg pl = true →
          rep (.futResolve f) ((set 2).hwDecrement { tg with hyp := 0 } (BitVec.ofNat 64 (w % 2 ^ 48))) (BitVec.ofNat 64 w) ∧
          rep (.futFail f) ((set 3).hwDecrement { tg with hyp := 0 } (BitVec.ofNat 64 (w % 2 ^ 48))) (BitVec.ofNat 64 w)))) ∧
    (∀ pl, s.engineCheck tm a 8 8 false = .ok pl → s.dropOvertakes tm pl = false → s.wordReady t tm pl = true →
      s.actionReady [dieOfCore tm.core] tm.slot a true = true →
      s.mayAcquire { tm with seen := joinStamp tm.seen (s.stampOf pl) } 4 = true →
      let s1 := (s.wordEvent tg here pl fun _ => none).1
      rep (.futRead f) ((s1.dropL1 tm.core).setTeam t { tm with seen := joinStamp tm.seen (s.stampOf pl), acquired := s.tick + 1 })
        (BitVec.ofNat 64 (s.readPlaces pl)))

/-- 09:R296 to R299. The quorum joins: a record that is as it must be gets a hypothesis for each contributor and empty counts; an arrival
short of the quorum, one that makes it, and one at a released join, are counted or answered; the status is the quadword. Refused commands trap
(17:R399, R404). A record that is not aligned to 64 is taken as well (log 46), and an arrived weight is stated nowhere here. -/
def Obligations.JoinCommandsReply : Prop :=
  ∀ (s : State) (t : Nat) (tm : Team) (f : SX), SxIssues s t tm 3 false →
    let a := tm.rd f.a
    let b := tm.rd f.b
    let rep (i : Instr) (s1 : State) (v : W64) : Prop := Replies (exec i s) s1 t f v
    ∀ wr pl, s.engineCheck tm a 64 1 wr = .ok pl → s.dropOvertakes tm pl = false → s.wordReady t tm pl = true →
      let w := s.readPlaces pl
      let n := w / 2 ^ 8 % 2 ^ 8
      let q := w / 2 ^ 16 % 2 ^ 8
      let h := w / 2 ^ 448 % 2 ^ 8
      let c := s.ctx tm.slot
      let event (op : Nat → Option Nat) : State := (s.wordEvent (s.tagsOf t tm) (some (dieOfCore tm.core)) pl op).1
      (wr = false → rep (.qjStat f) (event fun _ => none) (BitVec.ofNat 64 w)) ∧
      (wr = true → ∀ x, 1 ≤ q → q ≤ n → n ≤ 64 → w / 2 ^ 24 % 4 ≠ 3 → (w / 2 ^ 26 % 2 = 1 ∨ w % 2 ^ 8 = 0) → (c.hyp h).state = .opened →
        (c.hyp h).depth < 8 → c.freeRun n = some x → ∃ g : Nat → Nat,
          rep (.qjInit f) ((s.setCtx tm.slot (c.fork x n h)).wordEvent (s.tagsOf t tm) (some (dieOfCore tm.core)) pl fun w => some (g w)).1
            (BitVec.ofNat 64 x) ∧ (∀ i, i < n → ((c.fork x n h).hyp (x + i)).state = .opened) ∧
          ∀ w i, (g w).testBit i = if i < 8 ∨ i = 26 ∨ i = 27 ∨ (64 ≤ i ∧ i < 128) ∨ (160 ≤ i ∧ i < 192) then false
            else if 456 ≤ i ∧ i < 464 then x.testBit (i - 456) else w.testBit i) ∧
      (wr = true → s.released t tm.core 4 = true →
        let i := b.toNat % 64
        i < n →
        (w / 2 ^ 26 % 2 = 1 → rep (.qjArrive f) (event fun _ => none) (BitVec.ofNat 64 (w % 2 ^ 8 + 2 ^ 9))) ∧
        (w / 2 ^ 26 % 2 = 0 → w / 2 ^ (64 + i) % 2 = 0 → s.wordTakes (s.tagsOf t tm) pl = false →
          ∃ w', rep (.qjArrive f) (event fun _ => some w') (BitVec.ofNat 64 (w % 2 ^ 8))) ∧
        (w / 2 ^ 26 % 2 = 0 → w / 2 ^ (64 + i) % 2 = 0 → w % 2 ^ 8 + 1 ≤ q → s.wordTakes (s.tagsOf t tm) pl = true → ∃ w',
          (w % 2 ^ 8 + 1 < q → rep (.qjArrive f) (event fun _ => some w') (BitVec.ofNat 64 (w % 2 ^ 8 + 1))) ∧
          (w % 2 ^ 8 + 1 = q → rep (.qjArrive f) ((event fun _ => some w').releaseJoin (s.tagsOf t tm) a.toNat w')
            (BitVec.ofNat 64 (w % 2 ^ 8 + 1 + 2 ^ 8))) ∧
          w' % 2 ^ 8 = w % 2 ^ 8 + 1 ∧
          ∀ k, 8 ≤ k → (k < 160 ∨ 192 ≤ k) → w'.testBit k =
            if k = 64 + i then true else if k = 26 then decide (w % 2 ^ 8 + 1 = q) else w.testBit k)) ∧
      (wr = true → MayTrap s t tm →
        let bad : Prop := n < 1 ∨ 64 < n ∨ q < 1 ∨ n < q ∨ w / 2 ^ 24 % 4 = 3 ∨ (c.hyp h).state ≠ .opened
        let busy : Prop := w / 2 ^ 26 % 2 = 0 ∧ 0 < w % 2 ^ 8
        (bad → Refuses (exec (.qjInit f) s) s t tm f 0x21 0x10 4) ∧
        (¬bad → busy → Refuses (exec (.qjInit f) s) s t tm f 0x21 0x10 5) ∧
        (¬bad → ¬busy → c.freeRun n = none → Refuses (exec (.qjInit f) s) s t tm f 0x21 0x10 8) ∧
        (¬bad → ¬busy → c.freeRun n ≠ none → 8 ≤ (c.hyp h).depth → Refuses (exec (.qjInit f) s) s t tm f 0x21 0x10 9) ∧
        (s.released t tm.core 4 = true → n ≤ b.toNat % 64 → Refuses (exec (.qjArrive f) s) s t tm f 0x21 0x11 6) ∧
        (s.released t tm.core 4 = true → b.toNat % 64 < n → w / 2 ^ (64 + b.toNat % 64) % 2 = 1 → w / 2 ^ 26 % 2 = 0 →
          Refuses (exec (.qjArrive f) s) s t tm f 0x21 0x11 7))

/-- 03:R104; 09:R299. A join that releases: the resolve over the ids still open begins with the arrival, the fill waits until every unit has
applied it, the decrement until the fill's writes are performed at device scope. -/
def Obligations.JoinsReleaseInSteps : Prop :=
  (∀ (s : State) (tg : Tags) (addr w : Nat),
    let c := s.ctx tg.slot
    let f := w / 2 ^ 456 % 2 ^ 8
    let opened := (List.range (w / 2 ^ 8 % 2 ^ 8)).filter fun i => (c.hyp (f + i)).state = .opened
    let arrived (i : Nat) : Bool := w / 2 ^ (64 + i) % 2 = 1
    let id := 2 ^ 37 + s.tick
    let s1 := s.beginResolve tg.slot id ((opened.filter arrived).map (f + ·)) ((opened.filter fun i => !arrived i).map (f + ·))
    s.releaseJoin tg addr w = { s1 with joins := s1.joins ++ [⟨id, { tg with hyp := 0, team := id, phys := false }, addr, w, 1⟩] }) ∧
  (∀ (s : State) (j : JoinRelease), j.step = 1 →
    ((s.ctx j.tags.slot).resolveOver j.id = false → s.joinStep j = s) ∧
    (s.hwRoom fillStores = false → s.joinStep j = s) ∧
    ((s.ctx j.tags.slot).resolveOver j.id = true → s.hwRoom fillStores = true →
      let s1 := s.setResolves j.tags.slot ((s.ctx j.tags.slot).resolves.filter fun r => r.team ≠ j.id)
      s.joinStep j = { s1.joinFills j with joins := s.joins.map fun x => if x.id = j.id then { x with step := 4 } else x })) ∧
  (∀ (s : State) (j : JoinRelease), j.step ≠ 1 →
    let p : W64 := BitVec.ofNat 64 (j.word / 2 ^ 384 % 2 ^ 64)
    ((s.performed j.id 4 = false ∨ s.actionReady [] j.tags.slot p false = false) → s.joinStep j = s) ∧
    (s.performed j.id 4 = true → s.actionReady [] j.tags.slot p false = true →
      s.joinStep j = { s.hwDecrement j.tags p with joins := s.joins.filter fun x => x.id ≠ j.id })) ∧
  (∀ (s : State) (slot id : Nat) (yes no : List Nat),
    let s1 := s.beginResolve slot id yes no
    s1.mem = s.mem ∧ s1.versions = s.versions ∧ s1.l1 = s.l1 ∧
    ∀ u, u < 384 → ∃ r ∈ (s1.ctx slot).resolves, r.team = id ∧ r.confirms = yes ∧ r.refutes = no ∧ u ∈ r.pending) ∧
  (∀ (s : State) (slot i u : Nat) (r : Resolve), (s.ctx slot).resolves[i]? = some r → u ∈ r.pending →
    ((∃ j x, j < i ∧ (s.ctx slot).resolves[j]? = some x ∧ u ∈ x.pending) → s.unitApplies slot i u = s) ∧
    ((∀ j x, j < i → (s.ctx slot).resolves[j]? = some x → u ∉ x.pending) → s.unitApplies slot i u =
      (s.applyAt slot u r).setResolves slot ((s.ctx slot).resolves.set i { r with pending := r.pending.filter (· ≠ u) }))) ∧
  (∀ (c : Context) (id : Nat), c.resolveOver id = true ↔ ∃ r ∈ c.resolves, r.team = id ∧ r.pending = [])

/-- 03:R89 to R103; 08:R252 to R261. Arenas, haloed regions and hypotheses: what each command that is not refused does, and its reply; and the sub-code with which each is refused
(17:R399, R401, R402). That a team cannot enter the id it acts under is log 83. -/
def Obligations.ArenaAndHypothesisCommandsReply : Prop :=
  ∀ (s : State) (t : Nat) (tm : Team) (f : SX),
    let a := tm.rd f.a
    let b := tm.rd f.b
    let c := s.ctx tm.slot
    let rep (i : Instr) (s1 : State) (v : W64) : Prop := Replies (exec i s) s1 t f v
    (SxIssues s t tm 4 false →
      let p := a.toNat % 1024
      let x := c.arena p
      (∀ n, x.state = .live → x.depth < 15 → c.freeArena = some n →
        let q := alignUp b.toNat 65536
        x.charge + (x.alloc q 65536).2.1 ≤ x.quota → ∃ c', rep (.arNew f) (s.setCtx tm.slot c') (BitVec.ofNat 64 (n + (c.arena n).gen.toNat * 2 ^ 10)) ∧
          (c'.arena n).state = .live ∧ (c'.arena n).parent = p ∧ (c'.arena n).depth = x.depth + 1 ∧ (c'.arena n).quota = q ∧
          (c'.arena n).charge = 0 ∧ (c'.arena n).base = alignUp x.bump 65536 ∧ (c'.arena n).stop = alignUp x.bump 65536 + q ∧
          (c'.arena n).bump = alignUp x.bump 65536 ∧ (c'.arena p).charge = x.charge + (x.alloc q 65536).2.1) ∧
      (∀ k pt s1 va, x.state = .live → x.charge + (x.alloc b.toNat (2 ^ (a.toNat / 2 ^ 16 % 32))).2.1 ≤ x.quota →
        3 ≤ a.toNat / 2 ^ 16 % 32 → a.toNat / 2 ^ 16 % 32 ≤ 21 → s.partOf tm.slot = some (k, pt) → a.toNat / 2 ^ 24 % 2 = 0 →
        pt.hasHbm (dieOfCore tm.core) = true → s.allocIn pt tm.slot p (dieOfCore tm.core) b.toNat (2 ^ (a.toNat / 2 ^ 16 % 32)) = some (s1, va) →
        rep (.arAlloc f) s1 (BitVec.ofNat 64 va) ∧ va = alignUp x.bump (2 ^ (a.toNat / 2 ^ 16 % 32))) ∧
      (p ≠ 0 → x.state = .live → s.settled t tm = true → rep (.arSeal f) (s.sealArenas tm.slot (c.arenasBelow p fun x => x = .live)) 0 ∧
        (s.sealArenas tm.slot (c.arenasBelow p fun x => x = .live)).ctx tm.slot =
          c.markArenas (c.arenasBelow p fun x => x = .live) fun x => { x with state := .sealed }) ∧
      (p ≠ 0 → x.state = .sealed → s.settled t tm = true → rep (.arSeal f) s 0) ∧
      (p ≠ 0 → (x.state = .live ∨ x.state = .sealed) → s.settled t tm = true →
        rep (.arDrop f) (s.dropArenas tm.slot p) ((((s.dropArenas tm.slot p).ctx tm.slot).arena p).gen.zeroExtend 64)) ∧
      ((x.state = .dropping ∨ x.state = .dropped) →
        (c.dropDone p = true → rep (.arWait f) (s.setCtx tm.slot (c.freeArenas p)) 1) ∧
        (c.dropDone p = false → b ≠ 0 → rep (.arWait f) s 0) ∧
        (c.dropDone p = false → b = 0 → f.r = true → exec (.arWait f) s = .next (s.setTeam t { tm with sxWait := true })) ∧
        (c.dropDone p = false → b = 0 → f.r = false → rep (.arWait f) (s.setCtx tm.slot (c.setArena p { x with autoFree := true })) 0)) ∧
      rep (.arInfo f) s (BitVec.ofNat 64 (x.info b.toNat)) ∧
      (∀ n bs os k, (List.range 8).find? (fun n => (NMap.find? c.tiles n).isNone) = some n → s.readGlobal tm a 32 = .ok bs →
        tileDescOk (leNat bs) = true → c.arenaOf (tileOfDesc (leNat bs)).base (tileOfDesc (leNat bs)).stop = some k →
        s.readGlobal tm (BitVec.ofNat 64 (leNat bs / 2 ^ 192)) ((tileOfDesc (leNat bs)).across * (tileOfDesc (leNat bs)).down) = .ok os →
        (∀ o ∈ os, ∃ pt, s.partOf tm.slot = some pt ∧ o.toNat ∈ pt.2.cores) → s.settled t tm = true →
        rep (.tileDecl f) (s.declareTile tm.slot n { tileOfDesc (leNat bs) with owners := os, arena := k }) (BitVec.ofNat 64 n)) ∧
      (let n := a.toNat % 8
       NMap.find? c.tiles n ≠ none → s.settled t tm = true → (∀ l ∈ s.l1, l.slot = tm.slot → l.haloed = true → l.dirty = 0) → ∃ lines,
        rep (.tileFree f) { s.setCtx tm.slot { c with tiles := NMap.erase c.tiles n } with l1 := lines } 0 ∧
        ∀ l, l ∈ lines ↔ l ∈ s.l1 ∧ ¬(l.slot = tm.slot ∧ l.haloed = true ∧ c.lineOfTile n l.key = true)) ∧
      (MayTrap s t tm →
        let no (i : Instr) (fn code : Nat) : Prop := Refuses (exec i s) s t tm f 0x1E fn code
        let tooMuch (size align : Nat) : Prop := x.quota < x.charge + (x.alloc size align).2.1
        let lg := a.toNat / 2 ^ 16 % 32
        let die := if a.toNat / 2 ^ 24 % 2 = 1 then a.toNat / 2 ^ 22 % 4 else dieOfCore tm.core
        (x.state ≠ .live → no (.arNew f) 0 1 ∧ no (.arAlloc f) 1 1) ∧
        (x.state = .live → 15 ≤ x.depth → no (.arNew f) 0 2) ∧
        (x.state = .live → x.depth < 15 → tooMuch (alignUp b.toNat 65536) 65536 → no (.arNew f) 0 3) ∧
        (x.state = .live → x.depth < 15 → ¬tooMuch (alignUp b.toNat 65536) 65536 → c.freeArena = none → no (.arNew f) 0 4) ∧
        (x.state = .live → tooMuch b.toNat (2 ^ lg) → no (.arAlloc f) 1 3) ∧
        (x.state = .live → ¬tooMuch b.toNat (2 ^ lg) →
          (lg < 3 ∨ 21 < lg → no (.arAlloc f) 1 6) ∧
          ∀ k pt, 3 ≤ lg → lg ≤ 21 → s.partOf tm.slot = some (k, pt) →
            (pt.hasHbm die = false → no (.arAlloc f) 1 6) ∧
            (pt.hasHbm die = true → s.allocIn pt tm.slot p die b.toNat (2 ^ lg) = none → no (.arAlloc f) 1 5)) ∧
        ((p = 0 ∨ (x.state ≠ .live ∧ x.state ≠ .sealed)) → no (.arSeal f) 2 7 ∧ no (.arDrop f) 3 7) ∧
        (x.state ≠ .dropping → x.state ≠ .dropped → no (.arWait f) 4 8) ∧
        ((∀ n, n < 8 → NMap.find? c.tiles n ≠ none) → s.settled t tm = true → no (.tileDecl f) 8 9) ∧
        (∀ n bs, n < 8 → NMap.find? c.tiles n = none → s.settled t tm = true → s.readGlobal tm a 32 = .ok bs →
          (tileDescOk (leNat bs) = false ∨ c.arenaOf (tileOfDesc (leNat bs)).base (tileOfDesc (leNat bs)).stop = none) →
          no (.tileDecl f) 8 10) ∧
        (NMap.find? c.tiles (a.toNat % 8) = none → no (.tileFree f) 9 11))) ∧
    (SxIssues s t tm 5 false →
      let h := a.toNat % 256
      let n := a.toNat / 2 ^ 8 % 64 + 1
      (∀ x, c.freeRun n = some x → (c.hyp h).state = .opened → (c.hyp h).depth < 8 →
        rep (.hyFork f) (s.setCtx tm.slot (c.fork x n h)) (BitVec.ofNat 64 x) ∧
        ∀ i, i < n → (c.fork x n h).hyp (x + i) = ⟨.opened, h, (c.hyp h).depth + 1⟩) ∧
      ((∀ r ∈ c.resolves, r.team ≠ t) → h ≠ 0 → h + n ≤ 256 → (∀ i, i < n → (c.hyp (h + i)).state = .opened) → s.settled t tm = true →
        let ids := (List.range n).map (h + ·)
        let s1 := s.beginResolve tm.slot t (ids.filter fun x => b.getLsbD (x - h)) (ids.filter fun x => !b.getLsbD (x - h))
        (f.r = true → ∃ k, exec (.hyResolve f) s = .next (s1.setTeam t { tm with sxWait := true, kill := k })) ∧
        (f.r = false → ∃ k, let s2 := s.beginResolve tm.slot noUnit (ids.filter fun x => b.getLsbD (x - h)) (ids.filter fun x => !b.getLsbD (x - h))
          rep (.hyResolve f) (s2.setTeam t { tm with kill := k }) 0)) ∧
      ((∃ r ∈ c.resolves, r.team = t) → c.resolveOver t = false → exec (.hyResolve f) s = .next (s.setTeam t { tm with sxWait := true })) ∧
      (c.resolveOver t = true → rep (.hyResolve f) (s.setResolves tm.slot (c.resolves.filter fun r => r.team ≠ t)) 0) ∧
      ((c.hyp h).state = .opened → h ≠ c.acting tm.hyp → (c.under h (c.acting tm.hyp) = true ∨ c.under (c.acting tm.hyp) h = true) → s.settled t tm = true →
        rep (.hyEnter f) (s.setTeam t { tm with hyp := h }) (BitVec.ofNat 64 tm.hyp)) ∧
      rep (.hyInfo f) s (BitVec.ofNat 64 (c.hypInfo h)) ∧
      (MayTrap s t tm →
        let no (i : Instr) (fn code : Nat) : Prop := Refuses (exec i s) s t tm f 0x1F fn code
        (c.freeRun n = none → no (.hyFork f) 0 1) ∧
        (c.freeRun n ≠ none → (c.hyp h).state ≠ .opened → no (.hyFork f) 0 2) ∧
        (c.freeRun n ≠ none → (c.hyp h).state = .opened → 8 ≤ (c.hyp h).depth → no (.hyFork f) 0 3) ∧
        ((∀ r ∈ c.resolves, r.team ≠ t) → (∃ i, i < n ∧ (h + i = 0 ∨ 255 < h + i ∨ (c.hyp (h + i)).state ≠ .opened)) → no (.hyResolve f) 1 4) ∧
        (((c.hyp h).state ≠ .opened ∨ h = c.acting tm.hyp ∨ (c.under h (c.acting tm.hyp) = false ∧ c.under (c.acting tm.hyp) h = false)) →
          no (.hyEnter f) 2 5)))

/-- 09:R301 to R304; 12:R351, R352, R357, R359; 16:R383, R384. Queue, context, page, power and system commands: what each that is not refused
does, and its reply. `near`: a link leads to the die that holds what the command acts on; which die that is, is the model's choice (log 87). -/
def Obligations.SupervisorCommandsReply : Prop :=
  ∀ (s : State) (t : Nat) (tm : Team) (f : SX),
    let a := tm.rd f.a
    let b := tm.rd f.b
    let rep (i : Instr) (s1 : State) (v : W64) : Prop := Replies (exec i s) s1 t f v
    (SxIssues s t tm 6 false →
      (∀ w n, s.descAt tm a 32 8 = some w → queueDescOk w = true → s.queues.length < 1024 →
        (s.queues.filter fun q => q.2.slot = tm.slot).length < 64 →
        firstFrom (fun n => (s.queueNumbers tm.slot).contains n && (NMap.find? s.queues n).isNone) 1024 0 = some n →
        let s1 := s.setQueue n { queueOfDesc tm.slot w with headSince := s.clock }
        ∀ k p, s.partOfQueue n = some (k, p) →
          rep (.qCreate f) (s1.pokeRecord (p.failBase + 2048 * n) (List.replicate 64 0)) (BitVec.ofNat 64 n)) ∧
      (∀ q, NMap.find? s.queues (a.toNat % 1024) = some q → q.slot = tm.slot →
        let n := a.toNat % 1024
        (q.entries = [] → q.vent = [] → q.held = [] → rep (.qDestroy f) { s with queues := NMap.erase s.queues n } 0) ∧
        (b.toNat % 32 ≤ 23 → rep (.qConf f) (s.setQueue n { q with prio := b.toNat % 32, enabled := b.getLsbD 8 }) 0) ∧
        (let new := [b.toNat % 256, b.toNat / 2 ^ 8 % 256, b.toNat / 2 ^ 16 % 256]
         s.sharesOk n new = true → rep (.qResv f) (s.setQueue n { q with shares := new }) 0) ∧
        rep (.qStat f) s (BitVec.ofNat 64 q.stat)) ∧
      ((∀ q, NMap.find? s.queues (a.toNat % 1024) = some q → q.slot ≠ tm.slot) →
        rep (.qDestroy f) s (BitVec.allOnes 64) ∧ rep (.qStat f) s (BitVec.allOnes 64))) ∧
    (SxIssues s t tm 6 true →
      let near (die : Nat) : Prop := s.reaches (dieOfCore tm.core) die = true
      (∀ w n, s.ctxDesc tm a = some w → ctxDescOk w = true → s.owns tm (fun p => p.hasDie (w / 2 ^ 16 % 4)) = true →
        firstFrom (fun n => s.owns tm (fun p => p.slots.contains n) && s.slotFree n) 64 0 = some n → near (w / 2 ^ 16 % 4) → ∃ c' : Context,
        rep (.ctxNew f) (s.setCtx n c') (BitVec.ofNat 64 (n + (s.ctx n).inc.toNat * 2 ^ 6)) ∧ c'.live = true ∧ c'.inc = (s.ctx n).inc ∧
        c'.homeDie = w / 2 ^ 16 % 4 ∧ c'.arenas = [(0, ⟨.live, 0, 0, 0, w / 2 ^ 128 % 2 ^ 64 - w / 2 ^ 64 % 2 ^ 64, 0,
          w / 2 ^ 64 % 2 ^ 64, w / 2 ^ 128 % 2 ^ 64, w / 2 ^ 64 % 2 ^ 64, 0, false⟩)] ∧ c'.pages = [] ∧ c'.hyps = [] ∧ c'.tiles = []) ∧
      (let n := a.toNat % 64
       s.owns tm (fun p => p.slots.contains n) = true → near (s.ctx n).homeDie →
        ((s.ctx n).killTooFar = false →
          rep (.ctxKill f) (s.killContext n (b.getLsbD 0)) (((s.killContext n (b.getLsbD 0)).ctx n).inc.zeroExtend 64)) ∧
        (s.reclaimed n = true →
          rep (.ctxReclaim f) (s.setCtx n { s.ctx n with oldest := (s.ctx n).inc, reclaimed := true, reclaiming := false })
            ((s.ctx n).inc.zeroExtend 64)) ∧
        (s.reclaimed n = false → f.r = true → exec (.ctxReclaim f) s = .next (s.setTeam t { tm with sxWait := true })) ∧
        (s.reclaimed n = false → f.r = false → rep (.ctxReclaim f) (s.setCtx n { s.ctx n with reclaiming := true }) 0)) ∧
      (let va := a.toNat / 2 ^ 16 % 2 ^ 41 * 65536
       let n := b.toNat / 2 ^ 16 % 2 ^ 40 * 65536
       let slot := a.toNat % 64
       let c := s.ctx slot
       s.owns tm (fun p => p.slots.contains slot) = true → near c.homeDie → b.getLsbD 11 = false →
        (c.pageAt va false = none → c.pageClash va false = false → (c.arena (b.toNat % 1024)).state = .live → b.getLsbD 14 = false →
          b.toNat / 2 ^ 56 = 0 → s.physOk tm slot n 65536 = true → ∃ s1, rep (.pgMap f) s1 (BitVec.ofNat 64 n) ∧ s1.mem = s.mem ∧ s1.teams = s.teams ∧ s1.units = s.units ∧ s1.queues = s.queues ∧
          let new : Page := ⟨n, b.toNat / 2 ^ 12 % 4, b.toNat % 1024, true, b.getLsbD 10, false, false⟩
          s1.contexts = NMap.insert s.contexts slot { c with pages := NMap.insert c.pages (va / 65536) new }) ∧
        (∀ p c', c.pageAt va false = some p → c.bumpTgen = some c' →
          let s1 := (s.setCtx slot { c' with pages := NMap.erase c.pages (va / 65536) }).unwithhold p.phys 65536
          (∀ k, (∃ w ∈ s1.withheld, w.1 ≤ k ∧ k < w.1 + w.2) ↔
            (∃ w ∈ s.withheld, w.1 ≤ k ∧ k < w.1 + w.2) ∧ ¬(p.phys ≤ k ∧ k < p.phys + 65536)) ∧
          rep (.pgUnmap f) (if b.getLsbD 14 = false ∧ physClass p.phys = 0 then { s1 with withheld := s1.withheld ++ [(p.phys, 65536)] } else s1)
            0)) ∧
      (let i := a.toNat % 16
       s.owns tm (fun p => p.islands.contains i && b.toNat % 65536 ≤ NMap.get p.tokenCeil 0 i) = true → near (i / 4) →
        rep (.pwBudget f) (s.setIsland i { s.island i with budget := b.toNat % 65536 }) (BitVec.ofNat 64 (s.island i).budget)) ∧
      (let n := a.toNat % 64
       let i := a.toNat / 2 ^ 8 % 16
       s.owns tm (fun p => p.slots.contains n && p.islands.contains i && b.toNat % 65536 ≤ NMap.get p.tokenCeil 0 i) = true →
        near (s.ctx n).homeDie → rep (.pwGrant f) (s.setCtx n { s.ctx n with grants := NMap.put (s.ctx n).grants 0 i (b.toNat % 65536) })
          (BitVec.ofNat 64 (NMap.get (s.ctx n).grants 0 i)))) ∧
    (SxIssues s t tm 7 true →
      rep (.sysId f) s (BitVec.ofNat 64 (s.sysId tm a.toNat)) ∧
      (let i := a.toNat % 16
       let r := b.toNat % 8
       let x := s.island i
       s.owns tm (fun p => p.islands.contains i) = true → x.step < 8 → x.limit < 8 →
        rep (.sysIsland f) (s.setIsland i { x with
          request := r
          step := max r x.limit
          changing := x.changing || decide (max r x.limit ≠ x.step) })
          (BitVec.ofNat 64 (x.step + max r x.limit * 8 + if r < x.limit then 64 else 0))) ∧
      (∀ po pn, b.getLsbD 0 = false → a.toNat % 64 = 0 → b.toNat % 4096 = 0 → s.sysPlaces tm .store b 3565 = .ok po →
        s.sysPlaces tm .load a 64 = .ok pn → s.inPartition tm po = true → s.inPartition tm pn = true → s.wordReady t tm (po ++ pn) = true →
        rep (.sysAttest f) ((s.countReads tm pn).writeThrough (s.tagsOf t tm) po (s.attestBytes tm false (s.teamBytes tm pn))) 3565) ∧
      (∀ n p, s.peerPart tm b = some (n, p) → b.getLsbD 9 = true → b.getLsbD 8 = false →
        rep (.sysPeer f) { s with parts := NMap.insert s.parts n { p with imports := NMap.erase p.imports (b.toNat % 128) } } 0) ∧
      (∀ n p pl, s.peerPart tm b = some (n, p) → b.getLsbD 9 = false → b.getLsbD 8 = true → b.toNat % 128 < 64 → a.toNat % 64 = 0 →
        s.sysPlaces tm .load a 64 = .ok pl → p.exportOk (leNat (s.teamBytes tm pl)) = true →
        rep (.sysPeer f) { s.countReads tm pl with parts := NMap.insert (s.countReads tm pl).parts n { p with exports := NMap.insert p.exports (b.toNat % 128) (s.teamBytes tm pl) } } 0))

/-- 16:R377. A command of engine 7, or a context, page or power command, outside supervisor mode traps with cause 0x08 and does nothing
else. -/
def Obligations.SupervisorCommandsOutsideSupervisorModeTrap : Prop :=
  ∀ (s : State) (t : Nat) (tm : Team) (f : SX), MayTrap s t tm →
    ∀ i ∈ [Instr.ctxNew f, .ctxKill f, .ctxReclaim f, .pgMap f, .pgUnmap f, .pwBudget f, .pwGrant f, .sysId f, .sysIsland f, .sysAttest f,
      .sysPeer f], ∃ s' w, encode i = some (.scalar w) ∧ exec i s = .next s' ∧ EntersHandler s s' t tm 0x08 tm.pc (w.zeroExtend 64) 0

/-! ## Lane words -/

/-- 07:R198, R200. An integer result wraps, or with SAT clamps, to its type, and overflows exactly when it does not fit. -/
def Obligations.IntegerResultsWrapOrSaturate : Prop :=
  ∀ (ty : Nat) (sat : Bool) (x : Int), tyInt ty = true →
    let w := tyWidth ty
    let lo : Int := if ty % 2 = 0 then -2 ^ (w - 1) else 0
    let hi : Int := if ty % 2 = 0 then 2 ^ (w - 1) - 1 else 2 ^ w - 1
    (intResult ty sat x).ov = decide (x < lo ∨ hi < x) ∧
    (intResult ty sat x).bits < 2 ^ w ∧
    ((intResult ty sat x).bits : Int) = (if sat then max lo (min hi x) else x) % 2 ^ w

/-- 04:R120; 05:R148; 07:R201 to R203. `LNOP` does nothing, `REP` sets the count and steps of the word after it, `LRND` steps each active lane's
random state and gives it, `VIDX` gives the lane, row or flat index. -/
def Obligations.ControlAndIdentityWordsRun : Prop :=
  ∀ (s : State) (f : LaneF) (e : LaneEnv),
    (LaneIssues s f (shapeNone 0) e → LaneRuns (exec (.lnop f) s) s e fun tm' => tm'.v = e.tm.v ∧ tm'.rnd = e.tm.rnd ∧ MasksKept e tm') ∧
    (∀ w, LaneIssues s f (shapeNone 0) e → e.rb.rep = none → s.laneWordAt e.tm (e.idx + 1) = .ok w → (w.extractLsb' 86 10).toNat ≠ 1 →
      LaneRuns (exec (.rep f) s) s e fun tm' => tm'.v = e.tm.v ∧
        let n := f.imm.toNat
        tm'.run = some { e.rb with pos := e.rb.pos + 1, words := e.rb.words + 1,
                                   rep := some ⟨0, n % 64 + 1, n / 64 % 4, n / 256 % 4, n / 1024 % 4, n / 4096 % 4⟩ }) ∧
    (∀ sh, sh = { shapeNone 0 with regs := fun e => [e.vd], passes := (·.rows) } → LaneIssues s f sh e →
      LaneRuns (exec (.lrnd f) s) s e fun tm' => MasksKept e tm' ∧ LaneWrites e tm' e.vd fun l =>
        let x := NMap.get e.tm.rnd 0 l
        let x := x ^^^ (x <<< 13)
        let x := x ^^^ (x >>> 7)
        x ^^^ (x <<< 17)) ∧
    (∀ sh : LaneShape, sh.form e = (tyInt e.ty && e.mod < 3) → sh.regs e = [e.vd] → sh.reads e = [] → sh.passes e = e.rows → LaneIssues s f sh e →
      LaneRuns (exec (.vidx f) s) s e fun tm' => MasksKept e tm' ∧ LaneWrites e tm' e.vd fun l =>
        packed e.ty fun k => if e.mod = 0 then l else if e.mod = 1 then l / 32 else l * tyCount e.ty + k)

/-- 02:R40, R41; 07:R206, R207; 16:R372. Words on masks and on the mask stack, and the traps of a stack that is full or empty. -/
def Obligations.MaskWordsRun : Prop :=
  ∀ (s : State) (f : LaneF) (e : LaneEnv), LaneIssues s f (shapeNone 1) e →
    let a := e.tm.mreg (e.va % 8)
    let b := e.tm.mreg (e.vb % 8)
    let writes (i : Instr) (x : Mask) : Prop :=
      LaneRuns (exec i s) s e fun tm' => tm'.v = e.tm.v ∧ tm'.stack = e.tm.stack ∧
        ∀ k, k < 8 → tm'.mreg k = if k = e.vd % 8 ∧ k ≠ 0 then x &&& e.tm.exist else e.tm.mreg k
    let pushes (i : Instr) (st : List Mask) : Prop :=
      LaneRuns (exec i s) s e fun tm' => tm'.v = e.tm.v ∧ tm'.m = e.tm.m ∧ tm'.stack = st.map (· &&& e.tm.exist)
    let traps (i : Instr) (cause : Nat) : Prop :=
      e.tm.ctrl = none → e.tm.level = 0 → s.replays e.tm = false → ∃ w : W96, encode i = some (.lane w) ∧ ∃ s', exec i s = .next s' ∧
        EntersHandler s s' e.t e.tm.flush cause e.tm.pc (w.extractLsb' 0 64) ((w.extractLsb' 64 32).zeroExtend 64)
    writes (.mmov f) a ∧ writes (.mand f) (a &&& b) ∧ writes (.mor f) (a ||| b) ∧ writes (.mxor f) (a ^^^ b) ∧ writes (.mnot f) (~~~a) ∧
    (e.tm.stack.length < 16 → pushes (.mpush f) ((e.tm.topMask &&& a) :: e.tm.stack)) ∧
    (16 ≤ e.tm.stack.length → traps (.mpush f) 0x05) ∧
    (∀ x st, e.tm.stack = x :: st →
      pushes (.mpop f) st ∧ pushes (.minv f) ((st.headD (BitVec.allOnes 1024) &&& ~~~x) :: st)) ∧
    (e.tm.stack = [] → traps (.mpop f) 0x06 ∧ traps (.minv f) 0x06)

/-- 07:R194, R200, R208 to R212. Element-wise arithmetic: every active lane's destination holds the results of its sub-elements, an overflow
sets `%sticky`.OV under `.chk`, and nothing else of the team changes. -/
def Obligations.ArithmeticWordsWriteTheirResult : Prop :=
  ∀ (s : State) (f : LaneF) (e : LaneEnv),
    let run (i : Instr) (sh : LaneShape) (chk : Bool) (val : Nat → Nat → Res) : Prop := LaneIssues s f sh e →
      LaneRuns (exec i s) s e fun tm' => MasksKept e tm' ∧ LaneWrites e tm' e.vd (fun l => packed e.ty fun k => (val l k).bits) ∧
        stickyAfter e tm' (chk && e.active.any fun l => (List.range (tyCount e.ty)).any fun k => (val l k).ov)
    let int (x : Int) : Res := intResult e.ty f.sat x
    let ab := shapeAB okIntFp false
    let I (x : Nat) : Int := intOf e.ty x
    let g := fmtOf e.ty
    let a l k := e.a e.ty l k
    let b l k := e.bop e.ty l k
    let c l k := e.c e.ty l k
    let chk := f.mod.getLsbD 3
    (tyInt e.ty = true →
      run (.vadd f) ab chk (fun l k => int (I (a l k) + I (b l k))) ∧
      run (.vsub f) ab chk (fun l k => int (I (a l k) - I (b l k))) ∧
      run (.vmul f) ab chk (fun l k => int (I (a l k) * I (b l k))) ∧
      run (.vmulh f) (shapeAB tyInt false) chk (fun l k =>
        ⟨(I (a l k) * I (b l k) / 2 ^ tyWidth e.ty % 2 ^ tyWidth e.ty).toNat, (int (I (a l k) * I (b l k))).ov⟩) ∧
      run (.vmad f) (shapeABC okIntFp) chk (fun l k => int (I (a l k) * I (b l k) + I (c l k))) ∧
      run (.vmin f) ab false (fun l k => ⟨(min (I (a l k)) (I (b l k)) % 2 ^ tyWidth e.ty).toNat, false⟩) ∧
      run (.vmax f) ab false (fun l k => ⟨(max (I (a l k)) (I (b l k)) % 2 ^ tyWidth e.ty).toNat, false⟩) ∧
      run (.vabs f) (shapeA okIntFp false) chk (fun l k => int (I (a l k)).natAbs) ∧
      run (.vneg f) (shapeA okIntFp false) chk (fun l k => int (-I (a l k)))) ∧
    (tyFp e.ty = true →
      run (.vadd f) ab chk (fun l k => fpAdd g e.rm f.sat l e.idx false (a l k) (b l k)) ∧
      run (.vsub f) ab chk (fun l k => fpAdd g e.rm f.sat l e.idx true (a l k) (b l k)) ∧
      run (.vmul f) ab chk (fun l k => fpMul g e.rm f.sat l e.idx (a l k) (b l k)) ∧
      run (.vmad f) (shapeABC okIntFp) chk (fun l k => fpMad g e.rm f.sat l e.idx (a l k) (b l k) (c l k)) ∧
      run (.vmin f) ab false (fun l k => fpMinMax g false (a l k) (b l k)) ∧
      run (.vmax f) ab false (fun l k => fpMinMax g true (a l k) (b l k)) ∧
      ((∀ l k, (g.read (a l k)).isNaN = false) →
        run (.vabs f) (shapeA okIntFp false) chk (fun l k => ⟨a l k % 2 ^ (tyWidth e.ty - 1), false⟩) ∧
        run (.vneg f) (shapeA okIntFp false) chk (fun l k => ⟨a l k ^^^ 2 ^ (tyWidth e.ty - 1), false⟩)))

/-- 07:R194, R200, R210 to R214. Bitwise, shift, selection, bit-field and bit-count words; a left shift sets `%sticky`.OV under `.chk`. -/
def Obligations.BitWordsWriteTheirResult : Prop :=
  ∀ (s : State) (f : LaneF) (e : LaneEnv),
    let run (i : Instr) (sh : LaneShape) (val : Nat → Nat → Nat) : Prop := LaneIssues s f sh e →
      LaneRuns (exec i s) s e fun tm' => MasksKept e tm' ∧ tm'.sticky = e.tm.sticky ∧ LaneWrites e tm' e.vd fun l => packed e.ty (val l)
    let w := tyWidth e.ty
    let a l k := e.a e.ty l k
    let b l k := e.bop e.ty l k
    let ab := shapeAB okAny false
    run (.vand f) ab (fun l k => a l k &&& b l k) ∧ run (.vor f) ab (fun l k => a l k ||| b l k) ∧
    run (.vxor f) ab (fun l k => a l k ^^^ b l k) ∧
    run (.vnot f) (shapeA okAny false) (fun l k => 2 ^ w - 1 - a l k) ∧
    (∀ sh : LaneShape, sh.form e = (okAny e.ty && e.sselOk e.ty) → sh.regs e = e.vd :: e.bRegs → sh.reads e = e.bRegs → sh.passes e = e.rows →
      run (.vmov f) sh b) ∧
    run (.vsel f) ab (fun l k => if (e.tm.mreg (e.vc % 8)).getLsbD l then a l k else b l k) ∧
    (tyInt e.ty = true → LaneIssues s f (shapeAB okIntB64 false) e →
      let shl l k := intResult e.ty f.sat (intOf e.ty (a l k) * 2 ^ b l k)
      LaneRuns (exec (.vshl f) s) s e fun tm' => MasksKept e tm' ∧ LaneWrites e tm' e.vd (fun l => packed e.ty fun k => (shl l k).bits) ∧
        stickyAfter e tm' (f.mod.getLsbD 3 && e.active.any fun l => (List.range (tyCount e.ty)).any fun k => (shl l k).ov)) ∧
    (e.ty = 14 → run (.vshl f) (shapeAB okIntB64 false) (fun l k => a l k * 2 ^ b l k % 2 ^ 64)) ∧
    (tySigned e.ty = true →
      run (.vshr f) (shapeAB okIntB64 false) (fun l k => (intOf e.ty (a l k) / 2 ^ b l k % 2 ^ w).toNat)) ∧
    (tySigned e.ty = false → run (.vshr f) (shapeAB okIntB64 false) (fun l k => a l k / 2 ^ b l k)) ∧
    (let off l k := b l k % 256
     let wid l k := min (b l k / 256 % 256) w
     let field l k := a l k / 2 ^ off l k % 2 ^ wid l k
     let signed l k : Int := if field l k < 2 ^ (wid l k - 1) then field l k else field l k - 2 ^ wid l k
     run (.bfx f) (shapeAB okField false) (fun l k =>
       if wid l k = 0 ∨ w ≤ off l k then 0 else if tySigned e.ty then (signed l k % 2 ^ w).toNat else field l k) ∧
     ∀ sh : LaneShape, sh.form e = (okField e.ty && e.sselOk e.ty) → sh.regs e = e.vd :: e.va :: e.bRegs → sh.reads e = e.vd :: e.va :: e.bRegs →
       sh.passes e = e.rows → run (.bfi f) sh (fun l k => ofSubs 1 ((List.range w).map fun i =>
         if 0 < wid l k ∧ off l k ≤ i ∧ i < off l k + wid l k then (a l k).testBit (i - off l k) |>.toNat
         else ((e.d e.ty l k).testBit i).toNat))) ∧
    run (.popc f) (shapeA okIntB64 false) (fun l k => ((List.range w).filter fun i => (a l k).testBit i).length) ∧
    run (.clz f) (shapeA okIntB64 false) (fun l k => ((List.range w).takeWhile fun i => !(a l k).testBit (w - 1 - i)).length) ∧
    run (.ctz f) (shapeA okIntB64 false) (fun l k => ((List.range w).takeWhile fun i => !(a l k).testBit i).length) ∧
    run (.brev f) (shapeA okIntB64 false) (fun l k => (BitVec.ofNat w (a l k)).reverse.toNat)

/-- 07:R199, R204, R205. `VCMP` and `VCLASS` replace the bits of the active lanes of a mask register and keep the others; one that names m0 writes
nothing. With `.all` DSEL is not looked at (the model's choice, log 75). -/
def Obligations.CompareWordsReplaceBitsOfActiveLanes : Prop :=
  ∀ (s : State) (f : LaneF) (e : LaneEnv) (sh : LaneShape), sh.passes e = e.rows → LaneIssues s f sh e →
    let a k l := e.a e.ty l k
    let b k l := e.bop e.ty l k
    let run (i : Instr) (bit : Nat → Bool) : Prop :=
      LaneRuns (exec i s) s e fun tm' => tm'.v = e.tm.v ∧ tm'.stack = e.tm.stack ∧ tm'.sticky = e.tm.sticky ∧
        ∀ k, k < 8 → ∀ l, l < 1024 → l < e.tm.lanes →
          (tm'.mreg k).getLsbD l = if k = e.vd % 8 ∧ k ≠ 0 ∧ l ∈ e.active then bit l else (e.tm.mreg k).getLsbD l
    (sh.form e = (okNum e.ty && e.sselOk e.ty && (f.mod.getLsbD 3 || e.dsel < tyCount e.ty)) → sh.regs e = e.va :: e.bRegs → sh.reads e = e.va :: e.bRegs →
      let rel (l k : Nat) : Bool :=
        let x := intOf e.ty (a k l)
        let y := intOf e.ty (b k l)
        match e.mod % 8 with
        | 0 => x = y | 1 => x ≠ y | 2 => x < y | 3 => x ≤ y | 4 => y < x | 5 => y ≤ x | 6 => true | _ => false
      (tyInt e.ty = true →
        (f.mod.getLsbD 3 = false → run (.vcmp f) fun l => rel l e.dsel) ∧
        (f.mod.getLsbD 3 = true → run (.vcmp f) fun l => (List.range (tyCount e.ty)).all (rel l))) ∧
      (tyInt e.ty = false →
        let rel (l k : Nat) : Bool := fvRel (e.mod % 8) ((fmtOf e.ty).read (a k l)) ((fmtOf e.ty).read (b k l))
        (f.mod.getLsbD 3 = false → run (.vcmp f) fun l => rel l e.dsel) ∧
        (f.mod.getLsbD 3 = true → run (.vcmp f) fun l => (List.range (tyCount e.ty)).all (rel l)))) ∧
    (sh.form e = ((tyFp e.ty || tyF8 e.ty) && e.dsel < tyCount e.ty) → sh.regs e = [e.va] → sh.reads e = [e.va] →
      run (.vclass f) fun l => classIn (fmtOf e.ty) e.mod (a e.dsel l))

/-- 05:R149, R150; 07:R215, R216. Division, square root and the special functions leave each active lane's result to be written within their
window; no register has changed yet. -/
def Obligations.LongLatencyWordsPostTheirResult : Prop :=
  ∀ (s : State) (f : LaneF) (e : LaneEnv),
    let run (i : Instr) (sh : LaneShape) (val : Nat → Nat → Nat) : Prop := LaneIssues s f sh e →
      LaneRuns (exec i s) s e fun tm' => MasksKept e tm' ∧ tm'.sticky = e.tm.sticky ∧
        LanePosts e tm' (tyWidth e.ty) (e.active.map fun l => wholeWrite e.vd l (packed e.ty (val l)))
    let g := fmtOf e.ty
    let a l k := e.a e.ty l k
    let b l k := e.bop e.ty l k
    (tyInt e.ty = true → run (.vdiv f) (shapeAB okIntFp true) (fun l k =>
      if intOf e.ty (b l k) = 0 then 2 ^ tyWidth e.ty - 1 else (intResult e.ty f.sat ((intOf e.ty (a l k)).tdiv (intOf e.ty (b l k)))).bits)) ∧
    (tyFp e.ty = true → run (.vdiv f) (shapeAB okIntFp true) (fun l k => (fpDiv g e.rm f.sat l e.idx (a l k) (b l k)).bits)) ∧
    run (.vsqrt f) (shapeA tyFp true) (fun l k => (fpSqrt g e.rm f.sat l e.idx (a l k)).bits) ∧
    ∀ n i, (n, i) ∈ [(0, Instr.frcp f), (1, .frsq f), (2, .fexp2 f), (3, .flog2 f), (4, .fsin f), (5, .fcos f), (6, .ftanh f)] →
      run i (shapeA tyFp true) (fun l k => special n g l e.idx (a l k))

/-- 07:R217 to R225. Conversions, packing, the Q4 family, scaled accumulation and `DOT4`: the sub-elements each writes, and those of the
destination it keeps. That `QDEC` and `SCACC` take sub-element 0 of B with SRC = 11 is the model's reading (log 42). -/
def Obligations.ConversionWordsWriteTheirSubElements : Prop :=
  ∀ (s : State) (f : LaneF) (e : LaneEnv) (sh : LaneShape), sh.passes e = e.rows → LaneIssues s f sh e →
    let src (l w k : Nat) : Nat := sub (e.v e.va l) w k
    let parts (i : Instr) (w o n : Nat) (val : Nat → Nat → Nat) : Prop :=
      LaneRuns (exec i s) s e fun tm' => MasksKept e tm' ∧
        (∀ l ∈ e.active, ∀ k, k * w < 64 →
          sub (tm'.lreg l e.vd) w k = if o ≤ k ∧ k < o + n then val l (k - o) % 2 ^ w else sub (e.tm.lreg l e.vd) w k) ∧
        ∀ l k, (∀ j ∈ e.active, 64 * l + k ≠ 64 * j + e.vd) → tm'.lreg l k = e.tm.lreg l k
    let wholes (i : Instr) (val : Nat → W64) : Prop :=
      LaneRuns (exec i s) s e fun tm' => MasksKept e tm' ∧ tm'.sticky = e.tm.sticky ∧ LaneWrites e tm' e.vd val
    let n := convCount e.ty e.mod
    (sh.regs e = [e.vd, e.va] → sh.reads e = [e.va] →
      (sh.form e = (okNum e.ty && okNum e.mod && e.convSel) →
        parts (.cvt f) (tyWidth e.ty) (e.dsel * n) n fun l k => convert e.ty e.mod e.rm f.sat (src l (tyWidth e.mod) (e.ssel * n + k))) ∧
      (sh.form e = (okNum e.ty && tyFp e.mod && e.convSel) →
        parts (.cvts f) (tyWidth e.ty) (e.dsel * n) n fun l k =>
          (convertStoch e.ty e.mod f.sat ((rndStep (NMap.get e.tm.rnd 0 l)).toNat / 2 ^ (16 * k) % 65536)
            (src l (tyWidth e.mod) (e.ssel * n + k))).bits)) ∧
    (sh.regs e = [e.vd, e.va, e.vb] → sh.reads e = [e.va, e.vb] → sh.form e = (okNum e.ty && okNum e.mod && 2 * tyWidth e.ty = tyWidth e.mod && e.src = 0) →
      wholes (.pack f) fun l => packed e.ty fun k =>
        if k < tyCount e.mod then convert e.ty e.mod e.rm f.sat (src l (tyWidth e.mod) k)
        else convert e.ty e.mod e.rm f.sat (sub (e.v e.vb l) (tyWidth e.mod) (k - tyCount e.mod))) ∧
    (sh.regs e = [e.vd, e.vd + 1, e.va] → sh.reads e = [e.va] →
      sh.form e = (okNum e.ty && okNum e.mod && tyWidth e.ty = 2 * tyWidth e.mod && (tyInt e.mod || !tyInt e.ty) && e.vd ≠ 63) →
      LaneRuns (exec (.unpack f) s) s e fun tm' => MasksKept e tm' ∧ tm'.sticky = e.tm.sticky ∧ (∀ l ∈ e.active, e.vd < 63 → ∀ j, j < 2 →
        tm'.lreg l (e.vd + j) = packed e.ty fun k => convert e.ty e.mod 0 false (src l (tyWidth e.mod) (j * tyCount e.ty + k))) ∧
        ∀ l k, (∀ i ∈ e.active, 64 * l + k ≠ 64 * i + e.vd ∧ 64 * l + k ≠ 64 * i + e.vd + 1) → tm'.lreg l k = e.tm.lreg l k) ∧
    (sh.regs e = e.vd :: e.va :: e.bRegs → sh.reads e = e.va :: e.bRegs →
      (sh.form e = (e.ty = 13 && tyFp e.mod && e.src ≠ 3 && e.dsel < 16 / tyCount e.mod) →
        parts (.qenc f) 4 (e.dsel * tyCount e.mod) (tyCount e.mod) fun l k =>
          qenc e.mod e.rm (src l (tyWidth e.mod) k) ((e.b64 l).toNat % 256)) ∧
      (sh.form e = (tyFp e.ty && e.mod = 13 && (e.src ≠ 3 || e.ssel = 0) && e.ssel < 16 / tyCount e.ty) →
        wholes (.qdec f) fun l => packed e.ty fun k => qdec e.ty ((e.b64 l).toNat / 64 % 4) (src l 4 (e.ssel * tyCount e.ty + k)))) ∧
    (sh.regs e = e.vd :: e.va :: e.bRegs → sh.reads e = e.vd :: e.va :: e.bRegs → sh.form e = (e.ty = 10 && (e.mod = 10 || e.mod = 4)) →
        wholes (.scacc f) fun l => packed 10 fun k =>
          scaledAdd e.rm f.sat (if e.mod = 10 then f32.read (src l 32 k) else intFv (src l 32 k)) (sub (e.v e.vd l) 32 k)
            ((e.b64 l).toNat / 2 ^ (16 * k) % 64) ((e.b64 l).toNat / 2 ^ (16 * k + 8) % 64) (originNaN f32 l e.idx)) ∧
    (sh.regs e = e.vd :: e.va :: e.vc :: e.bRegs → sh.reads e = e.va :: e.vc :: e.bRegs →
      sh.form e = (((e.ty = 4 && e.mod < 2) || (e.ty = 10 && tyF8 e.mod)) && (e.src ≠ 3 || e.ssel < 8)) →
      let A l k j := e.a e.mod l (4 * k + j)
      let B l k j := e.bop e.mod l (4 * k + j)
      (e.ty = 4 → wholes (.dot4 f) fun l => packed 4 fun k =>
        let term (j : Nat) : Int := intOf e.mod (A l k j) * intOf e.mod (B l k j)
        (intResult 4 f.sat (term 0 + term 1 + term 2 + term 3 + intOf 4 (e.c 4 l k))).bits) ∧
      (e.ty = 10 → wholes (.dot4 f) fun l => packed 10 fun k =>
        let g := fmtOf e.mod
        let nan := (nanAsF32 g [A l k 0, A l k 1, A l k 2, A l k 3]).orElse fun _ => (nanAsF32 g [B l k 0, B l k 1, B l k 2, B l k 3]).orElse fun _ =>
          nanAsF32 f32 [e.c 10 l k]
        let term (j : Nat) : Option Fv := fvMul (g.read (A l k j)) (g.read (B l k j))
        nan.getD (match term 0, term 1, term 2, term 3 with
          | some p, some q, some x, some y =>
            ((sumRound f32 e.rm f.sat [p, q, x, y, f32.read (e.c 10 l k)]).map (·.bits)).getD (originNaN f32 l e.idx)
          | _, _, _, _ => originNaN f32 l e.idx)))

/-- 05:R149; 07:R226 to R230. Words across lanes leave to each active lane: what another lane or sub-element holds, the combination over the
active lanes, over those up to it, or a vote. -/
def Obligations.CrossLaneWordsPostTheirResult : Prop :=
  ∀ (s : State) (f : LaneF) (e : LaneEnv) (sh : LaneShape), sh.passes e = e.rows → LaneIssues s f sh e →
    let posts (i : Instr) (val : Nat → W64) : Prop :=
      LaneRuns (exec i s) s e fun tm' => MasksKept e tm' ∧ LanePosts e tm' (tyWidth e.ty) (e.active.map fun l => wholeWrite e.vd l (val l))
    let x l k := e.bopX e.ty l k
    (sh.regs e = e.vd :: e.va :: e.bRegs → sh.reads e = e.va :: e.bRegs → sh.form e = (okAny e.ty && e.sselOk e.ty) →
      posts (.shfl f) (fun l => packed e.ty fun k => sub (e.v e.va (32 * (l / 32) + x l k % 32)) (tyWidth e.ty) k) ∧
      posts (.shflx f) (fun l => packed e.ty fun k => sub (e.v e.va (l ^^^ (x l k % 1024))) (tyWidth e.ty) k) ∧
      posts (.vperm f) (fun l => packed e.ty fun k => sub (e.v e.va l) (tyWidth e.ty) (x l k % tyCount e.ty))) ∧
    (sh.regs e = e.vd :: e.bRegs → sh.reads e = e.bRegs → sh.form e = (okAny e.ty && e.sselOk e.ty) →
      (e.src = 0 → posts (.bcast f) fun _ => packed e.ty fun k => sub (e.v e.vb (f.imm.toNat % 1024)) (tyWidth e.ty) k) ∧
      (e.src = 1 → posts (.bcast f) fun _ => packed e.ty fun _ => (e.bank (f.vb.toNat % 16)).toNat % 2 ^ tyWidth e.ty) ∧
      (e.src = 2 → posts (.bcast f) fun _ => packed e.ty fun _ => immOf e.ty f) ∧
      (e.src = 3 → posts (.bcast f) fun _ => packed e.ty fun _ => sub (e.v e.vb (f.imm.toNat % 1024)) (tyWidth e.ty) e.ssel)) ∧
    (let w := tyWidth e.ty
     let g := fmtOf e.ty
     let val l k := e.a e.ty l k
     let I (x : Nat) : Int := intOf e.ty x
     -- The combination of sub-element k over some lanes, none or more.
     let all1 (n : Nat) (ls : List Nat) (k : Nat) : Nat :=
       if n = 3 then ls.foldl (fun x l => x &&& val l k) (2 ^ w - 1) else if n = 4 then ls.foldl (fun x l => x ||| val l k) 0
       else ls.foldl (fun x l => x ^^^ val l k) 0
     let least (ls : List Nat) (k l : Nat) : Prop := l ∈ ls ∧ ∀ j ∈ ls, I (val l k) ≤ I (val j k)
     let most (ls : List Nat) (k l : Nat) : Prop := l ∈ ls ∧ ∀ j ∈ ls, I (val j k) ≤ I (val l k)
     let isNaN l k := (g.read (val l k)).isNaN
     -- `c` gives of a list of lanes what `RED` of operation n makes of them.
     let combines (n : Nat) (c : List Nat → Nat → Nat) : Prop :=
       (n = 0 → tyInt e.ty = true → ∀ ls k, c ls k = (intResult e.ty f.sat ((ls.map fun l => I (val l k)).sum)).bits) ∧
       (n = 0 → tyFp e.ty = true → ∀ ls k, ls ≠ [] → (∀ l ∈ ls, isNaN l k = false) →
         c ls k = ((sumRound g e.rm f.sat (ls.map fun l => g.read (val l k))).map (·.bits)).getD (originNaN g (ls.headD 0) e.idx)) ∧
       (n = 1 → tyInt e.ty = true → ∀ ls k l, least ls k l → c ls k = val l k) ∧
       (n = 2 → tyInt e.ty = true → ∀ ls k l, most ls k l → c ls k = val l k) ∧
       ((n = 1 ∨ n = 2) → tyFp e.ty = true → ∀ l r k, isNaN l k = false →
         c (l :: r) k = r.foldl (fun x j => (fpMinMax g (decide (n = 2)) x (val j k)).bits) (val l k)) ∧
       (3 ≤ n → n ≤ 5 → ∀ ls k, c ls k = all1 n ls k)
     sh.regs e = [e.vd, e.va] → sh.reads e = [e.va] →
      (sh.form e = redOk e.mod e.ty → ∃ c, combines e.mod c ∧ posts (.red f) fun _ => packed e.ty (c e.active)) ∧
      (sh.form e = redOk (e.mod % 8) e.ty → ∃ c, combines (e.mod % 8) c ∧ posts (.scan f) fun l => packed e.ty fun k =>
        let js := e.active.filter fun j => j < l || (!f.mod.getLsbD 3 && j = l)
        if js = [] then redIdentity (e.mod % 8) e.ty else c js k) ∧
      (sh.form e = (okAny e.ty && e.mod < 4 && e.dsel < tyCount e.ty) →
        let yes := e.active.filter fun l => e.a e.ty l e.dsel ≠ 0
        (e.mod = 0 → posts (.vote f) fun _ => if yes = [] then 0 else 1) ∧
        (e.mod = 1 → posts (.vote f) fun _ => if yes = e.active then 1 else 0) ∧
        (e.mod = 2 → ∃ x : Nat → W64, posts (.vote f) x ∧ ∀ l i, i < 32 →
          ((x l).getLsbD i = true ↔ 32 * (l / 32) + i ∈ yes) ∧ ((x l).getLsbD (32 + i) = true ↔ ∃ j ∈ yes, j / 32 = i)) ∧
        (e.mod = 3 → posts (.vote f) fun _ => BitVec.ofNat 64 yes.length)))

/-! ## Lane memory words -/

/-- 03:R67 to R70, R76; 08:R232 to R239; 17:R391. Lane loads: when no lane of the word meets a cause, every place lies on the device and none
waits for a link or a copy, the word completes. The value of each active lane, 0 where CLAMP took it out, is left to be written; memory is as it
was; after an acquire the core's L1 keeps of its main part only sealed and haloed lines. Scratchpad places give the bytes that stand there. A word of
which a lane meets a cause traps with the first one. -/
def Obligations.LaneLoadsPostTheLoadedBytes : Prop :=
  ∀ (s : State) (f : LaneF) (e : LaneEnv),
    let all := e.work (moveShape .load)
    let accs := (e.active.map (e.access e.moveSize)).filter fun a => !e.clamped a
    let ms := e.causes .load e.moveSize 1 (fun _ => true)
    let loads (i : Instr) (sh : LaneShape) (ldr : Bool) (acq : Option Nat) : Prop := LaneIssues s f sh e →
      LaneMeetsFirst (exec i s) e .load accs ms ∧
      let g := e.loadLanes (e.tags (acq.getD 0) (if acq.isSome then 1 else 0)) ⟨ldr, bitOf e.rec_ 194, e.tm.acquired⟩ [] all
      (∀ a ∈ accs, ms a = []) → (∀ x ∈ all, ∀ p ∈ x.2, p.remote = false) →
      g.stuck = false → (∀ sc, acq = some sc → s.mayAcquire { e.tm with seen := joinStamp e.tm.seen g.stamp } sc = true) →
        ∃ s' tm', exec i s = .next s' ∧ s'.mem = s.mem ∧ s'.teams = s.teams.set e.t tm' ∧
          tm'.s = e.tm.s ∧ tm'.pc = e.tm.pc ∧ tm'.b = e.tm.b ∧ MasksKept e tm' ∧ tm'.sticky = e.tm.sticky ∧
          tm'.seen = joinStamp e.tm.seen g.stamp ∧
          LanePosts e tm' (tyWidth e.ty)
            (e.active.map fun l => wholeWrite e.vd l (BitVec.ofNat 64 (((g.vals.find? fun v => v.1 = l).map (·.2)).getD 0))) ∧
          (∀ sc, acq = some sc → sc ≠ 0 → ∀ l ∈ s'.l1, l.core = e.tm.core → l.ro = false → l.haloed = false → l.sealed = true)
    loads (.ld f) shapeLd false (if f.sub.toNat % 4 = 1 then some (f.sub.toNat / 4 % 8) else none) ∧
    loads (.ldr f) (shapeLoad fun _ => true) true none ∧
    loads (.ldacq f) shapeLdacq false (some (f.sub.toNat / 4 % 8)) ∧
    (∀ a : LaneAcc, ((∃ m ∈ ms a, m.cause = 0x12) ↔ a.out = true) ∧ (∀ m ∈ ms a, m.cause ≠ 0x13) ∧
      (a.ptr.toNat / 2 ^ 56 < 0xFC → ((∃ m ∈ ms a, m.cause = 0x14) ↔ 2 ≤ a.ptr.toNat / 2 ^ 56)) ∧
      (e.tm.ctrl = none → a.ptr.toNat / 2 ^ 56 = 0xFD → ((∃ m ∈ ms a, m.cause = 0x17) ↔ a.ptr.toNat / 2 ^ 48 % 256 ≠ e.tm.tag))) ∧
    ((∀ x ∈ all, ∀ p ∈ x.2, p.win = .pad ∧ p.shared = false) → ∀ tg o, (e.loadLanes tg o [] all).stuck = false ∧
      (e.loadLanes tg o [] all).vals = all.map fun x => (x.1.lane, leNat (x.2.flatMap fun p => e.s.bytes p.key p.len)))

/-- 03:R69, R76, R79; 08:R235 to R239; 17:R391. Lane stores: when no lane meets a cause the word completes, a releasing one once the team's
stores have been performed at its scope. Of memory only bytes of scratchpad places change, and one lane's store to its own scratchpad leaves the
low bytes of its register there; no register, mask or record changes. (A release at system scope after a write that was lost also writes the
failure record of 17:R412: `FencesAndYieldsComplete`.) The stores to HBM are posted: one of one line goes to its home with its bytes. A word of which a
lane meets a cause traps with the first one. -/
def Obligations.LaneStoresTouchOnlyTheirPlaces : Prop :=
  ∀ (s : State) (f : LaneF) (e : LaneEnv),
    let all := e.work (moveShape .store)
    let accs := (e.active.map (e.access e.moveSize)).filter fun a => !e.clamped a
    let ms := e.causes .store e.moveSize 1 (fun _ => true)
    let val (a : LaneAcc) : List Byte := leBytes e.moveSize (e.v e.vc a.lane).toNat
    let stores (i : Instr) (sh : LaneShape) (rel : Option Nat) : Prop := LaneIssues s f sh e →
      LaneMeetsFirst (exec i s) e .store accs ms ∧
      ((∀ a ∈ accs, ms a = []) → s.storeRoom e.tm (all.flatMap (·.2)) = true →
      (∀ sc, rel = some sc → s.released e.t e.tm.core sc = true) →
        ∃ s' tm', exec i s = .next s' ∧ s'.teams = s.teams.set e.t tm' ∧ tm'.s = e.tm.s ∧ tm'.pc = e.tm.pc ∧ tm'.b = e.tm.b ∧
          tm'.v = e.tm.v ∧ MasksKept e tm' ∧ tm'.sticky = e.tm.sticky ∧
          (let s0 := match rel with
             | some sc => s.afterRelease e.t sc
             | none => s
           let s1 := e.storeLanes (e.tags (rel.getD 0) (if rel.isSome then 2 else 0)) e.moveSize all s0
           s'.flight = s1.flight ∧ s'.posted = s1.posted) ∧
          ((rel = some 5 → ∀ w ∈ s.posted, w.team ≠ e.t) →
            (∀ k, (∀ x ∈ all, ∀ p ∈ x.2, p.win = .pad → ∀ j, (if p.shared then s.forwarded p.key else some p.key) = some j → k < j ∨ j + p.len ≤ k) →
              s'.byte k = s.byte k) ∧
            (∀ a k, all = [(a, [⟨.pad, 0, k, e.moveSize, 0, 0, false⟩])] → a.lane < 1024 → s'.bytes k e.moveSize = val a) ∧
            (∀ a p, all = [(a, [p])] → a.lane < 1024 → p.win = .virt → p.remote = false → s.replays e.tm = false → rel ≠ some 0 →
              (s.ctx e.tm.slot).tileAt p.va = none → ∃ r, s'.flight = s.flight ++ [r] ∧ r.line = lineOf p.key ∧ r.home = p.home ∧
                r.die = dieOfCore e.tm.core ∧ r.bytes = s.writable (lineOf p.key) (lineBytes p.key ((val a).take p.len)))))
    stores (.st f) shapeSt (if f.sub.toNat % 4 = 2 then some (f.sub.toNat / 4 % 8) else none) ∧
    stores (.strel f) (shapeStore fun e => e.scope < 6) (some (f.sub.toNat / 4 % 8)) ∧
    (∀ a : LaneAcc, ((∃ m ∈ ms a, m.cause = 0x12) ↔ a.out = true) ∧ ((∃ m ∈ ms a, m.cause = 0x13) ↔ e.rec_.getLsbD 192 = true) ∧
      (a.ptr.toNat / 2 ^ 56 < 0xFC → ((∃ m ∈ ms a, m.cause = 0x14) ↔ 2 ≤ a.ptr.toNat / 2 ^ 56)) ∧
      (e.tm.ctrl = none → a.ptr.toNat / 2 ^ 56 = 0xFD → ((∃ m ∈ ms a, m.cause = 0x17) ↔ a.ptr.toNat / 2 ^ 48 % 256 ≠ e.tm.tag)) ∧
      (e.tm.ctrl = none → a.ptr.toNat < 2 ^ 57 → a.ptr.toNat % 128 + e.moveSize ≤ 128 → 0 < e.moveSize → ∀ pg m pa,
        (s.ctx e.tm.slot).translate a.ptr.toNat = some (pg, m, pa) → e.s = s →
        ((∃ m ∈ ms a, m.cause = 0x11) ↔ pg.write = false) ∧
        (pg.write = true → ((∃ m ∈ ms a, m.cause = 0x19) ↔
          ((s.ctx e.tm.slot).arena ((e.req.map (·.1)).getD pg.arena)).state = .sealed))))

/-- 08:R240 to R242; 17:R391. Atomics, under every ordering: when no lane meets a cause, the places lie on the device, the homes are ready and the
dies take its stores, a word whose release and acquire need not wait completes: each active lane's old value, 0 where CLAMP took it out, is left to be
written in sub-element 0, and memory is as the lanes' events left it. On one scratchpad place the old value is what stood there, and the new one that of
the operation, or of the swap where the old one is as expected. In which order the lanes of a word act is free (log 70). -/
def Obligations.LaneAtomicsReturnTheOldValue : Prop :=
  ∀ (s : State) (f : LaneF) (e : LaneEnv), (e.ordering / 2 = 1 → s.released e.t e.tm.core e.scope = true) →
    let s0 := if e.ordering / 2 = 1 then s.afterRelease e.t e.scope else s
    let e0 := { e with s := s0 }
    let atomics (i : Instr) (sh : LaneShape) (op : Option Nat) (act : Nat → Nat → Option Nat) : Prop := LaneIssues s f sh e →
      let all := e.work (atomShape fun _ => op)
      let accs := (e.active.map (e.access e.atomSize)).filter fun a => !e.clamped a
      let ms := e.causes .atomic e.atomSize e.atomSize (e.atomCarried op)
      let order := e0.atomOrder all
      let g := order.foldl (fun g l => g.atoms (e0.tags e.scope e.ordering) e.req (answersOf all []) act l) (LaneGot.start s0 [])
      LaneMeetsFirst (exec i s) e .atomic accs ms ∧
      ((∀ a ∈ accs, ms a = []) → (∀ x ∈ all, ∀ p ∈ x.2, p.remote = false) → e.atomTile all = false → e0.atomWait all = false →
      s0.mayStore (dieOfCore e.tm.core) order.length = true →
      (e.ordering % 2 = 1 → g.s.mayAcquire { e.tm with seen := joinStamp e.tm.seen g.stamp } e.scope = true) →
        ∃ s' tm', exec i s = .next s' ∧ s'.teams = s.teams.set e.t tm' ∧ tm'.s = e.tm.s ∧ tm'.pc = e.tm.pc ∧ tm'.b = e.tm.b ∧
          MasksKept e tm' ∧ tm'.sticky = e.tm.sticky ∧ s'.mem = g.s.mem ∧ s'.flight = g.s.flight ∧
          LanePosts e tm' (tyWidth e.ty)
            (e.active.map fun l => wholeWrite e.vd l (BitVec.ofNat 64 (((g.vals.find? fun v => v.1 = l).map (·.2)).getD 0))) ∧
          (∀ a k, all = [(a, [⟨.pad, 0, k, e.atomSize, 0, 0, false⟩])] → a.lane < 1024 → s0.poisoned k e.atomSize = false →
            g.vals = [(a.lane, leNat (s0.bytes k e.atomSize))] ∧
            leNat (s'.bytes k e.atomSize) = (act a.lane (leNat (s0.bytes k e.atomSize))).getD (leNat (s0.bytes k e.atomSize)) % 256 ^ e.atomSize))
    let v l := (e.v e.vc l).toNat % 2 ^ tyWidth e.ty
    let i (x : Nat) : Int := intOf e.ty x
    let atom (n : Nat) (new : Nat → Nat → Nat) : Prop := e.mod = n → atomics (.atom f) shapeAtom (some n) fun l x => some (new l x)
    (e.ty ≠ 10 →
      atom 0 (fun l x => (x + v l) % 2 ^ tyWidth e.ty) ∧
      atom 1 (fun l x => if i (v l) < i x then v l else x) ∧
      atom 2 (fun l x => if i x < i (v l) then v l else x)) ∧
    (e.ty = 10 →
      atom 0 (fun l x => (fpAdd f32 0 false l e.idx false x (v l)).bits) ∧
      atom 1 (fun l x => (fpMinMax f32 false x (v l)).bits) ∧
      atom 2 (fun l x => (fpMinMax f32 true x (v l)).bits)) ∧
    atom 3 (fun l x => x &&& v l) ∧ atom 4 (fun l x => x ||| v l) ∧ atom 5 (fun l x => x ^^^ v l) ∧ atom 6 (fun l _ => v l) ∧
    atomics (.cas f) shapeCas none fun l x => if x = (e.v e.vd l).toNat % 2 ^ tyWidth e.ty then some (v l) else none

/-- 03:R71, R77, R78; 08:R245 to R251. Words of circular buffers and pointers: `CBTAKE` and `CBGET` take the slot at the index and give its
pointer, or block the team; `CBPUB` and `CBRET` count a slot; `SPTEST` gives the window of a pointer. -/
def Obligations.BufferWordsMoveTheCounters : Prop :=
  ∀ (s : State) (f : LaneF) (e : LaneEnv) (l key : Nat),
    (∀ wr, LaneIssues s f (shapeCb wr) e → e.active.head? = some l → s.cbCopying e.tm l (e.b64 l) = false →
      s.cbLate e.tm l (e.b64 l) = false → s.cbKey e.tm l (e.b64 l) = .ok key →
      let d := s.cbRead key
      let writes (i : Instr) (d' : CbDesc) (posted : Option W64) : Prop :=
        ∃ s' tm', exec i s = .next s' ∧ s'.teams = s.teams.set e.t tm' ∧ tm'.s = e.tm.s ∧ tm'.b = e.tm.b ∧ tm'.v = e.tm.v ∧
          (s'.cbRead key).free = d'.free % 256 ∧ (s'.cbRead key).filled = d'.filled % 256 ∧ (s'.cbRead key).wr = d'.wr % 256 ∧
          (s'.cbRead key).rd = d'.rd % 256 ∧ (∀ k, k < key + 8 ∨ key + 12 ≤ k → s'.byte k = s.byte k) ∧
          ∀ p, posted = some p → LanePosts e tm' 64 (e.active.map fun j => wholeWrite e.vd j p)
      let blocks (i : Instr) : Prop := ∃ tm', exec i s = .next (s.setTeam e.t tm') ∧ tm'.wait = some .cb ∧ tm'.v = e.tm.v ∧
        (e.tm.state ≠ .trapped → tm'.state = .blocked)
      (wr = true →
        (0 < d.free → writes (.cbtake f) { d with free := d.free - 1, wr := (d.wr + 1) % d.count } (some (d.slotPtr (e.b64 l) d.wr))) ∧
        (d.free = 0 → blocks (.cbtake f)) ∧
        (0 < d.filled → writes (.cbget f) { d with filled := d.filled - 1, rd := (d.rd + 1) % d.count } (some (d.slotPtr (e.b64 l) d.rd))) ∧
        (d.filled = 0 → blocks (.cbget f))) ∧
      (wr = false →
        (s.released e.t e.tm.core 1 = true → writes (.cbpub f) { d with filled := d.filled + 1 } none) ∧
        writes (.cbret f) { d with free := d.free + 1 } none)) ∧
    (∀ sh : LaneShape, sh.regs e = [e.vd, e.va] → sh.reads e = [e.va] → sh.passes e = e.rows → LaneIssues s f sh e →
      (sh.form e = true → LaneRuns (exec (.sptest f) s) s e fun tm' => MasksKept e tm' ∧
        LanePosts e tm' 64 (e.active.map fun l => wholeWrite e.vd l (
          let p := e.v e.va l
          let tag := p.toNat / 2 ^ 56
          if tag < 2 then 0 else if tag < 0xFC then 5 else if tag = 0xFC then 1
          else if tag = 0xFD then (if p.toNat / 2 ^ 48 % 256 = e.tm.tag then 2 else 6) else if tag = 0xFE then 3 else 4))) ∧
      (sh.form e = (e.mod = 0 || e.mod = 2 || e.mod = 3) → LaneRuns (exec (.spcast f) s) s e fun tm' => MasksKept e tm' ∧
        LanePosts e tm' 64 (e.active.map fun l => wholeWrite e.vd l (spcast s e.tm e.mod l (e.v e.va l)))))

/-! ## Words of the manual's encoding tables, and words that are none -/

/-- 05:R137, R140, R145, R152 to R157. Words written out field by field, as the tables lay them out, decode to what they stand for, one or more
of each family; and words that are no instruction are refused. -/
def Obligations.WordsLaidOutByTheTablesDecode : Prop :=
  let sc (w : BitVec 32) : Except Reject Instr := decodeWord (.scalar w)
  let la (w : BitVec 96) : Except Reject Instr := decodeWord (.lane w)
  let mx (w : BitVec 64) : Except Reject Instr := decodeWord (.matrix w)
  sc (0x01#6 ++ 5#5 ++ 6#5 ++ 7#5 ++ 0x000#11) = .ok (.add ⟨5, 6, 7⟩) ∧
  sc (0x01#6 ++ 9#5 ++ 9#5 ++ 2#5 ++ 0x006#11) = .ok (.divu ⟨9, 9, 2⟩) ∧
  sc (0x04#6 ++ 3#5 ++ 4#5 ++ 0xFFF4#16) = .ok (.addi ⟨3, 4, 0xFFF4⟩) ∧
  sc (0x14#6 ++ 6#5 ++ 4#5 ++ 0xFFF8#16) = .ok (.ldw ⟨6, 4, 0xFFF8⟩) ∧
  sc (0x1B#6 ++ 6#5 ++ 4#5 ++ 8#16) = .ok (.std ⟨6, 4, 8⟩) ∧
  sc (0x21#6 ++ 1#5 ++ 2#5 ++ 0xFFFD#16) = .ok (.bne ⟨1, 2, 0xFFFD⟩) ∧
  sc (0x29#6 ++ 16#26) = .ok (.jal ⟨16⟩) ∧
  sc (0x2C#6 ++ 0x155#26) = .ok (.lrun ⟨0x155⟩) ∧
  sc (0x30#6 ++ 2#5 ++ 4#5 ++ 32#16) = .ok (.bld ⟨2, 4, 32⟩) ∧
  sc (0x02#6 ++ 31#5 ++ 12#5 ++ 0#5 ++ 0x001#11) = .ok (.jalr ⟨31, 12, 0⟩) ∧
  sc (0x02#6 ++ 4#5 ++ 0#5 ++ 16#5 ++ 0x003#11) = .ok (.rdsp ⟨4, 0, 16⟩) ∧
  sc (0x02#6 ++ 0#5 ++ 0#5 ++ 4#3 ++ 2#2 ++ 0x005#11) = .ok (.fence ⟨0, 0, 0x12⟩) ∧
  sc (0x02#6 ++ 8#5 ++ 9#5 ++ 0#5 ++ 0x065#11) = .ok (.lread ⟨8, 9, 0, 0x25⟩) ∧
  sc (0x3E#6 ++ 3#5 ++ 4#5 ++ 5#5 ++ 1#1 ++ 3#3 ++ 0x00#7) = .ok (.tkSpawn ⟨3, 4, 5, true⟩) ∧
  sc (0x3E#6 ++ 3#5 ++ 4#5 ++ 5#5 ++ 0#1 ++ 6#3 ++ 0x10#7) = .ok (.pgMap ⟨3, 4, 5, false⟩) ∧
  la (0x040#10 ++ 7#6 ++ 8#6 ++ 9#6 ++ 10#6 ++ 1#3 ++ 4#4 ++ 2#4 ++ 1#1 ++ 0#1 ++ 3#2 ++ 1#1 ++ 2#2 ++ 8#4 ++ 0x21#8 ++ 0xDEADBEEF#32) =
    .ok (.vadd ⟨7, 8, 9, 10, 1, 4, 2, true, false, 3, true, 2, 8, 0x21, 0xDEADBEEF⟩) ∧
  la (0x008#10 ++ 0#6 ++ 3#6 ++ 0#6 ++ 0#6 ++ 0#3 ++ 0#4 ++ 0#4 ++ 0#1 ++ 1#1 ++ 0#2 ++ 0#1 ++ 0#2 ++ 0#4 ++ 0#8 ++ 0#32) =
    .ok (.mpush ⟨0, 3, 0, 0, 0, 0, 0, false, true, 0, false, 0, 0, 0, 0⟩) ∧
  la (0x0C0#10 ++ 1#6 ++ 2#6 ++ 0#6 ++ 0#6 ++ 0#3 ++ 8#4 ++ 0#4 ++ 0#1 ++ 0#1 ++ 1#2 ++ 0#1 ++ 0#2 ++ 10#4 ++ 0#8 ++ 0#32) =
    .ok (.cvt ⟨1, 2, 0, 0, 0, 8, 0, false, false, 1, false, 0, 10, 0, 0⟩) ∧
  la (0x108#10 ++ 1#6 ++ 2#6 ++ 0#6 ++ 0#6 ++ 0#3 ++ 5#4 ++ 3#4 ++ 0#1 ++ 0#1 ++ 0#2 ++ 0#1 ++ 0#2 ++ 4#4 ++ 0#8 ++ 0#32) =
    .ok (.red ⟨1, 2, 0, 0, 0, 5, 3, false, false, 0, false, 0, 4, 0, 0⟩) ∧
  la (0x200#10 ++ 1#6 ++ 2#6 ++ 3#6 ++ 0#6 ++ 0#3 ++ 6#4 ++ 1#4 ++ 0#1 ++ 0#1 ++ 0#2 ++ 0#1 ++ 0#2 ++ 0#4 ++ 0x05#8 ++ 16#32) =
    .ok (.ld ⟨1, 2, 3, 0, 0, 6, 1, false, false, 0, false, 0, 0, 5, 16⟩) ∧
  mx (0x03#8 ++ 2#3 ++ 1#4 ++ 4#4 ++ 7#4 ++ 8#4 ++ 8#4 ++ 1#2 ++ 2#2 ++ 9#4 ++ 256#12 ++ 8#13) =
    .ok (.mma ⟨2, 1, 4, 7, 8, 8, 1, 2, 9, 256, 8⟩) ∧
  mx (0x09#8 ++ 0#3 ++ 0#4 ++ 0#4 ++ 2#4 ++ 0#4 ++ 0#4 ++ 0#2 ++ 0#2 ++ 0#4 ++ 0#12 ++ 0x1FFE#13) =
    .ok (.mloop ⟨0, 0, 0, 2, 0, 0, 0, 0, 0, 0, 0x1FFE⟩) ∧
  (∃ x, sc 0 = .error x) ∧ (∃ x, sc (0x03#6 ++ 5#26) = .error x) ∧ (∃ x, sc (0x01#6 ++ 0#15 ++ 0x015#11) = .error x) ∧
  (∃ x, sc (0x02#6 ++ 0#10 ++ 0#3 ++ 0#2 ++ 0x005#11) = .error x) ∧ (∃ x, sc (0x3E#6 ++ 0#15 ++ 1#1 ++ 1#3 ++ 0#7) = .error x) ∧
  (∃ x, la (0x004#10 ++ 0#86) = .error x) ∧ (∃ x, mx 0 = .error x) ∧ ∃ x, mx (0x0F#8 ++ 0#56) = .error x

/-- 16:R372, R377, R380. A word that is no instruction: cause 0x0A for the all-zero scalar word and 0x02 for any other, with the word in the
details; a matrix word stops its sequencer, and fails the troupe with cause 0x02. -/
def Obligations.WordsThatAreNoInstructionTrap : Prop :=
  ∀ s : State,
    (∀ t tm w, MayTrap s t tm → ∃ s', exec (.unassignedEncoding (.scalar w)) s = .next s' ∧
      EntersHandler s s' t tm (if w = 0 then 0x0A else 0x02) tm.pc (w.zeroExtend 64) 0) ∧
    (∀ t tm rb w, s.laneTeam = some (t, tm, rb) → tm.mustWait = false → tm.ctrl = none → tm.level = 0 → s.replays tm = false →
      s.frameReached tm = true → ∃ s', exec (.unassignedEncoding (.lane w)) s = .next s' ∧
        EntersHandler s s' t tm.flush 0x02 tm.pc (w.extractLsb' 0 64) ((w.extractLsb' 64 32).zeroExtend 64)) ∧
    (∀ n u q w, s.seqUnit = some (n, u, q) → (s.ctx u.slot).refuted u.launch.hyp = false → q.acquires = false → u.ending = none →
      ∃ s' u' q', exec (.unassignedEncoding (.matrix w)) s = .next s' ∧ s'.unit? n = some u' ∧ u'.seqr = some q' ∧ q'.done = true ∧
        u'.ending = some (.matrix 0x02) ∧ s'.mem = s.mem ∧
        ∀ t tm, s.teams[t]? = some tm → ∃ tm', s'.teams[t]? = some tm' ∧
          tm' = if t ∈ u.teams ∧ tm.state ≠ .exited ∧ tm.kill = none then { tm with kill := some .matrix } else tm)

/-! ## Matrix words -/

/-- 03:R103; 09:R264, R274, R275, R277; 16:R380. Control words of a sequencer: what each writes and where the sequencer goes on; the arrival
and the wait of `MBAR`, an arrival that completes its phase; `MEND`; the acquire that a released wait owes; and the end of a sequencer whose
hypothesis is refuted, also in its wait for a barrier. -/
def Obligations.MatrixControlWordsRun : Prop :=
  ∀ (s : State) (n : Nat) (u : LUnit) (q : Sequencer) (f : MtxF),
    let imm : W64 := BitVec.ofInt 64 f.flg.toInt
    let ctr := NMap.get q.c 0 (f.xr.toNat % 4)
    (SeqIssues s n u q →
      let goes (i : Instr) (q' : Sequencer) : Prop := exec i s = .next (s.setSeq n q')
      goes (.mcnt f) { q with c := NMap.put q.c 0 (f.xr.toNat % 4) f.k, pc := q.pc + 8 } ∧
      (1 < ctr.toNat → goes (.mloop f) { q with c := NMap.put q.c 0 (f.xr.toNat % 4) (ctr - 1), pc := q.pc + imm * 8 }) ∧
      (ctr.toNat ≤ 1 → goes (.mloop f) { q with c := NMap.put q.c 0 (f.xr.toNat % 4) 0, pc := q.pc + 8 }) ∧
      goes (.maddr f) { q with a := NMap.put q.a 0 f.ar.toNat (NMap.get q.a 0 f.br.toNat + imm * NMap.get q.d 0 f.xr.toNat), pc := q.pc + 8 } ∧
      goes (.mdset f) { q with d := NMap.put q.d 0 f.xr.toNat imm, pc := q.pc + 8 } ∧
      goes (.mtol f) { q with te := BitVec.ofNat 6 (f.flg.toNat % 64), pc := q.pc + 8 } ∧
      (let b := f.bar.toNat
       let k := f.flg.toNat % 4
       let bar := u.bar b
       let here := bar.arrived ||| BitVec.ofNat 17 (2 ^ 16)
       let idle := s.seqSettled n u = true
       let awaited := ∃ j, j < 16 ∧ bar.members.getLsbD j = true ∧ (s.livingMembers u).getLsbD j = true ∧ here.getLsbD j = false
       let arrives (q' : Sequencer) : Prop := ∃ s' u', exec (.mbar f) s = .next s' ∧ s'.units = s.units.set n u' ∧ s'.teams = s.teams ∧
         s'.mem = s.mem ∧ (u'.bar b).arrived = here ∧ (u'.bar b).phase = bar.phase ∧ u'.seqr = some q'
       let dirty := s.dirtyTiles (s.leaderCore u) = true
       let back : State := s.releaseTiles (s.seqTags n u) (s.leaderCore u)
       (dirty → (k < 2 → exec (.mbar f) s = .next back) ∧ exec (.mend f) s = .next back) ∧
       (k < 2 → ¬idle → ¬dirty → exec (.mbar f) s = .next s) ∧
       (k < 2 → idle → bar.arrived.getLsbD 16 = true → goes (.mbar f) { q with acquires := true, wait := some (b, bar.phase) }) ∧
       (k = 1 → idle → bar.arrived.getLsbD 16 = false → awaited → arrives { q with pc := q.pc + 8 }) ∧
       (k = 1 → idle → bar.arrived.getLsbD 16 = false → ¬awaited → ∃ s' u', exec (.mbar f) s = .next s' ∧ s'.unit? n = some u' ∧
         (u'.bar b).arrived = 0 ∧ (u'.bar b).phase = bar.phase + 1 ∧ (u'.bar b).members = bar.members ∧ s'.mem = s.mem) ∧
       (k = 0 → idle → bar.arrived.getLsbD 16 = false → awaited →
         arrives { q with pc := q.pc + 8, acquires := true, wait := some (b, bar.phase) }) ∧
       (k = 2 → goes (.mbar f) { q with pc := q.pc + 8, acquires := true,
                                        wait := if bar.arrived.getLsbD 16 then some (b, bar.phase) else none }) ∧
       (k = 3 → ∃ s' u' q', exec (.mbar f) s = .next s' ∧ s'.unit? n = some u' ∧ u'.seqr = some q' ∧ q'.done = true ∧
         u'.ending = some (.matrix 0x03)) ∧
       (¬idle → ¬dirty → exec (.mend f) s = .next s) ∧
       (idle → ∃ s' q', exec (.mend f) s = .next s' ∧ s'.seqOf n = some q' ∧ q'.done = true ∧ q'.held = none ∧ s'.mem = s.mem ∧
         s'.acc = s.acc))) ∧
    (s.seqUnit = some (n, u, q) → (s.ctx u.slot).refuted u.launch.hyp = false → q.acquires = true →
      exec (.mdset f) s = .next ((s.dropL1 (s.leaderCore u)).setSeq n
        { q with acquires := false, d := NMap.put q.d 0 f.xr.toNat imm, pc := q.pc + 8 })) ∧
    (s.seqUnit = some (n, u, q) → (s.ctx u.slot).refuted u.launch.hyp = true →
      ∃ s' u' q', exec (.mdset f) s = .next s' ∧ s'.unit? n = some u' ∧ u'.seqr = some q' ∧ q'.done = true ∧ q'.wait = none ∧ q'.d = q.d ∧
        u'.ending = some .refuted)

/-- 09:R264, R268 to R273; 11:R337; 16:R380. Pass words capture their registers and are posted, while fewer than 8 passes of the troupe are;
a word whose form is not accepted fails the troupe with cause 0x03. -/
def Obligations.PassWordsArePostedWithTheirRegisters : Prop :=
  ∀ (s : State) (n : Nat) (u : LUnit) (q : Sequencer) (f : MtxF), SeqIssues s n u q →
    let a (k : Nat) := NMap.get q.a 0 (k % 16)
    let d (k : Nat) := NMap.get q.d 0 (k % 16)
    let x := f.xr.toNat
    let pass (k : PassKind) : Pass := ⟨n, k, f, a f.ar.toNat, d f.ar.toNat, a f.br.toNat, d f.br.toNat, a x, d x, a (x + 1), d (x + 1),
      s.islandClock (4 * u.cluster), 0, 0, false, [], 0, 0, false, none⟩
    let posts (i : Instr) (k : PassKind) : Prop :=
      ((s.unitPasses n u).length < 8 → exec i s = .next ((s.setCluster u.cluster
        { s.cluster u.cluster with table := (s.cluster u.cluster).table ++ [pass k] }).setSeq n { q with pc := q.pc + 8 })) ∧
      (8 ≤ (s.unitPasses n u).length → exec i s = .next s)
    let fails (i : Instr) (c : Nat) : Prop := ∃ s' u' q', exec i s = .next s' ∧ s'.unit? n = some u' ∧ u'.seqr = some q' ∧ q'.done = true ∧
      u'.ending = some (.matrix c) ∧ s'.mem = s.mem ∧ s'.acc = s.acc ∧ s'.clusters = s.clusters
    (s.mmaOk n u q f = true → s.operandsCause u (pass .mma).ranges = none → posts (.mma f) .mma) ∧
    (s.mmaOk n u q f = false → fails (.mma f) 0x03) ∧
    (f.k = 0 → fails (.mma f) 0x03 ∧ fails (.mldb f) 0x03) ∧
    (pairOk f.ta.toNat f.tb.toNat = true → ¬(f.ta = 13 ∧ f.tb = 13) → f.flg.getLsbD 0 = false → f.acc.toNat < u.acc.length →
      (∀ v, v < 128 → (a f.ar.toNat + BitVec.ofNat 64 v * d f.ar.toNat).toNat % 16 = 0) →
      s.operandsCause u (vecRanges f.ta.toNat f.k.toNat (a f.ar.toNat) (d f.ar.toNat) ++ [(a x, 32)]) = none → posts (.msp f) .msp) ∧
    (f.tb.toNat ∈ [0, 1, 8, 9, 11, 12, 13] → f.k ≠ 0 → (f.tb = 13 → f.k.toNat ≤ 128) →
      (∀ v, v < 128 → (a f.br.toNat + BitVec.ofNat 64 v * d f.br.toNat).toNat % 16 = 0) →
      s.operandsCause u (vecRanges f.tb.toNat f.k.toNat (a f.br.toNat) (d f.br.toNat)) = none → posts (.mldb f) .mldb)

/-- 09:R262, R264, R271, R273. `MZERO`, `MSCACC`, `MACLD` and `MACST`: the cells or the bytes that each writes, and those it leaves alone; of
rows of `MACST` that overlap the later stands. The rows of the moves lie in the leader's scratchpad here; elsewhere their accesses are those of every operand. -/
def Obligations.AccumulatorWordsMoveTheirCells : Prop :=
  ∀ (s : State) (n : Nat) (u : LUnit) (q : Sequencer) (f : MtxF), SeqIssues s n u q →
    let k := f.acc.toNat
    let cols := f.flg.toNat / 4 % 128 + 1
    let x := f.xr.toNat
    let a (j : Nat) := NMap.get q.a 0 (j % 16)
    let d (j : Nat) := NMap.get q.d 0 (j % 16)
    let row (i : Nat) : W64 := a f.ar.toNat + BitVec.ofNat 64 i * d f.ar.toNat
    let pad (i : Nat) : Nat := 2 ^ 56 + s.leaderCore u * 2 ^ 19 + (row i).toNat % 2 ^ 19
    let local_ (size : Nat) : Prop := ∀ i, i < f.k.toNat → (row i).toNat / 2 ^ 56 = 0xFD ∧
      (s.leader u).map (·.tag) = some ((row i).toNat / 2 ^ 48 % 256) ∧ (row i).toNat % 2 ^ 19 + size ≤ 2 ^ 19
    let onward (s' : State) : Prop := s'.seqOf n = some { q with row := 0, pc := q.pc + 8 } ∧ s'.teams = s.teams
    let others (s' : State) (mine : Nat → Nat → Prop) : Prop :=
      ∀ j, (∀ i c, mine i c → j ≠ u.accKey k i c) → NMap.get s'.acc 0 j = NMap.get s.acc 0 j
    k < u.acc.length → s.busySlot n u f.acc = false →
      (q.row = 0 → ∃ s', exec (.mzero f) s = .next s' ∧ onward s' ∧ s'.mem = s.mem ∧ (∀ i j, i < 128 → j < 128 → s'.cell u k i j = 0) ∧
        others s' fun i j => i < 128 ∧ j < 128) ∧
      (∀ s1 l, s.busyPartial n u (f.flg.getLsbD 1) = false →
        State.seqLoads n (2 ^ 24) (((List.range 128).map fun v => (a x + BitVec.ofNat 64 v * d x, 1)) ++
          (List.range 128).map fun v => (a (x + 1) + BitVec.ofNat 64 v * d (x + 1), 1)) s = .ok (s1, l) →
        ∃ s', exec (.mscacc f) s = .next s' ∧ s'.mem = s1.mem ∧
          (∀ i j, i < 128 → j < 128 → s'.cell u k i j = BitVec.ofNat 32 (mscaccCell (f.flg.getLsbD 2) i j
            (NMap.get (if f.flg.getLsbD 1 then q.p1 else q.p0) 0 (128 * i + j)).toNat (leNat (l.getD i []) % 64)
            (leNat (l.getD (128 + j) []) % 64) (s.cell u k i j).toNat)) ∧
          others s' fun i j => i < 128 ∧ j < 128) ∧
      (q.row = 0 → 1 ≤ f.k.toNat → f.k.toNat ≤ 128 → f.flg.toNat % 4 = 0 → local_ (4 * cols) →
        ∃ s', exec (.macld f) s = .next s' ∧ s'.mem = s.mem ∧ s'.teams = s.teams ∧ s'.seqOf n = some { q with pc := q.pc + 8 } ∧
          (∀ i j, i < f.k.toNat → j < cols → s'.cell u k i j = BitVec.ofNat 32 (leNat (s.bytes (pad i + 4 * j) 4))) ∧
          others s' fun i j => i < f.k.toNat ∧ j < cols) ∧
      (q.row = 0 → 1 ≤ f.k.toNat → f.k.toNat ≤ 128 → f.flg.toNat % 4 < 3 →
        s.mayStore (dieOfCore (s.leaderCore u)) (2 * f.k.toNat * cols) = true →
        let size := if f.flg.toNat % 4 = 0 then 4 else 2
        local_ (size * cols) →
        ∃ s', exec (.macst f) s = .next s' ∧ s'.teams = s.teams ∧ s'.acc = s.acc ∧ s'.seqOf n = some { q with pc := q.pc + 8 } ∧
          (∀ i j, i < f.k.toNat → j < cols →
            (∀ i', i < i' → i' < f.k.toNat → pad i + size * cols ≤ pad i' ∨ pad i' + size * cols ≤ pad i) →
            s'.bytes (pad i + size * j) size =
              let c := (s.cell u k i j).toNat
              if f.flg.toNat % 4 = 0 then leBytes 4 c
              else leBytes 2 (convert (if f.flg.toNat % 4 = 1 then 9 else 8) 10 0 false c)) ∧
          ∀ j, (∀ i, i < f.k.toNat → j < pad i ∨ pad i + size * cols ≤ j) → s'.byte j = s.byte j)

/-! ## Events -/

/-- 02:R36, R44, R46, R50; 11:R324 to R329; 12:R354, R358; 16:R382; 17:R411. The dispatchers: a head entry that fits starts its teams and leaves
its queue; one that is no launch leaves it; one that fits nowhere gets a unit kept for it, and later an event; how long it has waited is noted;
and entries come in from the host port, from a vent area, from those held, and with a new segment, each with its 16 bytes at its place. The places
of entries, which of several queues goes first, which unit is kept, when a record is read and which numbers a launch takes are the model's choice
(log 15, log 59, log 63, log 71, log 54). -/
def Obligations.PlacementEventsStartTeamsAndServeQueues : Prop :=
  ∀ (s : State) (n : Nat) (q : Queue), NMap.find? s.queues n = some q →
    let queue (s' : State) (P : Queue → Prop) : Prop := ∃ q' : Queue, NMap.find? s'.queues n = some q' ∧ P q'
    (∀ k p e, s.partOfQueue n = some (k, p) → s.headEntry q = some e →
      (∀ die cores l b, s.turn = .event (.dispatchPlace die n cores) → s.mayServe die n q = true → s.parse q.slot e = .launch l →
        (s.ctx q.slot).refuted l.hyp = false → p.audit = none → covers (s.vc die) e.stamp = true → dieOfCore (cores.headD 0) = die →
        s.assignmentOk p (startOf n q e l) cores = true → s.takeBlocks p q.slot cores = some b →
        ∃ (s' : State) (new : List Team) (u : LUnit), exec .dispatchPlace s = .next s' ∧ s'.teams = s.teams ++ new ∧ new.length = cores.length ∧ s'.units = s.units ++ [u] ∧
          u.launch = l ∧ u.queue = n ∧ u.seq = e.seq ∧ u.slot = q.slot ∧ u.complete = false ∧
          u.teams = (List.range cores.length).map (s.teams.length + ·) ∧ queue s' (fun q' => q'.entries = q.entries.tail) ∧
          ∀ (i : Nat) (tm : Team), new[i]? = some tm → tm.state = .ready ∧ tm.teamid = i ∧ cores[i]? = some tm.core ∧ tm.tag = tm.core ∧
            tm.unit = s.units.length ∧ tm.slot = q.slot ∧ tm.hyp = l.hyp ∧ tm.prio = l.prio ∧ tm.arg = l.arg ∧ tm.tile = l.tile ∧
            tm.level = 0 ∧ tm.sticky = 0 ∧ tm.stack = [] ∧ (∀ r, tm.rd r = 0) ∧ (∀ j r, tm.lreg j r = 0) ∧
            ∃ r, l.teamRoles[i]? = some (tm.role, r) ∧ tm.pc = r.entry ∧ tm.laneBase = r.base ∧ tm.lanes = r.lanes ∧ tm.budget = r.budget) ∧
      (∀ die cores c, s.turn = .event (.dispatchPlace die n cores) → s.mayServe die n q = true → s.parse q.slot e = .bad c none →
        ∃ s' : State, exec .dispatchPlace s = .next s' ∧ s'.teams = s.teams ∧ s'.units = s.units ∧ queue s' fun q' => q'.entries = q.entries.tail) ∧
      (∀ unit l, s.turn = .event (.placementUnitReserve n unit) → s.parse q.slot e = .launch l → q.enabled = true → s.headStuck n q = true →
        q.headSince + 2100 ≤ s.clock → s.unitOk p l.cast unit = true → (∀ r ∈ s.reserved, r.queue ≠ n) →
        (∀ x ∈ s.queues, x.2.entries = [] ∨ x.2.prio ≤ q.prio) →
        exec .placementUnitReserve s = .next { s with reserved := s.reserved ++ [⟨unit, n⟩] }) ∧
      (∀ r l c, s.turn = .event (.placementResourceWaitEvent n r) → s.parse q.slot e = .launch l →
        NMap.find? q.shortSince (resourceNo r) = some c → c + 2 ^ 24 ≤ s.clock → resourceNo r ∉ q.told →
        (∀ d, d < 4 → p.hasDie d = true → s.short p q.slot d l.charges.length r = true) →
        exec .placementResourceWaitEvent s =
          .next ((s.setQueue n { q with told := q.told ++ [resourceNo r] }).post (.resourceWait k n e.seq r)))) ∧
    (q.entries ≠ [] → (s.noteHead n q).headSince = (if s.headStuck n q then q.headSince else s.clock) ∧
      ∀ r, NMap.find? (s.noteHead n q).shortSince (resourceNo r) =
        if s.headShort n q r then some ((NMap.find? q.shortSince (resourceNo r)).getD s.clock) else none) ∧
    (∀ fn size lo hi p, s.turn = .event (.hostEnqueuePortWrite fn n size lo hi) → 1 ≤ fn → NMap.find? s.parts (fn - 1) = some p →
      (size = 16 → n ∈ p.queues → q.held = [] → s.entryReady 0 q = true → q.sx20 = false → q.vent = [] → q.entries.length < 2 ^ q.log2 →
        let x : QEntry := ⟨lo, hi, q.next, none, q.ring.toNat + 16 * (q.next.toNat % 2 ^ q.log2), s.vc 0⟩
        ∃ s' : State, exec .hostEnqueuePortWrite s = .next s' ∧ s'.teams = s.teams ∧ s'.mem = (s.writeEntry q x).mem ∧ queue s' fun q' =>
          q'.entries = q.entries ++ [x] ∧ q'.next = q.next + 1) ∧
      ((size ≠ 16 ∨ n ∉ p.queues) → ∃ s' : State, exec .hostEnqueuePortWrite s = .next s' ∧ s'.queues = s.queues ∧
        NMap.get s'.port.portDisc 0 fn = NMap.get s.port.portDisc 0 fn + 1)) ∧
    (∀ (x : QEntry) (p : Place), s.hwPlaces q.slot (BitVec.ofNat 64 x.place) 16 16 true = some [p] → p.remote = false →
      s.homeCheck (s.wordTags (s.queueTags q) p) p.key = none → s.sealedFor (s.wordTags (s.queueTags q) p) = false →
      s.poisoned p.key 16 = false → (∀ i, i < 16 → s.readOnlyByte (p.key + i) = false) →
      (s.writeEntry q x).bytes p.key 16 = leBytes 8 x.record.toNat ++ leBytes 8 x.kind.toNat) ∧
    (∀ e r, s.turn = .event (.queueVentDrain n) → q.vent = e :: r → q.sx20 = false → q.entries.length < 2 ^ q.log2 → s.hwRoom = true →
      ∃ s' : State, exec .queueVentDrain s = .next s' ∧ queue s' fun q' => q'.vent = r ∧
        q'.entries = q.entries ++ [{ s.readEntry q e with place := q.ring.toNat + 16 * (e.seq.toNat % 2 ^ q.log2) }]) ∧
    (∀ e r, s.turn = .event (.heldEntryEntersVent n) → q.held = e :: r → q.sx20 = false → q.vent = [] → q.entries.length < 2 ^ q.log2 →
      s.hwRoom = true →
      ∃ s' : State, exec .heldEntryEntersVent s = .next s' ∧ queue s' fun q' =>
        q'.entries = q.entries ++ [⟨e.record, e.kind, e.seq, none, q.ring.toNat + 16 * (e.seq.toNat % 2 ^ q.log2), e.stamp⟩] ∧
        q'.held = r ∧ q'.next = q.next) ∧
    (∀ seg pl, s.turn = .event (.segmentOverflowComplete n seg) → q.sx20 = true → q.held ≠ [] → seg ≠ 0 → s.hwRoom 514 = true →
      s.hwPlaces q.slot (q.tailSeg + 0xFF0) 8 8 true = some pl →
      ∃ s' : State, exec .segmentOverflowComplete s = .next s' ∧
        queue s' (fun q' => q'.entries = q.entries ++ ((q.held.take 255).mapIdx fun i e => { e with place := seg.toNat + 16 * i }) ∧ q'.held = q.held.drop 255 ∧ q'.tailSeg = seg) ∧
        ∀ t tm, q.suspended = some t → s.teams[t]? = some tm → tm.wait = some (.spawn n) → ∃ tm' : Team, s'.teams[t]? = some tm' ∧
          tm'.wait = none ∧ tm'.pc = tm.pc + 4 ∧ (tm.state = .blocked → tm'.state = .ready))

/-- 02:R50, R51; 15:R363, R365; 16:R380, R382; 17:R409; 19:R417 to R419, R421, R422, R425. The ends of units: a completion frees what the unit
holds and resolves or fails its future, or decrements its counter; an audit compares signatures; a unit that consumed poison is killed and
relaunched; and a failure record takes an entry. Which bytes a replay signs is the model's choice (log 26). -/
def Obligations.UnitsCompleteFailOrAreRelaunched : Prop :=
  ∀ (s : State) (n : Nat) (u : LUnit), s.unit? n = some u →
    (s.turn = .event (.taskComplete n) → s.ended u = true → u.replay = none → u.poisoned = false → u.audit = none → s.unitDirty u = none →
      ((∀ e, s.endingOf u = some e → e ≠ .context ∧ e ≠ .poison) → s.releasedAll n u = true →
        let code := (s.endingOf u).map Ending.code
        ∃ (s1 : State) (u1 : LUnit), s.freeUnit n u = some s1 ∧ s1.unit? n = some u1 ∧ u1.complete = true ∧
          let s2 := match code with
            | some c => s1.failUnitEntry u c 3 u.launch.addr.toNat 0
            | none => s1
          exec .taskComplete s = .next (
            if u.launch.future then s2.hwResolve (s.unitTags n u) u.launch.completion code.isSome (code.getD u.exitVal.toNat)
            else s2.hwDecrement (s.unitTags n u) u.launch.completion)) ∧
      (s.endingOf u = some .context → ∀ s1, s.freeUnit n u = some s1 →
        exec .taskComplete s = .next (s1.failUnitEntry u 0x521 2 u.launch.addr.toNat 0))) ∧
    (∀ c, Ending.code (.levelTwo c) = 0x200 + c ∧ Ending.code (.matrix c) = 0x100 + c ∧ Ending.code .refuted = 2) ∧
    (∀ k a o, s.turn = .event (.auditReplayComplete k) → s.audits[k]? = some a → s.unit? a.unit = some o → a.replay = some n →
      a.closed = false → u.ending = none →
      let sig := crc64 (s.shadowBuffer u a)
      (a.lost = false → s.unitOver u = true → u.poisoned = false → s.hasCopies n = false → ∀ s1, s.closeAudit k a n u = some s1 →
        (sig = a.sig → exec .auditReplayComplete s = .next s1) ∧
        (sig ≠ a.sig → ∃ s' : State, exec .auditReplayComplete s = .next s' ∧ (s'.cluster u.cluster).quarantined = true ∧
          (s'.cluster o.cluster).quarantined = true)) ∧
      (a.lost = true → ∀ s1, (s.stopTeams u).closeAudit k a n u = some s1 →
        exec .auditReplayComplete s = .next (s1.recordFailure o.queue ⟨0x551, 7, o.attempt, o.troupe, o.launch.addr.toNat, a.sig.toNat, sig.toNat⟩))) ∧
    (s.turn = .event (.poisonConsumed n) → u.poisoned = true → u.complete = false →
      (u.ending = none → ∃ s' : State, exec .poisonConsumed s = .next s' ∧ s'.unit? n = some { u with ending := some .poison } ∧
        ∀ t ∈ u.teams, ∀ tm, s'.teams[t]? = some tm → tm.state ≠ .exited → tm.kill.isSome = true) ∧
      (∀ q, u.ending = some .poison → u.replay = none → s.unitOver u = true → s.unitDirty u = none → s.unitPerformed n u = true →
        s.copiesOf n = [] → s.failReady u [] = true → ((s.ctx u.slot).freeBlockPages u.blocks).isSome = true →
        NMap.find? s.queues u.queue = some q → u.launch.idempotent = true → u.launch.hyp = 0 → u.attempt < 2 →
        ∃ (s' : State) (q' : Queue) (e : QEntry), exec .poisonConsumed s = .next s' ∧ NMap.find? s'.queues u.queue = some q' ∧ q'.entries = e :: q.entries ∧
          e.record = u.launch.addr ∧ e.seq = u.seq ∧ e.relaunch = some (u.launch, u.attempt + 1, u.cluster) ∧
          ∃ u' : LUnit, s'.unit? n = some u' ∧ u'.complete = true)) ∧
    (∀ q k p e, s.partOfQueue q = some (k, p) →
      let base := p.failBase + 2048 * q
      let w := leNat (s.bytes base 4)
      let r := leNat (s.bytes (base + 8) 4)
      let s' := s.recordFailure q e
      ((w + 2 ^ 32 - r) % 2 ^ 32 < 62 →
        s'.bytes (base + 0x40 + 32 * (w % 62)) 32 = e.bytes ∧ leNat (s'.bytes base 4) = (w + 1) % 2 ^ 32 ∧ s'.posts = s.posts ++ [.failure k q] ∧
        ∀ j, (j < base ∨ base + 4 ≤ j) → (j < base + 0x40 + 32 * (w % 62) ∨ base + 0x60 + 32 * (w % 62) ≤ j) → s'.byte j = s.byte j) ∧
      (62 ≤ (w + 2 ^ 32 - r) % 2 ^ 32 → leNat (s'.bytes (base + 4) 4) = (leNat (s.bytes (base + 4) 4) + 1) % 2 ^ 32 ∧
        ∀ j, (j < base + 4 ∨ base + 8 ≤ j) → s'.byte j = s.byte j))

/-- 02:R38, R52, R53; 05:R139, R150; 08:R250; 11:R332 to R334, R338. The issue hardware: slots, runs and intervals, lane blocks, the results
of long-latency words, the ends of waits in the green room and in circular buffers, and replies. In which parts and order results are written is free
(log 20). -/
def Obligations.IssueEventsMoveSlotsBlocksAndResults : Prop :=
  ∀ (s : State) (t : Nat) (tm : Team), s.teams[t]? = some tm →
    let gives (i : Instr) (tm' : Team) : Prop := exec i s = .next (s.setTeam t tm')
    (∀ c k, s.turn = .event (.slotGrant c k t) → tm.core = c → s.slotOpen c k = true → tm.asksSlot = true → s.gated c = false →
      s.moving t = false → s.heads tm = true →
      gives .slotGrant { tm with holding := some k, wait := none, state := if tm.state = .ready then .running else tm.state,
                                 run := tm.run.map fun r => { r with words := 0, passes := 0 } }) ∧
    (∀ r, s.turn = .event (.passCapReached t) → tm.run = some r → tm.holding.isSome = true → r.ended = false → 1024 ≤ r.passes →
      ∃ tm' : Team, gives .passCapReached tm' ∧ tm'.holding = none ∧ tm'.run = some { r with words := 0, passes := 0 } ∧ tm'.pending = tm.pending ∧
        (tm.state = .running → tm'.state = .ready)) ∧
    (∀ c, s.turn = .event (.issueIntervalEnd c) → (s.core c).interval + 65536 ≤ s.islandClock c →
      exec .issueIntervalEnd s = .next (s.setCore c { s.core c with usage := [], interval := (s.core c).interval + 65536 })) ∧
    (∀ b r, s.turn = .event (.laneBlockStart t) → tm.queue = b :: r → tm.run = none → tm.pending = [] → tm.live = true → tm.kill = none →
      s.moving t = false → s.gated tm.core = false → ∃ tm' : Team, gives .laneBlockStart tm' ∧ tm'.queue = r ∧
        tm'.run = some ⟨{ b with reseed := none }, b.start, none, false, 0, 0⟩ ∧
        tm'.v = tm.v ∧ tm'.s = tm.s ∧ (b.reseed = none → tm'.rnd = tm.rnd) ∧ ∀ x, b.reseed = some x → tm'.rnd = rndAll x tm.lanes) ∧
    (∀ r, s.turn = .event (.laneBlockComplete t) → tm.run = some r → r.ended = true → tm.pending = [] →
      gives .laneBlockComplete { tm with run := none }) ∧
    (∀ i sel p, s.turn = .event (.longLatencyResult t i sel) → tm.pending[i]? = some p → (tm.state = .parked → p.miss = false) →
      (p.resp = true → s.oldInc tm = true → exec .longLatencyResult s = .next ((s.countDrop tm.slot 0).setTeam t
        { tm with pending := tm.pending.eraseIdx i })) ∧
      ((p.resp = true → s.oldInc tm = false) →
        (∀ w r, sel = 1 → p.writes = w :: r → r ≠ [] →
          gives .longLatencyResult { tm.putPart w with pending := tm.pending.set i { p with writes := r } }) ∧
        (∀ w, sel = 0 → p.writes = [w] → w.lo = 0 → w.width = 64 → ∃ tm' : Team, gives .longLatencyResult tm' ∧
          tm'.pending = tm.pending.eraseIdx i ∧ tm'.lreg w.lane w.reg = w.val ∧
          ∀ l k, 64 * l + k ≠ 64 * w.lane + w.reg → tm'.lreg l k = tm.lreg l k))) ∧
    (s.turn = .event (.greenRoomWake t) → tm.state = .parked → ∃ (s' : State) (tm' : Team), exec .greenRoomWake s = .next s' ∧ s'.teams = s.teams.set t tm' ∧
      tm'.state = .ready ∧ tm'.pending = tm.pending.filter (fun p => !p.miss) ∧ tm'.since = s.clock ∧
      tm'.v = (if s.oldInc tm then tm else tm.putParts ((tm.pending.filter (·.miss)).flatMap (·.writes))).v ∧
      t ∉ (s'.cluster (clusterOfCore tm.core)).green) ∧
    (∀ rb f op l key r, s.turn = .event (.cbWaitWake t) → tm.wait = some .cb → tm.state = .blocked → tm.kill = none → tm.run = some rb →
      s.gated tm.core = false → s.moving t = false → s.cbWord? tm rb = some (f, op) →
      let tm1 : Team := { tm with wait := none, state := .ready, since := s.clock }
      let e := laneEnv s t tm1 rb f
      e.active.head? = some l → s.cbCopying tm l (e.b64 l) = false → s.cbKey tm l (e.b64 l) = .ok key → op (s.cbRead key) = some r →
        ∃ (s' : State) (tm' : Team), exec .cbWaitWake s = .next s' ∧ s'.teams = s.teams.set t tm' ∧ tm'.wait = none ∧ tm'.state = .ready ∧ tm'.s = tm.s ∧
          (∀ j ∈ e.active, tm'.lreg j e.vd = (s.cbRead key).slotPtr (e.b64 l) r.2) ∧
          (s'.cbRead key).free = r.1.free % 256 ∧ (s'.cbRead key).filled = r.1.filled % 256) ∧
    (∀ d v, s.turn = .event (.engineReplyArrival t) → tm.reply = some (d, v) → (∀ n, tm.wait ≠ some (.spawn n)) →
      ((tm.ctrl.isSome = true ∨ tm.inc = (s.ctx tm.slot).inc) → gives .engineReplyArrival { tm.wr d v with reply := none }) ∧
      (tm.ctrl = none → tm.inc ≠ (s.ctx tm.slot).inc → exec .engineReplyArrival s = .next ((s.countDrop tm.slot 0).setTeam t
        { tm with reply := none, lost := true })))

/-- 02:R51, R54, R55, R57; 10:R316; 11:R339 to R341; 16:R385 to R389; 17:R405, R407. Kills at kill points; eviction, deadlines and restores; and
migration, with the copy of the footprint and the end of forwarding. Which cores take a team, what a footprint is when a restore joins two copies of
it, and what a restored wait does are the model's choice (log 61, log 62, log 73, log 77). -/
def Obligations.TeamsAreKilledEvictedRestoredAndMoved : Prop :=
  ∀ (s : State) (t : Nat) (tm : Team), s.teams[t]? = some tm →
    let keeps (tm' : Team) : Prop := tm'.s = tm.s ∧ tm'.v = tm.v ∧ tm'.m = tm.m ∧ tm'.stack = tm.stack ∧ tm'.b = tm.b ∧ tm'.pc = tm.pc ∧
      tm'.queue = tm.queue ∧ tm'.run = tm.run ∧ tm'.sticky = tm.sticky ∧ tm'.tag = tm.tag
    let copied (s' : State) (old new n : Nat) : Prop := ∀ i, i < n → s'.byte (2 ^ 56 + new * 2 ^ 19 + i) = s.byte (2 ^ 56 + old * 2 ^ 19 + i)
    (∀ k, s.turn = .event (.killAtKillPoint t) → tm.kill = some k → tm.atKillPoint = true →
      ∃ (s' : State) (tm' : Team), exec .killAtKillPoint s = .next s' ∧ s'.teams[t]? = some tm' ∧ tm'.state = .exited ∧ tm'.holding = none ∧ tm'.queue = [] ∧
        tm'.run = none ∧ s'.mem = s.mem) ∧
    ((tm.state = .blocked ∨ tm.state = .parked ∨ tm.state = .evicted) → tm.atKillPoint = true) ∧
    (s.turn = .event (.teamEvict t) → tm.forced = false → s.gated tm.core = false →
      (s.chosen t tm = true → s.released t tm.core 4 = true →
        ∃ tm' : Team, exec .teamEvict s = .next (s.setTeam t tm') ∧ tm'.state = .evicted ∧ tm'.holding = none ∧ tm'.deadline = none ∧ keeps tm' ∧
          (tm.state = .blocked → tm'.wait = tm.wait) ∧ (tm.state = .ready → tm'.wait = none)) ∧
      (s.chosen t tm = false → s.victims tm.core = [] → s.mustYield tm = true → s.lowest tm = true → tm.ctrl = none → tm.deadline = none →
        tm.expired = false → s.poolRoom tm = true → (tm.state = .ready ∨ tm.state = .running ∨ tm.state = .parked) →
        exec .teamEvict s = .next (s.setTeam t { tm with deadline := some (s.islandClock tm.core + 262144) }))) ∧
    (s.turn = .event (.teamEvict t) → tm.expired = true → tm.sxWait = false → tm.state = .ready → tm.holding = none → s.gated tm.core = false →
      (s.mustYield tm = true → s.savable t tm = true → s.released t tm.core 4 = true →
        ∃ tm' : Team, exec .teamEvict s = .next (s.setTeam t tm') ∧ tm'.state = .evicted ∧ tm'.wait = none ∧ keeps tm') ∧
      (s.mustYield tm = false → exec .teamEvict s = .next (s.setTeam t { tm with expired := false }))) ∧
    (tm.expired = true → tm.sxWait = false → tm.state = .ready → tm.holding = none → ∀ x, s.scalarTeam ≠ some (t, x)) ∧
    (∀ d, s.turn = .event (.yieldDeadlineExpiry t) → tm.deadline = some d → d ≤ s.islandClock tm.core →
      exec .yieldDeadlineExpiry s = .next (s.setTeam t { tm with deadline := none, expired := true })) ∧
    (∀ u : LUnit, s.unit? tm.unit = some u →
      (∀ c, s.turn = .event (.teamRestore t c) → s.recalled t tm = true → s.restoreOk tm u c = true → s.mayAcquire { tm with core := c } 4 = true →
        ∃ (s' : State) (tm' : Team), exec .teamRestore s = .next s' ∧ s'.teams = s.teams.set t tm' ∧ tm'.core = c ∧ keeps tm' ∧ tm'.acquired = s.tick + 1 ∧
          tm'.state = .ready ∧ tm'.wait = none ∧ (∀ n phase, tm.wait = some (.barWait n phase) → tm'.rewait = some (n, phase)) ∧
          (c = tm.core → s'.mem = s.mem) ∧
          (c ≠ tm.core → c ∉ u.cores → copied s' tm.core c u.launch.scratch) ∧
          (c ≠ tm.core → ∀ i, i < u.launch.scratch → s.byte (2 ^ 56 + c * 2 ^ 19 + i) = s.byte (2 ^ 56 + tm.core * 2 ^ 19 + i) →
            s'.byte (2 ^ 56 + c * 2 ^ 19 + i) = s.byte (2 ^ 56 + c * 2 ^ 19 + i))) ∧
      (∀ c, s.turn = .event (.teamMigrate t c) → s.mayMove t tm = true → s.inReach tm u c = true → s.openCore c = true → c ≠ tm.core →
        c ∉ u.cores → s.roomOn c [chargeOf tm.lanes tm.budget] = true → s.padUsed c + u.launch.scratch ≤ 2 ^ 19 →
        s.holdsWalk tm.unit = false → s.gated tm.core = false → s.gated c = false → s.aheadOn t tm c < s.aheadOn t tm tm.core →
        s.seqFits tm u c = true → s.tokensMove u c = true → s.released t tm.core 4 = true →
        ∃ (s' : State) (tm' : Team), exec .teamMigrate s = .next s' ∧ s'.teams = s.teams.set t tm' ∧ tm'.core = c ∧ keeps tm' ∧ tm'.state = .blocked ∧
          (⟨t, tm.core, c, true, [], none, false⟩ : Migration) ∈ s'.migrations ∧ s'.moving t = true ∧ s'.mem = s.mem ∧
          s'.unit? tm.unit = some { u with cores := u.cores ++ [c], cluster := c / 4, island := c / 16 }) ∧
      (∀ m, s.turn = .event (.migrationCopyComplete t) → s.migrations.find? (fun x => x.team = t && x.copying) = some m → m.waiting = [] →
        s.mayAcquire tm 4 = true → s.gated m.new = false → ∃ s' : State, exec .migrationCopyComplete s = .next s' ∧ copied s' m.old m.new u.launch.scratch ∧
          s'.teams = s.teams.set t { tm with acquired := s.tick + 1 } ∧
          s'.migrations = s.migrations.map fun x => if x = m then { m with copying := false } else x)) ∧
    (s.turn = .event (.migrationForwardEnd t) → ∃ s' : State, exec .migrationForwardEnd s = .next s' ∧ s'.migrations = s.migrations.map fun m =>
      if m.team = t ∧ m.copying = false ∧ (m.firstPass.map fun f => decide (f + 4096 ≤ s.islandClock m.new)) = some true then { m with ended := true } else m) ∧
    (∀ i m, s.turn = .event (.lateFootprintMessage i) → s.late[i]? = some m → ∃ s' : State, exec .lateFootprintMessage s = .next s' ∧
      s'.late = s.late.eraseIdx i ∧ s'.mem = s.mem ∧ NMap.get s'.drops 0 (6 * m.slot + 4) = NMap.get s.drops 0 (6 * m.slot + 4) + 1)

/-- 09:R268 to R270, R276, R279 to R285; 11:R337, R343; 16:R381, R441; 17:R391, R394, R397, R398. Page faults that are delivered; copy-engine entries
that start, stall and complete; passes that are granted and complete; and the sum of a group of integer products. How far an entry moves at a start,
and how many rows a granted pass forms, are the model's choice (log 48, log 18). -/
def Obligations.FaultsAreDeliveredAndEnginesMove : Prop :=
  ∀ s : State,
    (∀ c i e tm, s.turn = .event (.faultCollectExpiry c i) → (s.cluster c).faults[i]? = some e → s.teams[e.opener]? = some tm →
      e.taken = false → e.t0 + 16 ≤ s.islandClock tm.core → tm.state = .trapped → tm.level = 0 → tm.ctrl = none → s.replays tm = false →
      s.gated tm.core = false → s.frameReached tm = true → ∃ s' : State, exec .faultCollectExpiry s = .next s' ∧ EntersHandler s s' e.opener tm.flush 0x10 tm.pc e.ptr
        ((e.detailB &&& ~~~(0xFFFF000F : W64)) ||| BitVec.ofNat 64 (e.kinds.toNat + e.waiters % 65536 * 2 ^ 16))) ∧
    (∀ n u q f t tm, s.turn = .event (.matrixFaultDelivery n) → s.unit? n = some u → u.seqr = some q → q.fault = some f →
      f.delivered = false → s.firstTeam u = some t → s.teams[t]? = some tm → tm.atDelivery.isSome = true → tm.ctrl = none → tm.level = 0 →
      s.gated tm.core = false → s.moving t = false → s.replays tm = false → s.frameReached tm = true →
      ∃ s' : State, exec .matrixFaultDelivery s = .next s' ∧ EntersHandler s s' t tm.flush 0x30 tm.pc q.pc (BitVec.ofNat 64 q.mrow) ∧
        s'.seqOf n = some { q with fault := some { f with delivered := true } }) ∧
    (∀ n u q f, s.turn = .event (.matrixFaultDelivery n) → s.unit? n = some u → u.seqr = some q → q.fault = some f → f.delivered = false →
      s.firstTeam u = none → ∃ s' u', exec .matrixFaultDelivery s = .next s' ∧ s'.unit? n = some u' ∧
        u'.ending = some (u.ending.getD (.matrix 0x30)) ∧ s'.seqOf n = some { q with fault := none, done := true }) ∧
    (∀ c q e, (s.ceq c q).entries.head? = some e →
      (∀ va t tm, s.turn = .event (.ceFaultDelivery c q) → e.state = .stalled false va → s.released (ceTeam c q) c 4 = true →
        (s.unit? e.tags.unit).bind s.firstTeam = some t → s.teams[t]? = some tm → tm.atDelivery.isSome = true → tm.ctrl = none →
        tm.level = 0 → s.gated tm.core = false → s.moving t = false → s.replays tm = false → s.frameReached tm = true →
        ∃ s' : State, exec .ceFaultDelivery s = .next s' ∧
          EntersHandler s s' t tm.flush 0x23 tm.pc (BitVec.ofNat 64 va) (e.faultB q) ∧
          (s'.ceq c q).entries.head? = some { e with state := .stalled true va }) ∧
      (s.turn = .event (.ceEntryStart c q) → e.state = .waiting → e.cb = none → (∀ m id, e.kind ≠ .join m id) → s.ceTokens e = true →
        ErrPlace.ceBuffer c q ∉ s.poison →
        let r := ceMove e (e.total + 1) e.bytes ⟨s, none, e.bytes, none, none⟩
        let head (st : CeState) : Prop := exec .ceEntryStart s =
          .next (({ r.s with poison := r.s.poison.filter (· ≠ .ceBuffer c q) } : State).setCeHead c q
            { e with bytes := r.done, state := st, begun := true })
        (r.miss = none → r.fail = none → head (if r.done < e.total then .waiting else .active)) ∧ (∀ va, r.miss = some va → head (.stalled false va)) ∧
        (∀ k, r.miss = none → r.fail = some k → head (.failed k)) ∧
        (∀ pat, e.kind = .fill pat → e.rows = 1 → 0 < e.len → e.bytes = 0 → e.dst.toNat / 2 ^ 56 = 0xFD →
          e.dst.toNat % 128 + e.len ≤ 128 → s.mayStore (dieOfCore e.tags.core) 2 = true →
          let k := 2 ^ 56 + e.tags.core * 2 ^ 19 + e.dst.toNat % 2 ^ 19
          ∃ s' : State, exec .ceEntryStart s = .next s' ∧ (∀ j, j < e.len → s'.byte (k + j) = (leBytes 8 pat.toNat).getD (j % 8) 0) ∧
            ∀ j, (j < k ∨ k + e.len ≤ j) → s'.byte j = s.byte j)) ∧
      (s.turn = .event (.ceEntryComplete c q) → s.ceOver c q e = true → s.ceActReady e = true → e.actions = [] → e.cb = none →
        ∃ s' : State, exec .ceEntryComplete s = .next s' ∧ (s'.ceq c q).entries = (s.ceq c q).entries.tail ∧ (s'.ceq c q).done = e.seq ∧
          s'.teams = s.teams ∧ (e.code = none → s'.mem = s.mem))) ∧
    (∀ c p u, s.turn = .event (.reservationGrant c) → (s.cluster c).current = none → s.granted c = some p → s.unit? p.unit = some u →
      let rest := ((s.cluster c).table.erase p).map fun x => if s.passTokens x then { x with passed := x.passed + 1 } else x
      let s1 := s.setCluster c { s.cluster c with table := rest, current := some p }
      (p.kind = .mldb → exec .reservationGrant s = .next s1) ∧
      (p.kind ≠ .mldb → (formRows s1 p.unit u p (Config.pick (s.draw 1) % 128)).stop = none → ∃ (s' : State) (p' : Pass), exec .reservationGrant s = .next s' ∧
        (s'.cluster c).table = rest ∧ (s'.cluster c).current = some p' ∧ p'.unit = p.unit ∧ p'.kind = p.kind ∧ p'.f = p.f ∧ p.row ≤ p'.row)) ∧
    (∀ c p u, s.turn = .event (.matrixPassComplete c) → (s.cluster c).current = some p → s.unit? p.unit = some u →
      s.noPass (s.leaderCore u) = false →
      (∀ s1 vs q, p.kind = .mldb → State.seqLoads p.unit (2 ^ 24) (vecRanges p.f.tyb p.f.k.toNat p.bBase p.bStep) s = .ok (s1, vs) →
        s1.seqOf p.unit = some q → ∃ s' : State, exec .matrixPassComplete s = .next s' ∧ (s'.cluster c).current = none ∧
          s'.seqOf p.unit = some { q with held := some ⟨p.f.tb, p.f.k, p.f.bsb, vs⟩, mrow := 0 }) ∧
      (p.kind ≠ .mldb → (formRows s p.unit u p 128).stop = none → ∃ s' : State, exec .matrixPassComplete s = .next s' ∧
        (s'.cluster c).current = none ∧ s'.acc = (formRows s p.unit u p 128).s.acc)) ∧
    (∀ (ta tb i j t : Nat) (as bs : List Nat), ta < 2 → as ≠ [] → as.length = bs.length → as.length ≤ 16 →
      let x := asInt 32 t + ((as.zip bs).map fun p => intOf ta p.1 * intOf tb p.2).sum
      (mmaCell ta tb i j as bs t : Int) = max (-2 ^ 31) (min (2 ^ 31 - 1) x) % 2 ^ 32)

/-- 03:R82, R83, R87, R91 to R94, R101, R108, R111; 10:R310, R311. A store that reaches its home is performed once, or dropped and counted;
updates and notices are applied in order on the other dies; and the sweeps end a drop, free a hypothesis, a half of the translation tags,
a slot. That the pages of a dropped arena read as zero, that updates are taken byte by byte, which requests come first, and what a drop waits for are
the model's choice (log 14, log 81, log 65, log 58). -/
def Obligations.HomeRequestsUpdatesAndSweepsTakeEffect : Prop :=
  ∀ s : State,
    (∀ i r, s.flight[i]? = some r → s.firstOfLine i r = true → s.partner i r = none →
      let acks : List Ack := match r.seq with
        | some n => [⟨r.home, r.die, n, r.tags.slot, r.tags.inc⟩]
        | none => []
      let performs (ins : Instr) : Prop :=
        (s.sliceReady r.home r.line = false → exec ins s = .next (s.shedLagging r.home r.line)) ∧
        (s.sliceReady r.home r.line = true → s.homeCheck r.tags r.line = none → s.sealedFor r.tags = false → s.actingOf r.tags r.line = 0 →
          NMap.sorted r.bytes = true → ∃ s' : State, exec ins s = .next s' ∧ s'.flight = s.flight.eraseIdx i ∧ s'.acks = s.acks ++ acks ∧
          (∀ o b, NMap.find? r.bytes o = some b → s'.byte (r.line + o) = if s.readOnlyByte (r.line + o) then s.byte (r.line + o) else b) ∧
          (∀ k, (k < r.line ∨ NMap.find? r.bytes (k - r.line) = none) → s'.byte k = s.byte k) ∧
          s'.slice (32 * r.home + sliceOf r.line) = s.slice (32 * r.home + sliceOf r.line) + 1 ∧ s'.contexts = s.contexts) ∧
        (∀ d, s.sliceReady r.home r.line = true → s.homeCheck r.tags r.line = some d → ∃ s' : State, exec ins s = .next s' ∧ s'.mem = s.mem ∧
          s'.versions = s.versions ∧ s'.flight = s.flight.eraseIdx i ∧ s'.acks = s.acks ++ acks ∧
          (∀ x ∈ s'.replicas, x.die = r.die → x.key ≠ r.line) ∧
          (∀ l ∈ s'.l1, dieOfCore l.core = r.die → l.slot = r.tags.slot → l.key = r.line → l.haloed = true) ∧
          NMap.get s'.drops 0 (6 * r.tags.slot + d.counter) = NMap.get s.drops 0 (6 * r.tags.slot + d.counter) + 1)
      (s.turn = .event (.homeRequestArrival i) → r.die = r.home → performs .homeRequestArrival) ∧
      (s.turn = .event (.forwardedStoreArrival i) → r.die ≠ r.home → r.onLink = false → s.clockReady r.home r.die r.stamp = true →
        performs .forwardedStoreArrival)) ∧
    (∀ i p, s.turn = .event (.replicaUpdateApply i) → s.pushes[i]? = some p → s.clockReady p.die p.src p.stamp = true →
      s.reachesOne p.home p.die = true → ∃ s' : State, exec .replicaUpdateApply s = .next s' ∧ s'.pushes = s.pushes.eraseIdx i ∧ s'.mem = s.mem ∧
        (p.src < (s.vc p.die).length → clockAt (s'.vc p.die) p.src = clockAt p.stamp p.src) ∧
        s'.replicas.length = s.replicas.length ∧ ∀ (j : Nat) (r : Replica), s.replicas[j]? = some r → ∃ r' : Replica, s'.replicas[j]? = some r' ∧
          (r.die = p.die → r.key = p.line → r'.own = r.own ∧ r'.seq = (if serialGt p.seq r.seq then p.seq else r.seq) ∧
            (NMap.sorted p.bytes = true → ∀ o, o < r.line.data.length → r'.line.data.getD o 0 = match NMap.find? p.bytes o with
              | none => r.line.data.getD o 0
              | some b =>
                let newer : Bool := serialGt p.seq (NMap.get r.seqs r.base o) && match NMap.find? r.own o with
                  | none => true
                  | some none => false
                  | some (some n) => serialGt p.seq n
                if newer then b else r.line.data.getD o 0)) ∧
          (r.die ≠ p.die ∨ r.key ≠ p.line → r' = r)) ∧
    (∀ i n, s.turn = .event (.clockNoticeArrival i) → s.notices[i]? = some n → s.clockReady n.die n.src n.stamp = true →
      s.leads n.home n.die = true → exec .clockNoticeArrival s = .next { s with
        notices := s.notices.eraseIdx i
        vclock := NMap.insert s.vclock n.die ((s.vc n.die).set n.src (clockAt n.stamp n.src)) }) ∧
    (∀ n a, s.turn = .event (.arenaDropSweepComplete n a) → s.oldRequests n a = true → exec .arenaDropSweepComplete s = .next s) ∧
    (∀ n a c', s.turn = .event (.arenaDropSweepComplete n a) → a ≠ 0 → ((s.ctx n).arena a).state = .dropping → s.oldRequests n a = false →
      (s.ctx n).bumpTgen = some c' → (∀ e ∈ (s.ctx n).arenas, e.2.autoFree = false) →
      ∃ s' : State, exec .arenaDropSweepComplete s = .next s' ∧
        ((s'.ctx n).arena a).state = .dropped ∧ ((s'.ctx n).arena a).gen = ((s.ctx n).arena a).gen ∧ (s'.ctx n).tgen = (s.ctx n).tgen + 1 ∧
        (∀ e ∈ (s'.ctx n).pages, e.2.arena ≠ a) ∧ (∀ l ∈ s'.l1, l.slot = n → l.arena ≠ a) ∧ (∀ v ∈ s'.versions, v.slot = n → v.arena ≠ a) ∧
        (∀ e ∈ (s.ctx n).pages, e.2.arena = a → physClass e.2.phys = 0 →
          (∀ c ∈ s.contexts, ∀ x ∈ c.2.pages, c.1 ≠ n ∨ x.2.arena ≠ a → overlaps e.2.phys e.2.size x.2.phys x.2.size = false) →
          ∀ j, j < e.2.size → s'.byte (e.2.phys + j) = 0) ∧
        (let x := (s.ctx n).arena a
         x.parent ≠ a → ((s.ctx n).arena x.parent).state ≠ .free →
          ((s'.ctx n).arena x.parent).charge = ((s.ctx n).arena x.parent).charge - x.quota ∧
          ((s'.ctx n).arena x.parent).bump =
            if x.stop = ((s.ctx n).arena x.parent).bump then x.base else ((s.ctx n).arena x.parent).bump)) ∧
    (∀ n h, s.turn = .event (.hypSweepFree n h) → h ≠ 0 → (((s.ctx n).hyp h).state = .confirmed ∨ ((s.ctx n).hyp h).state = .refuted) →
      s.hypUnused n h = true → ∃ s' : State, exec .hypSweepFree s = .next s' ∧ ((s'.ctx n).hyp h).state = .free ∧
        ∀ k, k ≠ h → (s'.ctx n).hyp k = (s.ctx n).hyp k) ∧
    (∀ n up, s.turn = .event (.tlbHalfSweepComplete n up) → (if up then (s.ctx n).sweepHigh else (s.ctx n).sweepLow) = true →
      ∃ s' : State, exec .tlbHalfSweepComplete s = .next s' ∧ (if up then (s'.ctx n).sweepHigh else (s'.ctx n).sweepLow) = false ∧
        (∀ e, e ∈ s'.tlb ↔ e ∈ s.tlb ∧ ¬(e.slot = n ∧ (2 ^ 15 ≤ e.tgen.toNat ↔ up = true))) ∧
        ∀ e, e ∈ s'.icache ↔ e ∈ s.icache ∧ ¬(e.slot = n ∧ (2 ^ 15 ≤ e.tgen.toNat ↔ up = true))) ∧
    (∀ n, s.turn = .event (.contextSlotSweepComplete n) → (s.ctx n).live = true → (s.ctx n).freeing = true → (s.ctx n).reclaimed = true →
      (∀ u ∈ s.units, u.slot = n → u.complete = true) → ∃ s' : State, exec .contextSlotSweepComplete s = .next s' ∧ (s'.ctx n).live = false ∧
        (s'.ctx n).inc = (s.ctx n).inc ∧ (s'.ctx n).pages = [] ∧ (∀ l ∈ s'.l1, l.slot ≠ n) ∧ (∀ v ∈ s'.versions, v.slot ≠ n) ∧
        (∀ r ∈ s'.replicas, r.slot ≠ n) ∧ (∀ e ∈ s'.home, e.2.slot ≠ n) ∧
        (∀ e ∈ s'.tlb, e.slot ≠ n) ∧ (∀ e ∈ s'.icache, e.slot ≠ n) ∧ (∀ q ∈ s'.queues, q.2.slot ≠ n) ∧
        ((∀ q ∈ s.queues, q.2.slot = n → q.2.entries = [] ∧ q.2.vent = [] ∧ q.2.held = []) → s'.mem = s.mem))

/-- 19:R431, R433 to R435, R439, R440. Messages and links: a request gets its number while the window of 256 has room; one over an open link is
admitted once, one that was executed is answered again, an old one is dropped; a response clears its number; and failed flits, retrains
and widths are counted and set at the modules, while what was on the link goes over another. What rides a link in steps of its own is the model's
choice (log 11, log 32). -/
def Obligations.LinksDeliverOnceAndRetrain : Prop :=
  ∀ s : State,
    (∀ i r, s.turn = .event (.dieMessageArrival i) → s.flight[i]? = some r → r.onLink = true →
      let p := s.pair r.die r.home
      (r.seq = none → 256 ≤ p.span + 1 → exec .dieMessageArrival s = .next s) ∧
      (r.seq = none → p.span + 1 < 256 → ∃ m : Nat, exec .dieMessageArrival s =
        .next { s.setPair r.die r.home { p with next := p.next + 1, buffer := p.buffer ++ [{ r with seq := some p.next, module := m, sent := s.tick }] } with
          flight := s.flight.set i { r with seq := some p.next, module := m, sent := s.tick } }) ∧
      (∀ n, r.seq = some n →
        (s.linkOpen r.die r.home r.module = false → ∃ m : Nat,
          exec .dieMessageArrival s = .next { s with flight := s.flight.set i { r with module := m, sent := s.tick } }) ∧
        (s.linkOpen r.die r.home r.module = true → s.nextOnLink r = false → exec .dieMessageArrival s = .next s) ∧
        (s.linkOpen r.die r.home r.module = true → s.nextOnLink r = true → ∃ s' : State, exec .dieMessageArrival s = .next s' ∧
          s'.mem = s.mem ∧ s'.acks = s.acks ∧
          (s'.module r.home (moduleTo r.home r.die r.module)).fails = 0 ∧
          (seqNewer n p.newest = true → s'.flight = s.flight.set i { r with onLink := false } ∧ (s'.pair r.die r.home).newest = n) ∧
          (seqNewer n p.newest = false → (p.newest - n).toNat < 256 →
            s'.flight = s.flight.set i { r with onLink := false } ∧ (s'.pair r.die r.home).newest = p.newest) ∧
          (seqNewer n p.newest = false → 256 ≤ (p.newest - n).toNat → s'.flight = s.flight.eraseIdx i)))) ∧
    (∀ j r n, s.turn = .event (.dieMessageArrival (s.flight.length + j)) → s.resends[j]? = some r → r.seq = some n →
      s.linkOpen r.die r.home r.module = true → s.nextOnLink r = true →
      ∃ s' : State, exec .dieMessageArrival s = .next s' ∧ s'.mem = s.mem ∧ s'.versions = s.versions ∧
        s'.flight = s.flight ∧ s'.pairs = s.pairs ∧ s'.resends = s.resends.eraseIdx j ∧
        s'.acks = s.acks ++ (if (s.pair r.die r.home).executed.contains n then [⟨r.home, r.die, n, r.tags.slot, r.tags.inc⟩] else [])) ∧
    (∀ i a, s.turn = .event (.dieResponseArrival i) → s.acks[i]? = some a → ∃ s' : State, exec .dieResponseArrival s = .next s' ∧
      s'.acks = s.acks.eraseIdx i ∧ s'.mem = s.mem ∧ s'.teams = s.teams ∧
      ((∀ r ∈ (s.pair a.dst a.src).buffer, r.seq ≠ some a.seq) → s' = { s with acks := s.acks.eraseIdx i }) ∧
      ((∃ r ∈ (s.pair a.dst a.src).buffer, r.seq = some a.seq) →
        (∀ r, r ∈ (s'.pair a.dst a.src).buffer ↔ r ∈ (s.pair a.dst a.src).buffer ∧ r.seq ≠ some a.seq) ∧
        NMap.get s'.drops 0 (6 * a.slot) = NMap.get s.drops 0 (6 * a.slot) + if a.inc = (s.ctx a.slot).inc then 0 else 1)) ∧
    (∀ d m, d < 4 → m < 18 →
      let x := s.module d m
      let far := farEnd d m
      let y := s.module far.1 far.2
      let both (i : Instr) (P : Module → Module → Prop) : Prop := ∃ s' : State, exec i s = .next s' ∧ s'.mem = s.mem ∧ s'.flight.length = s.flight.length ∧
        (∀ (k : Nat) (r : Req), s.flight[k]? = some r → ∃ h at_ : Nat, s'.flight[k]? = some { r with module := h, sent := at_ }) ∧
        P x (s'.module d m) ∧ P y (s'.module far.1 far.2)
      (s.turn = .event (.flitCrcFail d m) →
        (x.up = true → s.carries d m = true →
          exec .flitCrcFail s = .next (s.setModule d m { x with crcErr := x.crcErr + 1, fails := x.fails + 1 })) ∧
        ((x.up = false ∨ s.carries d m = false) → exec .flitCrcFail s = .next s)) ∧
      (s.turn = .event (.linkRetrainStart d m) → x.retraining = false → x.width ≠ 2 → both .linkRetrainStart fun a b =>
        b = { a with retraining := true, retrain := a.retrain + 1, fails := 0 }) ∧
      (s.turn = .event (.maintenanceRetrain d m) → x.retraining = false → both .maintenanceRetrain fun a b =>
        b = { a with retraining := true, retrain := a.retrain + 1, fails := 0, width := 0 }) ∧
      (∀ w r, s.turn = .event (.linkRetrainComplete d m w r) → x.retraining = true → w < 3 → x.width.toNat ≤ w →
        (both .linkRetrainComplete fun a b => b = { a with
          retraining := false, width := BitVec.ofNat 2 w, repaired := if w = 0 then BitVec.ofNat 4 r else a.repaired }) ∧
        ∃ s' : State, exec .linkRetrainComplete s = .next s' ∧ s'.posts = s.posts ++ if w = 2 then [.moduleDown d m] else []))

/-- 01:R14; 19:R415 to R417, R426 to R430. Errors that are corrected or poison a granule; a core with a logic fault, which is retired at once; the
retirement of cores and clusters, and the return of a cluster; and the repair of HBM, which keeps what stands there. That
the pages of a channel come with the event, and what a core with a fault loses, are the model's choice (log 12, log 66). -/
def Obligations.ErrorsPoisonAndRetirementMovesWork : Prop :=
  ∀ s : State,
    let replaced (c : Nat) (s' : State) : Prop :=
      ((s.island (c / 16)).spareUsed = false → (s.cluster (c / 4)).retired = false →
        (s'.island (c / 16)).spareUsed = true ∧ (s'.core c).closing = false ∧ (s'.core c).retired = false) ∧
      (((s.island (c / 16)).spareUsed = true ∨ (s.cluster (c / 4)).retired = true) → (s'.core c).retired = true)
    (∀ p, s.turn = .event (.correctableError p) → exec .correctableError s = .next { s with corrected := s.corrected + 1 }) ∧
    (∀ p, s.turn = .event (.uncorrectableError p) →
      ((∀ i, p ≠ .l1Line i) → (∀ i g, p ≠ .version i g) → (∀ i o, p ≠ .fabric i o) → ∃ s' : State, exec .uncorrectableError s = .next s' ∧ p ∈ s'.poison ∧ (∀ x ∈ s.poison, x ∈ s'.poison) ∧ s'.mem = s.mem) ∧
      (∀ i l, p = .l1Line i → s.l1[i]? = some l → l.dirty = 0 → exec .uncorrectableError s = .next { s with l1 := s.l1.eraseIdx i }) ∧
      (∀ i l, p = .l1Line i → s.l1[i]? = some l → l.dirty ≠ 0 → ∃ (s' : State) (g : Nat), exec .uncorrectableError s = .next s' ∧ .granule g ∈ s'.poison ∧
        l.key / 32 ≤ g ∧ g < l.key / 32 + 4 ∧ s'.l1 = s.l1) ∧
      (∀ i g v, p = .version i g → s.versions[i]? = some v → ∃ b : BitVec 4,
        exec .uncorrectableError s = .next { s with versions := s.versions.set i { v with bad := b } } ∧
        ∀ j, j < 4 → (b.getLsbD j = true ↔ v.bad.getLsbD j = true ∨ j = g % 4)) ∧
      (∀ i o r b, p = .fabric i o → s.flight[i]? = some r → NMap.find? r.bytes o = some b →
        exec .uncorrectableError s = .next { s with flight := s.flight.set i { r with bad := some o } })) ∧
    (∀ c, s.turn = .event (.coreLogicFault c) →
      ((s.core c).retired = true → exec .coreLogicFault s = .next s) ∧
      ((s.core c).retired = false → ∃ s' : State, exec .coreLogicFault s = .next s' ∧ s'.mem = s.mem ∧ replaced c s' ∧
        (∀ l ∈ s'.l1, l.core = c → l.dirty ≠ 0) ∧ (∀ l ∈ s'.icache, l.core ≠ c) ∧
        ∀ tm ∈ s.residents c, ∀ u : LUnit, s'.unit? tm.unit = some u → u.poisoned = true)) ∧
    (∀ c, s.turn = .event (.coreRetire c) → (s.core c).retired = false →
      ((s.core c).closing = false → exec .coreRetire s = .next (s.setCore c { s.core c with closing := true })) ∧
      ((s.core c).closing = true → s.coreEmpty c = false → exec .coreRetire s = .next s) ∧
      ((s.core c).closing = true → s.coreEmpty c = true → s.dirtyTiles c = false → ∃ s' : State, exec .coreRetire s = .next s' ∧
        (∀ l ∈ s'.l1, l.core ≠ c) ∧ (∀ l ∈ s'.icache, l.core ≠ c) ∧ s'.mem = s.mem ∧ replaced c s')) ∧
    (∀ c, s.turn = .event (.clusterRetire c) → ∃ s' : State, exec .clusterRetire s = .next s' ∧ (s'.cluster c).retired = true ∧
      ∀ k, k < 4 → (s'.core (4 * c + k)).closing = true) ∧
    (∀ c, s.turn = .event (.clusterReturnToService c) → (s.cluster c).quarantined = true → (s.cluster c).retired = false →
      exec .clusterReturnToService s = .next (s.setCluster c { s.cluster c with quarantined := false, mismatches := [] })) ∧
    (∀ st ch m g k p c', s.turn = .event (.hbmChannelRetire st ch [m]) → s.Inv → NMap.find? (s.ctx m.slot).pages (m.va / 65536) = some g →
      s.partOf m.slot = some (k, p) → (s.ctx m.slot).bumpTgen = some c' → physClass g.phys = 0 → m.dst % g.size = 0 →
      s.quietRange g.phys g.size = true → s.poolFree p (dieOfPhys g.phys) g.size m.dst = true → ∃ s' : State, exec .hbmChannelRetire s = .next s' ∧
        NMap.find? (s'.ctx m.slot).pages (m.va / 65536) = some { g with phys := m.dst } ∧ (st, ch) ∈ s'.channels ∧
        (g.phys, g.size) ∈ s'.withheld ∧ ∀ i, i < g.size → s'.byte (m.dst + i) = s.byte (g.phys + i)) ∧
    (∀ st ch row, s.turn = .event (.hbmRowRepair st ch row) → exec .hbmRowRepair s = .next s)

/-- 03:R108; 12:R353 to R357; 17:R392, R410, R412; 19:R421, R436. The host and the peers: their accesses to the device's memory, to the registers of
a control page and to the recovery buffer; answers and time-outs of accesses of the device; and the state of the Ethernet ports. What a read
finds is kept in `hostData`; the die of a port is the model's choice (log 29, log 72). -/
def Obligations.OutsideAccessesAndAnswersTakeEffect : Prop :=
  ∀ s : State,
    let wrote (s' : State) (pa : Nat) (bs : List Byte) : Prop :=
      (∀ k, s'.byte k = if pa ≤ k ∧ k < pa + bs.length ∧ s.readOnlyByte k = false then bs.getD (k - pa) 0 else s.byte k) ∧
      (∀ l ∈ s'.l1, l.key = pa / 128 * 128 → l.dirty ≠ 0) ∧ ∀ r ∈ s'.replicas, r.key ≠ pa / 128 * 128
    (∀ fn off n v p, fn ≠ 0 → NMap.find? s.parts (fn - 1) = some p → s.port.recovery = false → off + n ≤ 2 ^ 36 → n ≤ 8 →
      let pa := (NMap.get s.port.bar2 0 fn).toNat + off
      p.holds pa n = true →
      (s.turn = .event (.hostApertureAccess fn false off n false v) → s.outsideReach 0 (s.physPlaces pa n) = true →
        exec .hostApertureAccess s = .next { s with hostData := .data (s.bytes pa n) }) ∧
      (s.turn = .event (.hostApertureAccess fn false off n true v) → s.outsideReady 0 (s.physPlaces pa n) = true → NMap.find? s.contexts 64 = none →
        0 < n → pa % 128 + n ≤ 128 → ∃ s' : State, exec .hostApertureAccess s = .next s' ∧ wrote s' pa (leBytes n v.toNat))) ∧
    (∀ fn o v w, s.turn = .event (.hostApertureAccess fn true o 8 false v) → fn ≤ 8 → o % 8 = 0 → o + 8 ≤ 2 ^ 25 → s.bar0Quad fn o = some w →
      s.outsideReach 0 (s.recordPlaces fn o 8) = true →
      exec .hostApertureAccess s = .next { s with hostData := .data (leBytes 8 w) }) ∧
    (s.bar0Quad 0 0 = some (s.port.boot.toNat + s.port.die.toNat * 2 ^ 8) ∧
      (∀ fn, fn ≠ 0 → s.bar0Quad fn 0 = some (NMap.get s.port.vfStatus 0 fn)) ∧
      (∀ fn, s.bar0Quad fn 0x10 = some (NMap.get s.port.bar2 0 fn).toNat ∧ s.bar0Quad fn 0x20 = some (NMap.get s.port.portDisc 0 fn).toNat) ∧
      (∀ slot k, slot < 64 → k < 6 → s.bar0Quad 0 (0x1000 + 64 * slot + 8 * k) = some (NMap.get s.drops 0 (6 * slot + k)).toNat) ∧
      ∀ d m, d < 4 → m < 18 → s.bar0Quad 0 (0x8000 + 8 * (18 * d + m)) = some (s.module d m).status) ∧
    (∀ off n v, s.port.recovery = true → off + n ≤ 2 ^ 26 → n ≤ 8 →
      (s.turn = .event (.hostApertureAccess 0 false off n true v) → ∃ s' : State, exec .hostApertureAccess s = .next s' ∧ s'.mem = s.mem ∧
        ∀ o, NMap.get s'.port.buffer 0 o = if off ≤ o ∧ o < off + n then (leBytes n v.toNat).getD (o - off) 0 else NMap.get s.port.buffer 0 o) ∧
      (s.turn = .event (.hostApertureAccess 0 false off n false v) → exec .hostApertureAccess s =
        .next { s with hostData := .data ((List.range n).map fun i => NMap.get s.port.buffer 0 (off + i)) })) ∧
    (∀ part conn key op p, s.turn = .event (.peerIncomingRequest part conn key op) → NMap.find? s.parts part = some p →
      NMap.find? p.imports conn = none → exec .peerIncomingRequest s = .next { s with hostData := .accessError }) ∧
    (∀ part conn key op p port, s.turn = .event (.peerIncomingRequest part conn key op) → NMap.find? s.parts part = some p →
      s.portFor p conn = some port →
      (p.admits conn key op = none → exec .peerIncomingRequest s = .next { s with hostData := .accessError }) ∧
      (∀ pa, p.admits conn key op = some pa →
        let n := (peerRange op).2
        let die := dieOfPort port
        (∀ o m, op = .read o m → s.outsideReach die (s.physPlaces pa n) = true →
          exec .peerIncomingRequest s = .next { s with hostData := .data (s.bytes pa n) }) ∧
        (s.outsideReady die (s.physPlaces pa n) = true → NMap.find? s.contexts 64 = none → pa % 128 + n ≤ 128 → 0 < n →
          let writes (new : List Byte) (answer : Answer) : Prop :=
            ∃ s' : State, exec .peerIncomingRequest s = .next s' ∧ wrote s' pa new ∧ s'.hostData = answer
          (∀ o bs, op = .write o bs → writes bs .performed) ∧
          (s.poisoned pa 8 = false →
            (∀ o v, op = .fetchAdd o v → writes (leBytes 8 (leNat (s.bytes pa 8) + v.toNat)) (.data (s.bytes pa 8))) ∧
            (∀ o x v, op = .cas o x v → leNat (s.bytes pa 8) = x.toNat → writes (leBytes 8 v.toNat) (.data (s.bytes pa 8)))) ∧
          (∀ o x v, op = .cas o x v → leNat (s.bytes pa 8) ≠ x.toNat → ∃ s' : State, exec .peerIncomingRequest s = .next s' ∧ s'.mem = s.mem ∧
            s'.hostData = .data (s.bytes pa 8))))) ∧
    (∀ t tm r f, s.teams[t]? = some tm → tm.remote = some r → tm.state = .blocked → r.lane = false → r.word = .ldd f →
      s.gated tm.core = false →
      let ready (tm' : Team) : Prop := tm'.state = .ready ∧ tm'.wait = none ∧ tm'.remote = none
      (∀ data, s.turn = .event (.peerResponseArrival (.team t) data) → (∀ p ∈ r.places, s.answers tm p.2.1 = true) →
        (r.places.foldl (fun a p => a + p.2.2) 0) = data.length →
        (s.oldInc tm = true → exec .peerResponseArrival s = .next ((s.countDrop tm.slot 0).setTeam t { tm with remote := none })) ∧
        (∀ pl, s.oldInc tm = false → data.length = 8 →
          s.scalarPlaces (tm.answered s.clock) .load 1 (tm.rd f.a + f.i.signExtend 64) 8 = .ok [pl] → pl.remote = true → pl.len = 8 →
          ∃ tm' : Team, exec .peerResponseArrival s = .next (s.setTeam t tm') ∧ ready tm' ∧ tm'.pc = tm.pc + 4 ∧
            ∀ k, tm'.rd k = if k = f.d ∧ k ≠ 0 then BitVec.ofNat 64 (leNat data) else tm.rd k)) ∧
      (s.turn = .event (.peerTimeout (.team t)) → r.since + 2100000 ≤ s.clock → tm.ctrl = none → tm.level = 0 → tm.holding = none →
        s.replays tm = false → s.frameReached tm = true → ∃ (s' : State) (b : W64), exec .peerTimeout s = .next s' ∧
          EntersHandler s s' t tm.flush 0x1D tm.pc (tm.rd f.a + f.i.signExtend 64) b)) ∧
    (∀ i w, s.posted[i]? = some w →
      (∀ data, s.turn = .event (.peerResponseArrival (.posted i) data) → s.answers (s.ownerOf w.team w.slot) w.line = true →
        let s' := { s with posted := s.posted.eraseIdx i }
        exec .peerResponseArrival s = .next (if w.slot < 64 ∧ w.inc ≠ (s.ctx w.slot).inc then s'.countDrop w.slot 0 else s')) ∧
      (s.turn = .event (.peerTimeout (.posted i)) → w.since + 2100000 ≤ s.clock →
        exec .peerTimeout s = .next { s with posted := s.posted.set i { w with lost := true } })) ∧
    (∀ i w, s.stray[i]? = some w → ∀ data, s.turn = .event (.peerResponseArrival (.stray i) data) →
      let s' := { s with stray := s.stray.eraseIdx i }
      exec .peerResponseArrival s = .next (if w.inc = (s.ctx w.slot).inc then s' else s'.countDrop w.slot 0)) ∧
    (∀ fn v, s.turn = .event (.registerWrite fn 0x10 v) → fn ≤ 8 →
      exec .registerWrite s = .next { s with port := { s.port with bar2 := NMap.put s.port.bar2 0 fn v } }) ∧
    (∀ fn v p q, s.turn = .event (.registerWrite fn (0x400000 + 2048 * q + 8) v) → fn ≤ 8 → fn ≠ 0 →
      NMap.find? s.parts (fn - 1) = some p → q ∈ p.queues → q < 1024 → NMap.find? s.contexts 64 = none →
      let pa := p.failBase + 2048 * q + 8
      s.outsideReady 0 (s.physPlaces pa 4) = true → pa % 128 ≤ 124 → ∃ s' : State, exec .registerWrite s = .next s' ∧ wrote s' pa (leBytes 4 v.toNat)) ∧
    (∀ k up, s.turn = .event (.ethernetPortLinkChange k up) → k < 8 → ∃ s' : State, exec .ethernetPortLinkChange s = .next s' ∧ s'.mem = s.mem ∧
      ∀ j, j < 8 → s'.port.portsUp.getLsbD j = if j = k then up else s.port.portsUp.getLsbD j)

/-- 12:R345 to R349, R359, R360; 19:R436, R437. The check of an image by the digests of the keys that may sign it and the least version; reset and
boot, from the flash image or in recovery; the creation and the restart of a partition; and the limits and steps of islands. That a digest which
is not the payload's counts as an invalid signature, and where a payload is placed, are the model's (log 34). -/
def Obligations.BootsPartitionsAndIslandsAreSet : Prop :=
  (∀ (image : List Byte) (key : Nat → Option (List Byte)) (floor : Nat),
    let sig := (image.drop (128 + payloadLength (headerOf image))).take 3309
    let pub := ((image.drop (128 + payloadLength (headerOf image))).drop 3309).take 1952
    let by_ := if bitsAt (headerOf image) 224 8 < 4 then key (bitsAt (headerOf image) 224 8) else none
    let signed : Bool := Config.verifies pub sig (digest64 (image.take 0x60)) && decide ((image.drop 0x20).take 64 = digest64 (payloadOf image))
    (headerOk image = false → checkImage image key floor = 0x82) ∧
    (headerOk image = true → by_ = none → checkImage image key floor = 0x83) ∧
    (∀ d, headerOk image = true → by_ = some d →
      (bytesOf (Config.shake256 pub) 32 ≠ d → checkImage image key floor = 0x85) ∧
      (bytesOf (Config.shake256 pub) 32 = d →
        checkImage image key floor = if signed then (if versionOf image < floor then 0x81 else 0) else 0x80))) ∧
  ∀ s : State,
    let booted (i : Instr) (b : BootInput) : Prop := ∃ (s' : State) (tm : Team), exec i s = .next s' ∧ s'.port.boot = 1 ∧
      s'.port.recovery = false ∧ s'.bytes b.payload (payloadOf b.image).length = payloadOf b.image ∧ s'.teams[0]? = some tm ∧ tm.state = .ready ∧
      tm.ctrl = some 0 ∧ tm.part = none ∧ tm.pc = supPtr b.payload + BitVec.ofNat 64 (entryOf b.image) ∧ (∀ r, tm.rd r = 0) ∧
      (i = .deviceReset → s'.contexts = [] ∧ s'.queues = [] ∧ s'.units = [] ∧ s'.parts = [] ∧ s'.teams.length = 8 ∧
        ∀ k, (k < b.payload ∨ b.payload + (payloadOf b.image).length ≤ k) → s'.byte k = 0)
    let stuck (i : Instr) (code die : Nat) : Prop := ∃ s' : State, exec i s = .next s' ∧ s'.port.boot = BitVec.ofNat 8 code ∧ s'.port.recovery = true ∧
      s'.port.die = BitVec.ofNat 8 die ∧ (i = .deviceReset → ∀ tm ∈ s'.teams, tm.state = .blocked)
    let boots (i : Instr) (b : BootInput) : Prop :=
      let code := checkImage b.image Config.fusedKey Config.fusedMinimum
      (b.badDie = none → (i = .deviceReset ∨ s.teams ≠ []) → if code = 0 then booted i b else stuck i code 0) ∧
      (∀ d, b.badDie = some d → d < 4 → if code = 0 then stuck i 0x84 d else stuck i code 0)
    let started (s' : State) (n : Nat) (p : Partition) (image : List Byte) : Prop := NMap.get s'.port.vfStatus 0 (n + 1) = 1 ∧
      s'.bytes p.payload (payloadOf image).length = payloadOf image ∧ (p.ctrl ≠ 0 → p.ctrl < s.teams.length → ∃ tm : Team,
        s'.teams[p.ctrl]? = some tm ∧ tm.state = .ready ∧ tm.ctrl = some p.ctrl ∧ tm.part = some n ∧
        tm.pc = supPtr p.payload + BitVec.ofNat 64 (entryOf image))
    (∀ b, s.turn = .event (.deviceReset b) → boots .deviceReset b) ∧
    (∀ payload bad, s.turn = .event (.recoveryBootWrite 1 payload bad) → s.port.recovery = true →
      boots .recoveryBootWrite ⟨s.port.bufferImage, payload, bad⟩) ∧
    (∀ n r b, s.turn = .event (.partitionCreate n r b) → s.port.boot = 1 → n < 8 → NMap.find? s.parts n = none → s.specOk r = true →
      let code := checkImage b.image (fun k => r.keys[k]?) r.floor
      (partitionOf r b.payload b.image).holds b.payload (payloadOf b.image).length = true → ∃ s' : State, exec .partitionCreate s = .next s' ∧
        if code = 0 then NMap.find? s'.parts n = some (partitionOf r b.payload b.image) ∧ started s' n (partitionOf r b.payload b.image) b.image
        else s'.parts = s.parts ∧ NMap.find? s'.port.vfStatus (n + 1) = some code) ∧
    (∀ n image p, s.turn = .event (.partitionRestart n image) → NMap.find? s.parts n = some p →
      (p.running = true → (∀ k ∈ p.slots, (s.ctx k).killTooFar = false) → p.slots.Nodup →
        ∃ s' : State, exec .partitionRestart s = .next s' ∧ NMap.find? s'.parts n = some { p with running := false } ∧
          (∀ tm ∈ s'.teams, tm.ctrl.isSome = true → tm.part = some n → tm.state = .blocked) ∧
          ∀ k ∈ p.slots, (s'.ctx k).inc = (s.ctx k).inc + 1) ∧
      (p.running = false → s.partitionQuiet p = true →
        let code := checkImage image (fun k => p.keys[k]?) p.floor
        p.holds p.payload (payloadOf image).length = true → ∃ (s' : State) (p' : Partition),
          exec .partitionRestart s = .next s' ∧ NMap.find? s'.parts n = some p' ∧
          if code = 0 then p'.running = true ∧ p'.framesUsed = [] ∧ p'.slots = p.slots ∧ p'.version = versionOf image ∧
            p'.digest = digest64 (payloadOf image) ∧ started s' n p image ∧ ∀ k, (∃ r ∈ p.ranges, r.1 ≤ k ∧ k < r.1 + r.2) →
              (k < p.payload ∨ p.payload + (payloadOf image).length ≤ k) → s'.byte k = 0
          else p' = p ∧ NMap.find? s'.port.vfStatus (n + 1) = some code)) ∧
    (∀ i l, i < 16 → l < 8 →
      let x := s.island i
      let set (ins : Instr) : Prop := ∃ s' : State, exec ins s = .next s' ∧ s'.mem = s.mem ∧ (s'.island i).limit = l ∧ (s'.island i).request = x.request ∧
        (s'.island i).step = max x.request l ∧ (s'.island i).changing = (x.changing || decide (max x.request l ≠ x.step))
      (s.turn = .event (.islandLimitLower i l) → x.limit < l → set .islandLimitLower) ∧
      (s.turn = .event (.islandLimitRaise i l) → l < x.limit → set .islandLimitRaise)) ∧
    (∀ i, s.turn = .event (.islandStepChangeDone i) →
      exec .islandStepChangeDone s = .next (s.setIsland i { s.island i with changing := false }))

end
end

