-- ==== Sys2Proof/Laws/NMap.lean ====
section
/-!
SUPPORT. Laws of the sparse maps: reading after writing, and that every operation keeps the canonical form.
-/
namespace Sys2Proof.NMap

variable {α : Type}

/-! ## Reading after writing -/

@[simp] theorem find?_nil (k : Nat) : find? ([] : NMap α) k = none := rfl

theorem find?_cons (j : Nat) (v : α) (r : NMap α) (k : Nat) :
    find? ((j, v) :: r) k = if j = k then some v else find? r k := rfl

theorem find?_erase (m : NMap α) (k j : Nat) : find? (erase m k) j = if j = k then none else find? m j := by
  induction m with
  | nil => simp [erase]
  | cons e r ih =>
    obtain ⟨i, v⟩ := e
    by_cases h : i = k
    · subst h
      have : erase ((i, v) :: r) i = erase r i := by simp [erase]
      rw [this, ih, find?_cons]
      split
      · rfl
      · rename_i hne; rw [if_neg (fun h => hne h.symm)]
    · have : erase ((i, v) :: r) k = (i, v) :: erase r k := by simp [erase, h]
      rw [this, find?_cons, find?_cons, ih]
      by_cases hij : i = j
      · subst hij; simp [h]
      · simp [hij]

theorem find?_place (m : NMap α) (k : Nat) (v : α) (hk : find? m k = none) (j : Nat) :
    find? (place m k v) j = if k = j then some v else find? m j := by
  induction m with
  | nil => simp [place, find?_cons]
  | cons e r ih =>
    obtain ⟨i, w⟩ := e
    rw [find?_cons] at hk
    split at hk
    · cases hk
    · rename_i hik
      unfold place
      split
      · rw [find?_cons]
      · rw [find?_cons, ih hk, find?_cons]
        by_cases hkj : k = j
        · subst hkj; simp [hik]
        · simp [hkj]

theorem find?_insert (m : NMap α) (k : Nat) (v : α) (j : Nat) :
    find? (insert m k v) j = if k = j then some v else find? m j := by
  unfold insert
  rw [find?_place _ _ _ (by simp [find?_erase]), find?_erase]
  by_cases h : k = j
  · simp [h]
  · simp [h, Ne.symm h]

@[simp] theorem find?_insert_self (m : NMap α) (k : Nat) (v : α) : find? (insert m k v) k = some v := by
  simp [find?_insert]

theorem get_put [DecidableEq α] (m : NMap α) (d : α) (k : Nat) (v : α) (j : Nat) :
    get (put m d k v) d j = if k = j then v else get m d j := by
  unfold put get
  split
  · rename_i h
    rw [find?_erase]
    by_cases hk : k = j
    · simp [hk, h]
    · simp [hk, Ne.symm hk]
  · rw [find?_insert]
    split <;> rfl

@[simp] theorem get_put_self [DecidableEq α] (m : NMap α) (d : α) (k : Nat) (v : α) : get (put m d k v) d k = v := by
  simp [get_put]

theorem get_put_ne [DecidableEq α] (m : NMap α) (d : α) (k : Nat) (v : α) (j : Nat) (h : k ≠ j) :
    get (put m d k v) d j = get m d j := by simp [get_put, h]

/-! ## The canonical form -/

theorem wf_iff [DecidableEq α] (d : α) (m : NMap α) :
    wf d m = true ↔ m.Pairwise (fun a b => a.1 < b.1) ∧ ∀ e ∈ m, e.2 ≠ d := by
  induction m with
  | nil => simp [wf]
  | cons e r ih =>
    obtain ⟨j, v⟩ := e
    cases r with
    | nil => simp [wf]
    | cons f r =>
      obtain ⟨k, w⟩ := f
      have : wf d ((j, v) :: (k, w) :: r) = (j < k && v ≠ d && wf d ((k, w) :: r)) := rfl
      rw [this]
      simp only [Bool.and_eq_true, decide_eq_true_eq, ih]
      constructor
      · rintro ⟨⟨hjk, hv⟩, hp, he⟩
        refine ⟨List.pairwise_cons.2 ⟨?_, hp⟩, ?_⟩
        · intro a ha
          rcases List.mem_cons.1 ha with rfl | ha
          · exact hjk
          · exact Nat.lt_trans hjk (List.rel_of_pairwise_cons hp ha)
        · intro a ha
          rcases List.mem_cons.1 ha with rfl | ha
          · exact hv
          · exact he a ha
      · rintro ⟨hp, he⟩
        exact ⟨⟨List.rel_of_pairwise_cons hp (List.mem_cons_self ..), he _ (List.mem_cons_self ..)⟩, hp.of_cons,
        fun a ha => he a (List.mem_cons_of_mem _ ha)⟩

theorem wf_filter [DecidableEq α] (d : α) (m : NMap α) (p : Nat × α → Bool) (h : wf d m = true) :
    wf d (m.filter p) = true := by
  rw [wf_iff] at h ⊢
  exact ⟨h.1.filter p, fun e he => h.2 e (List.mem_of_mem_filter he)⟩

theorem wf_erase [DecidableEq α] (d : α) (m : NMap α) (k : Nat) (h : wf d m = true) : wf d (erase m k) = true :=
  wf_filter d m _ h

theorem mem_place (m : NMap α) (k : Nat) (v : α) (e : Nat × α) : e ∈ place m k v ↔ e = (k, v) ∨ e ∈ m := by
  induction m with
  | nil => simp [place]
  | cons f r ih =>
    obtain ⟨j, w⟩ := f
    unfold place
    split
    · simp
    · simp only [List.mem_cons, ih]; tauto

theorem wf_place [DecidableEq α] (d : α) (m : NMap α) (k : Nat) (v : α) (h : wf d m = true) (hv : v ≠ d)
    (hk : ∀ e ∈ m, e.1 ≠ k) : wf d (place m k v) = true := by
  rw [wf_iff] at h ⊢
  obtain ⟨hp, hd⟩ := h
  refine ⟨?_, fun e he => ?_⟩
  · induction m with
    | nil => simp [place]
    | cons f r ih =>
      obtain ⟨j, w⟩ := f
      unfold place
      split
      · rename_i hlt
        refine List.pairwise_cons.2 ⟨fun a ha => ?_, hp⟩
        rcases List.mem_cons.1 ha with rfl | ha
        · exact hlt
        · exact Nat.lt_trans hlt (List.rel_of_pairwise_cons hp ha)
      · rename_i hlt
        refine List.pairwise_cons.2 ⟨fun a ha => ?_, ih (fun a ha => hk a (List.mem_cons_of_mem _ ha)) hp.of_cons (fun a ha => hd a (List.mem_cons_of_mem _ ha))⟩
        rcases (mem_place r k v a).1 ha with rfl | ha
        · have := hk (j, w) (by simp); simp only [ne_eq] at this; simp only; omega
        · exact List.rel_of_pairwise_cons hp ha
  · rcases (mem_place m k v e).1 he with rfl | he
    · exact hv
    · exact hd e he

theorem wf_insert [DecidableEq α] (d : α) (m : NMap α) (k : Nat) (v : α) (h : wf d m = true) (hv : v ≠ d) :
    wf d (insert m k v) = true := by
  refine wf_place d _ k v (wf_erase d m k h) hv fun e he => ?_
  simpa [erase] using (List.mem_filter.1 he).2

theorem wf_put [DecidableEq α] (d : α) (m : NMap α) (k : Nat) (v : α) (h : wf d m = true) : wf d (put m d k v) = true := by
  unfold put
  split
  · exact wf_erase d m k h
  · rename_i hv; exact wf_insert d m k v h hv

end Sys2Proof.NMap
end

