-- ==== Sys2Proof/Laws/State.lean ====
section
/-!
SUPPORT. One lemma per field per update of the state and of a team, true by rfl.
-/
namespace Sys2Proof.Machine

variable (s : State) (tm : Team)

/-! ## `setCtx` -/

@[simp] theorem State.setCtx_turn (n : Nat) (x : Context) : (s.setCtx n x).turn = s.turn := rfl
@[simp] theorem State.setCtx_tick (n : Nat) (x : Context) : (s.setCtx n x).tick = s.tick := rfl
@[simp] theorem State.setCtx_clock (n : Nat) (x : Context) : (s.setCtx n x).clock = s.clock := rfl
@[simp] theorem State.setCtx_mem (n : Nat) (x : Context) : (s.setCtx n x).mem = s.mem := rfl
@[simp] theorem State.setCtx_stamps (n : Nat) (x : Context) : (s.setCtx n x).stamps = s.stamps := rfl
@[simp] theorem State.setCtx_slices (n : Nat) (x : Context) : (s.setCtx n x).slices = s.slices := rfl
@[simp] theorem State.setCtx_versions (n : Nat) (x : Context) : (s.setCtx n x).versions = s.versions := rfl
@[simp] theorem State.setCtx_l1 (n : Nat) (x : Context) : (s.setCtx n x).l1 = s.l1 := rfl
@[simp] theorem State.setCtx_icache (n : Nat) (x : Context) : (s.setCtx n x).icache = s.icache := rfl
@[simp] theorem State.setCtx_replicas (n : Nat) (x : Context) : (s.setCtx n x).replicas = s.replicas := rfl
@[simp] theorem State.setCtx_home (n : Nat) (x : Context) : (s.setCtx n x).home = s.home := rfl
@[simp] theorem State.setCtx_flight (n : Nat) (x : Context) : (s.setCtx n x).flight = s.flight := rfl
@[simp] theorem State.setCtx_resends (n : Nat) (x : Context) : (s.setCtx n x).resends = s.resends := rfl
@[simp] theorem State.setCtx_acks (n : Nat) (x : Context) : (s.setCtx n x).acks = s.acks := rfl
@[simp] theorem State.setCtx_pushes (n : Nat) (x : Context) : (s.setCtx n x).pushes = s.pushes := rfl
@[simp] theorem State.setCtx_notices (n : Nat) (x : Context) : (s.setCtx n x).notices = s.notices := rfl
@[simp] theorem State.setCtx_vclock (n : Nat) (x : Context) : (s.setCtx n x).vclock = s.vclock := rfl
@[simp] theorem State.setCtx_tlb (n : Nat) (x : Context) : (s.setCtx n x).tlb = s.tlb := rfl
@[simp] theorem State.setCtx_poison (n : Nat) (x : Context) : (s.setCtx n x).poison = s.poison := rfl
@[simp] theorem State.setCtx_corrected (n : Nat) (x : Context) : (s.setCtx n x).corrected = s.corrected := rfl
@[simp] theorem State.setCtx_drops (n : Nat) (x : Context) : (s.setCtx n x).drops = s.drops := rfl
@[simp] theorem State.setCtx_contexts (n : Nat) (x : Context) : (s.setCtx n x).contexts = NMap.insert s.contexts n x := rfl
@[simp] theorem State.setCtx_queues (n : Nat) (x : Context) : (s.setCtx n x).queues = s.queues := rfl
@[simp] theorem State.setCtx_teams (n : Nat) (x : Context) : (s.setCtx n x).teams = s.teams := rfl
@[simp] theorem State.setCtx_units (n : Nat) (x : Context) : (s.setCtx n x).units = s.units := rfl
@[simp] theorem State.setCtx_cores (n : Nat) (x : Context) : (s.setCtx n x).cores = s.cores := rfl
@[simp] theorem State.setCtx_clusters (n : Nat) (x : Context) : (s.setCtx n x).clusters = s.clusters := rfl
@[simp] theorem State.setCtx_acc (n : Nat) (x : Context) : (s.setCtx n x).acc = s.acc := rfl
@[simp] theorem State.setCtx_ce (n : Nat) (x : Context) : (s.setCtx n x).ce = s.ce := rfl
@[simp] theorem State.setCtx_lateActions (n : Nat) (x : Context) : (s.setCtx n x).lateActions = s.lateActions := rfl
@[simp] theorem State.setCtx_walks (n : Nat) (x : Context) : (s.setCtx n x).walks = s.walks := rfl
@[simp] theorem State.setCtx_migrations (n : Nat) (x : Context) : (s.setCtx n x).migrations = s.migrations := rfl
@[simp] theorem State.setCtx_late (n : Nat) (x : Context) : (s.setCtx n x).late = s.late := rfl
@[simp] theorem State.setCtx_reserved (n : Nat) (x : Context) : (s.setCtx n x).reserved = s.reserved := rfl
@[simp] theorem State.setCtx_islands (n : Nat) (x : Context) : (s.setCtx n x).islands = s.islands := rfl
@[simp] theorem State.setCtx_modules (n : Nat) (x : Context) : (s.setCtx n x).modules = s.modules := rfl
@[simp] theorem State.setCtx_pairs (n : Nat) (x : Context) : (s.setCtx n x).pairs = s.pairs := rfl
@[simp] theorem State.setCtx_parts (n : Nat) (x : Context) : (s.setCtx n x).parts = s.parts := rfl
@[simp] theorem State.setCtx_withheld (n : Nat) (x : Context) : (s.setCtx n x).withheld = s.withheld := rfl
@[simp] theorem State.setCtx_channels (n : Nat) (x : Context) : (s.setCtx n x).channels = s.channels := rfl
@[simp] theorem State.setCtx_audits (n : Nat) (x : Context) : (s.setCtx n x).audits = s.audits := rfl
@[simp] theorem State.setCtx_posts (n : Nat) (x : Context) : (s.setCtx n x).posts = s.posts := rfl
@[simp] theorem State.setCtx_posted (n : Nat) (x : Context) : (s.setCtx n x).posted = s.posted := rfl
@[simp] theorem State.setCtx_stray (n : Nat) (x : Context) : (s.setCtx n x).stray = s.stray := rfl
@[simp] theorem State.setCtx_joins (n : Nat) (x : Context) : (s.setCtx n x).joins = s.joins := rfl
@[simp] theorem State.setCtx_port (n : Nat) (x : Context) : (s.setCtx n x).port = s.port := rfl
@[simp] theorem State.setCtx_hostData (n : Nat) (x : Context) : (s.setCtx n x).hostData = s.hostData := rfl
@[simp] theorem State.setCtx_stageVersion (n : Nat) (x : Context) : (s.setCtx n x).stageVersion = s.stageVersion := rfl
@[simp] theorem State.setCtx_stageDigest (n : Nat) (x : Context) : (s.setCtx n x).stageDigest = s.stageDigest := rfl

/-! ## `setTeam` -/

@[simp] theorem State.setTeam_turn (n : Nat) (x : Team) : (s.setTeam n x).turn = s.turn := rfl
@[simp] theorem State.setTeam_tick (n : Nat) (x : Team) : (s.setTeam n x).tick = s.tick := rfl
@[simp] theorem State.setTeam_clock (n : Nat) (x : Team) : (s.setTeam n x).clock = s.clock := rfl
@[simp] theorem State.setTeam_mem (n : Nat) (x : Team) : (s.setTeam n x).mem = s.mem := rfl
@[simp] theorem State.setTeam_stamps (n : Nat) (x : Team) : (s.setTeam n x).stamps = s.stamps := rfl
@[simp] theorem State.setTeam_slices (n : Nat) (x : Team) : (s.setTeam n x).slices = s.slices := rfl
@[simp] theorem State.setTeam_versions (n : Nat) (x : Team) : (s.setTeam n x).versions = s.versions := rfl
@[simp] theorem State.setTeam_l1 (n : Nat) (x : Team) : (s.setTeam n x).l1 = s.l1 := rfl
@[simp] theorem State.setTeam_icache (n : Nat) (x : Team) : (s.setTeam n x).icache = s.icache := rfl
@[simp] theorem State.setTeam_replicas (n : Nat) (x : Team) : (s.setTeam n x).replicas = s.replicas := rfl
@[simp] theorem State.setTeam_home (n : Nat) (x : Team) : (s.setTeam n x).home = s.home := rfl
@[simp] theorem State.setTeam_flight (n : Nat) (x : Team) : (s.setTeam n x).flight = s.flight := rfl
@[simp] theorem State.setTeam_resends (n : Nat) (x : Team) : (s.setTeam n x).resends = s.resends := rfl
@[simp] theorem State.setTeam_acks (n : Nat) (x : Team) : (s.setTeam n x).acks = s.acks := rfl
@[simp] theorem State.setTeam_pushes (n : Nat) (x : Team) : (s.setTeam n x).pushes = s.pushes := rfl
@[simp] theorem State.setTeam_notices (n : Nat) (x : Team) : (s.setTeam n x).notices = s.notices := rfl
@[simp] theorem State.setTeam_vclock (n : Nat) (x : Team) : (s.setTeam n x).vclock = s.vclock := rfl
@[simp] theorem State.setTeam_tlb (n : Nat) (x : Team) : (s.setTeam n x).tlb = s.tlb := rfl
@[simp] theorem State.setTeam_poison (n : Nat) (x : Team) : (s.setTeam n x).poison = s.poison := rfl
@[simp] theorem State.setTeam_corrected (n : Nat) (x : Team) : (s.setTeam n x).corrected = s.corrected := rfl
@[simp] theorem State.setTeam_drops (n : Nat) (x : Team) : (s.setTeam n x).drops = s.drops := rfl
@[simp] theorem State.setTeam_contexts (n : Nat) (x : Team) : (s.setTeam n x).contexts = s.contexts := rfl
@[simp] theorem State.setTeam_queues (n : Nat) (x : Team) : (s.setTeam n x).queues = s.queues := rfl
@[simp] theorem State.setTeam_teams (n : Nat) (x : Team) : (s.setTeam n x).teams = s.teams.set n x := rfl
@[simp] theorem State.setTeam_units (n : Nat) (x : Team) : (s.setTeam n x).units = s.units := rfl
@[simp] theorem State.setTeam_cores (n : Nat) (x : Team) : (s.setTeam n x).cores = s.cores := rfl
@[simp] theorem State.setTeam_clusters (n : Nat) (x : Team) : (s.setTeam n x).clusters = s.clusters := rfl
@[simp] theorem State.setTeam_acc (n : Nat) (x : Team) : (s.setTeam n x).acc = s.acc := rfl
@[simp] theorem State.setTeam_ce (n : Nat) (x : Team) : (s.setTeam n x).ce = s.ce := rfl
@[simp] theorem State.setTeam_lateActions (n : Nat) (x : Team) : (s.setTeam n x).lateActions = s.lateActions := rfl
@[simp] theorem State.setTeam_walks (n : Nat) (x : Team) : (s.setTeam n x).walks = s.walks := rfl
@[simp] theorem State.setTeam_migrations (n : Nat) (x : Team) : (s.setTeam n x).migrations = s.migrations := rfl
@[simp] theorem State.setTeam_late (n : Nat) (x : Team) : (s.setTeam n x).late = s.late := rfl
@[simp] theorem State.setTeam_reserved (n : Nat) (x : Team) : (s.setTeam n x).reserved = s.reserved := rfl
@[simp] theorem State.setTeam_islands (n : Nat) (x : Team) : (s.setTeam n x).islands = s.islands := rfl
@[simp] theorem State.setTeam_modules (n : Nat) (x : Team) : (s.setTeam n x).modules = s.modules := rfl
@[simp] theorem State.setTeam_pairs (n : Nat) (x : Team) : (s.setTeam n x).pairs = s.pairs := rfl
@[simp] theorem State.setTeam_parts (n : Nat) (x : Team) : (s.setTeam n x).parts = s.parts := rfl
@[simp] theorem State.setTeam_withheld (n : Nat) (x : Team) : (s.setTeam n x).withheld = s.withheld := rfl
@[simp] theorem State.setTeam_channels (n : Nat) (x : Team) : (s.setTeam n x).channels = s.channels := rfl
@[simp] theorem State.setTeam_audits (n : Nat) (x : Team) : (s.setTeam n x).audits = s.audits := rfl
@[simp] theorem State.setTeam_posts (n : Nat) (x : Team) : (s.setTeam n x).posts = s.posts := rfl
@[simp] theorem State.setTeam_posted (n : Nat) (x : Team) : (s.setTeam n x).posted = s.posted := rfl
@[simp] theorem State.setTeam_stray (n : Nat) (x : Team) : (s.setTeam n x).stray = s.stray := rfl
@[simp] theorem State.setTeam_joins (n : Nat) (x : Team) : (s.setTeam n x).joins = s.joins := rfl
@[simp] theorem State.setTeam_port (n : Nat) (x : Team) : (s.setTeam n x).port = s.port := rfl
@[simp] theorem State.setTeam_hostData (n : Nat) (x : Team) : (s.setTeam n x).hostData = s.hostData := rfl
@[simp] theorem State.setTeam_stageVersion (n : Nat) (x : Team) : (s.setTeam n x).stageVersion = s.stageVersion := rfl
@[simp] theorem State.setTeam_stageDigest (n : Nat) (x : Team) : (s.setTeam n x).stageDigest = s.stageDigest := rfl

/-! ## `setUnit` -/

@[simp] theorem State.setUnit_turn (n : Nat) (x : LUnit) : (s.setUnit n x).turn = s.turn := rfl
@[simp] theorem State.setUnit_tick (n : Nat) (x : LUnit) : (s.setUnit n x).tick = s.tick := rfl
@[simp] theorem State.setUnit_clock (n : Nat) (x : LUnit) : (s.setUnit n x).clock = s.clock := rfl
@[simp] theorem State.setUnit_mem (n : Nat) (x : LUnit) : (s.setUnit n x).mem = s.mem := rfl
@[simp] theorem State.setUnit_stamps (n : Nat) (x : LUnit) : (s.setUnit n x).stamps = s.stamps := rfl
@[simp] theorem State.setUnit_slices (n : Nat) (x : LUnit) : (s.setUnit n x).slices = s.slices := rfl
@[simp] theorem State.setUnit_versions (n : Nat) (x : LUnit) : (s.setUnit n x).versions = s.versions := rfl
@[simp] theorem State.setUnit_l1 (n : Nat) (x : LUnit) : (s.setUnit n x).l1 = s.l1 := rfl
@[simp] theorem State.setUnit_icache (n : Nat) (x : LUnit) : (s.setUnit n x).icache = s.icache := rfl
@[simp] theorem State.setUnit_replicas (n : Nat) (x : LUnit) : (s.setUnit n x).replicas = s.replicas := rfl
@[simp] theorem State.setUnit_home (n : Nat) (x : LUnit) : (s.setUnit n x).home = s.home := rfl
@[simp] theorem State.setUnit_flight (n : Nat) (x : LUnit) : (s.setUnit n x).flight = s.flight := rfl
@[simp] theorem State.setUnit_resends (n : Nat) (x : LUnit) : (s.setUnit n x).resends = s.resends := rfl
@[simp] theorem State.setUnit_acks (n : Nat) (x : LUnit) : (s.setUnit n x).acks = s.acks := rfl
@[simp] theorem State.setUnit_pushes (n : Nat) (x : LUnit) : (s.setUnit n x).pushes = s.pushes := rfl
@[simp] theorem State.setUnit_notices (n : Nat) (x : LUnit) : (s.setUnit n x).notices = s.notices := rfl
@[simp] theorem State.setUnit_vclock (n : Nat) (x : LUnit) : (s.setUnit n x).vclock = s.vclock := rfl
@[simp] theorem State.setUnit_tlb (n : Nat) (x : LUnit) : (s.setUnit n x).tlb = s.tlb := rfl
@[simp] theorem State.setUnit_poison (n : Nat) (x : LUnit) : (s.setUnit n x).poison = s.poison := rfl
@[simp] theorem State.setUnit_corrected (n : Nat) (x : LUnit) : (s.setUnit n x).corrected = s.corrected := rfl
@[simp] theorem State.setUnit_drops (n : Nat) (x : LUnit) : (s.setUnit n x).drops = s.drops := rfl
@[simp] theorem State.setUnit_contexts (n : Nat) (x : LUnit) : (s.setUnit n x).contexts = s.contexts := rfl
@[simp] theorem State.setUnit_queues (n : Nat) (x : LUnit) : (s.setUnit n x).queues = s.queues := rfl
@[simp] theorem State.setUnit_teams (n : Nat) (x : LUnit) : (s.setUnit n x).teams = s.teams := rfl
@[simp] theorem State.setUnit_units (n : Nat) (x : LUnit) : (s.setUnit n x).units = s.units.set n x := rfl
@[simp] theorem State.setUnit_cores (n : Nat) (x : LUnit) : (s.setUnit n x).cores = s.cores := rfl
@[simp] theorem State.setUnit_clusters (n : Nat) (x : LUnit) : (s.setUnit n x).clusters = s.clusters := rfl
@[simp] theorem State.setUnit_acc (n : Nat) (x : LUnit) : (s.setUnit n x).acc = s.acc := rfl
@[simp] theorem State.setUnit_ce (n : Nat) (x : LUnit) : (s.setUnit n x).ce = s.ce := rfl
@[simp] theorem State.setUnit_lateActions (n : Nat) (x : LUnit) : (s.setUnit n x).lateActions = s.lateActions := rfl
@[simp] theorem State.setUnit_walks (n : Nat) (x : LUnit) : (s.setUnit n x).walks = s.walks := rfl
@[simp] theorem State.setUnit_migrations (n : Nat) (x : LUnit) : (s.setUnit n x).migrations = s.migrations := rfl
@[simp] theorem State.setUnit_late (n : Nat) (x : LUnit) : (s.setUnit n x).late = s.late := rfl
@[simp] theorem State.setUnit_reserved (n : Nat) (x : LUnit) : (s.setUnit n x).reserved = s.reserved := rfl
@[simp] theorem State.setUnit_islands (n : Nat) (x : LUnit) : (s.setUnit n x).islands = s.islands := rfl
@[simp] theorem State.setUnit_modules (n : Nat) (x : LUnit) : (s.setUnit n x).modules = s.modules := rfl
@[simp] theorem State.setUnit_pairs (n : Nat) (x : LUnit) : (s.setUnit n x).pairs = s.pairs := rfl
@[simp] theorem State.setUnit_parts (n : Nat) (x : LUnit) : (s.setUnit n x).parts = s.parts := rfl
@[simp] theorem State.setUnit_withheld (n : Nat) (x : LUnit) : (s.setUnit n x).withheld = s.withheld := rfl
@[simp] theorem State.setUnit_channels (n : Nat) (x : LUnit) : (s.setUnit n x).channels = s.channels := rfl
@[simp] theorem State.setUnit_audits (n : Nat) (x : LUnit) : (s.setUnit n x).audits = s.audits := rfl
@[simp] theorem State.setUnit_posts (n : Nat) (x : LUnit) : (s.setUnit n x).posts = s.posts := rfl
@[simp] theorem State.setUnit_posted (n : Nat) (x : LUnit) : (s.setUnit n x).posted = s.posted := rfl
@[simp] theorem State.setUnit_stray (n : Nat) (x : LUnit) : (s.setUnit n x).stray = s.stray := rfl
@[simp] theorem State.setUnit_joins (n : Nat) (x : LUnit) : (s.setUnit n x).joins = s.joins := rfl
@[simp] theorem State.setUnit_port (n : Nat) (x : LUnit) : (s.setUnit n x).port = s.port := rfl
@[simp] theorem State.setUnit_hostData (n : Nat) (x : LUnit) : (s.setUnit n x).hostData = s.hostData := rfl
@[simp] theorem State.setUnit_stageVersion (n : Nat) (x : LUnit) : (s.setUnit n x).stageVersion = s.stageVersion := rfl
@[simp] theorem State.setUnit_stageDigest (n : Nat) (x : LUnit) : (s.setUnit n x).stageDigest = s.stageDigest := rfl

/-! ## `setCluster` -/

@[simp] theorem State.setCluster_turn (n : Nat) (x : Cluster) : (s.setCluster n x).turn = s.turn := rfl
@[simp] theorem State.setCluster_tick (n : Nat) (x : Cluster) : (s.setCluster n x).tick = s.tick := rfl
@[simp] theorem State.setCluster_clock (n : Nat) (x : Cluster) : (s.setCluster n x).clock = s.clock := rfl
@[simp] theorem State.setCluster_mem (n : Nat) (x : Cluster) : (s.setCluster n x).mem = s.mem := rfl
@[simp] theorem State.setCluster_stamps (n : Nat) (x : Cluster) : (s.setCluster n x).stamps = s.stamps := rfl
@[simp] theorem State.setCluster_slices (n : Nat) (x : Cluster) : (s.setCluster n x).slices = s.slices := rfl
@[simp] theorem State.setCluster_versions (n : Nat) (x : Cluster) : (s.setCluster n x).versions = s.versions := rfl
@[simp] theorem State.setCluster_l1 (n : Nat) (x : Cluster) : (s.setCluster n x).l1 = s.l1 := rfl
@[simp] theorem State.setCluster_icache (n : Nat) (x : Cluster) : (s.setCluster n x).icache = s.icache := rfl
@[simp] theorem State.setCluster_replicas (n : Nat) (x : Cluster) : (s.setCluster n x).replicas = s.replicas := rfl
@[simp] theorem State.setCluster_home (n : Nat) (x : Cluster) : (s.setCluster n x).home = s.home := rfl
@[simp] theorem State.setCluster_flight (n : Nat) (x : Cluster) : (s.setCluster n x).flight = s.flight := rfl
@[simp] theorem State.setCluster_resends (n : Nat) (x : Cluster) : (s.setCluster n x).resends = s.resends := rfl
@[simp] theorem State.setCluster_acks (n : Nat) (x : Cluster) : (s.setCluster n x).acks = s.acks := rfl
@[simp] theorem State.setCluster_pushes (n : Nat) (x : Cluster) : (s.setCluster n x).pushes = s.pushes := rfl
@[simp] theorem State.setCluster_notices (n : Nat) (x : Cluster) : (s.setCluster n x).notices = s.notices := rfl
@[simp] theorem State.setCluster_vclock (n : Nat) (x : Cluster) : (s.setCluster n x).vclock = s.vclock := rfl
@[simp] theorem State.setCluster_tlb (n : Nat) (x : Cluster) : (s.setCluster n x).tlb = s.tlb := rfl
@[simp] theorem State.setCluster_poison (n : Nat) (x : Cluster) : (s.setCluster n x).poison = s.poison := rfl
@[simp] theorem State.setCluster_corrected (n : Nat) (x : Cluster) : (s.setCluster n x).corrected = s.corrected := rfl
@[simp] theorem State.setCluster_drops (n : Nat) (x : Cluster) : (s.setCluster n x).drops = s.drops := rfl
@[simp] theorem State.setCluster_contexts (n : Nat) (x : Cluster) : (s.setCluster n x).contexts = s.contexts := rfl
@[simp] theorem State.setCluster_queues (n : Nat) (x : Cluster) : (s.setCluster n x).queues = s.queues := rfl
@[simp] theorem State.setCluster_teams (n : Nat) (x : Cluster) : (s.setCluster n x).teams = s.teams := rfl
@[simp] theorem State.setCluster_units (n : Nat) (x : Cluster) : (s.setCluster n x).units = s.units := rfl
@[simp] theorem State.setCluster_cores (n : Nat) (x : Cluster) : (s.setCluster n x).cores = s.cores := rfl
@[simp] theorem State.setCluster_clusters (n : Nat) (x : Cluster) : (s.setCluster n x).clusters = NMap.insert s.clusters n x := rfl
@[simp] theorem State.setCluster_acc (n : Nat) (x : Cluster) : (s.setCluster n x).acc = s.acc := rfl
@[simp] theorem State.setCluster_ce (n : Nat) (x : Cluster) : (s.setCluster n x).ce = s.ce := rfl
@[simp] theorem State.setCluster_lateActions (n : Nat) (x : Cluster) : (s.setCluster n x).lateActions = s.lateActions := rfl
@[simp] theorem State.setCluster_walks (n : Nat) (x : Cluster) : (s.setCluster n x).walks = s.walks := rfl
@[simp] theorem State.setCluster_migrations (n : Nat) (x : Cluster) : (s.setCluster n x).migrations = s.migrations := rfl
@[simp] theorem State.setCluster_late (n : Nat) (x : Cluster) : (s.setCluster n x).late = s.late := rfl
@[simp] theorem State.setCluster_reserved (n : Nat) (x : Cluster) : (s.setCluster n x).reserved = s.reserved := rfl
@[simp] theorem State.setCluster_islands (n : Nat) (x : Cluster) : (s.setCluster n x).islands = s.islands := rfl
@[simp] theorem State.setCluster_modules (n : Nat) (x : Cluster) : (s.setCluster n x).modules = s.modules := rfl
@[simp] theorem State.setCluster_pairs (n : Nat) (x : Cluster) : (s.setCluster n x).pairs = s.pairs := rfl
@[simp] theorem State.setCluster_parts (n : Nat) (x : Cluster) : (s.setCluster n x).parts = s.parts := rfl
@[simp] theorem State.setCluster_withheld (n : Nat) (x : Cluster) : (s.setCluster n x).withheld = s.withheld := rfl
@[simp] theorem State.setCluster_channels (n : Nat) (x : Cluster) : (s.setCluster n x).channels = s.channels := rfl
@[simp] theorem State.setCluster_audits (n : Nat) (x : Cluster) : (s.setCluster n x).audits = s.audits := rfl
@[simp] theorem State.setCluster_posts (n : Nat) (x : Cluster) : (s.setCluster n x).posts = s.posts := rfl
@[simp] theorem State.setCluster_posted (n : Nat) (x : Cluster) : (s.setCluster n x).posted = s.posted := rfl
@[simp] theorem State.setCluster_stray (n : Nat) (x : Cluster) : (s.setCluster n x).stray = s.stray := rfl
@[simp] theorem State.setCluster_joins (n : Nat) (x : Cluster) : (s.setCluster n x).joins = s.joins := rfl
@[simp] theorem State.setCluster_port (n : Nat) (x : Cluster) : (s.setCluster n x).port = s.port := rfl
@[simp] theorem State.setCluster_hostData (n : Nat) (x : Cluster) : (s.setCluster n x).hostData = s.hostData := rfl
@[simp] theorem State.setCluster_stageVersion (n : Nat) (x : Cluster) : (s.setCluster n x).stageVersion = s.stageVersion := rfl
@[simp] theorem State.setCluster_stageDigest (n : Nat) (x : Cluster) : (s.setCluster n x).stageDigest = s.stageDigest := rfl

/-! ## `setCore` -/

@[simp] theorem State.setCore_turn (n : Nat) (x : Core) : (s.setCore n x).turn = s.turn := rfl
@[simp] theorem State.setCore_tick (n : Nat) (x : Core) : (s.setCore n x).tick = s.tick := rfl
@[simp] theorem State.setCore_clock (n : Nat) (x : Core) : (s.setCore n x).clock = s.clock := rfl
@[simp] theorem State.setCore_mem (n : Nat) (x : Core) : (s.setCore n x).mem = s.mem := rfl
@[simp] theorem State.setCore_stamps (n : Nat) (x : Core) : (s.setCore n x).stamps = s.stamps := rfl
@[simp] theorem State.setCore_slices (n : Nat) (x : Core) : (s.setCore n x).slices = s.slices := rfl
@[simp] theorem State.setCore_versions (n : Nat) (x : Core) : (s.setCore n x).versions = s.versions := rfl
@[simp] theorem State.setCore_l1 (n : Nat) (x : Core) : (s.setCore n x).l1 = s.l1 := rfl
@[simp] theorem State.setCore_icache (n : Nat) (x : Core) : (s.setCore n x).icache = s.icache := rfl
@[simp] theorem State.setCore_replicas (n : Nat) (x : Core) : (s.setCore n x).replicas = s.replicas := rfl
@[simp] theorem State.setCore_home (n : Nat) (x : Core) : (s.setCore n x).home = s.home := rfl
@[simp] theorem State.setCore_flight (n : Nat) (x : Core) : (s.setCore n x).flight = s.flight := rfl
@[simp] theorem State.setCore_resends (n : Nat) (x : Core) : (s.setCore n x).resends = s.resends := rfl
@[simp] theorem State.setCore_acks (n : Nat) (x : Core) : (s.setCore n x).acks = s.acks := rfl
@[simp] theorem State.setCore_pushes (n : Nat) (x : Core) : (s.setCore n x).pushes = s.pushes := rfl
@[simp] theorem State.setCore_notices (n : Nat) (x : Core) : (s.setCore n x).notices = s.notices := rfl
@[simp] theorem State.setCore_vclock (n : Nat) (x : Core) : (s.setCore n x).vclock = s.vclock := rfl
@[simp] theorem State.setCore_tlb (n : Nat) (x : Core) : (s.setCore n x).tlb = s.tlb := rfl
@[simp] theorem State.setCore_poison (n : Nat) (x : Core) : (s.setCore n x).poison = s.poison := rfl
@[simp] theorem State.setCore_corrected (n : Nat) (x : Core) : (s.setCore n x).corrected = s.corrected := rfl
@[simp] theorem State.setCore_drops (n : Nat) (x : Core) : (s.setCore n x).drops = s.drops := rfl
@[simp] theorem State.setCore_contexts (n : Nat) (x : Core) : (s.setCore n x).contexts = s.contexts := rfl
@[simp] theorem State.setCore_queues (n : Nat) (x : Core) : (s.setCore n x).queues = s.queues := rfl
@[simp] theorem State.setCore_teams (n : Nat) (x : Core) : (s.setCore n x).teams = s.teams := rfl
@[simp] theorem State.setCore_units (n : Nat) (x : Core) : (s.setCore n x).units = s.units := rfl
@[simp] theorem State.setCore_cores (n : Nat) (x : Core) : (s.setCore n x).cores = NMap.insert s.cores n x := rfl
@[simp] theorem State.setCore_clusters (n : Nat) (x : Core) : (s.setCore n x).clusters = s.clusters := rfl
@[simp] theorem State.setCore_acc (n : Nat) (x : Core) : (s.setCore n x).acc = s.acc := rfl
@[simp] theorem State.setCore_ce (n : Nat) (x : Core) : (s.setCore n x).ce = s.ce := rfl
@[simp] theorem State.setCore_lateActions (n : Nat) (x : Core) : (s.setCore n x).lateActions = s.lateActions := rfl
@[simp] theorem State.setCore_walks (n : Nat) (x : Core) : (s.setCore n x).walks = s.walks := rfl
@[simp] theorem State.setCore_migrations (n : Nat) (x : Core) : (s.setCore n x).migrations = s.migrations := rfl
@[simp] theorem State.setCore_late (n : Nat) (x : Core) : (s.setCore n x).late = s.late := rfl
@[simp] theorem State.setCore_reserved (n : Nat) (x : Core) : (s.setCore n x).reserved = s.reserved := rfl
@[simp] theorem State.setCore_islands (n : Nat) (x : Core) : (s.setCore n x).islands = s.islands := rfl
@[simp] theorem State.setCore_modules (n : Nat) (x : Core) : (s.setCore n x).modules = s.modules := rfl
@[simp] theorem State.setCore_pairs (n : Nat) (x : Core) : (s.setCore n x).pairs = s.pairs := rfl
@[simp] theorem State.setCore_parts (n : Nat) (x : Core) : (s.setCore n x).parts = s.parts := rfl
@[simp] theorem State.setCore_withheld (n : Nat) (x : Core) : (s.setCore n x).withheld = s.withheld := rfl
@[simp] theorem State.setCore_channels (n : Nat) (x : Core) : (s.setCore n x).channels = s.channels := rfl
@[simp] theorem State.setCore_audits (n : Nat) (x : Core) : (s.setCore n x).audits = s.audits := rfl
@[simp] theorem State.setCore_posts (n : Nat) (x : Core) : (s.setCore n x).posts = s.posts := rfl
@[simp] theorem State.setCore_posted (n : Nat) (x : Core) : (s.setCore n x).posted = s.posted := rfl
@[simp] theorem State.setCore_stray (n : Nat) (x : Core) : (s.setCore n x).stray = s.stray := rfl
@[simp] theorem State.setCore_joins (n : Nat) (x : Core) : (s.setCore n x).joins = s.joins := rfl
@[simp] theorem State.setCore_port (n : Nat) (x : Core) : (s.setCore n x).port = s.port := rfl
@[simp] theorem State.setCore_hostData (n : Nat) (x : Core) : (s.setCore n x).hostData = s.hostData := rfl
@[simp] theorem State.setCore_stageVersion (n : Nat) (x : Core) : (s.setCore n x).stageVersion = s.stageVersion := rfl
@[simp] theorem State.setCore_stageDigest (n : Nat) (x : Core) : (s.setCore n x).stageDigest = s.stageDigest := rfl

/-! ## `setIsland` -/

@[simp] theorem State.setIsland_turn (n : Nat) (x : Island) : (s.setIsland n x).turn = s.turn := rfl
@[simp] theorem State.setIsland_tick (n : Nat) (x : Island) : (s.setIsland n x).tick = s.tick := rfl
@[simp] theorem State.setIsland_clock (n : Nat) (x : Island) : (s.setIsland n x).clock = s.clock := rfl
@[simp] theorem State.setIsland_mem (n : Nat) (x : Island) : (s.setIsland n x).mem = s.mem := rfl
@[simp] theorem State.setIsland_stamps (n : Nat) (x : Island) : (s.setIsland n x).stamps = s.stamps := rfl
@[simp] theorem State.setIsland_slices (n : Nat) (x : Island) : (s.setIsland n x).slices = s.slices := rfl
@[simp] theorem State.setIsland_versions (n : Nat) (x : Island) : (s.setIsland n x).versions = s.versions := rfl
@[simp] theorem State.setIsland_l1 (n : Nat) (x : Island) : (s.setIsland n x).l1 = s.l1 := rfl
@[simp] theorem State.setIsland_icache (n : Nat) (x : Island) : (s.setIsland n x).icache = s.icache := rfl
@[simp] theorem State.setIsland_replicas (n : Nat) (x : Island) : (s.setIsland n x).replicas = s.replicas := rfl
@[simp] theorem State.setIsland_home (n : Nat) (x : Island) : (s.setIsland n x).home = s.home := rfl
@[simp] theorem State.setIsland_flight (n : Nat) (x : Island) : (s.setIsland n x).flight = s.flight := rfl
@[simp] theorem State.setIsland_resends (n : Nat) (x : Island) : (s.setIsland n x).resends = s.resends := rfl
@[simp] theorem State.setIsland_acks (n : Nat) (x : Island) : (s.setIsland n x).acks = s.acks := rfl
@[simp] theorem State.setIsland_pushes (n : Nat) (x : Island) : (s.setIsland n x).pushes = s.pushes := rfl
@[simp] theorem State.setIsland_notices (n : Nat) (x : Island) : (s.setIsland n x).notices = s.notices := rfl
@[simp] theorem State.setIsland_vclock (n : Nat) (x : Island) : (s.setIsland n x).vclock = s.vclock := rfl
@[simp] theorem State.setIsland_tlb (n : Nat) (x : Island) : (s.setIsland n x).tlb = s.tlb := rfl
@[simp] theorem State.setIsland_poison (n : Nat) (x : Island) : (s.setIsland n x).poison = s.poison := rfl
@[simp] theorem State.setIsland_corrected (n : Nat) (x : Island) : (s.setIsland n x).corrected = s.corrected := rfl
@[simp] theorem State.setIsland_drops (n : Nat) (x : Island) : (s.setIsland n x).drops = s.drops := rfl
@[simp] theorem State.setIsland_contexts (n : Nat) (x : Island) : (s.setIsland n x).contexts = s.contexts := rfl
@[simp] theorem State.setIsland_queues (n : Nat) (x : Island) : (s.setIsland n x).queues = s.queues := rfl
@[simp] theorem State.setIsland_teams (n : Nat) (x : Island) : (s.setIsland n x).teams = s.teams := rfl
@[simp] theorem State.setIsland_units (n : Nat) (x : Island) : (s.setIsland n x).units = s.units := rfl
@[simp] theorem State.setIsland_cores (n : Nat) (x : Island) : (s.setIsland n x).cores = s.cores := rfl
@[simp] theorem State.setIsland_clusters (n : Nat) (x : Island) : (s.setIsland n x).clusters = s.clusters := rfl
@[simp] theorem State.setIsland_acc (n : Nat) (x : Island) : (s.setIsland n x).acc = s.acc := rfl
@[simp] theorem State.setIsland_ce (n : Nat) (x : Island) : (s.setIsland n x).ce = s.ce := rfl
@[simp] theorem State.setIsland_lateActions (n : Nat) (x : Island) : (s.setIsland n x).lateActions = s.lateActions := rfl
@[simp] theorem State.setIsland_walks (n : Nat) (x : Island) : (s.setIsland n x).walks = s.walks := rfl
@[simp] theorem State.setIsland_migrations (n : Nat) (x : Island) : (s.setIsland n x).migrations = s.migrations := rfl
@[simp] theorem State.setIsland_late (n : Nat) (x : Island) : (s.setIsland n x).late = s.late := rfl
@[simp] theorem State.setIsland_reserved (n : Nat) (x : Island) : (s.setIsland n x).reserved = s.reserved := rfl
@[simp] theorem State.setIsland_islands (n : Nat) (x : Island) : (s.setIsland n x).islands = NMap.insert s.islands n x := rfl
@[simp] theorem State.setIsland_modules (n : Nat) (x : Island) : (s.setIsland n x).modules = s.modules := rfl
@[simp] theorem State.setIsland_pairs (n : Nat) (x : Island) : (s.setIsland n x).pairs = s.pairs := rfl
@[simp] theorem State.setIsland_parts (n : Nat) (x : Island) : (s.setIsland n x).parts = s.parts := rfl
@[simp] theorem State.setIsland_withheld (n : Nat) (x : Island) : (s.setIsland n x).withheld = s.withheld := rfl
@[simp] theorem State.setIsland_channels (n : Nat) (x : Island) : (s.setIsland n x).channels = s.channels := rfl
@[simp] theorem State.setIsland_audits (n : Nat) (x : Island) : (s.setIsland n x).audits = s.audits := rfl
@[simp] theorem State.setIsland_posts (n : Nat) (x : Island) : (s.setIsland n x).posts = s.posts := rfl
@[simp] theorem State.setIsland_posted (n : Nat) (x : Island) : (s.setIsland n x).posted = s.posted := rfl
@[simp] theorem State.setIsland_stray (n : Nat) (x : Island) : (s.setIsland n x).stray = s.stray := rfl
@[simp] theorem State.setIsland_joins (n : Nat) (x : Island) : (s.setIsland n x).joins = s.joins := rfl
@[simp] theorem State.setIsland_port (n : Nat) (x : Island) : (s.setIsland n x).port = s.port := rfl
@[simp] theorem State.setIsland_hostData (n : Nat) (x : Island) : (s.setIsland n x).hostData = s.hostData := rfl
@[simp] theorem State.setIsland_stageVersion (n : Nat) (x : Island) : (s.setIsland n x).stageVersion = s.stageVersion := rfl
@[simp] theorem State.setIsland_stageDigest (n : Nat) (x : Island) : (s.setIsland n x).stageDigest = s.stageDigest := rfl

/-! ## `setCeq` -/

@[simp] theorem State.setCeq_turn (n q : Nat) (x : CeQueue) : (s.setCeq n q x).turn = s.turn := rfl
@[simp] theorem State.setCeq_tick (n q : Nat) (x : CeQueue) : (s.setCeq n q x).tick = s.tick := rfl
@[simp] theorem State.setCeq_clock (n q : Nat) (x : CeQueue) : (s.setCeq n q x).clock = s.clock := rfl
@[simp] theorem State.setCeq_mem (n q : Nat) (x : CeQueue) : (s.setCeq n q x).mem = s.mem := rfl
@[simp] theorem State.setCeq_stamps (n q : Nat) (x : CeQueue) : (s.setCeq n q x).stamps = s.stamps := rfl
@[simp] theorem State.setCeq_slices (n q : Nat) (x : CeQueue) : (s.setCeq n q x).slices = s.slices := rfl
@[simp] theorem State.setCeq_versions (n q : Nat) (x : CeQueue) : (s.setCeq n q x).versions = s.versions := rfl
@[simp] theorem State.setCeq_l1 (n q : Nat) (x : CeQueue) : (s.setCeq n q x).l1 = s.l1 := rfl
@[simp] theorem State.setCeq_icache (n q : Nat) (x : CeQueue) : (s.setCeq n q x).icache = s.icache := rfl
@[simp] theorem State.setCeq_replicas (n q : Nat) (x : CeQueue) : (s.setCeq n q x).replicas = s.replicas := rfl
@[simp] theorem State.setCeq_home (n q : Nat) (x : CeQueue) : (s.setCeq n q x).home = s.home := rfl
@[simp] theorem State.setCeq_flight (n q : Nat) (x : CeQueue) : (s.setCeq n q x).flight = s.flight := rfl
@[simp] theorem State.setCeq_resends (n q : Nat) (x : CeQueue) : (s.setCeq n q x).resends = s.resends := rfl
@[simp] theorem State.setCeq_acks (n q : Nat) (x : CeQueue) : (s.setCeq n q x).acks = s.acks := rfl
@[simp] theorem State.setCeq_pushes (n q : Nat) (x : CeQueue) : (s.setCeq n q x).pushes = s.pushes := rfl
@[simp] theorem State.setCeq_notices (n q : Nat) (x : CeQueue) : (s.setCeq n q x).notices = s.notices := rfl
@[simp] theorem State.setCeq_vclock (n q : Nat) (x : CeQueue) : (s.setCeq n q x).vclock = s.vclock := rfl
@[simp] theorem State.setCeq_tlb (n q : Nat) (x : CeQueue) : (s.setCeq n q x).tlb = s.tlb := rfl
@[simp] theorem State.setCeq_poison (n q : Nat) (x : CeQueue) : (s.setCeq n q x).poison = s.poison := rfl
@[simp] theorem State.setCeq_corrected (n q : Nat) (x : CeQueue) : (s.setCeq n q x).corrected = s.corrected := rfl
@[simp] theorem State.setCeq_drops (n q : Nat) (x : CeQueue) : (s.setCeq n q x).drops = s.drops := rfl
@[simp] theorem State.setCeq_contexts (n q : Nat) (x : CeQueue) : (s.setCeq n q x).contexts = s.contexts := rfl
@[simp] theorem State.setCeq_queues (n q : Nat) (x : CeQueue) : (s.setCeq n q x).queues = s.queues := rfl
@[simp] theorem State.setCeq_teams (n q : Nat) (x : CeQueue) : (s.setCeq n q x).teams = s.teams := rfl
@[simp] theorem State.setCeq_units (n q : Nat) (x : CeQueue) : (s.setCeq n q x).units = s.units := rfl
@[simp] theorem State.setCeq_cores (n q : Nat) (x : CeQueue) : (s.setCeq n q x).cores = s.cores := rfl
@[simp] theorem State.setCeq_clusters (n q : Nat) (x : CeQueue) : (s.setCeq n q x).clusters = s.clusters := rfl
@[simp] theorem State.setCeq_acc (n q : Nat) (x : CeQueue) : (s.setCeq n q x).acc = s.acc := rfl
@[simp] theorem State.setCeq_ce (n q : Nat) (x : CeQueue) : (s.setCeq n q x).ce = NMap.insert s.ce (4 * n + q) x := rfl
@[simp] theorem State.setCeq_lateActions (n q : Nat) (x : CeQueue) : (s.setCeq n q x).lateActions = s.lateActions := rfl
@[simp] theorem State.setCeq_walks (n q : Nat) (x : CeQueue) : (s.setCeq n q x).walks = s.walks := rfl
@[simp] theorem State.setCeq_migrations (n q : Nat) (x : CeQueue) : (s.setCeq n q x).migrations = s.migrations := rfl
@[simp] theorem State.setCeq_late (n q : Nat) (x : CeQueue) : (s.setCeq n q x).late = s.late := rfl
@[simp] theorem State.setCeq_reserved (n q : Nat) (x : CeQueue) : (s.setCeq n q x).reserved = s.reserved := rfl
@[simp] theorem State.setCeq_islands (n q : Nat) (x : CeQueue) : (s.setCeq n q x).islands = s.islands := rfl
@[simp] theorem State.setCeq_modules (n q : Nat) (x : CeQueue) : (s.setCeq n q x).modules = s.modules := rfl
@[simp] theorem State.setCeq_pairs (n q : Nat) (x : CeQueue) : (s.setCeq n q x).pairs = s.pairs := rfl
@[simp] theorem State.setCeq_parts (n q : Nat) (x : CeQueue) : (s.setCeq n q x).parts = s.parts := rfl
@[simp] theorem State.setCeq_withheld (n q : Nat) (x : CeQueue) : (s.setCeq n q x).withheld = s.withheld := rfl
@[simp] theorem State.setCeq_channels (n q : Nat) (x : CeQueue) : (s.setCeq n q x).channels = s.channels := rfl
@[simp] theorem State.setCeq_audits (n q : Nat) (x : CeQueue) : (s.setCeq n q x).audits = s.audits := rfl
@[simp] theorem State.setCeq_posts (n q : Nat) (x : CeQueue) : (s.setCeq n q x).posts = s.posts := rfl
@[simp] theorem State.setCeq_posted (n q : Nat) (x : CeQueue) : (s.setCeq n q x).posted = s.posted := rfl
@[simp] theorem State.setCeq_stray (n q : Nat) (x : CeQueue) : (s.setCeq n q x).stray = s.stray := rfl
@[simp] theorem State.setCeq_joins (n q : Nat) (x : CeQueue) : (s.setCeq n q x).joins = s.joins := rfl
@[simp] theorem State.setCeq_port (n q : Nat) (x : CeQueue) : (s.setCeq n q x).port = s.port := rfl
@[simp] theorem State.setCeq_hostData (n q : Nat) (x : CeQueue) : (s.setCeq n q x).hostData = s.hostData := rfl
@[simp] theorem State.setCeq_stageVersion (n q : Nat) (x : CeQueue) : (s.setCeq n q x).stageVersion = s.stageVersion := rfl
@[simp] theorem State.setCeq_stageDigest (n q : Nat) (x : CeQueue) : (s.setCeq n q x).stageDigest = s.stageDigest := rfl

/-! ## `setModule` -/

@[simp] theorem State.setModule_turn (n m : Nat) (x : Module) : (s.setModule n m x).turn = s.turn := rfl
@[simp] theorem State.setModule_tick (n m : Nat) (x : Module) : (s.setModule n m x).tick = s.tick := rfl
@[simp] theorem State.setModule_clock (n m : Nat) (x : Module) : (s.setModule n m x).clock = s.clock := rfl
@[simp] theorem State.setModule_mem (n m : Nat) (x : Module) : (s.setModule n m x).mem = s.mem := rfl
@[simp] theorem State.setModule_stamps (n m : Nat) (x : Module) : (s.setModule n m x).stamps = s.stamps := rfl
@[simp] theorem State.setModule_slices (n m : Nat) (x : Module) : (s.setModule n m x).slices = s.slices := rfl
@[simp] theorem State.setModule_versions (n m : Nat) (x : Module) : (s.setModule n m x).versions = s.versions := rfl
@[simp] theorem State.setModule_l1 (n m : Nat) (x : Module) : (s.setModule n m x).l1 = s.l1 := rfl
@[simp] theorem State.setModule_icache (n m : Nat) (x : Module) : (s.setModule n m x).icache = s.icache := rfl
@[simp] theorem State.setModule_replicas (n m : Nat) (x : Module) : (s.setModule n m x).replicas = s.replicas := rfl
@[simp] theorem State.setModule_home (n m : Nat) (x : Module) : (s.setModule n m x).home = s.home := rfl
@[simp] theorem State.setModule_flight (n m : Nat) (x : Module) : (s.setModule n m x).flight = s.flight := rfl
@[simp] theorem State.setModule_resends (n m : Nat) (x : Module) : (s.setModule n m x).resends = s.resends := rfl
@[simp] theorem State.setModule_acks (n m : Nat) (x : Module) : (s.setModule n m x).acks = s.acks := rfl
@[simp] theorem State.setModule_pushes (n m : Nat) (x : Module) : (s.setModule n m x).pushes = s.pushes := rfl
@[simp] theorem State.setModule_notices (n m : Nat) (x : Module) : (s.setModule n m x).notices = s.notices := rfl
@[simp] theorem State.setModule_vclock (n m : Nat) (x : Module) : (s.setModule n m x).vclock = s.vclock := rfl
@[simp] theorem State.setModule_tlb (n m : Nat) (x : Module) : (s.setModule n m x).tlb = s.tlb := rfl
@[simp] theorem State.setModule_poison (n m : Nat) (x : Module) : (s.setModule n m x).poison = s.poison := rfl
@[simp] theorem State.setModule_corrected (n m : Nat) (x : Module) : (s.setModule n m x).corrected = s.corrected := rfl
@[simp] theorem State.setModule_drops (n m : Nat) (x : Module) : (s.setModule n m x).drops = s.drops := rfl
@[simp] theorem State.setModule_contexts (n m : Nat) (x : Module) : (s.setModule n m x).contexts = s.contexts := rfl
@[simp] theorem State.setModule_queues (n m : Nat) (x : Module) : (s.setModule n m x).queues = s.queues := rfl
@[simp] theorem State.setModule_teams (n m : Nat) (x : Module) : (s.setModule n m x).teams = s.teams := rfl
@[simp] theorem State.setModule_units (n m : Nat) (x : Module) : (s.setModule n m x).units = s.units := rfl
@[simp] theorem State.setModule_cores (n m : Nat) (x : Module) : (s.setModule n m x).cores = s.cores := rfl
@[simp] theorem State.setModule_clusters (n m : Nat) (x : Module) : (s.setModule n m x).clusters = s.clusters := rfl
@[simp] theorem State.setModule_acc (n m : Nat) (x : Module) : (s.setModule n m x).acc = s.acc := rfl
@[simp] theorem State.setModule_ce (n m : Nat) (x : Module) : (s.setModule n m x).ce = s.ce := rfl
@[simp] theorem State.setModule_lateActions (n m : Nat) (x : Module) : (s.setModule n m x).lateActions = s.lateActions := rfl
@[simp] theorem State.setModule_walks (n m : Nat) (x : Module) : (s.setModule n m x).walks = s.walks := rfl
@[simp] theorem State.setModule_migrations (n m : Nat) (x : Module) : (s.setModule n m x).migrations = s.migrations := rfl
@[simp] theorem State.setModule_late (n m : Nat) (x : Module) : (s.setModule n m x).late = s.late := rfl
@[simp] theorem State.setModule_reserved (n m : Nat) (x : Module) : (s.setModule n m x).reserved = s.reserved := rfl
@[simp] theorem State.setModule_islands (n m : Nat) (x : Module) : (s.setModule n m x).islands = s.islands := rfl
@[simp] theorem State.setModule_modules (n m : Nat) (x : Module) : (s.setModule n m x).modules = NMap.insert s.modules (18 * n + m) x := rfl
@[simp] theorem State.setModule_pairs (n m : Nat) (x : Module) : (s.setModule n m x).pairs = s.pairs := rfl
@[simp] theorem State.setModule_parts (n m : Nat) (x : Module) : (s.setModule n m x).parts = s.parts := rfl
@[simp] theorem State.setModule_withheld (n m : Nat) (x : Module) : (s.setModule n m x).withheld = s.withheld := rfl
@[simp] theorem State.setModule_channels (n m : Nat) (x : Module) : (s.setModule n m x).channels = s.channels := rfl
@[simp] theorem State.setModule_audits (n m : Nat) (x : Module) : (s.setModule n m x).audits = s.audits := rfl
@[simp] theorem State.setModule_posts (n m : Nat) (x : Module) : (s.setModule n m x).posts = s.posts := rfl
@[simp] theorem State.setModule_posted (n m : Nat) (x : Module) : (s.setModule n m x).posted = s.posted := rfl
@[simp] theorem State.setModule_stray (n m : Nat) (x : Module) : (s.setModule n m x).stray = s.stray := rfl
@[simp] theorem State.setModule_joins (n m : Nat) (x : Module) : (s.setModule n m x).joins = s.joins := rfl
@[simp] theorem State.setModule_port (n m : Nat) (x : Module) : (s.setModule n m x).port = s.port := rfl
@[simp] theorem State.setModule_hostData (n m : Nat) (x : Module) : (s.setModule n m x).hostData = s.hostData := rfl
@[simp] theorem State.setModule_stageVersion (n m : Nat) (x : Module) : (s.setModule n m x).stageVersion = s.stageVersion := rfl
@[simp] theorem State.setModule_stageDigest (n m : Nat) (x : Module) : (s.setModule n m x).stageDigest = s.stageDigest := rfl

/-! ## `setPair` -/

@[simp] theorem State.setPair_turn (a b : Nat) (x : PairState) : (s.setPair a b x).turn = s.turn := rfl
@[simp] theorem State.setPair_tick (a b : Nat) (x : PairState) : (s.setPair a b x).tick = s.tick := rfl
@[simp] theorem State.setPair_clock (a b : Nat) (x : PairState) : (s.setPair a b x).clock = s.clock := rfl
@[simp] theorem State.setPair_mem (a b : Nat) (x : PairState) : (s.setPair a b x).mem = s.mem := rfl
@[simp] theorem State.setPair_stamps (a b : Nat) (x : PairState) : (s.setPair a b x).stamps = s.stamps := rfl
@[simp] theorem State.setPair_slices (a b : Nat) (x : PairState) : (s.setPair a b x).slices = s.slices := rfl
@[simp] theorem State.setPair_versions (a b : Nat) (x : PairState) : (s.setPair a b x).versions = s.versions := rfl
@[simp] theorem State.setPair_l1 (a b : Nat) (x : PairState) : (s.setPair a b x).l1 = s.l1 := rfl
@[simp] theorem State.setPair_icache (a b : Nat) (x : PairState) : (s.setPair a b x).icache = s.icache := rfl
@[simp] theorem State.setPair_replicas (a b : Nat) (x : PairState) : (s.setPair a b x).replicas = s.replicas := rfl
@[simp] theorem State.setPair_home (a b : Nat) (x : PairState) : (s.setPair a b x).home = s.home := rfl
@[simp] theorem State.setPair_flight (a b : Nat) (x : PairState) : (s.setPair a b x).flight = s.flight := rfl
@[simp] theorem State.setPair_resends (a b : Nat) (x : PairState) : (s.setPair a b x).resends = s.resends := rfl
@[simp] theorem State.setPair_acks (a b : Nat) (x : PairState) : (s.setPair a b x).acks = s.acks := rfl
@[simp] theorem State.setPair_pushes (a b : Nat) (x : PairState) : (s.setPair a b x).pushes = s.pushes := rfl
@[simp] theorem State.setPair_notices (a b : Nat) (x : PairState) : (s.setPair a b x).notices = s.notices := rfl
@[simp] theorem State.setPair_vclock (a b : Nat) (x : PairState) : (s.setPair a b x).vclock = s.vclock := rfl
@[simp] theorem State.setPair_tlb (a b : Nat) (x : PairState) : (s.setPair a b x).tlb = s.tlb := rfl
@[simp] theorem State.setPair_poison (a b : Nat) (x : PairState) : (s.setPair a b x).poison = s.poison := rfl
@[simp] theorem State.setPair_corrected (a b : Nat) (x : PairState) : (s.setPair a b x).corrected = s.corrected := rfl
@[simp] theorem State.setPair_drops (a b : Nat) (x : PairState) : (s.setPair a b x).drops = s.drops := rfl
@[simp] theorem State.setPair_contexts (a b : Nat) (x : PairState) : (s.setPair a b x).contexts = s.contexts := rfl
@[simp] theorem State.setPair_queues (a b : Nat) (x : PairState) : (s.setPair a b x).queues = s.queues := rfl
@[simp] theorem State.setPair_teams (a b : Nat) (x : PairState) : (s.setPair a b x).teams = s.teams := rfl
@[simp] theorem State.setPair_units (a b : Nat) (x : PairState) : (s.setPair a b x).units = s.units := rfl
@[simp] theorem State.setPair_cores (a b : Nat) (x : PairState) : (s.setPair a b x).cores = s.cores := rfl
@[simp] theorem State.setPair_clusters (a b : Nat) (x : PairState) : (s.setPair a b x).clusters = s.clusters := rfl
@[simp] theorem State.setPair_acc (a b : Nat) (x : PairState) : (s.setPair a b x).acc = s.acc := rfl
@[simp] theorem State.setPair_ce (a b : Nat) (x : PairState) : (s.setPair a b x).ce = s.ce := rfl
@[simp] theorem State.setPair_lateActions (a b : Nat) (x : PairState) : (s.setPair a b x).lateActions = s.lateActions := rfl
@[simp] theorem State.setPair_walks (a b : Nat) (x : PairState) : (s.setPair a b x).walks = s.walks := rfl
@[simp] theorem State.setPair_migrations (a b : Nat) (x : PairState) : (s.setPair a b x).migrations = s.migrations := rfl
@[simp] theorem State.setPair_late (a b : Nat) (x : PairState) : (s.setPair a b x).late = s.late := rfl
@[simp] theorem State.setPair_reserved (a b : Nat) (x : PairState) : (s.setPair a b x).reserved = s.reserved := rfl
@[simp] theorem State.setPair_islands (a b : Nat) (x : PairState) : (s.setPair a b x).islands = s.islands := rfl
@[simp] theorem State.setPair_modules (a b : Nat) (x : PairState) : (s.setPair a b x).modules = s.modules := rfl
@[simp] theorem State.setPair_pairs (a b : Nat) (x : PairState) : (s.setPair a b x).pairs = NMap.insert s.pairs (4 * a + b) x := rfl
@[simp] theorem State.setPair_parts (a b : Nat) (x : PairState) : (s.setPair a b x).parts = s.parts := rfl
@[simp] theorem State.setPair_withheld (a b : Nat) (x : PairState) : (s.setPair a b x).withheld = s.withheld := rfl
@[simp] theorem State.setPair_channels (a b : Nat) (x : PairState) : (s.setPair a b x).channels = s.channels := rfl
@[simp] theorem State.setPair_audits (a b : Nat) (x : PairState) : (s.setPair a b x).audits = s.audits := rfl
@[simp] theorem State.setPair_posts (a b : Nat) (x : PairState) : (s.setPair a b x).posts = s.posts := rfl
@[simp] theorem State.setPair_posted (a b : Nat) (x : PairState) : (s.setPair a b x).posted = s.posted := rfl
@[simp] theorem State.setPair_stray (a b : Nat) (x : PairState) : (s.setPair a b x).stray = s.stray := rfl
@[simp] theorem State.setPair_joins (a b : Nat) (x : PairState) : (s.setPair a b x).joins = s.joins := rfl
@[simp] theorem State.setPair_port (a b : Nat) (x : PairState) : (s.setPair a b x).port = s.port := rfl
@[simp] theorem State.setPair_hostData (a b : Nat) (x : PairState) : (s.setPair a b x).hostData = s.hostData := rfl
@[simp] theorem State.setPair_stageVersion (a b : Nat) (x : PairState) : (s.setPair a b x).stageVersion = s.stageVersion := rfl
@[simp] theorem State.setPair_stageDigest (a b : Nat) (x : PairState) : (s.setPair a b x).stageDigest = s.stageDigest := rfl

/-! ## `setQueue` -/

@[simp] theorem State.setQueue_turn (n : Nat) (x : Queue) : (s.setQueue n x).turn = s.turn := rfl
@[simp] theorem State.setQueue_tick (n : Nat) (x : Queue) : (s.setQueue n x).tick = s.tick := rfl
@[simp] theorem State.setQueue_clock (n : Nat) (x : Queue) : (s.setQueue n x).clock = s.clock := rfl
@[simp] theorem State.setQueue_mem (n : Nat) (x : Queue) : (s.setQueue n x).mem = s.mem := rfl
@[simp] theorem State.setQueue_stamps (n : Nat) (x : Queue) : (s.setQueue n x).stamps = s.stamps := rfl
@[simp] theorem State.setQueue_slices (n : Nat) (x : Queue) : (s.setQueue n x).slices = s.slices := rfl
@[simp] theorem State.setQueue_versions (n : Nat) (x : Queue) : (s.setQueue n x).versions = s.versions := rfl
@[simp] theorem State.setQueue_l1 (n : Nat) (x : Queue) : (s.setQueue n x).l1 = s.l1 := rfl
@[simp] theorem State.setQueue_icache (n : Nat) (x : Queue) : (s.setQueue n x).icache = s.icache := rfl
@[simp] theorem State.setQueue_replicas (n : Nat) (x : Queue) : (s.setQueue n x).replicas = s.replicas := rfl
@[simp] theorem State.setQueue_home (n : Nat) (x : Queue) : (s.setQueue n x).home = s.home := rfl
@[simp] theorem State.setQueue_flight (n : Nat) (x : Queue) : (s.setQueue n x).flight = s.flight := rfl
@[simp] theorem State.setQueue_resends (n : Nat) (x : Queue) : (s.setQueue n x).resends = s.resends := rfl
@[simp] theorem State.setQueue_acks (n : Nat) (x : Queue) : (s.setQueue n x).acks = s.acks := rfl
@[simp] theorem State.setQueue_pushes (n : Nat) (x : Queue) : (s.setQueue n x).pushes = s.pushes := rfl
@[simp] theorem State.setQueue_notices (n : Nat) (x : Queue) : (s.setQueue n x).notices = s.notices := rfl
@[simp] theorem State.setQueue_vclock (n : Nat) (x : Queue) : (s.setQueue n x).vclock = s.vclock := rfl
@[simp] theorem State.setQueue_tlb (n : Nat) (x : Queue) : (s.setQueue n x).tlb = s.tlb := rfl
@[simp] theorem State.setQueue_poison (n : Nat) (x : Queue) : (s.setQueue n x).poison = s.poison := rfl
@[simp] theorem State.setQueue_corrected (n : Nat) (x : Queue) : (s.setQueue n x).corrected = s.corrected := rfl
@[simp] theorem State.setQueue_drops (n : Nat) (x : Queue) : (s.setQueue n x).drops = s.drops := rfl
@[simp] theorem State.setQueue_contexts (n : Nat) (x : Queue) : (s.setQueue n x).contexts = s.contexts := rfl
@[simp] theorem State.setQueue_queues (n : Nat) (x : Queue) : (s.setQueue n x).queues = NMap.insert s.queues n x := rfl
@[simp] theorem State.setQueue_teams (n : Nat) (x : Queue) : (s.setQueue n x).teams = s.teams := rfl
@[simp] theorem State.setQueue_units (n : Nat) (x : Queue) : (s.setQueue n x).units = s.units := rfl
@[simp] theorem State.setQueue_cores (n : Nat) (x : Queue) : (s.setQueue n x).cores = s.cores := rfl
@[simp] theorem State.setQueue_clusters (n : Nat) (x : Queue) : (s.setQueue n x).clusters = s.clusters := rfl
@[simp] theorem State.setQueue_acc (n : Nat) (x : Queue) : (s.setQueue n x).acc = s.acc := rfl
@[simp] theorem State.setQueue_ce (n : Nat) (x : Queue) : (s.setQueue n x).ce = s.ce := rfl
@[simp] theorem State.setQueue_lateActions (n : Nat) (x : Queue) : (s.setQueue n x).lateActions = s.lateActions := rfl
@[simp] theorem State.setQueue_walks (n : Nat) (x : Queue) : (s.setQueue n x).walks = s.walks := rfl
@[simp] theorem State.setQueue_migrations (n : Nat) (x : Queue) : (s.setQueue n x).migrations = s.migrations := rfl
@[simp] theorem State.setQueue_late (n : Nat) (x : Queue) : (s.setQueue n x).late = s.late := rfl
@[simp] theorem State.setQueue_reserved (n : Nat) (x : Queue) : (s.setQueue n x).reserved = s.reserved := rfl
@[simp] theorem State.setQueue_islands (n : Nat) (x : Queue) : (s.setQueue n x).islands = s.islands := rfl
@[simp] theorem State.setQueue_modules (n : Nat) (x : Queue) : (s.setQueue n x).modules = s.modules := rfl
@[simp] theorem State.setQueue_pairs (n : Nat) (x : Queue) : (s.setQueue n x).pairs = s.pairs := rfl
@[simp] theorem State.setQueue_parts (n : Nat) (x : Queue) : (s.setQueue n x).parts = s.parts := rfl
@[simp] theorem State.setQueue_withheld (n : Nat) (x : Queue) : (s.setQueue n x).withheld = s.withheld := rfl
@[simp] theorem State.setQueue_channels (n : Nat) (x : Queue) : (s.setQueue n x).channels = s.channels := rfl
@[simp] theorem State.setQueue_audits (n : Nat) (x : Queue) : (s.setQueue n x).audits = s.audits := rfl
@[simp] theorem State.setQueue_posts (n : Nat) (x : Queue) : (s.setQueue n x).posts = s.posts := rfl
@[simp] theorem State.setQueue_posted (n : Nat) (x : Queue) : (s.setQueue n x).posted = s.posted := rfl
@[simp] theorem State.setQueue_stray (n : Nat) (x : Queue) : (s.setQueue n x).stray = s.stray := rfl
@[simp] theorem State.setQueue_joins (n : Nat) (x : Queue) : (s.setQueue n x).joins = s.joins := rfl
@[simp] theorem State.setQueue_port (n : Nat) (x : Queue) : (s.setQueue n x).port = s.port := rfl
@[simp] theorem State.setQueue_hostData (n : Nat) (x : Queue) : (s.setQueue n x).hostData = s.hostData := rfl
@[simp] theorem State.setQueue_stageVersion (n : Nat) (x : Queue) : (s.setQueue n x).stageVersion = s.stageVersion := rfl
@[simp] theorem State.setQueue_stageDigest (n : Nat) (x : Queue) : (s.setQueue n x).stageDigest = s.stageDigest := rfl

/-! ## `post` -/

@[simp] theorem State.post_turn (x : Post) : (s.post x).turn = s.turn := rfl
@[simp] theorem State.post_tick (x : Post) : (s.post x).tick = s.tick := rfl
@[simp] theorem State.post_clock (x : Post) : (s.post x).clock = s.clock := rfl
@[simp] theorem State.post_mem (x : Post) : (s.post x).mem = s.mem := rfl
@[simp] theorem State.post_stamps (x : Post) : (s.post x).stamps = s.stamps := rfl
@[simp] theorem State.post_slices (x : Post) : (s.post x).slices = s.slices := rfl
@[simp] theorem State.post_versions (x : Post) : (s.post x).versions = s.versions := rfl
@[simp] theorem State.post_l1 (x : Post) : (s.post x).l1 = s.l1 := rfl
@[simp] theorem State.post_icache (x : Post) : (s.post x).icache = s.icache := rfl
@[simp] theorem State.post_replicas (x : Post) : (s.post x).replicas = s.replicas := rfl
@[simp] theorem State.post_home (x : Post) : (s.post x).home = s.home := rfl
@[simp] theorem State.post_flight (x : Post) : (s.post x).flight = s.flight := rfl
@[simp] theorem State.post_resends (x : Post) : (s.post x).resends = s.resends := rfl
@[simp] theorem State.post_acks (x : Post) : (s.post x).acks = s.acks := rfl
@[simp] theorem State.post_pushes (x : Post) : (s.post x).pushes = s.pushes := rfl
@[simp] theorem State.post_notices (x : Post) : (s.post x).notices = s.notices := rfl
@[simp] theorem State.post_vclock (x : Post) : (s.post x).vclock = s.vclock := rfl
@[simp] theorem State.post_tlb (x : Post) : (s.post x).tlb = s.tlb := rfl
@[simp] theorem State.post_poison (x : Post) : (s.post x).poison = s.poison := rfl
@[simp] theorem State.post_corrected (x : Post) : (s.post x).corrected = s.corrected := rfl
@[simp] theorem State.post_drops (x : Post) : (s.post x).drops = s.drops := rfl
@[simp] theorem State.post_contexts (x : Post) : (s.post x).contexts = s.contexts := rfl
@[simp] theorem State.post_queues (x : Post) : (s.post x).queues = s.queues := rfl
@[simp] theorem State.post_teams (x : Post) : (s.post x).teams = s.teams := rfl
@[simp] theorem State.post_units (x : Post) : (s.post x).units = s.units := rfl
@[simp] theorem State.post_cores (x : Post) : (s.post x).cores = s.cores := rfl
@[simp] theorem State.post_clusters (x : Post) : (s.post x).clusters = s.clusters := rfl
@[simp] theorem State.post_acc (x : Post) : (s.post x).acc = s.acc := rfl
@[simp] theorem State.post_ce (x : Post) : (s.post x).ce = s.ce := rfl
@[simp] theorem State.post_lateActions (x : Post) : (s.post x).lateActions = s.lateActions := rfl
@[simp] theorem State.post_walks (x : Post) : (s.post x).walks = s.walks := rfl
@[simp] theorem State.post_migrations (x : Post) : (s.post x).migrations = s.migrations := rfl
@[simp] theorem State.post_late (x : Post) : (s.post x).late = s.late := rfl
@[simp] theorem State.post_reserved (x : Post) : (s.post x).reserved = s.reserved := rfl
@[simp] theorem State.post_islands (x : Post) : (s.post x).islands = s.islands := rfl
@[simp] theorem State.post_modules (x : Post) : (s.post x).modules = s.modules := rfl
@[simp] theorem State.post_pairs (x : Post) : (s.post x).pairs = s.pairs := rfl
@[simp] theorem State.post_parts (x : Post) : (s.post x).parts = s.parts := rfl
@[simp] theorem State.post_withheld (x : Post) : (s.post x).withheld = s.withheld := rfl
@[simp] theorem State.post_channels (x : Post) : (s.post x).channels = s.channels := rfl
@[simp] theorem State.post_audits (x : Post) : (s.post x).audits = s.audits := rfl
@[simp] theorem State.post_posts (x : Post) : (s.post x).posts = s.posts ++ [x] := rfl
@[simp] theorem State.post_posted (x : Post) : (s.post x).posted = s.posted := rfl
@[simp] theorem State.post_stray (x : Post) : (s.post x).stray = s.stray := rfl
@[simp] theorem State.post_joins (x : Post) : (s.post x).joins = s.joins := rfl
@[simp] theorem State.post_port (x : Post) : (s.post x).port = s.port := rfl
@[simp] theorem State.post_hostData (x : Post) : (s.post x).hostData = s.hostData := rfl
@[simp] theorem State.post_stageVersion (x : Post) : (s.post x).stageVersion = s.stageVersion := rfl
@[simp] theorem State.post_stageDigest (x : Post) : (s.post x).stageDigest = s.stageDigest := rfl

/-! ## `countDrop` -/

@[simp] theorem State.countDrop_turn (n k : Nat) : (s.countDrop n k).turn = s.turn := rfl
@[simp] theorem State.countDrop_tick (n k : Nat) : (s.countDrop n k).tick = s.tick := rfl
@[simp] theorem State.countDrop_clock (n k : Nat) : (s.countDrop n k).clock = s.clock := rfl
@[simp] theorem State.countDrop_mem (n k : Nat) : (s.countDrop n k).mem = s.mem := rfl
@[simp] theorem State.countDrop_stamps (n k : Nat) : (s.countDrop n k).stamps = s.stamps := rfl
@[simp] theorem State.countDrop_slices (n k : Nat) : (s.countDrop n k).slices = s.slices := rfl
@[simp] theorem State.countDrop_versions (n k : Nat) : (s.countDrop n k).versions = s.versions := rfl
@[simp] theorem State.countDrop_l1 (n k : Nat) : (s.countDrop n k).l1 = s.l1 := rfl
@[simp] theorem State.countDrop_icache (n k : Nat) : (s.countDrop n k).icache = s.icache := rfl
@[simp] theorem State.countDrop_replicas (n k : Nat) : (s.countDrop n k).replicas = s.replicas := rfl
@[simp] theorem State.countDrop_home (n k : Nat) : (s.countDrop n k).home = s.home := rfl
@[simp] theorem State.countDrop_flight (n k : Nat) : (s.countDrop n k).flight = s.flight := rfl
@[simp] theorem State.countDrop_resends (n k : Nat) : (s.countDrop n k).resends = s.resends := rfl
@[simp] theorem State.countDrop_acks (n k : Nat) : (s.countDrop n k).acks = s.acks := rfl
@[simp] theorem State.countDrop_pushes (n k : Nat) : (s.countDrop n k).pushes = s.pushes := rfl
@[simp] theorem State.countDrop_notices (n k : Nat) : (s.countDrop n k).notices = s.notices := rfl
@[simp] theorem State.countDrop_vclock (n k : Nat) : (s.countDrop n k).vclock = s.vclock := rfl
@[simp] theorem State.countDrop_tlb (n k : Nat) : (s.countDrop n k).tlb = s.tlb := rfl
@[simp] theorem State.countDrop_poison (n k : Nat) : (s.countDrop n k).poison = s.poison := rfl
@[simp] theorem State.countDrop_corrected (n k : Nat) : (s.countDrop n k).corrected = s.corrected := rfl
@[simp] theorem State.countDrop_contexts (n k : Nat) : (s.countDrop n k).contexts = s.contexts := rfl
@[simp] theorem State.countDrop_queues (n k : Nat) : (s.countDrop n k).queues = s.queues := rfl
@[simp] theorem State.countDrop_teams (n k : Nat) : (s.countDrop n k).teams = s.teams := rfl
@[simp] theorem State.countDrop_units (n k : Nat) : (s.countDrop n k).units = s.units := rfl
@[simp] theorem State.countDrop_cores (n k : Nat) : (s.countDrop n k).cores = s.cores := rfl
@[simp] theorem State.countDrop_clusters (n k : Nat) : (s.countDrop n k).clusters = s.clusters := rfl
@[simp] theorem State.countDrop_acc (n k : Nat) : (s.countDrop n k).acc = s.acc := rfl
@[simp] theorem State.countDrop_ce (n k : Nat) : (s.countDrop n k).ce = s.ce := rfl
@[simp] theorem State.countDrop_lateActions (n k : Nat) : (s.countDrop n k).lateActions = s.lateActions := rfl
@[simp] theorem State.countDrop_walks (n k : Nat) : (s.countDrop n k).walks = s.walks := rfl
@[simp] theorem State.countDrop_migrations (n k : Nat) : (s.countDrop n k).migrations = s.migrations := rfl
@[simp] theorem State.countDrop_late (n k : Nat) : (s.countDrop n k).late = s.late := rfl
@[simp] theorem State.countDrop_reserved (n k : Nat) : (s.countDrop n k).reserved = s.reserved := rfl
@[simp] theorem State.countDrop_islands (n k : Nat) : (s.countDrop n k).islands = s.islands := rfl
@[simp] theorem State.countDrop_modules (n k : Nat) : (s.countDrop n k).modules = s.modules := rfl
@[simp] theorem State.countDrop_pairs (n k : Nat) : (s.countDrop n k).pairs = s.pairs := rfl
@[simp] theorem State.countDrop_parts (n k : Nat) : (s.countDrop n k).parts = s.parts := rfl
@[simp] theorem State.countDrop_withheld (n k : Nat) : (s.countDrop n k).withheld = s.withheld := rfl
@[simp] theorem State.countDrop_channels (n k : Nat) : (s.countDrop n k).channels = s.channels := rfl
@[simp] theorem State.countDrop_audits (n k : Nat) : (s.countDrop n k).audits = s.audits := rfl
@[simp] theorem State.countDrop_posts (n k : Nat) : (s.countDrop n k).posts = s.posts := rfl
@[simp] theorem State.countDrop_posted (n k : Nat) : (s.countDrop n k).posted = s.posted := rfl
@[simp] theorem State.countDrop_stray (n k : Nat) : (s.countDrop n k).stray = s.stray := rfl
@[simp] theorem State.countDrop_joins (n k : Nat) : (s.countDrop n k).joins = s.joins := rfl
@[simp] theorem State.countDrop_port (n k : Nat) : (s.countDrop n k).port = s.port := rfl
@[simp] theorem State.countDrop_hostData (n k : Nat) : (s.countDrop n k).hostData = s.hostData := rfl
@[simp] theorem State.countDrop_stageVersion (n k : Nat) : (s.countDrop n k).stageVersion = s.stageVersion := rfl
@[simp] theorem State.countDrop_stageDigest (n k : Nat) : (s.countDrop n k).stageDigest = s.stageDigest := rfl

/-! ## `poke` -/

@[simp] theorem State.poke_turn (k : Nat) (bs : List Byte) : (s.poke k bs).turn = s.turn := rfl
@[simp] theorem State.poke_tick (k : Nat) (bs : List Byte) : (s.poke k bs).tick = s.tick := rfl
@[simp] theorem State.poke_clock (k : Nat) (bs : List Byte) : (s.poke k bs).clock = s.clock := rfl
@[simp] theorem State.poke_mem (k : Nat) (bs : List Byte) : (s.poke k bs).mem = writeBytes s.mem k bs := rfl
@[simp] theorem State.poke_stamps (k : Nat) (bs : List Byte) : (s.poke k bs).stamps = s.stamps := rfl
@[simp] theorem State.poke_slices (k : Nat) (bs : List Byte) : (s.poke k bs).slices = s.slices := rfl
@[simp] theorem State.poke_versions (k : Nat) (bs : List Byte) : (s.poke k bs).versions = s.versions := rfl
@[simp] theorem State.poke_l1 (k : Nat) (bs : List Byte) : (s.poke k bs).l1 = s.l1 := rfl
@[simp] theorem State.poke_icache (k : Nat) (bs : List Byte) : (s.poke k bs).icache = s.icache := rfl
@[simp] theorem State.poke_replicas (k : Nat) (bs : List Byte) : (s.poke k bs).replicas = s.replicas := rfl
@[simp] theorem State.poke_home (k : Nat) (bs : List Byte) : (s.poke k bs).home = s.home := rfl
@[simp] theorem State.poke_flight (k : Nat) (bs : List Byte) : (s.poke k bs).flight = s.flight := rfl
@[simp] theorem State.poke_resends (k : Nat) (bs : List Byte) : (s.poke k bs).resends = s.resends := rfl
@[simp] theorem State.poke_acks (k : Nat) (bs : List Byte) : (s.poke k bs).acks = s.acks := rfl
@[simp] theorem State.poke_pushes (k : Nat) (bs : List Byte) : (s.poke k bs).pushes = s.pushes := rfl
@[simp] theorem State.poke_notices (k : Nat) (bs : List Byte) : (s.poke k bs).notices = s.notices := rfl
@[simp] theorem State.poke_vclock (k : Nat) (bs : List Byte) : (s.poke k bs).vclock = s.vclock := rfl
@[simp] theorem State.poke_tlb (k : Nat) (bs : List Byte) : (s.poke k bs).tlb = s.tlb := rfl
@[simp] theorem State.poke_poison (k : Nat) (bs : List Byte) : (s.poke k bs).poison = s.poison := rfl
@[simp] theorem State.poke_corrected (k : Nat) (bs : List Byte) : (s.poke k bs).corrected = s.corrected := rfl
@[simp] theorem State.poke_drops (k : Nat) (bs : List Byte) : (s.poke k bs).drops = s.drops := rfl
@[simp] theorem State.poke_contexts (k : Nat) (bs : List Byte) : (s.poke k bs).contexts = s.contexts := rfl
@[simp] theorem State.poke_queues (k : Nat) (bs : List Byte) : (s.poke k bs).queues = s.queues := rfl
@[simp] theorem State.poke_teams (k : Nat) (bs : List Byte) : (s.poke k bs).teams = s.teams := rfl
@[simp] theorem State.poke_units (k : Nat) (bs : List Byte) : (s.poke k bs).units = s.units := rfl
@[simp] theorem State.poke_cores (k : Nat) (bs : List Byte) : (s.poke k bs).cores = s.cores := rfl
@[simp] theorem State.poke_clusters (k : Nat) (bs : List Byte) : (s.poke k bs).clusters = s.clusters := rfl
@[simp] theorem State.poke_acc (k : Nat) (bs : List Byte) : (s.poke k bs).acc = s.acc := rfl
@[simp] theorem State.poke_ce (k : Nat) (bs : List Byte) : (s.poke k bs).ce = s.ce := rfl
@[simp] theorem State.poke_lateActions (k : Nat) (bs : List Byte) : (s.poke k bs).lateActions = s.lateActions := rfl
@[simp] theorem State.poke_walks (k : Nat) (bs : List Byte) : (s.poke k bs).walks = s.walks := rfl
@[simp] theorem State.poke_migrations (k : Nat) (bs : List Byte) : (s.poke k bs).migrations = s.migrations := rfl
@[simp] theorem State.poke_late (k : Nat) (bs : List Byte) : (s.poke k bs).late = s.late := rfl
@[simp] theorem State.poke_reserved (k : Nat) (bs : List Byte) : (s.poke k bs).reserved = s.reserved := rfl
@[simp] theorem State.poke_islands (k : Nat) (bs : List Byte) : (s.poke k bs).islands = s.islands := rfl
@[simp] theorem State.poke_modules (k : Nat) (bs : List Byte) : (s.poke k bs).modules = s.modules := rfl
@[simp] theorem State.poke_pairs (k : Nat) (bs : List Byte) : (s.poke k bs).pairs = s.pairs := rfl
@[simp] theorem State.poke_parts (k : Nat) (bs : List Byte) : (s.poke k bs).parts = s.parts := rfl
@[simp] theorem State.poke_withheld (k : Nat) (bs : List Byte) : (s.poke k bs).withheld = s.withheld := rfl
@[simp] theorem State.poke_channels (k : Nat) (bs : List Byte) : (s.poke k bs).channels = s.channels := rfl
@[simp] theorem State.poke_audits (k : Nat) (bs : List Byte) : (s.poke k bs).audits = s.audits := rfl
@[simp] theorem State.poke_posts (k : Nat) (bs : List Byte) : (s.poke k bs).posts = s.posts := rfl
@[simp] theorem State.poke_posted (k : Nat) (bs : List Byte) : (s.poke k bs).posted = s.posted := rfl
@[simp] theorem State.poke_stray (k : Nat) (bs : List Byte) : (s.poke k bs).stray = s.stray := rfl
@[simp] theorem State.poke_joins (k : Nat) (bs : List Byte) : (s.poke k bs).joins = s.joins := rfl
@[simp] theorem State.poke_port (k : Nat) (bs : List Byte) : (s.poke k bs).port = s.port := rfl
@[simp] theorem State.poke_hostData (k : Nat) (bs : List Byte) : (s.poke k bs).hostData = s.hostData := rfl
@[simp] theorem State.poke_stageVersion (k : Nat) (bs : List Byte) : (s.poke k bs).stageVersion = s.stageVersion := rfl
@[simp] theorem State.poke_stageDigest (k : Nat) (bs : List Byte) : (s.poke k bs).stageDigest = s.stageDigest := rfl

/-! ## `clearPoison` -/

@[simp] theorem State.clearPoison_turn (k n : Nat) : (s.clearPoison k n).turn = s.turn := rfl
@[simp] theorem State.clearPoison_tick (k n : Nat) : (s.clearPoison k n).tick = s.tick := rfl
@[simp] theorem State.clearPoison_clock (k n : Nat) : (s.clearPoison k n).clock = s.clock := rfl
@[simp] theorem State.clearPoison_mem (k n : Nat) : (s.clearPoison k n).mem = s.mem := rfl
@[simp] theorem State.clearPoison_stamps (k n : Nat) : (s.clearPoison k n).stamps = s.stamps := rfl
@[simp] theorem State.clearPoison_slices (k n : Nat) : (s.clearPoison k n).slices = s.slices := rfl
@[simp] theorem State.clearPoison_versions (k n : Nat) : (s.clearPoison k n).versions = s.versions := rfl
@[simp] theorem State.clearPoison_l1 (k n : Nat) : (s.clearPoison k n).l1 = s.l1 := rfl
@[simp] theorem State.clearPoison_icache (k n : Nat) : (s.clearPoison k n).icache = s.icache := rfl
@[simp] theorem State.clearPoison_replicas (k n : Nat) : (s.clearPoison k n).replicas = s.replicas := rfl
@[simp] theorem State.clearPoison_home (k n : Nat) : (s.clearPoison k n).home = s.home := rfl
@[simp] theorem State.clearPoison_flight (k n : Nat) : (s.clearPoison k n).flight = s.flight := rfl
@[simp] theorem State.clearPoison_resends (k n : Nat) : (s.clearPoison k n).resends = s.resends := rfl
@[simp] theorem State.clearPoison_acks (k n : Nat) : (s.clearPoison k n).acks = s.acks := rfl
@[simp] theorem State.clearPoison_pushes (k n : Nat) : (s.clearPoison k n).pushes = s.pushes := rfl
@[simp] theorem State.clearPoison_notices (k n : Nat) : (s.clearPoison k n).notices = s.notices := rfl
@[simp] theorem State.clearPoison_vclock (k n : Nat) : (s.clearPoison k n).vclock = s.vclock := rfl
@[simp] theorem State.clearPoison_tlb (k n : Nat) : (s.clearPoison k n).tlb = s.tlb := rfl
@[simp] theorem State.clearPoison_corrected (k n : Nat) : (s.clearPoison k n).corrected = s.corrected := rfl
@[simp] theorem State.clearPoison_drops (k n : Nat) : (s.clearPoison k n).drops = s.drops := rfl
@[simp] theorem State.clearPoison_contexts (k n : Nat) : (s.clearPoison k n).contexts = s.contexts := rfl
@[simp] theorem State.clearPoison_queues (k n : Nat) : (s.clearPoison k n).queues = s.queues := rfl
@[simp] theorem State.clearPoison_teams (k n : Nat) : (s.clearPoison k n).teams = s.teams := rfl
@[simp] theorem State.clearPoison_units (k n : Nat) : (s.clearPoison k n).units = s.units := rfl
@[simp] theorem State.clearPoison_cores (k n : Nat) : (s.clearPoison k n).cores = s.cores := rfl
@[simp] theorem State.clearPoison_clusters (k n : Nat) : (s.clearPoison k n).clusters = s.clusters := rfl
@[simp] theorem State.clearPoison_acc (k n : Nat) : (s.clearPoison k n).acc = s.acc := rfl
@[simp] theorem State.clearPoison_ce (k n : Nat) : (s.clearPoison k n).ce = s.ce := rfl
@[simp] theorem State.clearPoison_lateActions (k n : Nat) : (s.clearPoison k n).lateActions = s.lateActions := rfl
@[simp] theorem State.clearPoison_walks (k n : Nat) : (s.clearPoison k n).walks = s.walks := rfl
@[simp] theorem State.clearPoison_migrations (k n : Nat) : (s.clearPoison k n).migrations = s.migrations := rfl
@[simp] theorem State.clearPoison_late (k n : Nat) : (s.clearPoison k n).late = s.late := rfl
@[simp] theorem State.clearPoison_reserved (k n : Nat) : (s.clearPoison k n).reserved = s.reserved := rfl
@[simp] theorem State.clearPoison_islands (k n : Nat) : (s.clearPoison k n).islands = s.islands := rfl
@[simp] theorem State.clearPoison_modules (k n : Nat) : (s.clearPoison k n).modules = s.modules := rfl
@[simp] theorem State.clearPoison_pairs (k n : Nat) : (s.clearPoison k n).pairs = s.pairs := rfl
@[simp] theorem State.clearPoison_parts (k n : Nat) : (s.clearPoison k n).parts = s.parts := rfl
@[simp] theorem State.clearPoison_withheld (k n : Nat) : (s.clearPoison k n).withheld = s.withheld := rfl
@[simp] theorem State.clearPoison_channels (k n : Nat) : (s.clearPoison k n).channels = s.channels := rfl
@[simp] theorem State.clearPoison_audits (k n : Nat) : (s.clearPoison k n).audits = s.audits := rfl
@[simp] theorem State.clearPoison_posts (k n : Nat) : (s.clearPoison k n).posts = s.posts := rfl
@[simp] theorem State.clearPoison_posted (k n : Nat) : (s.clearPoison k n).posted = s.posted := rfl
@[simp] theorem State.clearPoison_stray (k n : Nat) : (s.clearPoison k n).stray = s.stray := rfl
@[simp] theorem State.clearPoison_joins (k n : Nat) : (s.clearPoison k n).joins = s.joins := rfl
@[simp] theorem State.clearPoison_port (k n : Nat) : (s.clearPoison k n).port = s.port := rfl
@[simp] theorem State.clearPoison_hostData (k n : Nat) : (s.clearPoison k n).hostData = s.hostData := rfl
@[simp] theorem State.clearPoison_stageVersion (k n : Nat) : (s.clearPoison k n).stageVersion = s.stageVersion := rfl
@[simp] theorem State.clearPoison_stageDigest (k n : Nat) : (s.clearPoison k n).stageDigest = s.stageDigest := rfl

/-! ## `dropL1` -/

@[simp] theorem State.dropL1_turn (c : Nat) : (s.dropL1 c).turn = s.turn := rfl
@[simp] theorem State.dropL1_tick (c : Nat) : (s.dropL1 c).tick = s.tick := rfl
@[simp] theorem State.dropL1_clock (c : Nat) : (s.dropL1 c).clock = s.clock := rfl
@[simp] theorem State.dropL1_mem (c : Nat) : (s.dropL1 c).mem = s.mem := rfl
@[simp] theorem State.dropL1_stamps (c : Nat) : (s.dropL1 c).stamps = s.stamps := rfl
@[simp] theorem State.dropL1_slices (c : Nat) : (s.dropL1 c).slices = s.slices := rfl
@[simp] theorem State.dropL1_versions (c : Nat) : (s.dropL1 c).versions = s.versions := rfl
@[simp] theorem State.dropL1_icache (c : Nat) : (s.dropL1 c).icache = s.icache := rfl
@[simp] theorem State.dropL1_replicas (c : Nat) : (s.dropL1 c).replicas = s.replicas := rfl
@[simp] theorem State.dropL1_home (c : Nat) : (s.dropL1 c).home = s.home := rfl
@[simp] theorem State.dropL1_flight (c : Nat) : (s.dropL1 c).flight = s.flight := rfl
@[simp] theorem State.dropL1_resends (c : Nat) : (s.dropL1 c).resends = s.resends := rfl
@[simp] theorem State.dropL1_acks (c : Nat) : (s.dropL1 c).acks = s.acks := rfl
@[simp] theorem State.dropL1_pushes (c : Nat) : (s.dropL1 c).pushes = s.pushes := rfl
@[simp] theorem State.dropL1_notices (c : Nat) : (s.dropL1 c).notices = s.notices := rfl
@[simp] theorem State.dropL1_vclock (c : Nat) : (s.dropL1 c).vclock = s.vclock := rfl
@[simp] theorem State.dropL1_tlb (c : Nat) : (s.dropL1 c).tlb = s.tlb := rfl
@[simp] theorem State.dropL1_poison (c : Nat) : (s.dropL1 c).poison = s.poison := rfl
@[simp] theorem State.dropL1_corrected (c : Nat) : (s.dropL1 c).corrected = s.corrected := rfl
@[simp] theorem State.dropL1_drops (c : Nat) : (s.dropL1 c).drops = s.drops := rfl
@[simp] theorem State.dropL1_contexts (c : Nat) : (s.dropL1 c).contexts = s.contexts := rfl
@[simp] theorem State.dropL1_queues (c : Nat) : (s.dropL1 c).queues = s.queues := rfl
@[simp] theorem State.dropL1_teams (c : Nat) : (s.dropL1 c).teams = s.teams := rfl
@[simp] theorem State.dropL1_units (c : Nat) : (s.dropL1 c).units = s.units := rfl
@[simp] theorem State.dropL1_cores (c : Nat) : (s.dropL1 c).cores = s.cores := rfl
@[simp] theorem State.dropL1_clusters (c : Nat) : (s.dropL1 c).clusters = s.clusters := rfl
@[simp] theorem State.dropL1_acc (c : Nat) : (s.dropL1 c).acc = s.acc := rfl
@[simp] theorem State.dropL1_ce (c : Nat) : (s.dropL1 c).ce = s.ce := rfl
@[simp] theorem State.dropL1_lateActions (c : Nat) : (s.dropL1 c).lateActions = s.lateActions := rfl
@[simp] theorem State.dropL1_walks (c : Nat) : (s.dropL1 c).walks = s.walks := rfl
@[simp] theorem State.dropL1_migrations (c : Nat) : (s.dropL1 c).migrations = s.migrations := rfl
@[simp] theorem State.dropL1_late (c : Nat) : (s.dropL1 c).late = s.late := rfl
@[simp] theorem State.dropL1_reserved (c : Nat) : (s.dropL1 c).reserved = s.reserved := rfl
@[simp] theorem State.dropL1_islands (c : Nat) : (s.dropL1 c).islands = s.islands := rfl
@[simp] theorem State.dropL1_modules (c : Nat) : (s.dropL1 c).modules = s.modules := rfl
@[simp] theorem State.dropL1_pairs (c : Nat) : (s.dropL1 c).pairs = s.pairs := rfl
@[simp] theorem State.dropL1_parts (c : Nat) : (s.dropL1 c).parts = s.parts := rfl
@[simp] theorem State.dropL1_withheld (c : Nat) : (s.dropL1 c).withheld = s.withheld := rfl
@[simp] theorem State.dropL1_channels (c : Nat) : (s.dropL1 c).channels = s.channels := rfl
@[simp] theorem State.dropL1_audits (c : Nat) : (s.dropL1 c).audits = s.audits := rfl
@[simp] theorem State.dropL1_posts (c : Nat) : (s.dropL1 c).posts = s.posts := rfl
@[simp] theorem State.dropL1_posted (c : Nat) : (s.dropL1 c).posted = s.posted := rfl
@[simp] theorem State.dropL1_stray (c : Nat) : (s.dropL1 c).stray = s.stray := rfl
@[simp] theorem State.dropL1_joins (c : Nat) : (s.dropL1 c).joins = s.joins := rfl
@[simp] theorem State.dropL1_port (c : Nat) : (s.dropL1 c).port = s.port := rfl
@[simp] theorem State.dropL1_hostData (c : Nat) : (s.dropL1 c).hostData = s.hostData := rfl
@[simp] theorem State.dropL1_stageVersion (c : Nat) : (s.dropL1 c).stageVersion = s.stageVersion := rfl
@[simp] theorem State.dropL1_stageDigest (c : Nat) : (s.dropL1 c).stageDigest = s.stageDigest := rfl

/-! ## `noteClock` -/

@[simp] theorem State.noteClock_turn (d o : Nat) (st : List (BitVec 32)) : (s.noteClock d o st).turn = s.turn := rfl
@[simp] theorem State.noteClock_tick (d o : Nat) (st : List (BitVec 32)) : (s.noteClock d o st).tick = s.tick := rfl
@[simp] theorem State.noteClock_clock (d o : Nat) (st : List (BitVec 32)) : (s.noteClock d o st).clock = s.clock := rfl
@[simp] theorem State.noteClock_mem (d o : Nat) (st : List (BitVec 32)) : (s.noteClock d o st).mem = s.mem := rfl
@[simp] theorem State.noteClock_stamps (d o : Nat) (st : List (BitVec 32)) : (s.noteClock d o st).stamps = s.stamps := rfl
@[simp] theorem State.noteClock_slices (d o : Nat) (st : List (BitVec 32)) : (s.noteClock d o st).slices = s.slices := rfl
@[simp] theorem State.noteClock_versions (d o : Nat) (st : List (BitVec 32)) : (s.noteClock d o st).versions = s.versions := rfl
@[simp] theorem State.noteClock_l1 (d o : Nat) (st : List (BitVec 32)) : (s.noteClock d o st).l1 = s.l1 := rfl
@[simp] theorem State.noteClock_icache (d o : Nat) (st : List (BitVec 32)) : (s.noteClock d o st).icache = s.icache := rfl
@[simp] theorem State.noteClock_replicas (d o : Nat) (st : List (BitVec 32)) : (s.noteClock d o st).replicas = s.replicas := rfl
@[simp] theorem State.noteClock_home (d o : Nat) (st : List (BitVec 32)) : (s.noteClock d o st).home = s.home := rfl
@[simp] theorem State.noteClock_flight (d o : Nat) (st : List (BitVec 32)) : (s.noteClock d o st).flight = s.flight := rfl
@[simp] theorem State.noteClock_resends (d o : Nat) (st : List (BitVec 32)) : (s.noteClock d o st).resends = s.resends := rfl
@[simp] theorem State.noteClock_acks (d o : Nat) (st : List (BitVec 32)) : (s.noteClock d o st).acks = s.acks := rfl
@[simp] theorem State.noteClock_pushes (d o : Nat) (st : List (BitVec 32)) : (s.noteClock d o st).pushes = s.pushes := rfl
@[simp] theorem State.noteClock_notices (d o : Nat) (st : List (BitVec 32)) : (s.noteClock d o st).notices = s.notices := rfl
@[simp] theorem State.noteClock_tlb (d o : Nat) (st : List (BitVec 32)) : (s.noteClock d o st).tlb = s.tlb := rfl
@[simp] theorem State.noteClock_poison (d o : Nat) (st : List (BitVec 32)) : (s.noteClock d o st).poison = s.poison := rfl
@[simp] theorem State.noteClock_corrected (d o : Nat) (st : List (BitVec 32)) : (s.noteClock d o st).corrected = s.corrected := rfl
@[simp] theorem State.noteClock_drops (d o : Nat) (st : List (BitVec 32)) : (s.noteClock d o st).drops = s.drops := rfl
@[simp] theorem State.noteClock_contexts (d o : Nat) (st : List (BitVec 32)) : (s.noteClock d o st).contexts = s.contexts := rfl
@[simp] theorem State.noteClock_queues (d o : Nat) (st : List (BitVec 32)) : (s.noteClock d o st).queues = s.queues := rfl
@[simp] theorem State.noteClock_teams (d o : Nat) (st : List (BitVec 32)) : (s.noteClock d o st).teams = s.teams := rfl
@[simp] theorem State.noteClock_units (d o : Nat) (st : List (BitVec 32)) : (s.noteClock d o st).units = s.units := rfl
@[simp] theorem State.noteClock_cores (d o : Nat) (st : List (BitVec 32)) : (s.noteClock d o st).cores = s.cores := rfl
@[simp] theorem State.noteClock_clusters (d o : Nat) (st : List (BitVec 32)) : (s.noteClock d o st).clusters = s.clusters := rfl
@[simp] theorem State.noteClock_acc (d o : Nat) (st : List (BitVec 32)) : (s.noteClock d o st).acc = s.acc := rfl
@[simp] theorem State.noteClock_ce (d o : Nat) (st : List (BitVec 32)) : (s.noteClock d o st).ce = s.ce := rfl
@[simp] theorem State.noteClock_lateActions (d o : Nat) (st : List (BitVec 32)) : (s.noteClock d o st).lateActions = s.lateActions := rfl
@[simp] theorem State.noteClock_walks (d o : Nat) (st : List (BitVec 32)) : (s.noteClock d o st).walks = s.walks := rfl
@[simp] theorem State.noteClock_migrations (d o : Nat) (st : List (BitVec 32)) : (s.noteClock d o st).migrations = s.migrations := rfl
@[simp] theorem State.noteClock_late (d o : Nat) (st : List (BitVec 32)) : (s.noteClock d o st).late = s.late := rfl
@[simp] theorem State.noteClock_reserved (d o : Nat) (st : List (BitVec 32)) : (s.noteClock d o st).reserved = s.reserved := rfl
@[simp] theorem State.noteClock_islands (d o : Nat) (st : List (BitVec 32)) : (s.noteClock d o st).islands = s.islands := rfl
@[simp] theorem State.noteClock_modules (d o : Nat) (st : List (BitVec 32)) : (s.noteClock d o st).modules = s.modules := rfl
@[simp] theorem State.noteClock_pairs (d o : Nat) (st : List (BitVec 32)) : (s.noteClock d o st).pairs = s.pairs := rfl
@[simp] theorem State.noteClock_parts (d o : Nat) (st : List (BitVec 32)) : (s.noteClock d o st).parts = s.parts := rfl
@[simp] theorem State.noteClock_withheld (d o : Nat) (st : List (BitVec 32)) : (s.noteClock d o st).withheld = s.withheld := rfl
@[simp] theorem State.noteClock_channels (d o : Nat) (st : List (BitVec 32)) : (s.noteClock d o st).channels = s.channels := rfl
@[simp] theorem State.noteClock_audits (d o : Nat) (st : List (BitVec 32)) : (s.noteClock d o st).audits = s.audits := rfl
@[simp] theorem State.noteClock_posts (d o : Nat) (st : List (BitVec 32)) : (s.noteClock d o st).posts = s.posts := rfl
@[simp] theorem State.noteClock_posted (d o : Nat) (st : List (BitVec 32)) : (s.noteClock d o st).posted = s.posted := rfl
@[simp] theorem State.noteClock_stray (d o : Nat) (st : List (BitVec 32)) : (s.noteClock d o st).stray = s.stray := rfl
@[simp] theorem State.noteClock_joins (d o : Nat) (st : List (BitVec 32)) : (s.noteClock d o st).joins = s.joins := rfl
@[simp] theorem State.noteClock_port (d o : Nat) (st : List (BitVec 32)) : (s.noteClock d o st).port = s.port := rfl
@[simp] theorem State.noteClock_hostData (d o : Nat) (st : List (BitVec 32)) : (s.noteClock d o st).hostData = s.hostData := rfl
@[simp] theorem State.noteClock_stageVersion (d o : Nat) (st : List (BitVec 32)) : (s.noteClock d o st).stageVersion = s.stageVersion := rfl
@[simp] theorem State.noteClock_stageDigest (d o : Nat) (st : List (BitVec 32)) : (s.noteClock d o st).stageDigest = s.stageDigest := rfl

/-! ## `dropVersions` -/

@[simp] theorem State.dropVersions_turn (n : Nat) (ids : List Nat) : (s.dropVersions n ids).turn = s.turn := rfl
@[simp] theorem State.dropVersions_tick (n : Nat) (ids : List Nat) : (s.dropVersions n ids).tick = s.tick := rfl
@[simp] theorem State.dropVersions_clock (n : Nat) (ids : List Nat) : (s.dropVersions n ids).clock = s.clock := rfl
@[simp] theorem State.dropVersions_mem (n : Nat) (ids : List Nat) : (s.dropVersions n ids).mem = s.mem := rfl
@[simp] theorem State.dropVersions_stamps (n : Nat) (ids : List Nat) : (s.dropVersions n ids).stamps = s.stamps := rfl
@[simp] theorem State.dropVersions_slices (n : Nat) (ids : List Nat) : (s.dropVersions n ids).slices = s.slices := rfl
@[simp] theorem State.dropVersions_l1 (n : Nat) (ids : List Nat) : (s.dropVersions n ids).l1 = s.l1 := rfl
@[simp] theorem State.dropVersions_icache (n : Nat) (ids : List Nat) : (s.dropVersions n ids).icache = s.icache := rfl
@[simp] theorem State.dropVersions_replicas (n : Nat) (ids : List Nat) : (s.dropVersions n ids).replicas = s.replicas := rfl
@[simp] theorem State.dropVersions_home (n : Nat) (ids : List Nat) : (s.dropVersions n ids).home = s.home := rfl
@[simp] theorem State.dropVersions_flight (n : Nat) (ids : List Nat) : (s.dropVersions n ids).flight = s.flight := rfl
@[simp] theorem State.dropVersions_resends (n : Nat) (ids : List Nat) : (s.dropVersions n ids).resends = s.resends := rfl
@[simp] theorem State.dropVersions_acks (n : Nat) (ids : List Nat) : (s.dropVersions n ids).acks = s.acks := rfl
@[simp] theorem State.dropVersions_pushes (n : Nat) (ids : List Nat) : (s.dropVersions n ids).pushes = s.pushes := rfl
@[simp] theorem State.dropVersions_notices (n : Nat) (ids : List Nat) : (s.dropVersions n ids).notices = s.notices := rfl
@[simp] theorem State.dropVersions_vclock (n : Nat) (ids : List Nat) : (s.dropVersions n ids).vclock = s.vclock := rfl
@[simp] theorem State.dropVersions_tlb (n : Nat) (ids : List Nat) : (s.dropVersions n ids).tlb = s.tlb := rfl
@[simp] theorem State.dropVersions_poison (n : Nat) (ids : List Nat) : (s.dropVersions n ids).poison = s.poison := rfl
@[simp] theorem State.dropVersions_corrected (n : Nat) (ids : List Nat) : (s.dropVersions n ids).corrected = s.corrected := rfl
@[simp] theorem State.dropVersions_drops (n : Nat) (ids : List Nat) : (s.dropVersions n ids).drops = s.drops := rfl
@[simp] theorem State.dropVersions_contexts (n : Nat) (ids : List Nat) : (s.dropVersions n ids).contexts = s.contexts := rfl
@[simp] theorem State.dropVersions_queues (n : Nat) (ids : List Nat) : (s.dropVersions n ids).queues = s.queues := rfl
@[simp] theorem State.dropVersions_teams (n : Nat) (ids : List Nat) : (s.dropVersions n ids).teams = s.teams := rfl
@[simp] theorem State.dropVersions_units (n : Nat) (ids : List Nat) : (s.dropVersions n ids).units = s.units := rfl
@[simp] theorem State.dropVersions_cores (n : Nat) (ids : List Nat) : (s.dropVersions n ids).cores = s.cores := rfl
@[simp] theorem State.dropVersions_clusters (n : Nat) (ids : List Nat) : (s.dropVersions n ids).clusters = s.clusters := rfl
@[simp] theorem State.dropVersions_acc (n : Nat) (ids : List Nat) : (s.dropVersions n ids).acc = s.acc := rfl
@[simp] theorem State.dropVersions_ce (n : Nat) (ids : List Nat) : (s.dropVersions n ids).ce = s.ce := rfl
@[simp] theorem State.dropVersions_lateActions (n : Nat) (ids : List Nat) : (s.dropVersions n ids).lateActions = s.lateActions := rfl
@[simp] theorem State.dropVersions_walks (n : Nat) (ids : List Nat) : (s.dropVersions n ids).walks = s.walks := rfl
@[simp] theorem State.dropVersions_migrations (n : Nat) (ids : List Nat) : (s.dropVersions n ids).migrations = s.migrations := rfl
@[simp] theorem State.dropVersions_late (n : Nat) (ids : List Nat) : (s.dropVersions n ids).late = s.late := rfl
@[simp] theorem State.dropVersions_reserved (n : Nat) (ids : List Nat) : (s.dropVersions n ids).reserved = s.reserved := rfl
@[simp] theorem State.dropVersions_islands (n : Nat) (ids : List Nat) : (s.dropVersions n ids).islands = s.islands := rfl
@[simp] theorem State.dropVersions_modules (n : Nat) (ids : List Nat) : (s.dropVersions n ids).modules = s.modules := rfl
@[simp] theorem State.dropVersions_pairs (n : Nat) (ids : List Nat) : (s.dropVersions n ids).pairs = s.pairs := rfl
@[simp] theorem State.dropVersions_parts (n : Nat) (ids : List Nat) : (s.dropVersions n ids).parts = s.parts := rfl
@[simp] theorem State.dropVersions_withheld (n : Nat) (ids : List Nat) : (s.dropVersions n ids).withheld = s.withheld := rfl
@[simp] theorem State.dropVersions_channels (n : Nat) (ids : List Nat) : (s.dropVersions n ids).channels = s.channels := rfl
@[simp] theorem State.dropVersions_audits (n : Nat) (ids : List Nat) : (s.dropVersions n ids).audits = s.audits := rfl
@[simp] theorem State.dropVersions_posts (n : Nat) (ids : List Nat) : (s.dropVersions n ids).posts = s.posts := rfl
@[simp] theorem State.dropVersions_posted (n : Nat) (ids : List Nat) : (s.dropVersions n ids).posted = s.posted := rfl
@[simp] theorem State.dropVersions_stray (n : Nat) (ids : List Nat) : (s.dropVersions n ids).stray = s.stray := rfl
@[simp] theorem State.dropVersions_joins (n : Nat) (ids : List Nat) : (s.dropVersions n ids).joins = s.joins := rfl
@[simp] theorem State.dropVersions_port (n : Nat) (ids : List Nat) : (s.dropVersions n ids).port = s.port := rfl
@[simp] theorem State.dropVersions_hostData (n : Nat) (ids : List Nat) : (s.dropVersions n ids).hostData = s.hostData := rfl
@[simp] theorem State.dropVersions_stageVersion (n : Nat) (ids : List Nat) : (s.dropVersions n ids).stageVersion = s.stageVersion := rfl
@[simp] theorem State.dropVersions_stageDigest (n : Nat) (ids : List Nat) : (s.dropVersions n ids).stageDigest = s.stageDigest := rfl

/-! ## `dropHypLines` -/

@[simp] theorem State.dropHypLines_turn (n : Nat) : (s.dropHypLines n).turn = s.turn := rfl
@[simp] theorem State.dropHypLines_tick (n : Nat) : (s.dropHypLines n).tick = s.tick := rfl
@[simp] theorem State.dropHypLines_clock (n : Nat) : (s.dropHypLines n).clock = s.clock := rfl
@[simp] theorem State.dropHypLines_mem (n : Nat) : (s.dropHypLines n).mem = s.mem := rfl
@[simp] theorem State.dropHypLines_stamps (n : Nat) : (s.dropHypLines n).stamps = s.stamps := rfl
@[simp] theorem State.dropHypLines_slices (n : Nat) : (s.dropHypLines n).slices = s.slices := rfl
@[simp] theorem State.dropHypLines_versions (n : Nat) : (s.dropHypLines n).versions = s.versions := rfl
@[simp] theorem State.dropHypLines_icache (n : Nat) : (s.dropHypLines n).icache = s.icache := rfl
@[simp] theorem State.dropHypLines_replicas (n : Nat) : (s.dropHypLines n).replicas = s.replicas := rfl
@[simp] theorem State.dropHypLines_home (n : Nat) : (s.dropHypLines n).home = s.home := rfl
@[simp] theorem State.dropHypLines_flight (n : Nat) : (s.dropHypLines n).flight = s.flight := rfl
@[simp] theorem State.dropHypLines_resends (n : Nat) : (s.dropHypLines n).resends = s.resends := rfl
@[simp] theorem State.dropHypLines_acks (n : Nat) : (s.dropHypLines n).acks = s.acks := rfl
@[simp] theorem State.dropHypLines_pushes (n : Nat) : (s.dropHypLines n).pushes = s.pushes := rfl
@[simp] theorem State.dropHypLines_notices (n : Nat) : (s.dropHypLines n).notices = s.notices := rfl
@[simp] theorem State.dropHypLines_vclock (n : Nat) : (s.dropHypLines n).vclock = s.vclock := rfl
@[simp] theorem State.dropHypLines_tlb (n : Nat) : (s.dropHypLines n).tlb = s.tlb := rfl
@[simp] theorem State.dropHypLines_poison (n : Nat) : (s.dropHypLines n).poison = s.poison := rfl
@[simp] theorem State.dropHypLines_corrected (n : Nat) : (s.dropHypLines n).corrected = s.corrected := rfl
@[simp] theorem State.dropHypLines_drops (n : Nat) : (s.dropHypLines n).drops = s.drops := rfl
@[simp] theorem State.dropHypLines_contexts (n : Nat) : (s.dropHypLines n).contexts = s.contexts := rfl
@[simp] theorem State.dropHypLines_queues (n : Nat) : (s.dropHypLines n).queues = s.queues := rfl
@[simp] theorem State.dropHypLines_teams (n : Nat) : (s.dropHypLines n).teams = s.teams := rfl
@[simp] theorem State.dropHypLines_units (n : Nat) : (s.dropHypLines n).units = s.units := rfl
@[simp] theorem State.dropHypLines_cores (n : Nat) : (s.dropHypLines n).cores = s.cores := rfl
@[simp] theorem State.dropHypLines_clusters (n : Nat) : (s.dropHypLines n).clusters = s.clusters := rfl
@[simp] theorem State.dropHypLines_acc (n : Nat) : (s.dropHypLines n).acc = s.acc := rfl
@[simp] theorem State.dropHypLines_ce (n : Nat) : (s.dropHypLines n).ce = s.ce := rfl
@[simp] theorem State.dropHypLines_lateActions (n : Nat) : (s.dropHypLines n).lateActions = s.lateActions := rfl
@[simp] theorem State.dropHypLines_walks (n : Nat) : (s.dropHypLines n).walks = s.walks := rfl
@[simp] theorem State.dropHypLines_migrations (n : Nat) : (s.dropHypLines n).migrations = s.migrations := rfl
@[simp] theorem State.dropHypLines_late (n : Nat) : (s.dropHypLines n).late = s.late := rfl
@[simp] theorem State.dropHypLines_reserved (n : Nat) : (s.dropHypLines n).reserved = s.reserved := rfl
@[simp] theorem State.dropHypLines_islands (n : Nat) : (s.dropHypLines n).islands = s.islands := rfl
@[simp] theorem State.dropHypLines_modules (n : Nat) : (s.dropHypLines n).modules = s.modules := rfl
@[simp] theorem State.dropHypLines_pairs (n : Nat) : (s.dropHypLines n).pairs = s.pairs := rfl
@[simp] theorem State.dropHypLines_parts (n : Nat) : (s.dropHypLines n).parts = s.parts := rfl
@[simp] theorem State.dropHypLines_withheld (n : Nat) : (s.dropHypLines n).withheld = s.withheld := rfl
@[simp] theorem State.dropHypLines_channels (n : Nat) : (s.dropHypLines n).channels = s.channels := rfl
@[simp] theorem State.dropHypLines_audits (n : Nat) : (s.dropHypLines n).audits = s.audits := rfl
@[simp] theorem State.dropHypLines_posts (n : Nat) : (s.dropHypLines n).posts = s.posts := rfl
@[simp] theorem State.dropHypLines_posted (n : Nat) : (s.dropHypLines n).posted = s.posted := rfl
@[simp] theorem State.dropHypLines_stray (n : Nat) : (s.dropHypLines n).stray = s.stray := rfl
@[simp] theorem State.dropHypLines_joins (n : Nat) : (s.dropHypLines n).joins = s.joins := rfl
@[simp] theorem State.dropHypLines_port (n : Nat) : (s.dropHypLines n).port = s.port := rfl
@[simp] theorem State.dropHypLines_hostData (n : Nat) : (s.dropHypLines n).hostData = s.hostData := rfl
@[simp] theorem State.dropHypLines_stageVersion (n : Nat) : (s.dropHypLines n).stageVersion = s.stageVersion := rfl
@[simp] theorem State.dropHypLines_stageDigest (n : Nat) : (s.dropHypLines n).stageDigest = s.stageDigest := rfl

/-! ## `freeWalks` -/

@[simp] theorem State.freeWalks_turn (u : Nat) : (s.freeWalks u).turn = s.turn := rfl
@[simp] theorem State.freeWalks_tick (u : Nat) : (s.freeWalks u).tick = s.tick := rfl
@[simp] theorem State.freeWalks_clock (u : Nat) : (s.freeWalks u).clock = s.clock := rfl
@[simp] theorem State.freeWalks_mem (u : Nat) : (s.freeWalks u).mem = s.mem := rfl
@[simp] theorem State.freeWalks_stamps (u : Nat) : (s.freeWalks u).stamps = s.stamps := rfl
@[simp] theorem State.freeWalks_slices (u : Nat) : (s.freeWalks u).slices = s.slices := rfl
@[simp] theorem State.freeWalks_versions (u : Nat) : (s.freeWalks u).versions = s.versions := rfl
@[simp] theorem State.freeWalks_l1 (u : Nat) : (s.freeWalks u).l1 = s.l1 := rfl
@[simp] theorem State.freeWalks_icache (u : Nat) : (s.freeWalks u).icache = s.icache := rfl
@[simp] theorem State.freeWalks_replicas (u : Nat) : (s.freeWalks u).replicas = s.replicas := rfl
@[simp] theorem State.freeWalks_home (u : Nat) : (s.freeWalks u).home = s.home := rfl
@[simp] theorem State.freeWalks_flight (u : Nat) : (s.freeWalks u).flight = s.flight := rfl
@[simp] theorem State.freeWalks_resends (u : Nat) : (s.freeWalks u).resends = s.resends := rfl
@[simp] theorem State.freeWalks_acks (u : Nat) : (s.freeWalks u).acks = s.acks := rfl
@[simp] theorem State.freeWalks_pushes (u : Nat) : (s.freeWalks u).pushes = s.pushes := rfl
@[simp] theorem State.freeWalks_notices (u : Nat) : (s.freeWalks u).notices = s.notices := rfl
@[simp] theorem State.freeWalks_vclock (u : Nat) : (s.freeWalks u).vclock = s.vclock := rfl
@[simp] theorem State.freeWalks_tlb (u : Nat) : (s.freeWalks u).tlb = s.tlb := rfl
@[simp] theorem State.freeWalks_poison (u : Nat) : (s.freeWalks u).poison = s.poison := rfl
@[simp] theorem State.freeWalks_corrected (u : Nat) : (s.freeWalks u).corrected = s.corrected := rfl
@[simp] theorem State.freeWalks_drops (u : Nat) : (s.freeWalks u).drops = s.drops := rfl
@[simp] theorem State.freeWalks_contexts (u : Nat) : (s.freeWalks u).contexts = s.contexts := rfl
@[simp] theorem State.freeWalks_queues (u : Nat) : (s.freeWalks u).queues = s.queues := rfl
@[simp] theorem State.freeWalks_teams (u : Nat) : (s.freeWalks u).teams = s.teams := rfl
@[simp] theorem State.freeWalks_units (u : Nat) : (s.freeWalks u).units = s.units := rfl
@[simp] theorem State.freeWalks_cores (u : Nat) : (s.freeWalks u).cores = s.cores := rfl
@[simp] theorem State.freeWalks_clusters (u : Nat) : (s.freeWalks u).clusters = s.clusters := rfl
@[simp] theorem State.freeWalks_acc (u : Nat) : (s.freeWalks u).acc = s.acc := rfl
@[simp] theorem State.freeWalks_ce (u : Nat) : (s.freeWalks u).ce = s.ce := rfl
@[simp] theorem State.freeWalks_migrations (u : Nat) : (s.freeWalks u).migrations = s.migrations := rfl
@[simp] theorem State.freeWalks_late (u : Nat) : (s.freeWalks u).late = s.late := rfl
@[simp] theorem State.freeWalks_reserved (u : Nat) : (s.freeWalks u).reserved = s.reserved := rfl
@[simp] theorem State.freeWalks_islands (u : Nat) : (s.freeWalks u).islands = s.islands := rfl
@[simp] theorem State.freeWalks_modules (u : Nat) : (s.freeWalks u).modules = s.modules := rfl
@[simp] theorem State.freeWalks_pairs (u : Nat) : (s.freeWalks u).pairs = s.pairs := rfl
@[simp] theorem State.freeWalks_parts (u : Nat) : (s.freeWalks u).parts = s.parts := rfl
@[simp] theorem State.freeWalks_withheld (u : Nat) : (s.freeWalks u).withheld = s.withheld := rfl
@[simp] theorem State.freeWalks_channels (u : Nat) : (s.freeWalks u).channels = s.channels := rfl
@[simp] theorem State.freeWalks_audits (u : Nat) : (s.freeWalks u).audits = s.audits := rfl
@[simp] theorem State.freeWalks_posts (u : Nat) : (s.freeWalks u).posts = s.posts := rfl
@[simp] theorem State.freeWalks_posted (u : Nat) : (s.freeWalks u).posted = s.posted := rfl
@[simp] theorem State.freeWalks_stray (u : Nat) : (s.freeWalks u).stray = s.stray := rfl
@[simp] theorem State.freeWalks_joins (u : Nat) : (s.freeWalks u).joins = s.joins := rfl
@[simp] theorem State.freeWalks_port (u : Nat) : (s.freeWalks u).port = s.port := rfl
@[simp] theorem State.freeWalks_hostData (u : Nat) : (s.freeWalks u).hostData = s.hostData := rfl
@[simp] theorem State.freeWalks_stageVersion (u : Nat) : (s.freeWalks u).stageVersion = s.stageVersion := rfl
@[simp] theorem State.freeWalks_stageDigest (u : Nat) : (s.freeWalks u).stageDigest = s.stageDigest := rfl

/-! ## `orphan` -/

@[simp] theorem State.orphan_turn (n : Nat) (ids : List Nat) : (s.orphan n ids).turn = s.turn := rfl
@[simp] theorem State.orphan_tick (n : Nat) (ids : List Nat) : (s.orphan n ids).tick = s.tick := rfl
@[simp] theorem State.orphan_clock (n : Nat) (ids : List Nat) : (s.orphan n ids).clock = s.clock := rfl
@[simp] theorem State.orphan_mem (n : Nat) (ids : List Nat) : (s.orphan n ids).mem = s.mem := rfl
@[simp] theorem State.orphan_stamps (n : Nat) (ids : List Nat) : (s.orphan n ids).stamps = s.stamps := rfl
@[simp] theorem State.orphan_slices (n : Nat) (ids : List Nat) : (s.orphan n ids).slices = s.slices := rfl
@[simp] theorem State.orphan_versions (n : Nat) (ids : List Nat) : (s.orphan n ids).versions = s.versions := rfl
@[simp] theorem State.orphan_l1 (n : Nat) (ids : List Nat) : (s.orphan n ids).l1 = s.l1 := rfl
@[simp] theorem State.orphan_icache (n : Nat) (ids : List Nat) : (s.orphan n ids).icache = s.icache := rfl
@[simp] theorem State.orphan_replicas (n : Nat) (ids : List Nat) : (s.orphan n ids).replicas = s.replicas := rfl
@[simp] theorem State.orphan_home (n : Nat) (ids : List Nat) : (s.orphan n ids).home = s.home := rfl
@[simp] theorem State.orphan_flight (n : Nat) (ids : List Nat) : (s.orphan n ids).flight = s.flight := rfl
@[simp] theorem State.orphan_resends (n : Nat) (ids : List Nat) : (s.orphan n ids).resends = s.resends := rfl
@[simp] theorem State.orphan_acks (n : Nat) (ids : List Nat) : (s.orphan n ids).acks = s.acks := rfl
@[simp] theorem State.orphan_pushes (n : Nat) (ids : List Nat) : (s.orphan n ids).pushes = s.pushes := rfl
@[simp] theorem State.orphan_notices (n : Nat) (ids : List Nat) : (s.orphan n ids).notices = s.notices := rfl
@[simp] theorem State.orphan_vclock (n : Nat) (ids : List Nat) : (s.orphan n ids).vclock = s.vclock := rfl
@[simp] theorem State.orphan_tlb (n : Nat) (ids : List Nat) : (s.orphan n ids).tlb = s.tlb := rfl
@[simp] theorem State.orphan_poison (n : Nat) (ids : List Nat) : (s.orphan n ids).poison = s.poison := rfl
@[simp] theorem State.orphan_corrected (n : Nat) (ids : List Nat) : (s.orphan n ids).corrected = s.corrected := rfl
@[simp] theorem State.orphan_drops (n : Nat) (ids : List Nat) : (s.orphan n ids).drops = s.drops := rfl
@[simp] theorem State.orphan_contexts (n : Nat) (ids : List Nat) : (s.orphan n ids).contexts = s.contexts := rfl
@[simp] theorem State.orphan_queues (n : Nat) (ids : List Nat) : (s.orphan n ids).queues = s.queues := rfl
@[simp] theorem State.orphan_units (n : Nat) (ids : List Nat) : (s.orphan n ids).units = s.units := rfl
@[simp] theorem State.orphan_cores (n : Nat) (ids : List Nat) : (s.orphan n ids).cores = s.cores := rfl
@[simp] theorem State.orphan_clusters (n : Nat) (ids : List Nat) : (s.orphan n ids).clusters = s.clusters := rfl
@[simp] theorem State.orphan_acc (n : Nat) (ids : List Nat) : (s.orphan n ids).acc = s.acc := rfl
@[simp] theorem State.orphan_ce (n : Nat) (ids : List Nat) : (s.orphan n ids).ce = s.ce := rfl
@[simp] theorem State.orphan_lateActions (n : Nat) (ids : List Nat) : (s.orphan n ids).lateActions = s.lateActions := rfl
@[simp] theorem State.orphan_walks (n : Nat) (ids : List Nat) : (s.orphan n ids).walks = s.walks := rfl
@[simp] theorem State.orphan_migrations (n : Nat) (ids : List Nat) : (s.orphan n ids).migrations = s.migrations := rfl
@[simp] theorem State.orphan_late (n : Nat) (ids : List Nat) : (s.orphan n ids).late = s.late := rfl
@[simp] theorem State.orphan_reserved (n : Nat) (ids : List Nat) : (s.orphan n ids).reserved = s.reserved := rfl
@[simp] theorem State.orphan_islands (n : Nat) (ids : List Nat) : (s.orphan n ids).islands = s.islands := rfl
@[simp] theorem State.orphan_modules (n : Nat) (ids : List Nat) : (s.orphan n ids).modules = s.modules := rfl
@[simp] theorem State.orphan_pairs (n : Nat) (ids : List Nat) : (s.orphan n ids).pairs = s.pairs := rfl
@[simp] theorem State.orphan_parts (n : Nat) (ids : List Nat) : (s.orphan n ids).parts = s.parts := rfl
@[simp] theorem State.orphan_withheld (n : Nat) (ids : List Nat) : (s.orphan n ids).withheld = s.withheld := rfl
@[simp] theorem State.orphan_channels (n : Nat) (ids : List Nat) : (s.orphan n ids).channels = s.channels := rfl
@[simp] theorem State.orphan_audits (n : Nat) (ids : List Nat) : (s.orphan n ids).audits = s.audits := rfl
@[simp] theorem State.orphan_posts (n : Nat) (ids : List Nat) : (s.orphan n ids).posts = s.posts := rfl
@[simp] theorem State.orphan_posted (n : Nat) (ids : List Nat) : (s.orphan n ids).posted = s.posted := rfl
@[simp] theorem State.orphan_stray (n : Nat) (ids : List Nat) : (s.orphan n ids).stray = s.stray := rfl
@[simp] theorem State.orphan_joins (n : Nat) (ids : List Nat) : (s.orphan n ids).joins = s.joins := rfl
@[simp] theorem State.orphan_port (n : Nat) (ids : List Nat) : (s.orphan n ids).port = s.port := rfl
@[simp] theorem State.orphan_hostData (n : Nat) (ids : List Nat) : (s.orphan n ids).hostData = s.hostData := rfl
@[simp] theorem State.orphan_stageVersion (n : Nat) (ids : List Nat) : (s.orphan n ids).stageVersion = s.stageVersion := rfl
@[simp] theorem State.orphan_stageDigest (n : Nat) (ids : List Nat) : (s.orphan n ids).stageDigest = s.stageDigest := rfl

/-! ## `freeFrame` -/

@[simp] theorem State.freeFrame_turn (n a : Nat) : (s.freeFrame n a).turn = s.turn := rfl
@[simp] theorem State.freeFrame_tick (n a : Nat) : (s.freeFrame n a).tick = s.tick := rfl
@[simp] theorem State.freeFrame_clock (n a : Nat) : (s.freeFrame n a).clock = s.clock := rfl
@[simp] theorem State.freeFrame_mem (n a : Nat) : (s.freeFrame n a).mem = s.mem := rfl
@[simp] theorem State.freeFrame_stamps (n a : Nat) : (s.freeFrame n a).stamps = s.stamps := rfl
@[simp] theorem State.freeFrame_slices (n a : Nat) : (s.freeFrame n a).slices = s.slices := rfl
@[simp] theorem State.freeFrame_versions (n a : Nat) : (s.freeFrame n a).versions = s.versions := rfl
@[simp] theorem State.freeFrame_l1 (n a : Nat) : (s.freeFrame n a).l1 = s.l1 := rfl
@[simp] theorem State.freeFrame_icache (n a : Nat) : (s.freeFrame n a).icache = s.icache := rfl
@[simp] theorem State.freeFrame_replicas (n a : Nat) : (s.freeFrame n a).replicas = s.replicas := rfl
@[simp] theorem State.freeFrame_home (n a : Nat) : (s.freeFrame n a).home = s.home := rfl
@[simp] theorem State.freeFrame_flight (n a : Nat) : (s.freeFrame n a).flight = s.flight := rfl
@[simp] theorem State.freeFrame_resends (n a : Nat) : (s.freeFrame n a).resends = s.resends := rfl
@[simp] theorem State.freeFrame_acks (n a : Nat) : (s.freeFrame n a).acks = s.acks := rfl
@[simp] theorem State.freeFrame_pushes (n a : Nat) : (s.freeFrame n a).pushes = s.pushes := rfl
@[simp] theorem State.freeFrame_notices (n a : Nat) : (s.freeFrame n a).notices = s.notices := rfl
@[simp] theorem State.freeFrame_vclock (n a : Nat) : (s.freeFrame n a).vclock = s.vclock := rfl
@[simp] theorem State.freeFrame_tlb (n a : Nat) : (s.freeFrame n a).tlb = s.tlb := rfl
@[simp] theorem State.freeFrame_poison (n a : Nat) : (s.freeFrame n a).poison = s.poison := rfl
@[simp] theorem State.freeFrame_corrected (n a : Nat) : (s.freeFrame n a).corrected = s.corrected := rfl
@[simp] theorem State.freeFrame_drops (n a : Nat) : (s.freeFrame n a).drops = s.drops := rfl
@[simp] theorem State.freeFrame_contexts (n a : Nat) : (s.freeFrame n a).contexts = s.contexts := rfl
@[simp] theorem State.freeFrame_queues (n a : Nat) : (s.freeFrame n a).queues = s.queues := rfl
@[simp] theorem State.freeFrame_teams (n a : Nat) : (s.freeFrame n a).teams = s.teams := rfl
@[simp] theorem State.freeFrame_units (n a : Nat) : (s.freeFrame n a).units = s.units := rfl
@[simp] theorem State.freeFrame_cores (n a : Nat) : (s.freeFrame n a).cores = s.cores := rfl
@[simp] theorem State.freeFrame_clusters (n a : Nat) : (s.freeFrame n a).clusters = s.clusters := rfl
@[simp] theorem State.freeFrame_acc (n a : Nat) : (s.freeFrame n a).acc = s.acc := rfl
@[simp] theorem State.freeFrame_ce (n a : Nat) : (s.freeFrame n a).ce = s.ce := rfl
@[simp] theorem State.freeFrame_lateActions (n a : Nat) : (s.freeFrame n a).lateActions = s.lateActions := rfl
@[simp] theorem State.freeFrame_walks (n a : Nat) : (s.freeFrame n a).walks = s.walks := rfl
@[simp] theorem State.freeFrame_migrations (n a : Nat) : (s.freeFrame n a).migrations = s.migrations := rfl
@[simp] theorem State.freeFrame_late (n a : Nat) : (s.freeFrame n a).late = s.late := rfl
@[simp] theorem State.freeFrame_reserved (n a : Nat) : (s.freeFrame n a).reserved = s.reserved := rfl
@[simp] theorem State.freeFrame_islands (n a : Nat) : (s.freeFrame n a).islands = s.islands := rfl
@[simp] theorem State.freeFrame_modules (n a : Nat) : (s.freeFrame n a).modules = s.modules := rfl
@[simp] theorem State.freeFrame_pairs (n a : Nat) : (s.freeFrame n a).pairs = s.pairs := rfl
@[simp] theorem State.freeFrame_withheld (n a : Nat) : (s.freeFrame n a).withheld = s.withheld := rfl
@[simp] theorem State.freeFrame_channels (n a : Nat) : (s.freeFrame n a).channels = s.channels := rfl
@[simp] theorem State.freeFrame_audits (n a : Nat) : (s.freeFrame n a).audits = s.audits := rfl
@[simp] theorem State.freeFrame_posts (n a : Nat) : (s.freeFrame n a).posts = s.posts := rfl
@[simp] theorem State.freeFrame_posted (n a : Nat) : (s.freeFrame n a).posted = s.posted := rfl
@[simp] theorem State.freeFrame_stray (n a : Nat) : (s.freeFrame n a).stray = s.stray := rfl
@[simp] theorem State.freeFrame_joins (n a : Nat) : (s.freeFrame n a).joins = s.joins := rfl
@[simp] theorem State.freeFrame_port (n a : Nat) : (s.freeFrame n a).port = s.port := rfl
@[simp] theorem State.freeFrame_hostData (n a : Nat) : (s.freeFrame n a).hostData = s.hostData := rfl
@[simp] theorem State.freeFrame_stageVersion (n a : Nat) : (s.freeFrame n a).stageVersion = s.stageVersion := rfl
@[simp] theorem State.freeFrame_stageDigest (n a : Nat) : (s.freeFrame n a).stageDigest = s.stageDigest := rfl

/-! ## `advance` -/

@[simp] theorem Team.advance_state : (tm.advance).state = tm.state := rfl
@[simp] theorem Team.advance_wait : (tm.advance).wait = tm.wait := rfl
@[simp] theorem Team.advance_ctrl : (tm.advance).ctrl = tm.ctrl := rfl
@[simp] theorem Team.advance_unit : (tm.advance).unit = tm.unit := rfl
@[simp] theorem Team.advance_slot : (tm.advance).slot = tm.slot := rfl
@[simp] theorem Team.advance_inc : (tm.advance).inc = tm.inc := rfl
@[simp] theorem Team.advance_teamid : (tm.advance).teamid = tm.teamid := rfl
@[simp] theorem Team.advance_role : (tm.advance).role = tm.role := rfl
@[simp] theorem Team.advance_lanes : (tm.advance).lanes = tm.lanes := rfl
@[simp] theorem Team.advance_budget : (tm.advance).budget = tm.budget := rfl
@[simp] theorem Team.advance_laneBase : (tm.advance).laneBase = tm.laneBase := rfl
@[simp] theorem Team.advance_pc : (tm.advance).pc = tm.pc + 4 := rfl
@[simp] theorem Team.advance_s : (tm.advance).s = tm.s := rfl
@[simp] theorem Team.advance_v : (tm.advance).v = tm.v := rfl
@[simp] theorem Team.advance_m : (tm.advance).m = tm.m := rfl
@[simp] theorem Team.advance_stack : (tm.advance).stack = tm.stack := rfl
@[simp] theorem Team.advance_b : (tm.advance).b = tm.b := rfl
@[simp] theorem Team.advance_queue : (tm.advance).queue = tm.queue := rfl
@[simp] theorem Team.advance_run : (tm.advance).run = tm.run := rfl
@[simp] theorem Team.advance_pending : (tm.advance).pending = tm.pending := rfl
@[simp] theorem Team.advance_sticky : (tm.advance).sticky = tm.sticky := rfl
@[simp] theorem Team.advance_arithmask : (tm.advance).arithmask = tm.arithmask := rfl
@[simp] theorem Team.advance_repidx : (tm.advance).repidx = tm.repidx := rfl
@[simp] theorem Team.advance_seed : (tm.advance).seed = tm.seed := rfl
@[simp] theorem Team.advance_reseed : (tm.advance).reseed = tm.reseed := rfl
@[simp] theorem Team.advance_rnd : (tm.advance).rnd = tm.rnd := rfl
@[simp] theorem Team.advance_hyp : (tm.advance).hyp = tm.hyp := rfl
@[simp] theorem Team.advance_attempt : (tm.advance).attempt = tm.attempt := rfl
@[simp] theorem Team.advance_prio : (tm.advance).prio = tm.prio := rfl
@[simp] theorem Team.advance_tile : (tm.advance).tile = tm.tile := rfl
@[simp] theorem Team.advance_arg : (tm.advance).arg = tm.arg := rfl
@[simp] theorem Team.advance_tag : (tm.advance).tag = tm.tag := rfl
@[simp] theorem Team.advance_core : (tm.advance).core = tm.core := rfl
@[simp] theorem Team.advance_priv : (tm.advance).priv = tm.priv := rfl
@[simp] theorem Team.advance_level : (tm.advance).level = tm.level := rfl
@[simp] theorem Team.advance_frame : (tm.advance).frame = tm.frame := rfl
@[simp] theorem Team.advance_aside : (tm.advance).aside = tm.aside := rfl
@[simp] theorem Team.advance_kill : (tm.advance).kill = tm.kill := rfl
@[simp] theorem Team.advance_reply : (tm.advance).reply = tm.reply := rfl
@[simp] theorem Team.advance_remote : (tm.advance).remote = tm.remote := rfl
@[simp] theorem Team.advance_sxWait : (tm.advance).sxWait = tm.sxWait := rfl
@[simp] theorem Team.advance_lost : (tm.advance).lost = tm.lost := rfl
@[simp] theorem Team.advance_rewait : (tm.advance).rewait = tm.rewait := rfl
@[simp] theorem Team.advance_waitMask : (tm.advance).waitMask = tm.waitMask := rfl
@[simp] theorem Team.advance_ceLen : (tm.advance).ceLen = tm.ceLen := rfl
@[simp] theorem Team.advance_ceQueue : (tm.advance).ceQueue = tm.ceQueue := rfl
@[simp] theorem Team.advance_ce2d : (tm.advance).ce2d = tm.ce2d := rfl
@[simp] theorem Team.advance_ceRows : (tm.advance).ceRows = tm.ceRows := rfl
@[simp] theorem Team.advance_ceSrc : (tm.advance).ceSrc = tm.ceSrc := rfl
@[simp] theorem Team.advance_ceDst : (tm.advance).ceDst = tm.ceDst := rfl
@[simp] theorem Team.advance_ceCb : (tm.advance).ceCb = tm.ceCb := rfl
@[simp] theorem Team.advance_ceLast : (tm.advance).ceLast = tm.ceLast := rfl
@[simp] theorem Team.advance_twDim : (tm.advance).twDim = tm.twDim := rfl
@[simp] theorem Team.advance_since : (tm.advance).since = tm.since := rfl
@[simp] theorem Team.advance_holding : (tm.advance).holding = tm.holding := rfl
@[simp] theorem Team.advance_lastSlot : (tm.advance).lastSlot = tm.lastSlot := rfl
@[simp] theorem Team.advance_acquired : (tm.advance).acquired = tm.acquired := rfl
@[simp] theorem Team.advance_seen : (tm.advance).seen = tm.seen := rfl
@[simp] theorem Team.advance_timeSeen : (tm.advance).timeSeen = tm.timeSeen := rfl
@[simp] theorem Team.advance_deadline : (tm.advance).deadline = tm.deadline := rfl
@[simp] theorem Team.advance_expired : (tm.advance).expired = tm.expired := rfl
@[simp] theorem Team.advance_part : (tm.advance).part = tm.part := rfl

/-! ## `stick` -/

@[simp] theorem Team.stick_state (b : BitVec 3) : (tm.stick b).state = tm.state := rfl
@[simp] theorem Team.stick_wait (b : BitVec 3) : (tm.stick b).wait = tm.wait := rfl
@[simp] theorem Team.stick_ctrl (b : BitVec 3) : (tm.stick b).ctrl = tm.ctrl := rfl
@[simp] theorem Team.stick_unit (b : BitVec 3) : (tm.stick b).unit = tm.unit := rfl
@[simp] theorem Team.stick_slot (b : BitVec 3) : (tm.stick b).slot = tm.slot := rfl
@[simp] theorem Team.stick_inc (b : BitVec 3) : (tm.stick b).inc = tm.inc := rfl
@[simp] theorem Team.stick_teamid (b : BitVec 3) : (tm.stick b).teamid = tm.teamid := rfl
@[simp] theorem Team.stick_role (b : BitVec 3) : (tm.stick b).role = tm.role := rfl
@[simp] theorem Team.stick_lanes (b : BitVec 3) : (tm.stick b).lanes = tm.lanes := rfl
@[simp] theorem Team.stick_budget (b : BitVec 3) : (tm.stick b).budget = tm.budget := rfl
@[simp] theorem Team.stick_laneBase (b : BitVec 3) : (tm.stick b).laneBase = tm.laneBase := rfl
@[simp] theorem Team.stick_pc (b : BitVec 3) : (tm.stick b).pc = tm.pc := rfl
@[simp] theorem Team.stick_s (b : BitVec 3) : (tm.stick b).s = tm.s := rfl
@[simp] theorem Team.stick_v (b : BitVec 3) : (tm.stick b).v = tm.v := rfl
@[simp] theorem Team.stick_m (b : BitVec 3) : (tm.stick b).m = tm.m := rfl
@[simp] theorem Team.stick_stack (b : BitVec 3) : (tm.stick b).stack = tm.stack := rfl
@[simp] theorem Team.stick_b (b : BitVec 3) : (tm.stick b).b = tm.b := rfl
@[simp] theorem Team.stick_queue (b : BitVec 3) : (tm.stick b).queue = tm.queue := rfl
@[simp] theorem Team.stick_run (b : BitVec 3) : (tm.stick b).run = tm.run := rfl
@[simp] theorem Team.stick_pending (b : BitVec 3) : (tm.stick b).pending = tm.pending := rfl
@[simp] theorem Team.stick_sticky (b : BitVec 3) : (tm.stick b).sticky = tm.sticky ||| b := rfl
@[simp] theorem Team.stick_arithmask (b : BitVec 3) : (tm.stick b).arithmask = tm.arithmask := rfl
@[simp] theorem Team.stick_repidx (b : BitVec 3) : (tm.stick b).repidx = tm.repidx := rfl
@[simp] theorem Team.stick_seed (b : BitVec 3) : (tm.stick b).seed = tm.seed := rfl
@[simp] theorem Team.stick_reseed (b : BitVec 3) : (tm.stick b).reseed = tm.reseed := rfl
@[simp] theorem Team.stick_rnd (b : BitVec 3) : (tm.stick b).rnd = tm.rnd := rfl
@[simp] theorem Team.stick_hyp (b : BitVec 3) : (tm.stick b).hyp = tm.hyp := rfl
@[simp] theorem Team.stick_attempt (b : BitVec 3) : (tm.stick b).attempt = tm.attempt := rfl
@[simp] theorem Team.stick_prio (b : BitVec 3) : (tm.stick b).prio = tm.prio := rfl
@[simp] theorem Team.stick_tile (b : BitVec 3) : (tm.stick b).tile = tm.tile := rfl
@[simp] theorem Team.stick_arg (b : BitVec 3) : (tm.stick b).arg = tm.arg := rfl
@[simp] theorem Team.stick_tag (b : BitVec 3) : (tm.stick b).tag = tm.tag := rfl
@[simp] theorem Team.stick_core (b : BitVec 3) : (tm.stick b).core = tm.core := rfl
@[simp] theorem Team.stick_priv (b : BitVec 3) : (tm.stick b).priv = tm.priv := rfl
@[simp] theorem Team.stick_level (b : BitVec 3) : (tm.stick b).level = tm.level := rfl
@[simp] theorem Team.stick_frame (b : BitVec 3) : (tm.stick b).frame = tm.frame := rfl
@[simp] theorem Team.stick_aside (b : BitVec 3) : (tm.stick b).aside = tm.aside := rfl
@[simp] theorem Team.stick_kill (b : BitVec 3) : (tm.stick b).kill = tm.kill := rfl
@[simp] theorem Team.stick_reply (b : BitVec 3) : (tm.stick b).reply = tm.reply := rfl
@[simp] theorem Team.stick_remote (b : BitVec 3) : (tm.stick b).remote = tm.remote := rfl
@[simp] theorem Team.stick_sxWait (b : BitVec 3) : (tm.stick b).sxWait = tm.sxWait := rfl
@[simp] theorem Team.stick_lost (b : BitVec 3) : (tm.stick b).lost = tm.lost := rfl
@[simp] theorem Team.stick_rewait (b : BitVec 3) : (tm.stick b).rewait = tm.rewait := rfl
@[simp] theorem Team.stick_waitMask (b : BitVec 3) : (tm.stick b).waitMask = tm.waitMask := rfl
@[simp] theorem Team.stick_ceLen (b : BitVec 3) : (tm.stick b).ceLen = tm.ceLen := rfl
@[simp] theorem Team.stick_ceQueue (b : BitVec 3) : (tm.stick b).ceQueue = tm.ceQueue := rfl
@[simp] theorem Team.stick_ce2d (b : BitVec 3) : (tm.stick b).ce2d = tm.ce2d := rfl
@[simp] theorem Team.stick_ceRows (b : BitVec 3) : (tm.stick b).ceRows = tm.ceRows := rfl
@[simp] theorem Team.stick_ceSrc (b : BitVec 3) : (tm.stick b).ceSrc = tm.ceSrc := rfl
@[simp] theorem Team.stick_ceDst (b : BitVec 3) : (tm.stick b).ceDst = tm.ceDst := rfl
@[simp] theorem Team.stick_ceCb (b : BitVec 3) : (tm.stick b).ceCb = tm.ceCb := rfl
@[simp] theorem Team.stick_ceLast (b : BitVec 3) : (tm.stick b).ceLast = tm.ceLast := rfl
@[simp] theorem Team.stick_twDim (b : BitVec 3) : (tm.stick b).twDim = tm.twDim := rfl
@[simp] theorem Team.stick_since (b : BitVec 3) : (tm.stick b).since = tm.since := rfl
@[simp] theorem Team.stick_holding (b : BitVec 3) : (tm.stick b).holding = tm.holding := rfl
@[simp] theorem Team.stick_lastSlot (b : BitVec 3) : (tm.stick b).lastSlot = tm.lastSlot := rfl
@[simp] theorem Team.stick_acquired (b : BitVec 3) : (tm.stick b).acquired = tm.acquired := rfl
@[simp] theorem Team.stick_seen (b : BitVec 3) : (tm.stick b).seen = tm.seen := rfl
@[simp] theorem Team.stick_timeSeen (b : BitVec 3) : (tm.stick b).timeSeen = tm.timeSeen := rfl
@[simp] theorem Team.stick_deadline (b : BitVec 3) : (tm.stick b).deadline = tm.deadline := rfl
@[simp] theorem Team.stick_expired (b : BitVec 3) : (tm.stick b).expired = tm.expired := rfl
@[simp] theorem Team.stick_part (b : BitVec 3) : (tm.stick b).part = tm.part := rfl

/-! ## `setLreg` -/

@[simp] theorem Team.setLreg_state (l r : Nat) (x : W64) : (tm.setLreg l r x).state = tm.state := rfl
@[simp] theorem Team.setLreg_wait (l r : Nat) (x : W64) : (tm.setLreg l r x).wait = tm.wait := rfl
@[simp] theorem Team.setLreg_ctrl (l r : Nat) (x : W64) : (tm.setLreg l r x).ctrl = tm.ctrl := rfl
@[simp] theorem Team.setLreg_unit (l r : Nat) (x : W64) : (tm.setLreg l r x).unit = tm.unit := rfl
@[simp] theorem Team.setLreg_slot (l r : Nat) (x : W64) : (tm.setLreg l r x).slot = tm.slot := rfl
@[simp] theorem Team.setLreg_inc (l r : Nat) (x : W64) : (tm.setLreg l r x).inc = tm.inc := rfl
@[simp] theorem Team.setLreg_teamid (l r : Nat) (x : W64) : (tm.setLreg l r x).teamid = tm.teamid := rfl
@[simp] theorem Team.setLreg_role (l r : Nat) (x : W64) : (tm.setLreg l r x).role = tm.role := rfl
@[simp] theorem Team.setLreg_lanes (l r : Nat) (x : W64) : (tm.setLreg l r x).lanes = tm.lanes := rfl
@[simp] theorem Team.setLreg_budget (l r : Nat) (x : W64) : (tm.setLreg l r x).budget = tm.budget := rfl
@[simp] theorem Team.setLreg_laneBase (l r : Nat) (x : W64) : (tm.setLreg l r x).laneBase = tm.laneBase := rfl
@[simp] theorem Team.setLreg_pc (l r : Nat) (x : W64) : (tm.setLreg l r x).pc = tm.pc := rfl
@[simp] theorem Team.setLreg_s (l r : Nat) (x : W64) : (tm.setLreg l r x).s = tm.s := rfl
@[simp] theorem Team.setLreg_v (l r : Nat) (x : W64) : (tm.setLreg l r x).v = NMap.put tm.v 0 (64 * l + r) x := rfl
@[simp] theorem Team.setLreg_m (l r : Nat) (x : W64) : (tm.setLreg l r x).m = tm.m := rfl
@[simp] theorem Team.setLreg_stack (l r : Nat) (x : W64) : (tm.setLreg l r x).stack = tm.stack := rfl
@[simp] theorem Team.setLreg_b (l r : Nat) (x : W64) : (tm.setLreg l r x).b = tm.b := rfl
@[simp] theorem Team.setLreg_queue (l r : Nat) (x : W64) : (tm.setLreg l r x).queue = tm.queue := rfl
@[simp] theorem Team.setLreg_run (l r : Nat) (x : W64) : (tm.setLreg l r x).run = tm.run := rfl
@[simp] theorem Team.setLreg_pending (l r : Nat) (x : W64) : (tm.setLreg l r x).pending = tm.pending := rfl
@[simp] theorem Team.setLreg_sticky (l r : Nat) (x : W64) : (tm.setLreg l r x).sticky = tm.sticky := rfl
@[simp] theorem Team.setLreg_arithmask (l r : Nat) (x : W64) : (tm.setLreg l r x).arithmask = tm.arithmask := rfl
@[simp] theorem Team.setLreg_repidx (l r : Nat) (x : W64) : (tm.setLreg l r x).repidx = tm.repidx := rfl
@[simp] theorem Team.setLreg_seed (l r : Nat) (x : W64) : (tm.setLreg l r x).seed = tm.seed := rfl
@[simp] theorem Team.setLreg_reseed (l r : Nat) (x : W64) : (tm.setLreg l r x).reseed = tm.reseed := rfl
@[simp] theorem Team.setLreg_rnd (l r : Nat) (x : W64) : (tm.setLreg l r x).rnd = tm.rnd := rfl
@[simp] theorem Team.setLreg_hyp (l r : Nat) (x : W64) : (tm.setLreg l r x).hyp = tm.hyp := rfl
@[simp] theorem Team.setLreg_attempt (l r : Nat) (x : W64) : (tm.setLreg l r x).attempt = tm.attempt := rfl
@[simp] theorem Team.setLreg_prio (l r : Nat) (x : W64) : (tm.setLreg l r x).prio = tm.prio := rfl
@[simp] theorem Team.setLreg_tile (l r : Nat) (x : W64) : (tm.setLreg l r x).tile = tm.tile := rfl
@[simp] theorem Team.setLreg_arg (l r : Nat) (x : W64) : (tm.setLreg l r x).arg = tm.arg := rfl
@[simp] theorem Team.setLreg_tag (l r : Nat) (x : W64) : (tm.setLreg l r x).tag = tm.tag := rfl
@[simp] theorem Team.setLreg_core (l r : Nat) (x : W64) : (tm.setLreg l r x).core = tm.core := rfl
@[simp] theorem Team.setLreg_priv (l r : Nat) (x : W64) : (tm.setLreg l r x).priv = tm.priv := rfl
@[simp] theorem Team.setLreg_level (l r : Nat) (x : W64) : (tm.setLreg l r x).level = tm.level := rfl
@[simp] theorem Team.setLreg_frame (l r : Nat) (x : W64) : (tm.setLreg l r x).frame = tm.frame := rfl
@[simp] theorem Team.setLreg_aside (l r : Nat) (x : W64) : (tm.setLreg l r x).aside = tm.aside := rfl
@[simp] theorem Team.setLreg_kill (l r : Nat) (x : W64) : (tm.setLreg l r x).kill = tm.kill := rfl
@[simp] theorem Team.setLreg_reply (l r : Nat) (x : W64) : (tm.setLreg l r x).reply = tm.reply := rfl
@[simp] theorem Team.setLreg_remote (l r : Nat) (x : W64) : (tm.setLreg l r x).remote = tm.remote := rfl
@[simp] theorem Team.setLreg_sxWait (l r : Nat) (x : W64) : (tm.setLreg l r x).sxWait = tm.sxWait := rfl
@[simp] theorem Team.setLreg_lost (l r : Nat) (x : W64) : (tm.setLreg l r x).lost = tm.lost := rfl
@[simp] theorem Team.setLreg_rewait (l r : Nat) (x : W64) : (tm.setLreg l r x).rewait = tm.rewait := rfl
@[simp] theorem Team.setLreg_waitMask (l r : Nat) (x : W64) : (tm.setLreg l r x).waitMask = tm.waitMask := rfl
@[simp] theorem Team.setLreg_ceLen (l r : Nat) (x : W64) : (tm.setLreg l r x).ceLen = tm.ceLen := rfl
@[simp] theorem Team.setLreg_ceQueue (l r : Nat) (x : W64) : (tm.setLreg l r x).ceQueue = tm.ceQueue := rfl
@[simp] theorem Team.setLreg_ce2d (l r : Nat) (x : W64) : (tm.setLreg l r x).ce2d = tm.ce2d := rfl
@[simp] theorem Team.setLreg_ceRows (l r : Nat) (x : W64) : (tm.setLreg l r x).ceRows = tm.ceRows := rfl
@[simp] theorem Team.setLreg_ceSrc (l r : Nat) (x : W64) : (tm.setLreg l r x).ceSrc = tm.ceSrc := rfl
@[simp] theorem Team.setLreg_ceDst (l r : Nat) (x : W64) : (tm.setLreg l r x).ceDst = tm.ceDst := rfl
@[simp] theorem Team.setLreg_ceCb (l r : Nat) (x : W64) : (tm.setLreg l r x).ceCb = tm.ceCb := rfl
@[simp] theorem Team.setLreg_ceLast (l r : Nat) (x : W64) : (tm.setLreg l r x).ceLast = tm.ceLast := rfl
@[simp] theorem Team.setLreg_twDim (l r : Nat) (x : W64) : (tm.setLreg l r x).twDim = tm.twDim := rfl
@[simp] theorem Team.setLreg_since (l r : Nat) (x : W64) : (tm.setLreg l r x).since = tm.since := rfl
@[simp] theorem Team.setLreg_holding (l r : Nat) (x : W64) : (tm.setLreg l r x).holding = tm.holding := rfl
@[simp] theorem Team.setLreg_lastSlot (l r : Nat) (x : W64) : (tm.setLreg l r x).lastSlot = tm.lastSlot := rfl
@[simp] theorem Team.setLreg_acquired (l r : Nat) (x : W64) : (tm.setLreg l r x).acquired = tm.acquired := rfl
@[simp] theorem Team.setLreg_seen (l r : Nat) (x : W64) : (tm.setLreg l r x).seen = tm.seen := rfl
@[simp] theorem Team.setLreg_timeSeen (l r : Nat) (x : W64) : (tm.setLreg l r x).timeSeen = tm.timeSeen := rfl
@[simp] theorem Team.setLreg_deadline (l r : Nat) (x : W64) : (tm.setLreg l r x).deadline = tm.deadline := rfl
@[simp] theorem Team.setLreg_expired (l r : Nat) (x : W64) : (tm.setLreg l r x).expired = tm.expired := rfl
@[simp] theorem Team.setLreg_part (l r : Nat) (x : W64) : (tm.setLreg l r x).part = tm.part := rfl

/-! ## `wr` -/

@[simp] theorem Team.wr_state (n : BitVec 5) (x : W64) : (tm.wr n x).state = tm.state := by
  unfold Team.wr; split <;> rfl
@[simp] theorem Team.wr_wait (n : BitVec 5) (x : W64) : (tm.wr n x).wait = tm.wait := by
  unfold Team.wr; split <;> rfl
@[simp] theorem Team.wr_ctrl (n : BitVec 5) (x : W64) : (tm.wr n x).ctrl = tm.ctrl := by
  unfold Team.wr; split <;> rfl
@[simp] theorem Team.wr_unit (n : BitVec 5) (x : W64) : (tm.wr n x).unit = tm.unit := by
  unfold Team.wr; split <;> rfl
@[simp] theorem Team.wr_slot (n : BitVec 5) (x : W64) : (tm.wr n x).slot = tm.slot := by
  unfold Team.wr; split <;> rfl
@[simp] theorem Team.wr_inc (n : BitVec 5) (x : W64) : (tm.wr n x).inc = tm.inc := by
  unfold Team.wr; split <;> rfl
@[simp] theorem Team.wr_teamid (n : BitVec 5) (x : W64) : (tm.wr n x).teamid = tm.teamid := by
  unfold Team.wr; split <;> rfl
@[simp] theorem Team.wr_role (n : BitVec 5) (x : W64) : (tm.wr n x).role = tm.role := by
  unfold Team.wr; split <;> rfl
@[simp] theorem Team.wr_lanes (n : BitVec 5) (x : W64) : (tm.wr n x).lanes = tm.lanes := by
  unfold Team.wr; split <;> rfl
@[simp] theorem Team.wr_budget (n : BitVec 5) (x : W64) : (tm.wr n x).budget = tm.budget := by
  unfold Team.wr; split <;> rfl
@[simp] theorem Team.wr_laneBase (n : BitVec 5) (x : W64) : (tm.wr n x).laneBase = tm.laneBase := by
  unfold Team.wr; split <;> rfl
@[simp] theorem Team.wr_pc (n : BitVec 5) (x : W64) : (tm.wr n x).pc = tm.pc := by
  unfold Team.wr; split <;> rfl
@[simp] theorem Team.wr_v (n : BitVec 5) (x : W64) : (tm.wr n x).v = tm.v := by
  unfold Team.wr; split <;> rfl
@[simp] theorem Team.wr_m (n : BitVec 5) (x : W64) : (tm.wr n x).m = tm.m := by
  unfold Team.wr; split <;> rfl
@[simp] theorem Team.wr_stack (n : BitVec 5) (x : W64) : (tm.wr n x).stack = tm.stack := by
  unfold Team.wr; split <;> rfl
@[simp] theorem Team.wr_b (n : BitVec 5) (x : W64) : (tm.wr n x).b = tm.b := by
  unfold Team.wr; split <;> rfl
@[simp] theorem Team.wr_queue (n : BitVec 5) (x : W64) : (tm.wr n x).queue = tm.queue := by
  unfold Team.wr; split <;> rfl
@[simp] theorem Team.wr_run (n : BitVec 5) (x : W64) : (tm.wr n x).run = tm.run := by
  unfold Team.wr; split <;> rfl
@[simp] theorem Team.wr_pending (n : BitVec 5) (x : W64) : (tm.wr n x).pending = tm.pending := by
  unfold Team.wr; split <;> rfl
@[simp] theorem Team.wr_sticky (n : BitVec 5) (x : W64) : (tm.wr n x).sticky = tm.sticky := by
  unfold Team.wr; split <;> rfl
@[simp] theorem Team.wr_arithmask (n : BitVec 5) (x : W64) : (tm.wr n x).arithmask = tm.arithmask := by
  unfold Team.wr; split <;> rfl
@[simp] theorem Team.wr_repidx (n : BitVec 5) (x : W64) : (tm.wr n x).repidx = tm.repidx := by
  unfold Team.wr; split <;> rfl
@[simp] theorem Team.wr_seed (n : BitVec 5) (x : W64) : (tm.wr n x).seed = tm.seed := by
  unfold Team.wr; split <;> rfl
@[simp] theorem Team.wr_reseed (n : BitVec 5) (x : W64) : (tm.wr n x).reseed = tm.reseed := by
  unfold Team.wr; split <;> rfl
@[simp] theorem Team.wr_rnd (n : BitVec 5) (x : W64) : (tm.wr n x).rnd = tm.rnd := by
  unfold Team.wr; split <;> rfl
@[simp] theorem Team.wr_hyp (n : BitVec 5) (x : W64) : (tm.wr n x).hyp = tm.hyp := by
  unfold Team.wr; split <;> rfl
@[simp] theorem Team.wr_attempt (n : BitVec 5) (x : W64) : (tm.wr n x).attempt = tm.attempt := by
  unfold Team.wr; split <;> rfl
@[simp] theorem Team.wr_prio (n : BitVec 5) (x : W64) : (tm.wr n x).prio = tm.prio := by
  unfold Team.wr; split <;> rfl
@[simp] theorem Team.wr_tile (n : BitVec 5) (x : W64) : (tm.wr n x).tile = tm.tile := by
  unfold Team.wr; split <;> rfl
@[simp] theorem Team.wr_arg (n : BitVec 5) (x : W64) : (tm.wr n x).arg = tm.arg := by
  unfold Team.wr; split <;> rfl
@[simp] theorem Team.wr_tag (n : BitVec 5) (x : W64) : (tm.wr n x).tag = tm.tag := by
  unfold Team.wr; split <;> rfl
@[simp] theorem Team.wr_core (n : BitVec 5) (x : W64) : (tm.wr n x).core = tm.core := by
  unfold Team.wr; split <;> rfl
@[simp] theorem Team.wr_priv (n : BitVec 5) (x : W64) : (tm.wr n x).priv = tm.priv := by
  unfold Team.wr; split <;> rfl
@[simp] theorem Team.wr_level (n : BitVec 5) (x : W64) : (tm.wr n x).level = tm.level := by
  unfold Team.wr; split <;> rfl
@[simp] theorem Team.wr_frame (n : BitVec 5) (x : W64) : (tm.wr n x).frame = tm.frame := by
  unfold Team.wr; split <;> rfl
@[simp] theorem Team.wr_aside (n : BitVec 5) (x : W64) : (tm.wr n x).aside = tm.aside := by
  unfold Team.wr; split <;> rfl
@[simp] theorem Team.wr_kill (n : BitVec 5) (x : W64) : (tm.wr n x).kill = tm.kill := by
  unfold Team.wr; split <;> rfl
@[simp] theorem Team.wr_reply (n : BitVec 5) (x : W64) : (tm.wr n x).reply = tm.reply := by
  unfold Team.wr; split <;> rfl
@[simp] theorem Team.wr_remote (n : BitVec 5) (x : W64) : (tm.wr n x).remote = tm.remote := by
  unfold Team.wr; split <;> rfl
@[simp] theorem Team.wr_sxWait (n : BitVec 5) (x : W64) : (tm.wr n x).sxWait = tm.sxWait := by
  unfold Team.wr; split <;> rfl
@[simp] theorem Team.wr_lost (n : BitVec 5) (x : W64) : (tm.wr n x).lost = tm.lost := by
  unfold Team.wr; split <;> rfl
@[simp] theorem Team.wr_rewait (n : BitVec 5) (x : W64) : (tm.wr n x).rewait = tm.rewait := by
  unfold Team.wr; split <;> rfl
@[simp] theorem Team.wr_waitMask (n : BitVec 5) (x : W64) : (tm.wr n x).waitMask = tm.waitMask := by
  unfold Team.wr; split <;> rfl
@[simp] theorem Team.wr_ceLen (n : BitVec 5) (x : W64) : (tm.wr n x).ceLen = tm.ceLen := by
  unfold Team.wr; split <;> rfl
@[simp] theorem Team.wr_ceQueue (n : BitVec 5) (x : W64) : (tm.wr n x).ceQueue = tm.ceQueue := by
  unfold Team.wr; split <;> rfl
@[simp] theorem Team.wr_ce2d (n : BitVec 5) (x : W64) : (tm.wr n x).ce2d = tm.ce2d := by
  unfold Team.wr; split <;> rfl
@[simp] theorem Team.wr_ceRows (n : BitVec 5) (x : W64) : (tm.wr n x).ceRows = tm.ceRows := by
  unfold Team.wr; split <;> rfl
@[simp] theorem Team.wr_ceSrc (n : BitVec 5) (x : W64) : (tm.wr n x).ceSrc = tm.ceSrc := by
  unfold Team.wr; split <;> rfl
@[simp] theorem Team.wr_ceDst (n : BitVec 5) (x : W64) : (tm.wr n x).ceDst = tm.ceDst := by
  unfold Team.wr; split <;> rfl
@[simp] theorem Team.wr_ceCb (n : BitVec 5) (x : W64) : (tm.wr n x).ceCb = tm.ceCb := by
  unfold Team.wr; split <;> rfl
@[simp] theorem Team.wr_ceLast (n : BitVec 5) (x : W64) : (tm.wr n x).ceLast = tm.ceLast := by
  unfold Team.wr; split <;> rfl
@[simp] theorem Team.wr_twDim (n : BitVec 5) (x : W64) : (tm.wr n x).twDim = tm.twDim := by
  unfold Team.wr; split <;> rfl
@[simp] theorem Team.wr_since (n : BitVec 5) (x : W64) : (tm.wr n x).since = tm.since := by
  unfold Team.wr; split <;> rfl
@[simp] theorem Team.wr_holding (n : BitVec 5) (x : W64) : (tm.wr n x).holding = tm.holding := by
  unfold Team.wr; split <;> rfl
@[simp] theorem Team.wr_lastSlot (n : BitVec 5) (x : W64) : (tm.wr n x).lastSlot = tm.lastSlot := by
  unfold Team.wr; split <;> rfl
@[simp] theorem Team.wr_acquired (n : BitVec 5) (x : W64) : (tm.wr n x).acquired = tm.acquired := by
  unfold Team.wr; split <;> rfl
@[simp] theorem Team.wr_seen (n : BitVec 5) (x : W64) : (tm.wr n x).seen = tm.seen := by
  unfold Team.wr; split <;> rfl
@[simp] theorem Team.wr_timeSeen (n : BitVec 5) (x : W64) : (tm.wr n x).timeSeen = tm.timeSeen := by
  unfold Team.wr; split <;> rfl
@[simp] theorem Team.wr_deadline (n : BitVec 5) (x : W64) : (tm.wr n x).deadline = tm.deadline := by
  unfold Team.wr; split <;> rfl
@[simp] theorem Team.wr_expired (n : BitVec 5) (x : W64) : (tm.wr n x).expired = tm.expired := by
  unfold Team.wr; split <;> rfl
@[simp] theorem Team.wr_part (n : BitVec 5) (x : W64) : (tm.wr n x).part = tm.part := by
  unfold Team.wr; split <;> rfl

/-! ## `setMreg` -/

@[simp] theorem Team.setMreg_state (k : Nat) (x : Mask) : (tm.setMreg k x).state = tm.state := by
  unfold Team.setMreg; split <;> rfl
@[simp] theorem Team.setMreg_wait (k : Nat) (x : Mask) : (tm.setMreg k x).wait = tm.wait := by
  unfold Team.setMreg; split <;> rfl
@[simp] theorem Team.setMreg_ctrl (k : Nat) (x : Mask) : (tm.setMreg k x).ctrl = tm.ctrl := by
  unfold Team.setMreg; split <;> rfl
@[simp] theorem Team.setMreg_unit (k : Nat) (x : Mask) : (tm.setMreg k x).unit = tm.unit := by
  unfold Team.setMreg; split <;> rfl
@[simp] theorem Team.setMreg_slot (k : Nat) (x : Mask) : (tm.setMreg k x).slot = tm.slot := by
  unfold Team.setMreg; split <;> rfl
@[simp] theorem Team.setMreg_inc (k : Nat) (x : Mask) : (tm.setMreg k x).inc = tm.inc := by
  unfold Team.setMreg; split <;> rfl
@[simp] theorem Team.setMreg_teamid (k : Nat) (x : Mask) : (tm.setMreg k x).teamid = tm.teamid := by
  unfold Team.setMreg; split <;> rfl
@[simp] theorem Team.setMreg_role (k : Nat) (x : Mask) : (tm.setMreg k x).role = tm.role := by
  unfold Team.setMreg; split <;> rfl
@[simp] theorem Team.setMreg_lanes (k : Nat) (x : Mask) : (tm.setMreg k x).lanes = tm.lanes := by
  unfold Team.setMreg; split <;> rfl
@[simp] theorem Team.setMreg_budget (k : Nat) (x : Mask) : (tm.setMreg k x).budget = tm.budget := by
  unfold Team.setMreg; split <;> rfl
@[simp] theorem Team.setMreg_laneBase (k : Nat) (x : Mask) : (tm.setMreg k x).laneBase = tm.laneBase := by
  unfold Team.setMreg; split <;> rfl
@[simp] theorem Team.setMreg_pc (k : Nat) (x : Mask) : (tm.setMreg k x).pc = tm.pc := by
  unfold Team.setMreg; split <;> rfl
@[simp] theorem Team.setMreg_s (k : Nat) (x : Mask) : (tm.setMreg k x).s = tm.s := by
  unfold Team.setMreg; split <;> rfl
@[simp] theorem Team.setMreg_v (k : Nat) (x : Mask) : (tm.setMreg k x).v = tm.v := by
  unfold Team.setMreg; split <;> rfl
@[simp] theorem Team.setMreg_stack (k : Nat) (x : Mask) : (tm.setMreg k x).stack = tm.stack := by
  unfold Team.setMreg; split <;> rfl
@[simp] theorem Team.setMreg_b (k : Nat) (x : Mask) : (tm.setMreg k x).b = tm.b := by
  unfold Team.setMreg; split <;> rfl
@[simp] theorem Team.setMreg_queue (k : Nat) (x : Mask) : (tm.setMreg k x).queue = tm.queue := by
  unfold Team.setMreg; split <;> rfl
@[simp] theorem Team.setMreg_run (k : Nat) (x : Mask) : (tm.setMreg k x).run = tm.run := by
  unfold Team.setMreg; split <;> rfl
@[simp] theorem Team.setMreg_pending (k : Nat) (x : Mask) : (tm.setMreg k x).pending = tm.pending := by
  unfold Team.setMreg; split <;> rfl
@[simp] theorem Team.setMreg_sticky (k : Nat) (x : Mask) : (tm.setMreg k x).sticky = tm.sticky := by
  unfold Team.setMreg; split <;> rfl
@[simp] theorem Team.setMreg_arithmask (k : Nat) (x : Mask) : (tm.setMreg k x).arithmask = tm.arithmask := by
  unfold Team.setMreg; split <;> rfl
@[simp] theorem Team.setMreg_repidx (k : Nat) (x : Mask) : (tm.setMreg k x).repidx = tm.repidx := by
  unfold Team.setMreg; split <;> rfl
@[simp] theorem Team.setMreg_seed (k : Nat) (x : Mask) : (tm.setMreg k x).seed = tm.seed := by
  unfold Team.setMreg; split <;> rfl
@[simp] theorem Team.setMreg_reseed (k : Nat) (x : Mask) : (tm.setMreg k x).reseed = tm.reseed := by
  unfold Team.setMreg; split <;> rfl
@[simp] theorem Team.setMreg_rnd (k : Nat) (x : Mask) : (tm.setMreg k x).rnd = tm.rnd := by
  unfold Team.setMreg; split <;> rfl
@[simp] theorem Team.setMreg_hyp (k : Nat) (x : Mask) : (tm.setMreg k x).hyp = tm.hyp := by
  unfold Team.setMreg; split <;> rfl
@[simp] theorem Team.setMreg_attempt (k : Nat) (x : Mask) : (tm.setMreg k x).attempt = tm.attempt := by
  unfold Team.setMreg; split <;> rfl
@[simp] theorem Team.setMreg_prio (k : Nat) (x : Mask) : (tm.setMreg k x).prio = tm.prio := by
  unfold Team.setMreg; split <;> rfl
@[simp] theorem Team.setMreg_tile (k : Nat) (x : Mask) : (tm.setMreg k x).tile = tm.tile := by
  unfold Team.setMreg; split <;> rfl
@[simp] theorem Team.setMreg_arg (k : Nat) (x : Mask) : (tm.setMreg k x).arg = tm.arg := by
  unfold Team.setMreg; split <;> rfl
@[simp] theorem Team.setMreg_tag (k : Nat) (x : Mask) : (tm.setMreg k x).tag = tm.tag := by
  unfold Team.setMreg; split <;> rfl
@[simp] theorem Team.setMreg_core (k : Nat) (x : Mask) : (tm.setMreg k x).core = tm.core := by
  unfold Team.setMreg; split <;> rfl
@[simp] theorem Team.setMreg_priv (k : Nat) (x : Mask) : (tm.setMreg k x).priv = tm.priv := by
  unfold Team.setMreg; split <;> rfl
@[simp] theorem Team.setMreg_level (k : Nat) (x : Mask) : (tm.setMreg k x).level = tm.level := by
  unfold Team.setMreg; split <;> rfl
@[simp] theorem Team.setMreg_frame (k : Nat) (x : Mask) : (tm.setMreg k x).frame = tm.frame := by
  unfold Team.setMreg; split <;> rfl
@[simp] theorem Team.setMreg_aside (k : Nat) (x : Mask) : (tm.setMreg k x).aside = tm.aside := by
  unfold Team.setMreg; split <;> rfl
@[simp] theorem Team.setMreg_kill (k : Nat) (x : Mask) : (tm.setMreg k x).kill = tm.kill := by
  unfold Team.setMreg; split <;> rfl
@[simp] theorem Team.setMreg_reply (k : Nat) (x : Mask) : (tm.setMreg k x).reply = tm.reply := by
  unfold Team.setMreg; split <;> rfl
@[simp] theorem Team.setMreg_remote (k : Nat) (x : Mask) : (tm.setMreg k x).remote = tm.remote := by
  unfold Team.setMreg; split <;> rfl
@[simp] theorem Team.setMreg_sxWait (k : Nat) (x : Mask) : (tm.setMreg k x).sxWait = tm.sxWait := by
  unfold Team.setMreg; split <;> rfl
@[simp] theorem Team.setMreg_lost (k : Nat) (x : Mask) : (tm.setMreg k x).lost = tm.lost := by
  unfold Team.setMreg; split <;> rfl
@[simp] theorem Team.setMreg_rewait (k : Nat) (x : Mask) : (tm.setMreg k x).rewait = tm.rewait := by
  unfold Team.setMreg; split <;> rfl
@[simp] theorem Team.setMreg_waitMask (k : Nat) (x : Mask) : (tm.setMreg k x).waitMask = tm.waitMask := by
  unfold Team.setMreg; split <;> rfl
@[simp] theorem Team.setMreg_ceLen (k : Nat) (x : Mask) : (tm.setMreg k x).ceLen = tm.ceLen := by
  unfold Team.setMreg; split <;> rfl
@[simp] theorem Team.setMreg_ceQueue (k : Nat) (x : Mask) : (tm.setMreg k x).ceQueue = tm.ceQueue := by
  unfold Team.setMreg; split <;> rfl
@[simp] theorem Team.setMreg_ce2d (k : Nat) (x : Mask) : (tm.setMreg k x).ce2d = tm.ce2d := by
  unfold Team.setMreg; split <;> rfl
@[simp] theorem Team.setMreg_ceRows (k : Nat) (x : Mask) : (tm.setMreg k x).ceRows = tm.ceRows := by
  unfold Team.setMreg; split <;> rfl
@[simp] theorem Team.setMreg_ceSrc (k : Nat) (x : Mask) : (tm.setMreg k x).ceSrc = tm.ceSrc := by
  unfold Team.setMreg; split <;> rfl
@[simp] theorem Team.setMreg_ceDst (k : Nat) (x : Mask) : (tm.setMreg k x).ceDst = tm.ceDst := by
  unfold Team.setMreg; split <;> rfl
@[simp] theorem Team.setMreg_ceCb (k : Nat) (x : Mask) : (tm.setMreg k x).ceCb = tm.ceCb := by
  unfold Team.setMreg; split <;> rfl
@[simp] theorem Team.setMreg_ceLast (k : Nat) (x : Mask) : (tm.setMreg k x).ceLast = tm.ceLast := by
  unfold Team.setMreg; split <;> rfl
@[simp] theorem Team.setMreg_twDim (k : Nat) (x : Mask) : (tm.setMreg k x).twDim = tm.twDim := by
  unfold Team.setMreg; split <;> rfl
@[simp] theorem Team.setMreg_since (k : Nat) (x : Mask) : (tm.setMreg k x).since = tm.since := by
  unfold Team.setMreg; split <;> rfl
@[simp] theorem Team.setMreg_holding (k : Nat) (x : Mask) : (tm.setMreg k x).holding = tm.holding := by
  unfold Team.setMreg; split <;> rfl
@[simp] theorem Team.setMreg_lastSlot (k : Nat) (x : Mask) : (tm.setMreg k x).lastSlot = tm.lastSlot := by
  unfold Team.setMreg; split <;> rfl
@[simp] theorem Team.setMreg_acquired (k : Nat) (x : Mask) : (tm.setMreg k x).acquired = tm.acquired := by
  unfold Team.setMreg; split <;> rfl
@[simp] theorem Team.setMreg_seen (k : Nat) (x : Mask) : (tm.setMreg k x).seen = tm.seen := by
  unfold Team.setMreg; split <;> rfl
@[simp] theorem Team.setMreg_timeSeen (k : Nat) (x : Mask) : (tm.setMreg k x).timeSeen = tm.timeSeen := by
  unfold Team.setMreg; split <;> rfl
@[simp] theorem Team.setMreg_deadline (k : Nat) (x : Mask) : (tm.setMreg k x).deadline = tm.deadline := by
  unfold Team.setMreg; split <;> rfl
@[simp] theorem Team.setMreg_expired (k : Nat) (x : Mask) : (tm.setMreg k x).expired = tm.expired := by
  unfold Team.setMreg; split <;> rfl
@[simp] theorem Team.setMreg_part (k : Nat) (x : Mask) : (tm.setMreg k x).part = tm.part := by
  unfold Team.setMreg; split <;> rfl

/-! ## `setBreg` -/

@[simp] theorem Team.setBreg_state (k : Nat) (x : Rec) : (tm.setBreg k x).state = tm.state := by
  unfold Team.setBreg; split <;> rfl
@[simp] theorem Team.setBreg_wait (k : Nat) (x : Rec) : (tm.setBreg k x).wait = tm.wait := by
  unfold Team.setBreg; split <;> rfl
@[simp] theorem Team.setBreg_ctrl (k : Nat) (x : Rec) : (tm.setBreg k x).ctrl = tm.ctrl := by
  unfold Team.setBreg; split <;> rfl
@[simp] theorem Team.setBreg_unit (k : Nat) (x : Rec) : (tm.setBreg k x).unit = tm.unit := by
  unfold Team.setBreg; split <;> rfl
@[simp] theorem Team.setBreg_slot (k : Nat) (x : Rec) : (tm.setBreg k x).slot = tm.slot := by
  unfold Team.setBreg; split <;> rfl
@[simp] theorem Team.setBreg_inc (k : Nat) (x : Rec) : (tm.setBreg k x).inc = tm.inc := by
  unfold Team.setBreg; split <;> rfl
@[simp] theorem Team.setBreg_teamid (k : Nat) (x : Rec) : (tm.setBreg k x).teamid = tm.teamid := by
  unfold Team.setBreg; split <;> rfl
@[simp] theorem Team.setBreg_role (k : Nat) (x : Rec) : (tm.setBreg k x).role = tm.role := by
  unfold Team.setBreg; split <;> rfl
@[simp] theorem Team.setBreg_lanes (k : Nat) (x : Rec) : (tm.setBreg k x).lanes = tm.lanes := by
  unfold Team.setBreg; split <;> rfl
@[simp] theorem Team.setBreg_budget (k : Nat) (x : Rec) : (tm.setBreg k x).budget = tm.budget := by
  unfold Team.setBreg; split <;> rfl
@[simp] theorem Team.setBreg_laneBase (k : Nat) (x : Rec) : (tm.setBreg k x).laneBase = tm.laneBase := by
  unfold Team.setBreg; split <;> rfl
@[simp] theorem Team.setBreg_pc (k : Nat) (x : Rec) : (tm.setBreg k x).pc = tm.pc := by
  unfold Team.setBreg; split <;> rfl
@[simp] theorem Team.setBreg_s (k : Nat) (x : Rec) : (tm.setBreg k x).s = tm.s := by
  unfold Team.setBreg; split <;> rfl
@[simp] theorem Team.setBreg_v (k : Nat) (x : Rec) : (tm.setBreg k x).v = tm.v := by
  unfold Team.setBreg; split <;> rfl
@[simp] theorem Team.setBreg_m (k : Nat) (x : Rec) : (tm.setBreg k x).m = tm.m := by
  unfold Team.setBreg; split <;> rfl
@[simp] theorem Team.setBreg_stack (k : Nat) (x : Rec) : (tm.setBreg k x).stack = tm.stack := by
  unfold Team.setBreg; split <;> rfl
@[simp] theorem Team.setBreg_queue (k : Nat) (x : Rec) : (tm.setBreg k x).queue = tm.queue := by
  unfold Team.setBreg; split <;> rfl
@[simp] theorem Team.setBreg_run (k : Nat) (x : Rec) : (tm.setBreg k x).run = tm.run := by
  unfold Team.setBreg; split <;> rfl
@[simp] theorem Team.setBreg_pending (k : Nat) (x : Rec) : (tm.setBreg k x).pending = tm.pending := by
  unfold Team.setBreg; split <;> rfl
@[simp] theorem Team.setBreg_sticky (k : Nat) (x : Rec) : (tm.setBreg k x).sticky = tm.sticky := by
  unfold Team.setBreg; split <;> rfl
@[simp] theorem Team.setBreg_arithmask (k : Nat) (x : Rec) : (tm.setBreg k x).arithmask = tm.arithmask := by
  unfold Team.setBreg; split <;> rfl
@[simp] theorem Team.setBreg_repidx (k : Nat) (x : Rec) : (tm.setBreg k x).repidx = tm.repidx := by
  unfold Team.setBreg; split <;> rfl
@[simp] theorem Team.setBreg_seed (k : Nat) (x : Rec) : (tm.setBreg k x).seed = tm.seed := by
  unfold Team.setBreg; split <;> rfl
@[simp] theorem Team.setBreg_reseed (k : Nat) (x : Rec) : (tm.setBreg k x).reseed = tm.reseed := by
  unfold Team.setBreg; split <;> rfl
@[simp] theorem Team.setBreg_rnd (k : Nat) (x : Rec) : (tm.setBreg k x).rnd = tm.rnd := by
  unfold Team.setBreg; split <;> rfl
@[simp] theorem Team.setBreg_hyp (k : Nat) (x : Rec) : (tm.setBreg k x).hyp = tm.hyp := by
  unfold Team.setBreg; split <;> rfl
@[simp] theorem Team.setBreg_attempt (k : Nat) (x : Rec) : (tm.setBreg k x).attempt = tm.attempt := by
  unfold Team.setBreg; split <;> rfl
@[simp] theorem Team.setBreg_prio (k : Nat) (x : Rec) : (tm.setBreg k x).prio = tm.prio := by
  unfold Team.setBreg; split <;> rfl
@[simp] theorem Team.setBreg_tile (k : Nat) (x : Rec) : (tm.setBreg k x).tile = tm.tile := by
  unfold Team.setBreg; split <;> rfl
@[simp] theorem Team.setBreg_arg (k : Nat) (x : Rec) : (tm.setBreg k x).arg = tm.arg := by
  unfold Team.setBreg; split <;> rfl
@[simp] theorem Team.setBreg_tag (k : Nat) (x : Rec) : (tm.setBreg k x).tag = tm.tag := by
  unfold Team.setBreg; split <;> rfl
@[simp] theorem Team.setBreg_core (k : Nat) (x : Rec) : (tm.setBreg k x).core = tm.core := by
  unfold Team.setBreg; split <;> rfl
@[simp] theorem Team.setBreg_priv (k : Nat) (x : Rec) : (tm.setBreg k x).priv = tm.priv := by
  unfold Team.setBreg; split <;> rfl
@[simp] theorem Team.setBreg_level (k : Nat) (x : Rec) : (tm.setBreg k x).level = tm.level := by
  unfold Team.setBreg; split <;> rfl
@[simp] theorem Team.setBreg_frame (k : Nat) (x : Rec) : (tm.setBreg k x).frame = tm.frame := by
  unfold Team.setBreg; split <;> rfl
@[simp] theorem Team.setBreg_aside (k : Nat) (x : Rec) : (tm.setBreg k x).aside = tm.aside := by
  unfold Team.setBreg; split <;> rfl
@[simp] theorem Team.setBreg_kill (k : Nat) (x : Rec) : (tm.setBreg k x).kill = tm.kill := by
  unfold Team.setBreg; split <;> rfl
@[simp] theorem Team.setBreg_reply (k : Nat) (x : Rec) : (tm.setBreg k x).reply = tm.reply := by
  unfold Team.setBreg; split <;> rfl
@[simp] theorem Team.setBreg_remote (k : Nat) (x : Rec) : (tm.setBreg k x).remote = tm.remote := by
  unfold Team.setBreg; split <;> rfl
@[simp] theorem Team.setBreg_sxWait (k : Nat) (x : Rec) : (tm.setBreg k x).sxWait = tm.sxWait := by
  unfold Team.setBreg; split <;> rfl
@[simp] theorem Team.setBreg_lost (k : Nat) (x : Rec) : (tm.setBreg k x).lost = tm.lost := by
  unfold Team.setBreg; split <;> rfl
@[simp] theorem Team.setBreg_rewait (k : Nat) (x : Rec) : (tm.setBreg k x).rewait = tm.rewait := by
  unfold Team.setBreg; split <;> rfl
@[simp] theorem Team.setBreg_waitMask (k : Nat) (x : Rec) : (tm.setBreg k x).waitMask = tm.waitMask := by
  unfold Team.setBreg; split <;> rfl
@[simp] theorem Team.setBreg_ceLen (k : Nat) (x : Rec) : (tm.setBreg k x).ceLen = tm.ceLen := by
  unfold Team.setBreg; split <;> rfl
@[simp] theorem Team.setBreg_ceQueue (k : Nat) (x : Rec) : (tm.setBreg k x).ceQueue = tm.ceQueue := by
  unfold Team.setBreg; split <;> rfl
@[simp] theorem Team.setBreg_ce2d (k : Nat) (x : Rec) : (tm.setBreg k x).ce2d = tm.ce2d := by
  unfold Team.setBreg; split <;> rfl
@[simp] theorem Team.setBreg_ceRows (k : Nat) (x : Rec) : (tm.setBreg k x).ceRows = tm.ceRows := by
  unfold Team.setBreg; split <;> rfl
@[simp] theorem Team.setBreg_ceSrc (k : Nat) (x : Rec) : (tm.setBreg k x).ceSrc = tm.ceSrc := by
  unfold Team.setBreg; split <;> rfl
@[simp] theorem Team.setBreg_ceDst (k : Nat) (x : Rec) : (tm.setBreg k x).ceDst = tm.ceDst := by
  unfold Team.setBreg; split <;> rfl
@[simp] theorem Team.setBreg_ceCb (k : Nat) (x : Rec) : (tm.setBreg k x).ceCb = tm.ceCb := by
  unfold Team.setBreg; split <;> rfl
@[simp] theorem Team.setBreg_ceLast (k : Nat) (x : Rec) : (tm.setBreg k x).ceLast = tm.ceLast := by
  unfold Team.setBreg; split <;> rfl
@[simp] theorem Team.setBreg_twDim (k : Nat) (x : Rec) : (tm.setBreg k x).twDim = tm.twDim := by
  unfold Team.setBreg; split <;> rfl
@[simp] theorem Team.setBreg_since (k : Nat) (x : Rec) : (tm.setBreg k x).since = tm.since := by
  unfold Team.setBreg; split <;> rfl
@[simp] theorem Team.setBreg_holding (k : Nat) (x : Rec) : (tm.setBreg k x).holding = tm.holding := by
  unfold Team.setBreg; split <;> rfl
@[simp] theorem Team.setBreg_lastSlot (k : Nat) (x : Rec) : (tm.setBreg k x).lastSlot = tm.lastSlot := by
  unfold Team.setBreg; split <;> rfl
@[simp] theorem Team.setBreg_acquired (k : Nat) (x : Rec) : (tm.setBreg k x).acquired = tm.acquired := by
  unfold Team.setBreg; split <;> rfl
@[simp] theorem Team.setBreg_seen (k : Nat) (x : Rec) : (tm.setBreg k x).seen = tm.seen := by
  unfold Team.setBreg; split <;> rfl
@[simp] theorem Team.setBreg_timeSeen (k : Nat) (x : Rec) : (tm.setBreg k x).timeSeen = tm.timeSeen := by
  unfold Team.setBreg; split <;> rfl
@[simp] theorem Team.setBreg_deadline (k : Nat) (x : Rec) : (tm.setBreg k x).deadline = tm.deadline := by
  unfold Team.setBreg; split <;> rfl
@[simp] theorem Team.setBreg_expired (k : Nat) (x : Rec) : (tm.setBreg k x).expired = tm.expired := by
  unfold Team.setBreg; split <;> rfl
@[simp] theorem Team.setBreg_part (k : Nat) (x : Rec) : (tm.setBreg k x).part = tm.part := by
  unfold Team.setBreg; split <;> rfl

/-! ## `stickIf` -/

@[simp] theorem Team.stickIf_state (c : Bool) (y : BitVec 3) : (tm.stickIf c y).state = tm.state := by
  unfold Team.stickIf; split <;> rfl
@[simp] theorem Team.stickIf_wait (c : Bool) (y : BitVec 3) : (tm.stickIf c y).wait = tm.wait := by
  unfold Team.stickIf; split <;> rfl
@[simp] theorem Team.stickIf_ctrl (c : Bool) (y : BitVec 3) : (tm.stickIf c y).ctrl = tm.ctrl := by
  unfold Team.stickIf; split <;> rfl
@[simp] theorem Team.stickIf_unit (c : Bool) (y : BitVec 3) : (tm.stickIf c y).unit = tm.unit := by
  unfold Team.stickIf; split <;> rfl
@[simp] theorem Team.stickIf_slot (c : Bool) (y : BitVec 3) : (tm.stickIf c y).slot = tm.slot := by
  unfold Team.stickIf; split <;> rfl
@[simp] theorem Team.stickIf_inc (c : Bool) (y : BitVec 3) : (tm.stickIf c y).inc = tm.inc := by
  unfold Team.stickIf; split <;> rfl
@[simp] theorem Team.stickIf_teamid (c : Bool) (y : BitVec 3) : (tm.stickIf c y).teamid = tm.teamid := by
  unfold Team.stickIf; split <;> rfl
@[simp] theorem Team.stickIf_role (c : Bool) (y : BitVec 3) : (tm.stickIf c y).role = tm.role := by
  unfold Team.stickIf; split <;> rfl
@[simp] theorem Team.stickIf_lanes (c : Bool) (y : BitVec 3) : (tm.stickIf c y).lanes = tm.lanes := by
  unfold Team.stickIf; split <;> rfl
@[simp] theorem Team.stickIf_budget (c : Bool) (y : BitVec 3) : (tm.stickIf c y).budget = tm.budget := by
  unfold Team.stickIf; split <;> rfl
@[simp] theorem Team.stickIf_laneBase (c : Bool) (y : BitVec 3) : (tm.stickIf c y).laneBase = tm.laneBase := by
  unfold Team.stickIf; split <;> rfl
@[simp] theorem Team.stickIf_pc (c : Bool) (y : BitVec 3) : (tm.stickIf c y).pc = tm.pc := by
  unfold Team.stickIf; split <;> rfl
@[simp] theorem Team.stickIf_s (c : Bool) (y : BitVec 3) : (tm.stickIf c y).s = tm.s := by
  unfold Team.stickIf; split <;> rfl
@[simp] theorem Team.stickIf_v (c : Bool) (y : BitVec 3) : (tm.stickIf c y).v = tm.v := by
  unfold Team.stickIf; split <;> rfl
@[simp] theorem Team.stickIf_m (c : Bool) (y : BitVec 3) : (tm.stickIf c y).m = tm.m := by
  unfold Team.stickIf; split <;> rfl
@[simp] theorem Team.stickIf_stack (c : Bool) (y : BitVec 3) : (tm.stickIf c y).stack = tm.stack := by
  unfold Team.stickIf; split <;> rfl
@[simp] theorem Team.stickIf_b (c : Bool) (y : BitVec 3) : (tm.stickIf c y).b = tm.b := by
  unfold Team.stickIf; split <;> rfl
@[simp] theorem Team.stickIf_queue (c : Bool) (y : BitVec 3) : (tm.stickIf c y).queue = tm.queue := by
  unfold Team.stickIf; split <;> rfl
@[simp] theorem Team.stickIf_run (c : Bool) (y : BitVec 3) : (tm.stickIf c y).run = tm.run := by
  unfold Team.stickIf; split <;> rfl
@[simp] theorem Team.stickIf_pending (c : Bool) (y : BitVec 3) : (tm.stickIf c y).pending = tm.pending := by
  unfold Team.stickIf; split <;> rfl
@[simp] theorem Team.stickIf_arithmask (c : Bool) (y : BitVec 3) : (tm.stickIf c y).arithmask = tm.arithmask := by
  unfold Team.stickIf; split <;> rfl
@[simp] theorem Team.stickIf_repidx (c : Bool) (y : BitVec 3) : (tm.stickIf c y).repidx = tm.repidx := by
  unfold Team.stickIf; split <;> rfl
@[simp] theorem Team.stickIf_seed (c : Bool) (y : BitVec 3) : (tm.stickIf c y).seed = tm.seed := by
  unfold Team.stickIf; split <;> rfl
@[simp] theorem Team.stickIf_reseed (c : Bool) (y : BitVec 3) : (tm.stickIf c y).reseed = tm.reseed := by
  unfold Team.stickIf; split <;> rfl
@[simp] theorem Team.stickIf_rnd (c : Bool) (y : BitVec 3) : (tm.stickIf c y).rnd = tm.rnd := by
  unfold Team.stickIf; split <;> rfl
@[simp] theorem Team.stickIf_hyp (c : Bool) (y : BitVec 3) : (tm.stickIf c y).hyp = tm.hyp := by
  unfold Team.stickIf; split <;> rfl
@[simp] theorem Team.stickIf_attempt (c : Bool) (y : BitVec 3) : (tm.stickIf c y).attempt = tm.attempt := by
  unfold Team.stickIf; split <;> rfl
@[simp] theorem Team.stickIf_prio (c : Bool) (y : BitVec 3) : (tm.stickIf c y).prio = tm.prio := by
  unfold Team.stickIf; split <;> rfl
@[simp] theorem Team.stickIf_tile (c : Bool) (y : BitVec 3) : (tm.stickIf c y).tile = tm.tile := by
  unfold Team.stickIf; split <;> rfl
@[simp] theorem Team.stickIf_arg (c : Bool) (y : BitVec 3) : (tm.stickIf c y).arg = tm.arg := by
  unfold Team.stickIf; split <;> rfl
@[simp] theorem Team.stickIf_tag (c : Bool) (y : BitVec 3) : (tm.stickIf c y).tag = tm.tag := by
  unfold Team.stickIf; split <;> rfl
@[simp] theorem Team.stickIf_core (c : Bool) (y : BitVec 3) : (tm.stickIf c y).core = tm.core := by
  unfold Team.stickIf; split <;> rfl
@[simp] theorem Team.stickIf_priv (c : Bool) (y : BitVec 3) : (tm.stickIf c y).priv = tm.priv := by
  unfold Team.stickIf; split <;> rfl
@[simp] theorem Team.stickIf_level (c : Bool) (y : BitVec 3) : (tm.stickIf c y).level = tm.level := by
  unfold Team.stickIf; split <;> rfl
@[simp] theorem Team.stickIf_frame (c : Bool) (y : BitVec 3) : (tm.stickIf c y).frame = tm.frame := by
  unfold Team.stickIf; split <;> rfl
@[simp] theorem Team.stickIf_aside (c : Bool) (y : BitVec 3) : (tm.stickIf c y).aside = tm.aside := by
  unfold Team.stickIf; split <;> rfl
@[simp] theorem Team.stickIf_kill (c : Bool) (y : BitVec 3) : (tm.stickIf c y).kill = tm.kill := by
  unfold Team.stickIf; split <;> rfl
@[simp] theorem Team.stickIf_reply (c : Bool) (y : BitVec 3) : (tm.stickIf c y).reply = tm.reply := by
  unfold Team.stickIf; split <;> rfl
@[simp] theorem Team.stickIf_remote (c : Bool) (y : BitVec 3) : (tm.stickIf c y).remote = tm.remote := by
  unfold Team.stickIf; split <;> rfl
@[simp] theorem Team.stickIf_sxWait (c : Bool) (y : BitVec 3) : (tm.stickIf c y).sxWait = tm.sxWait := by
  unfold Team.stickIf; split <;> rfl
@[simp] theorem Team.stickIf_lost (c : Bool) (y : BitVec 3) : (tm.stickIf c y).lost = tm.lost := by
  unfold Team.stickIf; split <;> rfl
@[simp] theorem Team.stickIf_rewait (c : Bool) (y : BitVec 3) : (tm.stickIf c y).rewait = tm.rewait := by
  unfold Team.stickIf; split <;> rfl
@[simp] theorem Team.stickIf_waitMask (c : Bool) (y : BitVec 3) : (tm.stickIf c y).waitMask = tm.waitMask := by
  unfold Team.stickIf; split <;> rfl
@[simp] theorem Team.stickIf_ceLen (c : Bool) (y : BitVec 3) : (tm.stickIf c y).ceLen = tm.ceLen := by
  unfold Team.stickIf; split <;> rfl
@[simp] theorem Team.stickIf_ceQueue (c : Bool) (y : BitVec 3) : (tm.stickIf c y).ceQueue = tm.ceQueue := by
  unfold Team.stickIf; split <;> rfl
@[simp] theorem Team.stickIf_ce2d (c : Bool) (y : BitVec 3) : (tm.stickIf c y).ce2d = tm.ce2d := by
  unfold Team.stickIf; split <;> rfl
@[simp] theorem Team.stickIf_ceRows (c : Bool) (y : BitVec 3) : (tm.stickIf c y).ceRows = tm.ceRows := by
  unfold Team.stickIf; split <;> rfl
@[simp] theorem Team.stickIf_ceSrc (c : Bool) (y : BitVec 3) : (tm.stickIf c y).ceSrc = tm.ceSrc := by
  unfold Team.stickIf; split <;> rfl
@[simp] theorem Team.stickIf_ceDst (c : Bool) (y : BitVec 3) : (tm.stickIf c y).ceDst = tm.ceDst := by
  unfold Team.stickIf; split <;> rfl
@[simp] theorem Team.stickIf_ceCb (c : Bool) (y : BitVec 3) : (tm.stickIf c y).ceCb = tm.ceCb := by
  unfold Team.stickIf; split <;> rfl
@[simp] theorem Team.stickIf_ceLast (c : Bool) (y : BitVec 3) : (tm.stickIf c y).ceLast = tm.ceLast := by
  unfold Team.stickIf; split <;> rfl
@[simp] theorem Team.stickIf_twDim (c : Bool) (y : BitVec 3) : (tm.stickIf c y).twDim = tm.twDim := by
  unfold Team.stickIf; split <;> rfl
@[simp] theorem Team.stickIf_since (c : Bool) (y : BitVec 3) : (tm.stickIf c y).since = tm.since := by
  unfold Team.stickIf; split <;> rfl
@[simp] theorem Team.stickIf_holding (c : Bool) (y : BitVec 3) : (tm.stickIf c y).holding = tm.holding := by
  unfold Team.stickIf; split <;> rfl
@[simp] theorem Team.stickIf_lastSlot (c : Bool) (y : BitVec 3) : (tm.stickIf c y).lastSlot = tm.lastSlot := by
  unfold Team.stickIf; split <;> rfl
@[simp] theorem Team.stickIf_acquired (c : Bool) (y : BitVec 3) : (tm.stickIf c y).acquired = tm.acquired := by
  unfold Team.stickIf; split <;> rfl
@[simp] theorem Team.stickIf_seen (c : Bool) (y : BitVec 3) : (tm.stickIf c y).seen = tm.seen := by
  unfold Team.stickIf; split <;> rfl
@[simp] theorem Team.stickIf_timeSeen (c : Bool) (y : BitVec 3) : (tm.stickIf c y).timeSeen = tm.timeSeen := by
  unfold Team.stickIf; split <;> rfl
@[simp] theorem Team.stickIf_deadline (c : Bool) (y : BitVec 3) : (tm.stickIf c y).deadline = tm.deadline := by
  unfold Team.stickIf; split <;> rfl
@[simp] theorem Team.stickIf_expired (c : Bool) (y : BitVec 3) : (tm.stickIf c y).expired = tm.expired := by
  unfold Team.stickIf; split <;> rfl
@[simp] theorem Team.stickIf_part (c : Bool) (y : BitVec 3) : (tm.stickIf c y).part = tm.part := by
  unfold Team.stickIf; split <;> rfl

end Sys2Proof.Machine
end

