-- ==== Sys2Proof/Laws/Memory.lean ====
section
/-!
SUPPORT. Memory: bytes after a write, numbers and their bytes, and that the operations keep the canonical form.
-/
namespace Sys2Proof

/-! ## Numbers and their bytes (00:R8) -/

@[simp] theorem length_leBytes (n x : Nat) : (leBytes n x).length = n := by
  induction n generalizing x with
  | zero => rfl
  | succ n ih => simp [leBytes, ih]

theorem leNat_leBytes (n x : Nat) : leNat (leBytes n x) = x % 256 ^ n := by
  induction n generalizing x with
  | zero => simp [leBytes, leNat, Nat.mod_one]
  | succ n ih =>
    have h : x % (256 * 256 ^ n) = x % 256 + 256 * (x / 256 % 256 ^ n) := Nat.mod_mul
    have e : 256 ^ (n + 1) = 256 * 256 ^ n := Nat.pow_succ'
    rw [leBytes, leNat, ih, BitVec.toNat_ofNat, e, h]

theorem leNat_append (a b : List Byte) : leNat (a ++ b) = leNat a + 256 ^ a.length * leNat b := by
  induction a with
  | nil => simp [leNat]
  | cons x r ih => simp only [List.cons_append, leNat, ih, List.length_cons, Nat.pow_succ]; ring

namespace Machine

/-! ## Bytes after a write -/

theorem get_writeBytes (bs : List Byte) (m : Memory) (k j : Nat) :
    NMap.get (writeBytes m k bs) 0 j = if k ≤ j ∧ j < k + bs.length then bs.getD (j - k) 0 else NMap.get m 0 j := by
  induction bs generalizing m k with
  | nil => simp [writeBytes, show ¬ (k ≤ j ∧ j < k) by omega]
  | cons b r ih =>
    rw [writeBytes, ih, NMap.get_put]
    simp only [List.length_cons]
    by_cases h1 : k + 1 ≤ j ∧ j < k + 1 + r.length
    · rw [if_pos h1, if_pos (by omega)]
      obtain ⟨d, hd⟩ : ∃ d, j - k = d + 1 := ⟨j - k - 1, by omega⟩
      have : j - (k + 1) = d := by omega
      simp [hd, this]
    · rw [if_neg h1]
      by_cases h2 : k = j
      · subst h2; simp
      · rw [if_neg h2, if_neg (by omega)]

/-- A byte after a write: the written one inside the range, and as before outside it. -/
theorem State.byte_poke (s : State) (k : Nat) (bs : List Byte) (j : Nat) :
    (s.poke k bs).byte j = if k ≤ j ∧ j < k + bs.length then bs.getD (j - k) 0 else s.byte j :=
  get_writeBytes bs s.mem k j

theorem State.byte_poke_out (s : State) (k : Nat) (bs : List Byte) (j : Nat) (h : j < k ∨ k + bs.length ≤ j) :
    (s.poke k bs).byte j = s.byte j := by
  rw [State.byte_poke, if_neg (by omega)]

theorem State.bytes_poke (s : State) (k : Nat) (bs : List Byte) (o n : Nat) (h : o + n ≤ bs.length) :
    (s.poke k bs).bytes (k + o) n = (bs.drop o).take n := by
  apply List.ext_getElem
  · simp [State.bytes]; omega
  · intro i h1 h2
    have hi : i < n := by simpa [State.bytes] using h1
    simp only [State.bytes, List.getElem_map, List.getElem_range, State.byte_poke, List.getElem_take, List.getElem_drop]
    rw [if_pos (by omega)]
    have : k + o + i - k = o + i := by omega
    rw [this, List.getD_eq_getElem _ _ (by omega)]

theorem State.bytes_congr (s s' : State) (k n : Nat) (h : ∀ i, i < n → s'.byte (k + i) = s.byte (k + i)) :
    s'.bytes k n = s.bytes k n := by
  simp only [State.bytes]
  exact List.map_congr_left fun i hi => h i (List.mem_range.1 hi)

/-! ## The canonical form -/

theorem wf_writeBytes (bs : List Byte) (m : Memory) (k : Nat) (h : Memory.wf m = true) : Memory.wf (writeBytes m k bs) = true := by
  induction bs generalizing m k with
  | nil => exact h
  | cons b r ih => exact ih _ _ (NMap.wf_put 0 m k b h)

theorem State.inv_poke (s : State) (k : Nat) (bs : List Byte) (h : s.Inv) : (s.poke k bs).Inv := wf_writeBytes bs s.mem k h

theorem wf_filter_mem (m : Memory) (p : Nat × Byte → Bool) (h : Memory.wf m = true) : Memory.wf (m.filter p) = true :=
  NMap.wf_filter 0 m p h

end Machine
end Sys2Proof
end

