-- ==== Sys2Proof/Laws/Access.lean ====
section
/-!
SUPPORT. What loads and stores of a list of places leave alone.
-/
namespace Sys2Proof.Machine

theorem onScalar_some {s : State} {t : Nat} {tm : Team} (h : s.scalarTeam = some (t, tm)) (k : Nat → Team → Out) :
    onScalar s k = k t tm := by
  simp [onScalar, h]

theorem onScalar_none {s : State} (h : s.scalarTeam = none) (k : Nat → Team → Out) : onScalar s k = .next s.resumeBarrier := by
  simp [onScalar, h]

/-! ## What changes caches only -/

/-- A load changes caches, links, the TLB and the counters of dropped requests. -/
structure LoadKeeps (s s' : State) : Prop where
  mem   : s'.mem = s.mem
  teams : s'.teams = s.teams
  units : s'.units = s.units
  ctxs  : s'.contexts = s.contexts
  parts : s'.parts = s.parts

theorem LoadKeeps.refl (s : State) : LoadKeeps s s := ⟨rfl, rfl, rfl, rfl, rfl⟩

theorem LoadKeeps.trans {s s' s'' : State} (a : LoadKeeps s s') (b : LoadKeeps s' s'') : LoadKeeps s s'' :=
  ⟨b.mem.trans a.mem, b.teams.trans a.teams, b.units.trans a.units, b.ctxs.trans a.ctxs, b.parts.trans a.parts⟩

theorem LoadKeeps.foldl {α : Type} {f : State → α → State} (h : ∀ s x, LoadKeeps s (f s x)) (l : List α) (s : State) :
    LoadKeeps s (l.foldl f s) := by
  induction l generalizing s with
  | nil => exact .refl s
  | cons x r ih => exact (h s x).trans (ih _)

theorem State.touchTlb_keeps (s : State) (slot page : Nat) : LoadKeeps s (s.touchTlb slot page) := by
  unfold State.touchTlb
  dsimp only
  split <;> exact ⟨rfl, rfl, rfl, rfl, rfl⟩

theorem State.countDrop_keeps (s : State) (slot k : Nat) : LoadKeeps s (s.countDrop slot k) := ⟨rfl, rfl, rfl, rfl, rfl⟩

theorem State.cross_keeps (s : State) (d e : Nat) : LoadKeeps s (s.cross d e) := by
  unfold State.cross
  split <;> exact ⟨rfl, rfl, rfl, rfl, rfl⟩

theorem State.tagLine_keeps (s : State) (tg : Tags) (key : Nat) (tile : Bool) : LoadKeeps s (s.tagLine tg key tile) :=
  ⟨rfl, rfl, rfl, rfl, rfl⟩

theorem State.evictReplicas_keeps (s : State) (p : Replica → Bool) : LoadKeeps s (s.evictReplicas p) :=
  .trans (s' := { s with replicas := s.replicas.filter fun r => !p r }) ⟨rfl, rfl, rfl, rfl, rfl⟩
    (LoadKeeps.foldl (f := fun (s : State) (r : Replica) => s.clearPresence r.key r.die) (fun _ _ => ⟨rfl, rfl, rfl, rfl, rfl⟩) _ _)

theorem State.thinL1_keeps (s : State) (core k0 i : Nat) : LoadKeeps s (s.thinL1 core k0 i) := ⟨rfl, rfl, rfl, rfl, rfl⟩

theorem State.postStore_keeps (s : State) (tg : Tags) (d home k0 : Nat) (bytes : NMap Byte) (halo : Bool) (row : Nat) (prevs : List Nat) :
    LoadKeeps s (s.postStore tg d home k0 bytes halo row prevs) := ⟨rfl, rfl, rfl, rfl, rfl⟩

theorem State.writeBack_keeps (s : State) (tg : Tags) (l : L1Line) : LoadKeeps s (s.writeBack tg l) := ⟨rfl, rfl, rfl, rfl, rfl⟩

theorem State.makeRoom_keeps (s : State) (tg : Tags) (ro : Bool) (i : Nat) : LoadKeeps s (s.makeRoom tg ro i) := by
  unfold State.makeRoom
  split
  · exact .refl s
  · dsimp only
    split
    all_goals exact ⟨rfl, rfl, rfl, rfl, rfl⟩

theorem State.fillL1_keeps (s : State) (tg : Tags) (ro : Bool) (home k0 : Nat) (line : Line) (haloed : Bool) (dirty : BitVec 128) (i : Nat) :
    LoadKeeps s (s.fillL1 tg ro home k0 line haloed dirty i) := by
  unfold State.fillL1
  dsimp only
  have h := State.makeRoom_keeps { s with l1 := s.l1.filter fun (l : L1Line) => !(l.core = tg.core && l.slot = tg.slot && l.key = k0 && l.ro = ro) } tg ro i
  exact ⟨h.mem, h.teams, h.units, h.ctxs, h.parts⟩

theorem State.fillReplica_keeps (s : State) (tg : Tags) (d home k0 : Nat) (tile : Bool) (i : Nat) :
    LoadKeeps s (s.fillReplica tg d home k0 tile i).1 := by
  unfold State.fillReplica
  dsimp only
  split
  · exact ⟨rfl, rfl, rfl, rfl, rfl⟩
  split
  · exact (s.evictReplicas_keeps _).trans ⟨rfl, rfl, rfl, rfl, rfl⟩
  · exact ⟨rfl, rfl, rfl, rfl, rfl⟩

theorem State.fetchLine_keeps (s : State) (tg : Tags) (d home k0 : Nat) (tile fresh : Bool) (i : Nat) (r : State × LineView)
    (h : s.fetchLine tg d home k0 tile fresh i = some r) : LoadKeeps s r.1 := by
  unfold State.fetchLine at h
  dsimp only at h
  split at h
  · cases h; exact s.tagLine_keeps tg k0 tile
  split at h
  · split at h
    · cases h; exact s.cross_keeps d home
    · cases h
  split at h
  · cases h; exact s.evictReplicas_keeps _
  split at h
  · cases h
  · cases h
    exact (s.evictReplicas_keeps _).trans ((State.cross_keeps _ d home).trans (State.fillReplica_keeps ..))

/-! ## Loads -/

theorem State.loadLine_keeps (s : State) (tg : Tags) (o : LoadOpts) (d home k0 i : Nat) (haloed : Bool) :
    LoadKeeps s (s.loadLine tg o d home k0 i haloed).s := by
  unfold State.loadLine
  dsimp only
  split
  · exact s.countDrop_keeps ..
  split
  · split
    · exact s.cross_keeps ..
    · exact .refl s
  have th := s.thinL1_keeps tg.core k0 i
  split
  · exact th
  split
  · exact th.trans (State.countDrop_keeps ..)
  split
  · exact th
  next s' v h =>
    have f := th.trans (State.fetchLine_keeps _ _ _ _ _ _ _ _ _ h)
    split
    · exact f
    split
    · exact th
    · exact f.trans (State.fillL1_keeps ..)

theorem State.noteRead_keeps (s : State) (tg : Tags) (arena : Nat) : LoadKeeps s (s.noteRead tg arena) := by
  unfold State.noteRead
  split
  · split <;> exact ⟨rfl, rfl, rfl, rfl, rfl⟩
  · exact .refl s

theorem State.loadMem_keeps (s : State) (tg : Tags) (o : LoadOpts) (req : Option (Nat × BitVec 6)) (i : Nat) (p : Place) :
    LoadKeeps s (s.loadMem tg o req i p).s := by
  unfold State.loadMem
  dsimp only
  split
  · exact s.loadLine_keeps ..
  · have h := (s.touchTlb_keeps tg.slot (p.va / 65536)).trans (State.loadLine_keeps _ (s.placeTags tg req p)
      { o with noL1 := o.noL1 || (!(s.ctx tg.slot).keepsTile tg.core p.va && ((s.ctx tg.slot).tileAt p.va).isSome) } (dieOfCore tg.core) p.home
      (lineOf p.key) i ((s.ctx tg.slot).keepsTile tg.core p.va))
    split
    · exact h.trans (State.noteRead_keeps ..)
    · exact h

theorem State.loadPlace_keeps (s : State) (tg : Tags) (o : LoadOpts) (req : Option (Nat × BitVec 6)) (i : Nat) (p : Place) :
    LoadKeeps s (s.loadPlace tg o req i p).s := by
  unfold State.loadPlace
  split
  · split
    · split
      · exact .refl s
      · split
        · exact .refl s
        · exact s.countDrop_keeps ..
    · exact .refl s
  · exact s.loadMem_keeps ..

theorem State.loadPlaces_keeps (pl : List Place) (s : State) (tg : Tags) (o : LoadOpts) (req : Option (Nat × BitVec 6)) (i : Nat) :
    LoadKeeps s (s.loadPlaces tg o req i pl).s := by
  induction pl generalizing s i with
  | nil => exact .refl s
  | cons p r ih => exact (s.loadPlace_keeps tg o req i p).trans (ih ..)

/-! ## Stores -/

/-- A store changes caches, what is under way, the TLB, poison marks, a replay's shadow buffer, and bytes of scratchpads. -/
structure StoreKeeps (s s' : State) : Prop where
  teams : s'.teams = s.teams
  units : s'.units = s.units
  ctxs  : s'.contexts = s.contexts
  parts : s'.parts = s.parts
  wf    : Memory.wf s.mem = true → Memory.wf s'.mem = true

theorem StoreKeeps.refl (s : State) : StoreKeeps s s := ⟨rfl, rfl, rfl, rfl, id⟩

theorem StoreKeeps.trans {s s' s'' : State} (a : StoreKeeps s s') (b : StoreKeeps s' s'') : StoreKeeps s s'' :=
  ⟨b.teams.trans a.teams, b.units.trans a.units, b.ctxs.trans a.ctxs, b.parts.trans a.parts, b.wf ∘ a.wf⟩

theorem LoadKeeps.store {s s' : State} (a : LoadKeeps s s') : StoreKeeps s s' :=
  ⟨a.teams, a.units, a.ctxs, a.parts, fun h => by rw [a.mem]; exact h⟩

theorem State.poke_keeps (s : State) (k : Nat) (bs : List Byte) : StoreKeeps s (s.poke k bs) :=
  ⟨rfl, rfl, rfl, rfl, fun h => State.inv_poke s k bs h⟩

theorem State.storeTile_keeps (s : State) (tg : Tags) (home k0 : Nat) (bytes : NMap Byte) : LoadKeeps s (s.storeTile tg home k0 bytes) := by
  unfold State.storeTile
  split
  · exact s.countDrop_keeps ..
  split
  · exact s.countDrop_keeps ..
  dsimp only
  split
  · exact ⟨rfl, rfl, rfl, rfl, rfl⟩
  · have h := (s.cross_keeps (dieOfCore tg.core) home).trans
      (State.fillL1_keeps _ tg false home k0 (s.withOwn tg k0 (s.viewOf tg.slot k0)).ord true 0 0)
    exact ⟨h.mem, h.teams, h.units, h.ctxs, h.parts⟩

theorem State.storePad_keeps (s : State) (tg : Tags) (sh : Bool) (key : Nat) (data : List Byte) :
    StoreKeeps s (s.storePad tg sh key data) := by
  unfold State.storePad
  repeat' split
  all_goals first
    | exact ⟨rfl, rfl, rfl, rfl, fun h => State.inv_poke s _ _ h⟩
    | exact ⟨rfl, rfl, rfl, rfl, id⟩

/-- The key at which a scratchpad place is written now, if it is. -/
def State.padTarget (s : State) (p : Place) : Option Nat := if p.shared then s.forwarded p.key else some p.key

theorem State.storePad_byte (s : State) (p : Place) (tg : Tags) (data : List Byte) (k : Nat)
    (h : ∀ j, s.padTarget p = some j → k < j ∨ j + data.length ≤ k) : (s.storePad tg p.shared p.key data).byte k = s.byte k := by
  have c : ∀ (s : State) (j n : Nat), (s.clearPoison j n).byte k = s.byte k := fun _ _ _ => rfl
  unfold State.padTarget State.forwarded at h
  unfold State.storePad
  cases hs : p.shared <;> simp only [hs] at h ⊢
  · rw [if_pos (by decide), c]; exact State.byte_poke_out _ _ _ _ (h _ rfl)
  · rw [if_neg (by decide)]
    simp only [if_true] at h
    split
    · rfl
    split at h
    · next i m hf =>
      simp only [hf]
      by_cases h1 : m.ended = true
      · simp only [h1, if_true]; rfl
      by_cases h2 : m.copying = true
      · simp only [h1, h2, if_true]; rfl
      · simp only [h1, h2] at h ⊢
        exact State.byte_poke_out _ _ _ _ (h _ rfl)
    · next hf => simp only [hf]; rw [c]; exact State.byte_poke_out _ _ _ _ (h _ rfl)

theorem State.storeShadow_keeps (s : State) (u : LUnit) (k va : Nat) (bytes : NMap Byte) : LoadKeeps s (s.storeShadow u k va bytes) := by
  unfold State.storeShadow
  split <;> exact ⟨rfl, rfl, rfl, rfl, rfl⟩

theorem State.storeMem_keeps (s : State) (tg : Tags) (req : Option (Nat × BitVec 6)) (p : Place) (bytes : NMap Byte) (row : Nat)
    (prevs : List Nat) : LoadKeeps s (s.storeMem tg req p bytes row prevs) := by
  unfold State.storeMem
  split
  · exact s.storeShadow_keeps ..
  split
  · split
    · exact s.countDrop_keeps ..
    · exact ⟨rfl, rfl, rfl, rfl, rfl⟩
  dsimp only
  have tl := s.touchTlb_keeps tg.slot (p.va / 65536)
  split
  · exact s.postStore_keeps ..
  split
  · split
    · exact tl.trans (State.storeTile_keeps ..)
    · exact tl.trans (State.postStore_keeps ..)
  · exact tl.trans (State.postStore_keeps ..)

theorem State.storePlace_keeps (s : State) (tg : Tags) (req : Option (Nat × BitVec 6)) (prevs : List Nat) (p : Place) (data : List Byte) :
    StoreKeeps s (s.storePlace tg req prevs p data) ∧ (p.win ≠ .pad → (s.storePlace tg req prevs p data).mem = s.mem) := by
  unfold State.storePlace
  split
  · next h => exact ⟨s.storePad_keeps .., fun n => absurd h n⟩
  · have k := s.storeMem_keeps tg req p (lineBytes p.key data) 0 prevs
    exact ⟨k.store, fun _ => k.mem⟩

theorem State.storePlaces_keeps (pl : List Place) (s : State) (tg : Tags) (req : Option (Nat × BitVec 6)) (prevs : List Nat) (data : List Byte) :
    StoreKeeps s (s.storePlaces tg req prevs pl data) := by
  induction pl generalizing s data prevs with
  | nil => exact .refl s
  | cons p r ih => exact (s.storePlace_keeps tg req prevs p _).1.trans (ih ..)

theorem State.storePlace_byte (s : State) (tg : Tags) (req : Option (Nat × BitVec 6)) (prevs : List Nat) (p : Place) (data : List Byte) (k : Nat)
    (h : p.win = .pad → ∀ j, s.padTarget p = some j → k < j ∨ j + data.length ≤ k) :
    (s.storePlace tg req prevs p data).byte k = s.byte k := by
  by_cases hw : p.win = .pad
  · unfold State.storePlace
    simp only [hw]
    exact s.storePad_byte p tg data k (h hw)
  · unfold State.byte
    rw [(s.storePlace_keeps tg req prevs p data).2 hw]

/-- The places of an access: none in a scratchpad, or one alone. -/
theorem State.places_win (s : State) (slot : Nat) (kd : Kind) (ps : List Piece) (pl : List Place) (h : s.places slot kd ps = .ok pl) :
    pl.map (·.win) = ps.map (·.win) := by
  induction ps generalizing pl with
  | nil => simp only [State.places] at h; cases h; rfl
  | cons x r ih =>
    unfold State.places at h
    have e : ∀ (q : Place) (hq : q.win = x.win), (s.places slot kd r).map (q :: ·) = .ok pl → pl.map (·.win) = (x :: r).map (·.win) := by
      intro q hq hm
      cases hr : s.places slot kd r with
      | error m => rw [hr] at hm; cases hm
      | ok pr => rw [hr] at hm; cases hm; simp [hq, ih pr hr]
    split at h
    · next hw => exact e _ (by rw [hw]) h
    · next hw => exact e _ (by rw [hw]) h
    · next hw =>
      split at h
      · cases h
      · split at h
        · cases h
        · split at h
          · cases h
          · exact e _ (by rw [hw]) h

end Sys2Proof.Machine
end

