-- ==== Sys2Proof/Laws/Issue.lean ====
section
/-!
SUPPORT. What moves when a scalar word or an SX command issues, and how a command replies.
-/
namespace Sys2Proof.Machine

/-- The team that moves stands in the list, and no longer waits. -/
theorem scalarTeam_get {s : State} {t : Nat} {tm : Team} (h : s.scalarTeam = some (t, tm)) :
    ∃ x, s.teams[t]? = some x ∧ tm = { x with wait := none, sxWait := false } := by
  unfold State.scalarTeam at h
  repeat' split at h
  all_goals first | (cases h; done) | skip
  next h2 _ => cases h; exact ⟨_, h2, rfl⟩

theorem scalarTeam_lt {s : State} {t : Nat} {tm : Team} (h : s.scalarTeam = some (t, tm)) : t < s.teams.length := by
  obtain ⟨_, h1, -⟩ := scalarTeam_get h
  exact (List.getElem?_eq_some_iff.1 h1).1

theorem scalarTeam_turn {s : State} {t : Nat} {tm : Team} (h : s.scalarTeam = some (t, tm)) : s.turn = .scalar t := by
  unfold State.scalarTeam at h
  split at h
  · next x hx =>
    split at h
    · split at h
      · cases h; exact hx
      · cases h
    · cases h
  · cases h

/-- A command that issues is performed by its engine. -/
theorem SxIssues.runs {s : State} {t : Nat} {tm : Team} {e : Nat} {sup : Bool} (h : SxIssues s t tm e sup) (i : Instr) (f : SX)
    (k : Nat → Team → Out) : onSx s i f e sup k = k t tm := by
  have h1 : (sup && !tm.sup) = false := by
    cases hs : sup
    · rfl
    · simp [h.mode hs]
  simp only [onSx, onScalar_some h.moves, h1, h.drop, h.reach]
  simp only [Bool.false_eq_true, if_false, if_true]
  rw [if_neg]
  rintro ⟨a, b, c⟩
  simp [h.replay a b] at c

theorem Replies.done {s : State} {t : Nat} {f : SX} {v : W64} (h : t < s.teams.length) : Replies (sxDone s t f v) s t f v := by
  refine ⟨s.teams[t], by simp [h], ?_⟩
  simp [sxDone, h, State.nextTeam]

theorem Replies.of {o : Out} {s : State} {t : Nat} {f : SX} {v : W64} (h : t < s.teams.length) (e : o = sxDone s t f v) :
    Replies o s t f v := e ▸ Replies.done h

/-- A scalar word that may trap is not held back by an issue slot. -/
theorem MayTrap.rejects {s : State} {t : Nat} {tm : Team} (h : MayTrap s t tm) (c : Nat) (i : Instr) :
    scalarReject s t tm c i = takeTrap s t tm (.plain c tm.pc (scalarWordOf i) 0) := by
  simp [scalarReject, scalarTrap, h.slot]

theorem MayTrap.traps {s : State} {t : Nat} {tm : Team} (h : MayTrap s t tm) (ti : TrapInfo) : scalarTrap s t tm ti = takeTrap s t tm ti := by
  simp [scalarTrap, h.slot]

end Sys2Proof.Machine
end

