-- ==== Sys2Proof/Laws/Lane.lean ====
section
/-!
SUPPORT. What a lane word that touches neither memory nor a scalar register does to its team, in terms of the effects it computes.
-/
namespace Sys2Proof.Machine

/-! ## Writing parts of registers -/

theorem Team.lreg_setLreg (tm : Team) (l r j k : Nat) (x : W64) :
    (tm.setLreg l r x).lreg j k = if 64 * j + k = 64 * l + r then x else tm.lreg j k := by
  unfold Team.setLreg Team.lreg
  dsimp only
  rw [NMap.get_put]
  split <;> split <;> first | rfl | omega

/-- What a list of parts leaves alone. -/
structure PartKeeps (a b : Team) : Prop where
  rest : b = { a with v := b.v }

theorem putParts_keeps (ws : List PartWrite) (tm : Team) : PartKeeps tm (ws.foldl Team.putPart tm) := by
  induction ws generalizing tm with
  | nil => exact ⟨rfl⟩
  | cons w r ih => exact ⟨(ih (tm.putPart w)).rest⟩

/-- Settling the results still to be written changes lane registers and what is to be written. -/
theorem settle_rest (tm : Team) (g dst : Nat) (regs : List Nat) :
    ∃ v pending, tm.settle g dst regs = { tm with v := v, pending := pending } := by
  unfold Team.settle
  split
  · exact ⟨tm.v, tm.pending, rfl⟩
  dsimp only
  generalize tm.pending = l
  have key : ∀ (l : List Pending) (a : Team), (∃ v pending, a = { tm with v := v, pending := pending }) →
      ∀ f : Team → Pending → Team, (∀ a p, ∃ v pending, f a p = { a with v := v, pending := pending }) →
      ∃ v pending, l.foldl f a = { tm with v := v, pending := pending } := by
    intro l
    induction l with
    | nil => exact fun a h _ _ => h
    | cons p r ih =>
      intro a h f hf
      refine ih _ ?_ f hf
      obtain ⟨v, q, rfl⟩ := h
      obtain ⟨v', q', h'⟩ := hf { tm with v := v, pending := q } p
      exact ⟨v', q', h'⟩
  refine key l _ ⟨tm.v, [], rfl⟩ _ fun a p => ?_
  unfold Team.putParts
  rw [(putParts_keeps _ a).rest]
  exact ⟨_, _, rfl⟩

theorem putParts_others (ws : List PartWrite) (tm : Team) (j k : Nat) (h : ∀ w ∈ ws, 64 * j + k ≠ 64 * w.lane + w.reg) :
    (ws.foldl Team.putPart tm).lreg j k = tm.lreg j k := by
  induction ws generalizing tm with
  | nil => rfl
  | cons w r ih =>
    rw [List.foldl_cons, ih _ fun x hx => h x (List.mem_cons_of_mem _ hx)]
    unfold Team.putPart
    dsimp only
    rw [Team.lreg_setLreg, if_neg (h w List.mem_cons_self)]

theorem putPart_whole (tm : Team) (r l : Nat) (x : W64) : tm.putPart (wholeWrite r l x) = tm.setLreg l r x := by
  have m : BitVec.ofNat 64 ((2 ^ 64 - 1) * 2 ^ 0) = BitVec.allOnes 64 := by decide
  show tm.setLreg l r ((tm.lreg l r &&& ~~~(BitVec.ofNat 64 ((2 ^ 64 - 1) * 2 ^ 0))) |||
    ((x <<< 0) &&& BitVec.ofNat 64 ((2 ^ 64 - 1) * 2 ^ 0))) = _
  rw [m, BitVec.shiftLeft_zero, BitVec.and_allOnes, BitVec.not_allOnes, BitVec.and_zero, BitVec.zero_or]

/-- Whole writes of one register to different lanes. -/
theorem putParts_whole (ls : List Nat) (r : Nat) (val : Nat → W64) (tm : Team) (h : ls.Nodup) (l : Nat) (hl : l ∈ ls) :
    ((ls.map fun l => wholeWrite r l (val l)).foldl Team.putPart tm).lreg l r = val l := by
  induction ls generalizing tm with
  | nil => cases hl
  | cons a t ih =>
    rw [List.map_cons, List.foldl_cons]
    rcases List.mem_cons.1 hl with rfl | ht
    · rw [putParts_others, putPart_whole, Team.lreg_setLreg, if_pos rfl]
      intro w hw
      obtain ⟨b, hb, rfl⟩ := List.mem_map.1 hw
      have : l ≠ b := fun e => (List.nodup_cons.1 h).1 (e ▸ hb)
      simp only [wholeWrite]
      omega
    · exact ih _ (List.nodup_cons.1 h).2 ht

theorem LaneEnv.active_nodup (e : LaneEnv) : e.active.Nodup := List.Nodup.filter _ List.nodup_range

/-! ## The effects other than register parts -/

/-- Everything but lane registers, masks, random states and `%sticky` is left alone by the effects of a word. -/
theorem applyFx_rest (tm : Team) (fx : LaneFx) :
    ∃ rnd m stack sticky, tm.applyFx fx = { tm with rnd := rnd, m := m, stack := stack, sticky := sticky } := by
  unfold Team.applyFx
  have hm : ∀ (ms : List (Nat × Mask)) (a : Team), ∃ m, ms.foldl (fun a e => a.setMreg e.1 (e.2 &&& a.exist)) a = { a with m := m } := by
    intro ms
    induction ms with
    | nil => exact fun a => ⟨a.m, rfl⟩
    | cons e r ih =>
      intro a
      obtain ⟨m, hm⟩ := ih (a.setMreg e.1 (e.2 &&& a.exist))
      refine ⟨m, ?_⟩
      rw [List.foldl_cons, hm]
      unfold Team.setMreg
      split <;> rfl
  dsimp only
  obtain ⟨m, h⟩ := hm fx.masks { tm with rnd := fx.rnd.foldl (fun (m : NMap W64) (e : Nat × W64) => NMap.put m 0 e.1 e.2) tm.rnd }
  rw [h]
  unfold Team.stick
  split <;> exact ⟨_, _, _, _, rfl⟩

/-! ## The state after a word -/

/-- What the end of a word leaves alone in the team. -/
structure FrameKeeps (a b : Team) : Prop where
  sregs : b.s = a.s
  recs  : b.b = a.b
  pc    : b.pc = a.pc
  level : b.level = a.level
  frame : b.frame = a.frame
  queue : b.queue = a.queue
  spec  : b.seed = a.seed ∧ b.hyp = a.hyp ∧ b.arithmask = a.arithmask ∧ b.repidx = a.repidx

theorem FrameKeeps.refl (a : Team) : FrameKeeps a a := ⟨rfl, rfl, rfl, rfl, rfl, rfl, rfl, rfl, rfl, rfl⟩

theorem FrameKeeps.trans {a b c : Team} (h : FrameKeeps a b) (k : FrameKeeps b c) : FrameKeeps a c :=
  ⟨k.sregs.trans h.sregs, k.recs.trans h.recs, k.pc.trans h.pc, k.level.trans h.level, k.frame.trans h.frame, k.queue.trans h.queue,
    k.spec.1.trans h.spec.1, k.spec.2.1.trans h.spec.2.1, k.spec.2.2.1.trans h.spec.2.2.1, k.spec.2.2.2.trans h.spec.2.2.2⟩

/-- Retiring a word changes the run, the slot and the clock of a team. -/
theorem retire_rest (tm : Team) (rb : RunBlock) (f : LaneF) (p clock : Nat) :
    ∃ run holding lastSlot state since, tm.retire rb f p clock =
      { tm with run := run, holding := holding, lastSlot := lastSlot, state := state, since := since } := by
  unfold Team.retire
  dsimp only
  split
  · exact ⟨_, _, _, _, _, rfl⟩
  split <;> exact ⟨_, _, _, _, _, rfl⟩

theorem useSlot_keeps (s : State) (t : Nat) (tm : Team) (n : Nat) :
    (s.useSlot t tm n).mem = s.mem ∧ (s.useSlot t tm n).teams = s.teams := by
  unfold State.useSlot State.addUsage
  dsimp only
  repeat' split
  all_goals exact ⟨rfl, rfl⟩

theorem consumePoison_keeps (s : State) (u : Nat) : (s.consumePoison u).mem = s.mem ∧ (s.consumePoison u).teams = s.teams := by
  unfold State.consumePoison
  split <;> exact ⟨rfl, rfl⟩

/-- The team after the results of a word are written or posted. -/
theorem commit_keeps (tm : Team) (fx : LaneFx) (long miss last : Bool) (la : Nat) :
    FrameKeeps tm (tm.commit fx long miss last la) ∧ (tm.commit fx long miss last la).m = (tm.applyFx fx).m ∧
      (tm.commit fx long miss last la).stack = (tm.applyFx fx).stack ∧ (tm.commit fx long miss last la).rnd = (tm.applyFx fx).rnd ∧
      (tm.commit fx long miss last la).sticky = (tm.applyFx fx).sticky ∧ (tm.commit fx long miss last la).lanes = tm.lanes := by
  obtain ⟨rnd, m, stk, sticky, hf⟩ := applyFx_rest tm fx
  unfold Team.commit
  rw [hf]
  cases long
  · dsimp only
    rw [if_neg Bool.false_ne_true, Team.putParts, (putParts_keeps fx.writes _).rest]
    exact ⟨⟨rfl, rfl, rfl, rfl, rfl, rfl, rfl, rfl, rfl, rfl⟩, rfl, rfl, rfl, rfl, rfl⟩
  · exact ⟨⟨rfl, rfl, rfl, rfl, rfl, rfl, rfl, rfl, rfl, rfl⟩, rfl, rfl, rfl, rfl, rfl⟩

/-- The state in which a word ends: poison that it met is consumed, marks that it overwrote are gone. -/
def LaneEnv.endState (e : LaneEnv) (s : State) (sh : LaneShape) (fx : LaneFx) : State :=
  (if e.meetsPoison (sh.readsOf e) then s.consumePoison e.tm.unit else s).clearRegPoison e.t e.tm fx.writes

theorem endState_keeps (e : LaneEnv) (s : State) (sh : LaneShape) (fx : LaneFx) :
    (e.endState s sh fx).mem = s.mem ∧ (e.endState s sh fx).teams = s.teams := by
  unfold LaneEnv.endState
  split
  · exact consumePoison_keeps s e.tm.unit
  · exact ⟨rfl, rfl⟩

/-- How its parts are cut does not touch the other effects of a word. -/
theorem cut_rest (sh : LaneShape) (e : LaneEnv) (tm : Team) (fx : LaneFx) : tm.applyFx (sh.cut e fx) = tm.applyFx fx := by
  unfold LaneShape.cut
  split <;> rfl

/-- The end of a lane word: the machine goes on; its team is as after the effects and the retirement. -/
theorem laneDone_runs (e : LaneEnv) (s : State) (sh : LaneShape) (fx : LaneFx) (miss : Bool) (stamp : Stamp) :
    let c := e.tm.commit (sh.cut e fx) sh.long miss e.rb.lastRep e.f.la.toNat
    ∃ s' tm', laneDone e s sh fx miss stamp = .next s' ∧ s'.mem = s.mem ∧ s'.teams = s.teams.set e.t tm' ∧ FrameKeeps e.tm tm' ∧
      tm'.v = c.v ∧ tm'.m = (e.tm.applyFx fx).m ∧ tm'.stack = (e.tm.applyFx fx).stack ∧ tm'.rnd = (e.tm.applyFx fx).rnd ∧
      tm'.sticky = (e.tm.applyFx fx).sticky ∧ tm'.lanes = e.tm.lanes ∧ tm'.pending = c.pending := by
  intro c
  have hk := commit_keeps e.tm (sh.cut e fx) sh.long miss e.rb.lastRep e.f.la.toNat
  rw [cut_rest] at hk
  have he := endState_keeps e s sh fx
  obtain ⟨run, ho, ls, st, si, hr⟩ := retire_rest c e.rb e.f (sh.passes e) (e.endState s sh fx).clock
  obtain ⟨tm', ht⟩ : ∃ x, x = ({ c.retire e.rb e.f (sh.passes e) (e.endState s sh fx).clock with seen := joinStamp c.seen stamp, kill := (e.endState s sh fx).killOf e.t e.tm } : Team) :=
    ⟨_, rfl⟩
  have hd : laneDone e s sh fx miss stamp = .next (((e.endState s sh fx).setTeam e.t tm').useSlot e.t e.tm (sh.passes e)) := by
    rw [ht]; rfl
  refine ⟨_, tm', hd, ?_, ?_, ?_, ?_⟩
  · rw [(useSlot_keeps ..).1, State.setTeam_mem, he.1]
  · rw [(useSlot_keeps ..).2, State.setTeam_teams, he.2]
  · rw [ht, hr]; exact hk.1.trans ⟨rfl, rfl, rfl, rfl, rfl, rfl, rfl, rfl, rfl, rfl⟩
  · rw [ht, hr]; exact ⟨rfl, hk.2.1, hk.2.2.1, hk.2.2.2.1, hk.2.2.2.2.1, hk.2.2.2.2.2, rfl⟩

/-- A lane word that issues runs its meaning. -/
theorem LaneIssues.runs {s : State} {f : LaneF} {sh : LaneShape} {e : LaneEnv} (h : LaneIssues s f sh e) (i : Instr) (sh' : LaneShape)
    (hf : sh'.form e = sh.form e) (hr : sh'.regs e = sh.regs e) (hd : sh'.reads e = sh.reads e) (hp : sh'.passes e = sh.passes e)
    (k : LaneEnv → Out) :
    onLane s i f sh' k = k e := by
  obtain ⟨tm, hm, hw, he⟩ := h.moves
  unfold onLane
  rw [hm]
  dsimp only
  rw [hw, ← he, hf, hr, hp, hd, if_neg (by simp), if_neg (Nat.not_lt.2 h.cap), h.form, if_neg (by simp), if_neg, h.fresh,
    if_neg (by simp)]
  rw [Bool.not_eq_true, List.any_eq_false]
  intro r hr
  have hb : e.tm.budget = tm.budget := by
    obtain ⟨v, p, h⟩ := settle_rest tm (tyWidth f.ty.toNat) (laneEnv s e.t tm e.rb f).vd
      [(laneEnv s e.t tm e.rb f).va, (laneEnv s e.t tm e.rb f).vb, (laneEnv s e.t tm e.rb f).vc]
    rw [he]
    exact (congrArg Team.budget h :)
  have := h.regs r hr
  rw [hb] at this
  simpa using this

/-- The environment of a word that issues is one of the state. -/
theorem LaneIssues.state {s : State} {f : LaneF} {sh : LaneShape} {e : LaneEnv} (h : LaneIssues s f sh e) : e.s = s := by
  obtain ⟨tm, -, -, he⟩ := h.moves
  rw [he]; rfl

/-- An element-wise word that issues: every active lane's destination holds its results, and OV is as `.chk` says. -/
theorem elementwise_runs {s : State} {f : LaneF} {sh : LaneShape} {e : LaneEnv} (h : LaneIssues s f sh e) (i : Instr) (sh' : LaneShape)
    (hf : sh'.form e = sh.form e) (hr : sh'.regs e = sh.regs e) (hd : sh'.reads e = sh.reads e) (hp : sh'.passes e = sh.passes e)
    (hl : sh'.long = false) (fx : LaneEnv → LaneFx) (ty : Nat) (chk : Bool) (op : Nat → Nat → Res) (hx : fx e = e.elementwise ty chk op) :
    LaneRuns (laneWord s i f sh' fx) s e fun tm' =>
      MasksKept e tm' ∧ LaneWrites e tm' e.vd (fun l => packed ty fun k => (op l k).bits) ∧
        stickyAfter e tm' (chk && e.active.any fun l => (List.range (tyCount ty)).any fun k => (op l k).ov) := by
  have he : laneWord s i f sh' fx = laneDone e e.s sh' (fx e) false [] := h.runs i sh' hf hr hd hp _
  have hs : e.s = s := h.state
  rw [hx] at he
  obtain ⟨s', tm', a, b, c, d, v, m, st, -, sk, -, -⟩ := laneDone_runs e e.s sh' (e.elementwise ty chk op) false []
  have hw : (e.elementwise ty chk op).writes = e.active.map fun l => wholeWrite e.vd l (packed ty fun k => (op l k).bits) := by
    simp [LaneEnv.elementwise, packRes, packed, Function.comp_def]
  have hv : ∀ l r, tm'.lreg l r = (((e.elementwise ty chk op).writes).foldl Team.putPart
      (e.tm.applyFx (e.elementwise ty chk op))).lreg l r := by
    intro l r
    have hc : sh'.cut e (e.elementwise ty chk op) = e.elementwise ty chk op := by unfold LaneShape.cut; rw [hl, if_neg Bool.false_ne_true]
    unfold Team.lreg
    rw [v, hc, hl]
    rfl
  refine ⟨s', tm', by rw [he, a], ⟨by rw [b, hs], by rw [c, hs], d.sregs, d.recs, d.pc, d.level, d.frame, d.queue, d.spec⟩,
    ⟨by rw [m]; rfl, by rw [st]; rfl⟩, ⟨?_, ?_⟩, ?_⟩
  · intro l hl'
    rw [hv, hw, putParts_whole _ _ _ _ e.active_nodup l hl']
  · intro l k hn
    rw [hv, hw, putParts_others]
    · rfl
    · intro w hw
      obtain ⟨j, hj, rfl⟩ := List.mem_map.1 hw
      exact hn j hj
  · rw [stickyAfter, sk]
    show e.tm.sticky ||| (e.elementwise ty chk op).sticky = _
    have : (e.elementwise ty chk op).sticky =
        if (chk && e.active.any fun l => (List.range (tyCount ty)).any fun k => (op l k).ov) then stickyOV else 0 := by
      simp [LaneEnv.elementwise, packRes, List.any_map, Function.comp_def]
    rw [this]
    split
    · rfl
    · exact BitVec.or_zero

/-! ## The free order of the lanes of an atomic word -/

/-- A free order is some order of the same elements. -/
theorem State.shuffle_perm (s : State) (i : Nat) (l : List α) : (s.shuffle i l).Perm l := by
  induction l generalizing i with
  | nil => exact .refl _
  | cons a r ih =>
    refine List.perm_middle.trans (List.Perm.cons a ?_)
    rw [List.take_append_drop]
    exact ih _

@[simp] theorem State.shuffle_nil (s : State) (i : Nat) : s.shuffle i ([] : List α) = [] := rfl

@[simp] theorem State.shuffle_singleton (s : State) (i : Nat) (a : α) : s.shuffle i [a] = [a] :=
  List.perm_singleton.1 (s.shuffle_perm i [a])

/-- One access has one order. -/
theorem LaneEnv.atomOrder_singleton (e : LaneEnv) (x : LaneAcc × List Place) (p : Place) (r : List Place) (h : x.1.lane = 0) (hp : x.2 = p :: r) :
    e.atomOrder [x] = [[x]] := by
  have h0 : (List.range 32).map (fun r => atomLines (ofRow r [x])) = [[x]] :: List.replicate 31 [] := by
    simp [ofRow, atomLines, List.range, List.range.loop, h, hp, NMap.insert, NMap.erase, NMap.place, NMap.find?, List.replicate]
  unfold LaneEnv.atomOrder
  rw [h0]
  split <;> simp [List.replicate, List.mapIdx_cons]

/-! ## Scratchpad rows -/

/-- Clearing the marks of a row changes nothing but marks. -/
theorem State.clearRow_eq (s : State) (row : List (Place × List Byte)) : ∃ p, s.clearRow row = { s with poison := p } := by
  unfold State.clearRow
  generalize s.poison = q
  generalize s.padKeys = f
  have key : ∀ (q : List ErrPlace) (s' : State), (∃ p, s' = { s with poison := p }) →
      ∃ p, (q.foldl (fun s' p => match p with
        | .granule g => if (List.range 32).all fun i => (row.flatMap f).contains (g * 32 + i) then s'.clearPoison (g * 32) 32 else s'
        | _ => s') s') = { s with poison := p } := by
    intro q
    induction q with
    | nil => exact fun s' h => h
    | cons e r ih =>
      intro s' ⟨p, hp⟩
      refine ih _ ?_
      cases e <;> dsimp only
      case granule g =>
        split
        · exact ⟨_, by rw [hp, State.clearPoison]⟩
        · exact ⟨p, hp⟩
      all_goals exact ⟨p, hp⟩
  exact key q s ⟨s.poison, rfl⟩

end Sys2Proof.Machine
end

