-- ==== Sys2Proof/Laws/PerInstr.lean ====
section
/-!
SUPPORT. One lemma per constructor of `Instr`: the bytes of an instruction's word, with anything behind them, decode to what the word decodes
to, and the decoder takes exactly those bytes (05:R136; 00:R8). For a row that no word stands for there is nothing to take.
-/
namespace Sys2Proof.Laws.Layout

/-- The stream whose words have the shape of `w`. -/
def streamOf : RawWord → Stream
  | .scalar _ => .scalar
  | .lane _ => .lane
  | .matrix _ => .matrix

/-- The decoder takes the bytes of the instruction's word and leaves what stands behind them. -/
def Statement (i : Instr) : Prop :=
  ∀ (w : RawWord) (rest : List Byte), encode i = some w →
    decode (streamOf w) (w.bytes ++ rest) =
      match decodeWord w with
      | .ok j => .ok (j, rest)
      | .error r => .error r

theorem leBytes_length (n x : Nat) : (leBytes n x).length = n := by
  induction n generalizing x with
  | zero => rfl
  | succ n ih => simp [leBytes, ih]

/-- Little-endian bytes read back as the number, up to their width. -/
theorem leNat_leBytes (n x : Nat) : leNat (leBytes n x) = x % 256 ^ n := by
  induction n generalizing x with
  | zero => simp [leBytes, leNat, Nat.mod_one]
  | succ n ih =>
    have h : 256 ^ (n + 1) = 256 * 256 ^ n := by rw [Nat.pow_succ, Nat.mul_comm]
    simp only [leBytes, leNat, ih, h, Nat.mod_mul, BitVec.toNat_ofNat]

/-- The bytes of any word give the word back. -/
theorem word_bytes (w : RawWord) : (streamOf w).word w.bytes = w := by
  cases w with
  | scalar w => simp only [streamOf, Stream.word, RawWord.bytes, leNat_leBytes]; congr 1; apply BitVec.eq_of_toNat_eq; have := w.isLt; simp; omega
  | lane w => simp only [streamOf, Stream.word, RawWord.bytes, leNat_leBytes]; congr 1; apply BitVec.eq_of_toNat_eq; have := w.isLt; simp; omega
  | matrix w => simp only [streamOf, Stream.word, RawWord.bytes, leNat_leBytes]; congr 1; apply BitVec.eq_of_toNat_eq; have := w.isLt; simp; omega

theorem bytes_length (w : RawWord) : w.bytes.length = (streamOf w).size := by
  cases w <;> simp [RawWord.bytes, streamOf, Stream.size, leBytes_length]

/-- The law of every word, whatever it decodes to. -/
theorem of_word (i : Instr) : Statement i := by
  intro w rest _
  have h := bytes_length w
  have ht : (w.bytes ++ rest).take (streamOf w).size = w.bytes := by rw [← h]; simp
  have hd : (w.bytes ++ rest).drop (streamOf w).size = rest := by rw [← h]; simp
  have hl : ¬ (w.bytes ++ rest).length < (streamOf w).size := by rw [← h]; simp
  simp only [decode, if_neg hl, ht, hd, word_bytes]
  all_goals (cases decodeWord w <;> rfl)

theorem add (f : SR) : Statement (.add f) := of_word _
theorem sub (f : SR) : Statement (.sub f) := of_word _
theorem mul (f : SR) : Statement (.mul f) := of_word _
theorem mulh (f : SR) : Statement (.mulh f) := of_word _
theorem mulhu (f : SR) : Statement (.mulhu f) := of_word _
theorem div (f : SR) : Statement (.div f) := of_word _
theorem divu (f : SR) : Statement (.divu f) := of_word _
theorem rem (f : SR) : Statement (.rem f) := of_word _
theorem remu (f : SR) : Statement (.remu f) := of_word _
theorem and (f : SR) : Statement (.and f) := of_word _
theorem or (f : SR) : Statement (.or f) := of_word _
theorem xor (f : SR) : Statement (.xor f) := of_word _
theorem shl (f : SR) : Statement (.shl f) := of_word _
theorem shr (f : SR) : Statement (.shr f) := of_word _
theorem sra (f : SR) : Statement (.sra f) := of_word _
theorem slt (f : SR) : Statement (.slt f) := of_word _
theorem sltu (f : SR) : Statement (.sltu f) := of_word _
theorem min (f : SR) : Statement (.min f) := of_word _
theorem max (f : SR) : Statement (.max f) := of_word _
theorem minu (f : SR) : Statement (.minu f) := of_word _
theorem maxu (f : SR) : Statement (.maxu f) := of_word _
theorem addi (f : SI) : Statement (.addi f) := of_word _
theorem andi (f : SI) : Statement (.andi f) := of_word _
theorem ori (f : SI) : Statement (.ori f) := of_word _
theorem xori (f : SI) : Statement (.xori f) := of_word _
theorem slti (f : SI) : Statement (.slti f) := of_word _
theorem sltiu (f : SI) : Statement (.sltiu f) := of_word _
theorem shli (f : SI) : Statement (.shli f) := of_word _
theorem shri (f : SI) : Statement (.shri f) := of_word _
theorem srai (f : SI) : Statement (.srai f) := of_word _
theorem lui (f : SI) : Statement (.lui f) := of_word _
theorem shori (f : SI) : Statement (.shori f) := of_word _
theorem ldb (f : SI) : Statement (.ldb f) := of_word _
theorem ldbu (f : SI) : Statement (.ldbu f) := of_word _
theorem ldh (f : SI) : Statement (.ldh f) := of_word _
theorem ldhu (f : SI) : Statement (.ldhu f) := of_word _
theorem ldw (f : SI) : Statement (.ldw f) := of_word _
theorem ldwu (f : SI) : Statement (.ldwu f) := of_word _
theorem ldd (f : SI) : Statement (.ldd f) := of_word _
theorem stb (f : SI) : Statement (.stb f) := of_word _
theorem sth (f : SI) : Statement (.sth f) := of_word _
theorem stw (f : SI) : Statement (.stw f) := of_word _
theorem std (f : SI) : Statement (.std f) := of_word _
theorem beq (f : SB) : Statement (.beq f) := of_word _
theorem bne (f : SB) : Statement (.bne f) := of_word _
theorem blt (f : SB) : Statement (.blt f) := of_word _
theorem bge (f : SB) : Statement (.bge f) := of_word _
theorem bltu (f : SB) : Statement (.bltu f) := of_word _
theorem bgeu (f : SB) : Statement (.bgeu f) := of_word _
theorem j (f : SJ) : Statement (.j f) := of_word _
theorem jal (f : SJ) : Statement (.jal f) := of_word _
theorem lrun (f : SJ) : Statement (.lrun f) := of_word _
theorem bld (f : SI) : Statement (.bld f) := of_word _
theorem bst (f : SI) : Statement (.bst f) := of_word _
theorem jr (f : SR) : Statement (.jr f) := of_word _
theorem jalr (f : SR) : Statement (.jalr f) := of_word _
theorem msum (f : SR) : Statement (.msum f) := of_word _
theorem rdsp (f : SR) : Statement (.rdsp f) := of_word _
theorem wrsp (f : SR) : Statement (.wrsp f) := of_word _
theorem fence (f : SR) : Statement (.fence f) := of_word _
theorem tfence (f : SR) : Statement (.tfence f) := of_word _
theorem yield (f : SR) : Statement (.yield f) := of_word _
theorem texit (f : SR) : Statement (.texit f) := of_word _
theorem syscall (f : SR) : Statement (.syscall f) := of_word _
theorem sret (f : SR) : Statement (.sret f) := of_word _
theorem brset (f : SR) : Statement (.brset f) := of_word _
theorem barArrive (f : SR) : Statement (.barArrive f) := of_word _
theorem barWait (f : SR) : Statement (.barWait f) := of_word _
theorem barSync (f : SR) : Statement (.barSync f) := of_word _
theorem lread (f : SRK) : Statement (.lread f) := of_word _
theorem ceLen (f : SX) : Statement (.ceLen f) := of_word _
theorem ceStride (f : SX) : Statement (.ceStride f) := of_word _
theorem ceCopy (f : SX) : Statement (.ceCopy f) := of_word _
theorem ceFill (f : SX) : Statement (.ceFill f) := of_word _
theorem ceCb (f : SX) : Statement (.ceCb f) := of_word _
theorem ceFut (f : SX) : Statement (.ceFut f) := of_word _
theorem ceQjoin (f : SX) : Statement (.ceQjoin f) := of_word _
theorem ceStat (f : SX) : Statement (.ceStat f) := of_word _
theorem twDim (f : SX) : Statement (.twDim f) := of_word _
theorem twStart (f : SX) : Statement (.twStart f) := of_word _
theorem twNext (f : SX) : Statement (.twNext f) := of_word _
theorem twDone (f : SX) : Statement (.twDone f) := of_word _
theorem tkSpawn (f : SX) : Statement (.tkSpawn f) := of_word _
theorem tkCast (f : SX) : Statement (.tkCast f) := of_word _
theorem scInit (f : SX) : Statement (.scInit f) := of_word _
theorem scDec (f : SX) : Statement (.scDec f) := of_word _
theorem futAwait (f : SX) : Statement (.futAwait f) := of_word _
theorem futResolve (f : SX) : Statement (.futResolve f) := of_word _
theorem futFail (f : SX) : Statement (.futFail f) := of_word _
theorem futRead (f : SX) : Statement (.futRead f) := of_word _
theorem qjInit (f : SX) : Statement (.qjInit f) := of_word _
theorem qjArrive (f : SX) : Statement (.qjArrive f) := of_word _
theorem qjStat (f : SX) : Statement (.qjStat f) := of_word _
theorem arNew (f : SX) : Statement (.arNew f) := of_word _
theorem arAlloc (f : SX) : Statement (.arAlloc f) := of_word _
theorem arSeal (f : SX) : Statement (.arSeal f) := of_word _
theorem arDrop (f : SX) : Statement (.arDrop f) := of_word _
theorem arWait (f : SX) : Statement (.arWait f) := of_word _
theorem arInfo (f : SX) : Statement (.arInfo f) := of_word _
theorem tileDecl (f : SX) : Statement (.tileDecl f) := of_word _
theorem tileFree (f : SX) : Statement (.tileFree f) := of_word _
theorem hyFork (f : SX) : Statement (.hyFork f) := of_word _
theorem hyResolve (f : SX) : Statement (.hyResolve f) := of_word _
theorem hyEnter (f : SX) : Statement (.hyEnter f) := of_word _
theorem hyInfo (f : SX) : Statement (.hyInfo f) := of_word _
theorem qCreate (f : SX) : Statement (.qCreate f) := of_word _
theorem qDestroy (f : SX) : Statement (.qDestroy f) := of_word _
theorem qConf (f : SX) : Statement (.qConf f) := of_word _
theorem qResv (f : SX) : Statement (.qResv f) := of_word _
theorem qStat (f : SX) : Statement (.qStat f) := of_word _
theorem ctxNew (f : SX) : Statement (.ctxNew f) := of_word _
theorem ctxKill (f : SX) : Statement (.ctxKill f) := of_word _
theorem ctxReclaim (f : SX) : Statement (.ctxReclaim f) := of_word _
theorem pgMap (f : SX) : Statement (.pgMap f) := of_word _
theorem pgUnmap (f : SX) : Statement (.pgUnmap f) := of_word _
theorem pwBudget (f : SX) : Statement (.pwBudget f) := of_word _
theorem pwGrant (f : SX) : Statement (.pwGrant f) := of_word _
theorem sysId (f : SX) : Statement (.sysId f) := of_word _
theorem sysIsland (f : SX) : Statement (.sysIsland f) := of_word _
theorem sysAttest (f : SX) : Statement (.sysAttest f) := of_word _
theorem sysPeer (f : SX) : Statement (.sysPeer f) := of_word _
theorem lnop (f : LaneF) : Statement (.lnop f) := of_word _
theorem rep (f : LaneF) : Statement (.rep f) := of_word _
theorem lrnd (f : LaneF) : Statement (.lrnd f) := of_word _
theorem vidx (f : LaneF) : Statement (.vidx f) := of_word _
theorem mpush (f : LaneF) : Statement (.mpush f) := of_word _
theorem mpop (f : LaneF) : Statement (.mpop f) := of_word _
theorem minv (f : LaneF) : Statement (.minv f) := of_word _
theorem mmov (f : LaneF) : Statement (.mmov f) := of_word _
theorem mand (f : LaneF) : Statement (.mand f) := of_word _
theorem mor (f : LaneF) : Statement (.mor f) := of_word _
theorem mxor (f : LaneF) : Statement (.mxor f) := of_word _
theorem mnot (f : LaneF) : Statement (.mnot f) := of_word _
theorem vadd (f : LaneF) : Statement (.vadd f) := of_word _
theorem vsub (f : LaneF) : Statement (.vsub f) := of_word _
theorem vmul (f : LaneF) : Statement (.vmul f) := of_word _
theorem vmulh (f : LaneF) : Statement (.vmulh f) := of_word _
theorem vmad (f : LaneF) : Statement (.vmad f) := of_word _
theorem vmin (f : LaneF) : Statement (.vmin f) := of_word _
theorem vmax (f : LaneF) : Statement (.vmax f) := of_word _
theorem vabs (f : LaneF) : Statement (.vabs f) := of_word _
theorem vneg (f : LaneF) : Statement (.vneg f) := of_word _
theorem vand (f : LaneF) : Statement (.vand f) := of_word _
theorem vor (f : LaneF) : Statement (.vor f) := of_word _
theorem vxor (f : LaneF) : Statement (.vxor f) := of_word _
theorem vnot (f : LaneF) : Statement (.vnot f) := of_word _
theorem vshl (f : LaneF) : Statement (.vshl f) := of_word _
theorem vshr (f : LaneF) : Statement (.vshr f) := of_word _
theorem vmov (f : LaneF) : Statement (.vmov f) := of_word _
theorem vsel (f : LaneF) : Statement (.vsel f) := of_word _
theorem bfx (f : LaneF) : Statement (.bfx f) := of_word _
theorem bfi (f : LaneF) : Statement (.bfi f) := of_word _
theorem popc (f : LaneF) : Statement (.popc f) := of_word _
theorem clz (f : LaneF) : Statement (.clz f) := of_word _
theorem ctz (f : LaneF) : Statement (.ctz f) := of_word _
theorem brev (f : LaneF) : Statement (.brev f) := of_word _
theorem vcmp (f : LaneF) : Statement (.vcmp f) := of_word _
theorem vclass (f : LaneF) : Statement (.vclass f) := of_word _
theorem vdiv (f : LaneF) : Statement (.vdiv f) := of_word _
theorem vsqrt (f : LaneF) : Statement (.vsqrt f) := of_word _
theorem frcp (f : LaneF) : Statement (.frcp f) := of_word _
theorem frsq (f : LaneF) : Statement (.frsq f) := of_word _
theorem fexp2 (f : LaneF) : Statement (.fexp2 f) := of_word _
theorem flog2 (f : LaneF) : Statement (.flog2 f) := of_word _
theorem fsin (f : LaneF) : Statement (.fsin f) := of_word _
theorem fcos (f : LaneF) : Statement (.fcos f) := of_word _
theorem ftanh (f : LaneF) : Statement (.ftanh f) := of_word _
theorem cvt (f : LaneF) : Statement (.cvt f) := of_word _
theorem cvts (f : LaneF) : Statement (.cvts f) := of_word _
theorem pack (f : LaneF) : Statement (.pack f) := of_word _
theorem unpack (f : LaneF) : Statement (.unpack f) := of_word _
theorem qenc (f : LaneF) : Statement (.qenc f) := of_word _
theorem qdec (f : LaneF) : Statement (.qdec f) := of_word _
theorem scacc (f : LaneF) : Statement (.scacc f) := of_word _
theorem dot4 (f : LaneF) : Statement (.dot4 f) := of_word _
theorem shfl (f : LaneF) : Statement (.shfl f) := of_word _
theorem shflx (f : LaneF) : Statement (.shflx f) := of_word _
theorem bcast (f : LaneF) : Statement (.bcast f) := of_word _
theorem vperm (f : LaneF) : Statement (.vperm f) := of_word _
theorem red (f : LaneF) : Statement (.red f) := of_word _
theorem scan (f : LaneF) : Statement (.scan f) := of_word _
theorem vote (f : LaneF) : Statement (.vote f) := of_word _
theorem ld (f : LaneF) : Statement (.ld f) := of_word _
theorem st (f : LaneF) : Statement (.st f) := of_word _
theorem ldr (f : LaneF) : Statement (.ldr f) := of_word _
theorem ldacq (f : LaneF) : Statement (.ldacq f) := of_word _
theorem strel (f : LaneF) : Statement (.strel f) := of_word _
theorem atom (f : LaneF) : Statement (.atom f) := of_word _
theorem cas (f : LaneF) : Statement (.cas f) := of_word _
theorem cbtake (f : LaneF) : Statement (.cbtake f) := of_word _
theorem cbpub (f : LaneF) : Statement (.cbpub f) := of_word _
theorem cbget (f : LaneF) : Statement (.cbget f) := of_word _
theorem cbret (f : LaneF) : Statement (.cbret f) := of_word _
theorem sptest (f : LaneF) : Statement (.sptest f) := of_word _
theorem spcast (f : LaneF) : Statement (.spcast f) := of_word _
theorem mzero (f : MtxF) : Statement (.mzero f) := of_word _
theorem mldb (f : MtxF) : Statement (.mldb f) := of_word _
theorem mma (f : MtxF) : Statement (.mma f) := of_word _
theorem msp (f : MtxF) : Statement (.msp f) := of_word _
theorem mscacc (f : MtxF) : Statement (.mscacc f) := of_word _
theorem macld (f : MtxF) : Statement (.macld f) := of_word _
theorem macst (f : MtxF) : Statement (.macst f) := of_word _
theorem mbar (f : MtxF) : Statement (.mbar f) := of_word _
theorem mloop (f : MtxF) : Statement (.mloop f) := of_word _
theorem maddr (f : MtxF) : Statement (.maddr f) := of_word _
theorem mdset (f : MtxF) : Statement (.mdset f) := of_word _
theorem mtol (f : MtxF) : Statement (.mtol f) := of_word _
theorem mcnt (f : MtxF) : Statement (.mcnt f) := of_word _
theorem mend (f : MtxF) : Statement (.mend f) := of_word _
theorem unassignedEncoding (w : RawWord) : Statement (.unassignedEncoding w) := of_word _
theorem dispatchPlace : Statement .dispatchPlace := of_word _
theorem placementUnitReserve : Statement .placementUnitReserve := of_word _
theorem placementResourceWaitEvent : Statement .placementResourceWaitEvent := of_word _
theorem hostEnqueuePortWrite : Statement .hostEnqueuePortWrite := of_word _
theorem queueVentDrain : Statement .queueVentDrain := of_word _
theorem heldEntryEntersVent : Statement .heldEntryEntersVent := of_word _
theorem segmentOverflowComplete : Statement .segmentOverflowComplete := of_word _
theorem taskComplete : Statement .taskComplete := of_word _
theorem auditReplayComplete : Statement .auditReplayComplete := of_word _
theorem slotGrant : Statement .slotGrant := of_word _
theorem passCapReached : Statement .passCapReached := of_word _
theorem issueIntervalEnd : Statement .issueIntervalEnd := of_word _
theorem laneBlockStart : Statement .laneBlockStart := of_word _
theorem laneBlockComplete : Statement .laneBlockComplete := of_word _
theorem longLatencyResult : Statement .longLatencyResult := of_word _
theorem greenRoomWake : Statement .greenRoomWake := of_word _
theorem cbWaitWake : Statement .cbWaitWake := of_word _
theorem engineReplyArrival : Statement .engineReplyArrival := of_word _
theorem killAtKillPoint : Statement .killAtKillPoint := of_word _
theorem teamEvict : Statement .teamEvict := of_word _
theorem teamRestore : Statement .teamRestore := of_word _
theorem yieldDeadlineExpiry : Statement .yieldDeadlineExpiry := of_word _
theorem teamMigrate : Statement .teamMigrate := of_word _
theorem migrationForwardEnd : Statement .migrationForwardEnd := of_word _
theorem lateFootprintMessage : Statement .lateFootprintMessage := of_word _
theorem faultCollectExpiry : Statement .faultCollectExpiry := of_word _
theorem matrixFaultDelivery : Statement .matrixFaultDelivery := of_word _
theorem ceFaultDelivery : Statement .ceFaultDelivery := of_word _
theorem ceEntryStart : Statement .ceEntryStart := of_word _
theorem ceEntryComplete : Statement .ceEntryComplete := of_word _
theorem reservationGrant : Statement .reservationGrant := of_word _
theorem matrixPassComplete : Statement .matrixPassComplete := of_word _
theorem homeRequestArrival : Statement .homeRequestArrival := of_word _
theorem forwardedStoreArrival : Statement .forwardedStoreArrival := of_word _
theorem replicaUpdateApply : Statement .replicaUpdateApply := of_word _
theorem clockNoticeArrival : Statement .clockNoticeArrival := of_word _
theorem arenaDropSweepComplete : Statement .arenaDropSweepComplete := of_word _
theorem hypSweepFree : Statement .hypSweepFree := of_word _
theorem tlbHalfSweepComplete : Statement .tlbHalfSweepComplete := of_word _
theorem uncorrectableError : Statement .uncorrectableError := of_word _
theorem poisonConsumed : Statement .poisonConsumed := of_word _
theorem coreLogicFault : Statement .coreLogicFault := of_word _
theorem coreRetire : Statement .coreRetire := of_word _
theorem clusterRetire : Statement .clusterRetire := of_word _
theorem hbmChannelRetire : Statement .hbmChannelRetire := of_word _
theorem hbmRowRepair : Statement .hbmRowRepair := of_word _
theorem flitCrcFail : Statement .flitCrcFail := of_word _
theorem linkRetrainStart : Statement .linkRetrainStart := of_word _
theorem linkRetrainComplete : Statement .linkRetrainComplete := of_word _
theorem dieMessageArrival : Statement .dieMessageArrival := of_word _
theorem dieResponseArrival : Statement .dieResponseArrival := of_word _
theorem peerIncomingRequest : Statement .peerIncomingRequest := of_word _
theorem peerTimeout : Statement .peerTimeout := of_word _
theorem deviceReset : Statement .deviceReset := of_word _
theorem recoveryBootWrite : Statement .recoveryBootWrite := of_word _
theorem partitionRestart : Statement .partitionRestart := of_word _
theorem islandLimitLower : Statement .islandLimitLower := of_word _
theorem islandStepChangeDone : Statement .islandStepChangeDone := of_word _
theorem registerWrite : Statement .registerWrite := of_word _
theorem peerResponseArrival : Statement .peerResponseArrival := of_word _
theorem hostApertureAccess : Statement .hostApertureAccess := of_word _
theorem ethernetPortLinkChange : Statement .ethernetPortLinkChange := of_word _
theorem correctableError : Statement .correctableError := of_word _
theorem clusterReturnToService : Statement .clusterReturnToService := of_word _
theorem maintenanceRetrain : Statement .maintenanceRetrain := of_word _
theorem partitionCreate : Statement .partitionCreate := of_word _
theorem islandLimitRaise : Statement .islandLimitRaise := of_word _
theorem contextSlotSweepComplete : Statement .contextSlotSweepComplete := of_word _
theorem migrationCopyComplete : Statement .migrationCopyComplete := of_word _

end Sys2Proof.Laws.Layout
end

