-- ==== Sys2Proof/Tests/Slice0.lean ====
section
/-!
SUPPORT. Tests: the checks of `WellFormed`, words laid out by hand from the manual's tables, and for each statement states and operands
that meet its hypotheses. Expected values come from the manual's rules.
-/
namespace Sys2Proof.Tests

open Sys2Proof.Machine

set_option maxRecDepth 20000
set_option exponentiation.threshold 1100
set_option Elab.async false

/-! ## Small states -/

/-- A team on core 0 whose scalar word is next, changed by `h`; the device around it changed by `g`. -/
def scalarAt (g : State → State := id) (h : Team → Team := id) : State :=
  g { State.reset.placeWord .scalar 0 with teams := State.reset.teams ++ [h (fetchTeam 0 0 false)] }

/-- A team on core 0 whose lane word is next. -/
def laneAt (g : State → State := id) (h : Team → Team := id) : State :=
  g { State.reset.placeWord .lane 0 with teams := State.reset.teams ++ [h (fetchTeam 0 0 true)] }

/-- A sequencer whose matrix word is next. -/
def seqAt (g : State → State := id) (h : LUnit → LUnit := id) : State :=
  g { State.reset.placeWord .matrix 0 with units := [h (fetchUnit 0 8 true)] }

/-- An event is next on a device with one team, on core 0, of one unit. -/
def eventAt (e : Event) (g : State → State := id) (h : Team → Team := id) : State :=
  { scalarAt g h with turn := .event e }

/-- A scratchpad pointer of core 0. -/
def padPtr : W64 := 0xFD00000000000040

/-- A team in its handler. -/
def inHandler (tm : Team) : Team := { tm with state := .trapped, level := 1, frame := 0x4000 }

/-- A team whose s1 is `x` and s2 is `y`, in supervisor mode or not. -/
def with1 (x : W64) (sup : Bool := false) (y : W64 := 0) (tm : Team) : Team :=
  let tm := { tm with s := NMap.put [(1, x)] 0 2 y }
  if sup then inHandler tm else tm

/-! ## Well-formed terms -/

theorem test_fence_well_formed : check (.fence ⟨0, 0, 0x12⟩) = none := by decide
theorem test_fence_of_kind_0_is_ill_formed : check (.fence ⟨0, 0, 0x10⟩) = some .fenceKind := by decide
theorem test_fence_of_scope_6_is_ill_formed : check (.fence ⟨0, 0, 0x19⟩) = some .fenceScope := by decide
theorem test_assigned_word_is_ill_formed : check (.unassignedEncoding (.scalar 0x04A63000)) = some .assigned := by rfl
theorem test_zero_word_is_unassigned : check (.unassignedEncoding (.scalar 0)) = none := by rfl

/-! ## Words laid out by hand (05:R137, R140, R145) -/

/-- `ADD s5, s6, s7`: opcode 0x01, function 0x000. -/
theorem test_decode_add : instrOf (.scalar 0b000001_00101_00110_00111_00000000000#32) = .add ⟨5, 6, 7⟩ := by decide
/-- `ADDI s3, s4, -12`: opcode 0x04. -/
theorem test_decode_addi : instrOf (.scalar 0b000100_00011_00100_1111111111110100#32) = .addi ⟨3, 4, 0xFFF4⟩ := by decide
/-- `BNE s1, s2, -3 words`: opcode 0x21. -/
theorem test_decode_bne : instrOf (.scalar 0b100001_00001_00010_1111111111111101#32) = .bne ⟨1, 2, 0xFFFD⟩ := by decide
/-- `TK.SPAWN s3, s4, s5` in the reply form: opcode 0x3E, engine 3, command 0. -/
theorem test_decode_spawn : instrOf (.scalar 0b111110_00011_00100_00101_1_011_0000000#32) = .tkSpawn ⟨3, 4, 5, true⟩ := by decide
/-- `VADD` of type 4, last of its block, source B a bank register: opcode 0x040, bits [95:86]. -/
theorem test_decode_vadd :
    instrOf (.lane 0b0001000000_000001_000010_000011_000000_000_0100_0000_0_1_00_0_01_0000_00000000_00000000000000000000000000000101#96) =
      .vadd ⟨1, 2, 3, 0, 0, 4, 0, false, true, 0, false, 1, 0, 0, 5⟩ := by decide
/-- `MLOOP c2, -2 words`: opcode 0x09, bits [63:56]. -/
theorem test_decode_mloop :
    instrOf (.matrix 0b00001001_000_0000_0000_0010_0000_0000_00_00_0000_000000000000_1111111111110#64) =
      .mloop ⟨0, 0, 0, 2, 0, 0, 0, 0, 0, 0, 0x1FFE⟩ := by decide
/-- The decoder reads the bytes least significant first (00:R8). -/
theorem test_table_word : decodeTableWord 32 0x04A63800 = some (.add ⟨5, 6, 7⟩) := by decide

/-! ## Witnesses: encodings, step, reset -/

theorem witness_DecodeReadsWhatEncodeWrites :
    ∃ i w, WellFormed i ∧ encode i = some w ∧ ∀ x, i ≠ .unassignedEncoding x :=
  ⟨.fence ⟨0, 0, 0x12⟩, _, rfl, rfl, nofun⟩

theorem witness_EncodeWritesWhatDecodeReads : ∃ w i, decodeWord w = .ok i := ⟨.scalar 0x04A63800, _, rfl⟩

theorem witness_StepRuns_scalar : ∃ (s : State) (t : Nat) (tm : Team) (bs : List Byte) (i : Instr), s.scalarTeam = some (t, tm) ∧
    s.fetchBytes tm (some false) tm.pc 4 = .ok bs ∧ s.codeReady tm (some false) tm.pc 4 = true ∧ s.fetchPoisoned tm (some false) tm.pc 4 = false ∧
    decodeWord (.scalar (BitVec.ofNat 32 (leNat bs))) = .ok i :=
  ⟨State.reset.placeWord .scalar 0x04A63800, 8, _, _, .add ⟨5, 6, 7⟩, rfl, rfl, by decide, by decide, rfl⟩

theorem witness_StepRuns_lane : ∃ (s : State) (t : Nat) (tm : Team) (rb : RunBlock) (bs : List Byte) (i : Instr),
    s.laneTeam = some (t, tm, rb) ∧ tm.mustWait = false ∧ s.fetchBytes tm (some true) (tm.laneAddr rb.pos.toNat) 12 = .ok bs ∧
    s.codeReady tm (some true) (tm.laneAddr rb.pos.toNat) 12 = true ∧
    s.fetchPoisoned tm (some true) (tm.laneAddr rb.pos.toNat) 12 = false ∧ decodeWord (.lane (BitVec.ofNat 96 (leNat bs))) = .ok i :=
  ⟨State.reset.placeWord .lane 0, 8, _, _, _, _, rfl, by decide, rfl, by decide, by decide, rfl⟩

theorem witness_StepRuns_matrix : ∃ (s : State) (n : Nat) (u : LUnit) (q : Sequencer) (bs : List Byte) (i : Instr),
    s.seqUnit = some (n, u, q) ∧ (s.ctx u.slot).refuted u.launch.hyp = false ∧ q.loaded = true ∧
    s.fetchBytes u.seqReader none q.pc 8 = .ok bs ∧ s.codeReady u.seqReader none q.pc 8 = true ∧ s.fetchPoisoned u.seqReader none q.pc 8 = false ∧
    decodeWord (.matrix (BitVec.ofNat 64 (leNat bs))) = .ok i :=
  ⟨State.reset.placeWord .matrix 0x0D00000000000000, 0, _, _, _, _, rfl, by decide, by decide, rfl, by decide, by decide, rfl⟩

theorem witness_StepRuns_idle : ∃ s : State, s.joins = [] ∧ s.lateActions = [] ∧ ∀ c ∈ s.contexts, c.2.resolves = [] ∧ c.2.reclaiming = false := ⟨State.reset, rfl, rfl, by decide⟩

theorem witness_StepRuns_event : ∃ s e, State.turn s = .event e := ⟨State.reset, _, rfl⟩

theorem witness_StepKeepsMemoryCanonical : ∃ s s', State.Inv s ∧ step s = .next s' := ⟨State.reset, _, rfl, rfl⟩

theorem witness_OnlyControlCoresStopTheMachine : ∃ s r, step s = .fault r :=
  ⟨{ State.reset with turn := .scalar 0, teams := [{ Team.control 0 with state := .ready, pc := 1 }] }, _, rfl⟩

/-! ## Witnesses: scalar words -/

theorem witness_IntegerFunctionsWriteTheirResult : ∃ (s : State) (t : Nat) (tm : Team) (f : SR), s.scalarTeam = some (t, tm) ∧ f.d = 0 :=
  ⟨scalarAt, 8, _, ⟨0, 1, 2⟩, rfl, rfl⟩

theorem witness_IntegerFunctions_divisor : ∃ (s : State) (t : Nat) (tm : Team) (f : SR), s.scalarTeam = some (t, tm) ∧ tm.rd f.b ≠ 0 ∧
    (tm.rd f.a).toInt = -2 ^ 63 ∧ (tm.rd f.b).toInt = -1 :=
  ⟨scalarAt (h := fun tm => { tm with s := [(1, 0x8000000000000000), (2, 0xFFFFFFFFFFFFFFFF)] }), 8, _, ⟨1, 1, 2⟩, rfl, by decide, by decide, by decide⟩

theorem witness_DivisionsWriteTheirResult : ∃ (s : State) (t : Nat) (tm : Team) (f : SR), s.scalarTeam = some (t, tm) ∧ tm.rd f.b = 0 :=
  ⟨scalarAt, 8, _, ⟨1, 1, 2⟩, rfl, by decide⟩

theorem witness_ImmediateFunctionsWriteTheirResult : ∃ (s : State) (t : Nat) (tm : Team) (f : SI), s.scalarTeam = some (t, tm) ∧ f.i = 0xFFFF :=
  ⟨scalarAt, 8, _, ⟨1, 1, 0xFFFF⟩, rfl, rfl⟩

theorem witness_Branches_aligned : ∃ (s : State) (t : Nat) (tm : Team) (f : SR), s.scalarTeam = some (t, tm) ∧ (tm.rd f.a).toNat % 4 = 0 :=
  ⟨scalarAt, 8, _, ⟨1, 1, 2⟩, rfl, by decide⟩

theorem witness_MayTrap : ∃ (s : State) (t : Nat) (tm : Team), MayTrap s t tm ∧ tm.drained = true ∧ tm.inHandler = false :=
  ⟨scalarAt, 8, _, ⟨rfl, rfl, rfl, rfl, rfl, by decide⟩, by decide, by decide⟩

theorem witness_Branches_misaligned : ∃ (s : State) (t : Nat) (tm : Team) (f : SR), (tm.rd f.a).toNat % 4 ≠ 0 ∧ MayTrap s t tm :=
  ⟨scalarAt (h := fun tm => { tm with s := [(1, 1)] }), 8, _, ⟨1, 1, 2⟩, by decide, ⟨rfl, rfl, rfl, rfl, rfl, by decide⟩⟩

/-- A load of the mapped page, of a record, and of host memory. -/
theorem witness_ScalarLoads_device : ∃ (s : State) (t : Nat) (tm : Team) (f : SI) (pl : List Place), s.scalarTeam = some (t, tm) ∧
    s.scalarPlaces tm .load 32 (tm.rd f.a + f.i.signExtend 64) 32 = .ok pl ∧ (∀ x ∈ pl, x.remote = false) ∧ tm.drained = true ∧
    (s.loadPlaces (s.tagsOf t tm) ⟨false, false, 0⟩ none 0 pl).stuck = false :=
  ⟨scalarAt (h := fun tm => { tm with s := [(1, 0x10000)] }), 8, _, ⟨2, 1, 0⟩, _, rfl, rfl, by decide, by decide, by decide +kernel⟩

/-- The line is homed on another die, and no link of this one leads anywhere. -/
theorem witness_ScalarLoads_stuck : ∃ (s : State) (t : Nat) (tm : Team) (f : SI) (pl : List Place), s.scalarTeam = some (t, tm) ∧
    s.scalarPlaces tm .load 1 (tm.rd f.a + f.i.signExtend 64) 1 = .ok pl ∧ (∀ x ∈ pl, x.remote = false) ∧
    (s.loadPlaces (s.tagsOf t tm) ⟨false, false, 0⟩ none 0 pl).stuck = true :=
  ⟨scalarAt (g := fun s => { s.setCtx 0 { s.ctx 0 with pages := [(1, ⟨dieBytes, 1, 0, true, true, false, false⟩)] } with
      modules := (List.range 18).map fun m => (m, ⟨0, 0, 0, 2, false, 0⟩) })
    (h := fun tm => { tm with s := [(1, 0x10000)] }), 8, _, ⟨2, 1, 0⟩, _, rfl, rfl, by decide, by decide +kernel⟩

theorem witness_ScalarLoads_remote : ∃ (s : State) (t : Nat) (tm : Team) (f : SI) (pl : List Place), s.scalarTeam = some (t, tm) ∧
    s.scalarPlaces tm .load 1 (tm.rd f.a + f.i.signExtend 64) 1 = .ok pl ∧ (∃ x ∈ pl, x.remote = true) ∧ tm.holding = none ∧
    tm.inc = (s.ctx tm.slot).inc :=
  ⟨scalarAt (g := fun s => s.setCtx 0 { s.ctx 0 with pages := [(1, ⟨2 ^ 54, 0, 0, true, true, false, false⟩)] })
    (h := fun tm => { tm with s := [(1, 0x10000)] }), 8, _, ⟨2, 1, 0⟩, _, rfl, rfl, by decide, by decide, rfl⟩

theorem witness_ScalarLoads_old : ∃ (s : State) (t : Nat) (tm : Team) (f : SI) (pl : List Place), s.scalarTeam = some (t, tm) ∧
    s.scalarPlaces tm .load 1 (tm.rd f.a + f.i.signExtend 64) 1 = .ok pl ∧ (∃ x ∈ pl, x.remote = true) ∧ tm.holding = none ∧
    tm.inc ≠ (s.ctx tm.slot).inc :=
  ⟨scalarAt (g := fun s => s.setCtx 0 { s.ctx 0 with pages := [(1, ⟨2 ^ 54, 0, 0, true, true, false, false⟩)] })
    (h := fun tm => { tm with s := [(1, 0x10000)], inc := 4095 }), 8, _, ⟨2, 1, 0⟩, _, rfl, rfl, by decide, by decide, by decide⟩

/-- The last 8 bytes of the scratchpad. -/
theorem witness_ScratchpadAccesses : ∃ (s : State) (t : Nat) (tm : Team) (f : SI), s.scalarTeam = some (t, tm) ∧ tm.ctrl = none ∧
    (let p := tm.rd f.a + f.i.signExtend 64
     p.toNat / 2 ^ 56 = 0xFD ∧ p.toNat / 2 ^ 48 % 256 = tm.tag ∧ p.toNat % 2 ^ 19 + 8 ≤ 2 ^ 19 ∧
     s.poisoned (2 ^ 56 + tm.core * 2 ^ 19 + p.toNat % 2 ^ 19) 8 = false) :=
  ⟨scalarAt (h := fun tm => { tm with s := [(1, 0xFD0000000007FFF8)] }), 8, _, ⟨2, 1, 0⟩, rfl, rfl, by decide⟩

theorem witness_ScalarStores : ∃ (s : State) (t : Nat) (tm : Team) (f : SI) (pl : List Place), s.scalarTeam = some (t, tm) ∧
    s.scalarPlaces tm .store 32 (tm.rd f.a + f.i.signExtend 64) 32 = .ok pl ∧ s.storeRoom tm pl = true :=
  ⟨scalarAt (h := fun tm => { tm with s := [(1, 0x10000)] }), 8, _, ⟨2, 1, 0⟩, _, rfl, rfl, by decide⟩

/-- A pointer of each window, or none, and what each scalar access through it meets: a foreign tag, a scratchpad of another team, the end of its
own, a misaligned record, a page that is not mapped. -/
theorem witness_Scalar_causes : ∃ (s : State) (t : Nat) (tm : Team), s.scalarTeam = some (t, tm) ∧ MayTrap s t tm ∧ tm.sup = false ∧
    (let p k := (tm.rd k + (0 : BitVec 16).signExtend 64).toNat
     (2 ≤ p 1 / 2 ^ 56 ∧ p 1 / 2 ^ 56 < 0xFC) ∧ (p 2 / 2 ^ 56 = 0xFF ∧ physClass (p 2) ≠ 3) ∧ (p 3 / 2 ^ 56 = 0xFF ∧ physClass (p 3) = 3) ∧
     (p 4 / 2 ^ 56 = 0xFC ∧ (s.ctx tm.slot).privSize < p 4 % 2 ^ 24 + 1) ∧ (p 5 / 2 ^ 56 = 0xFD ∧ p 5 / 2 ^ 48 % 256 ≠ tm.tag) ∧
     (p 6 / 2 ^ 56 = 0xFD ∧ p 6 / 2 ^ 48 % 256 = tm.tag ∧ 2 ^ 19 < p 6 % 2 ^ 19 + 2) ∧ (p 7 / 2 ^ 56 = 0xFE ∧ 2 ^ 19 < p 7 % 2 ^ 19 + 2) ∧
     (p 8 < 2 ^ 57 ∧ p 8 % 32 ≠ 0) ∧ (p 9 < 2 ^ 57 ∧ p 9 % 32 = 0 ∧ p 9 % 128 + 32 ≤ 128 ∧ (s.ctx tm.slot).translate (p 9) = none)) :=
  ⟨scalarAt (h := fun tm => { tm with s := [(1, 0x0200000000000000), (2, 0xFF00000000000000), (3, 0xFFC0000000000000), (4, 0xFC00000000FFFFFF),
      (5, 0xFD01000000000000), (6, 0xFD0000000007FFFF), (7, 0xFE0000000007FFFF), (8, 0x10001), (9, 0x20000)] }), 8, _, rfl,
    ⟨rfl, rfl, rfl, rfl, rfl, by decide⟩, rfl, by decide⟩

/-- Pages that may not be read, or not be written, and one of a sealed arena. -/
theorem witness_Scalar_causes_mapped : ∀ x ∈ [(false, true, ArenaState.live), (true, false, .live), (true, true, .sealed)],
    ∃ (s : State) (t : Nat) (tm : Team) (f : SI) (pg : Page) (m pa : Nat), s.scalarTeam = some (t, tm) ∧ MayTrap s t tm ∧
    (let p := tm.rd f.a + f.i.signExtend 64
     p.toNat < 2 ^ 57 ∧ p.toNat % 32 = 0 ∧ p.toNat % 128 + 32 ≤ 128 ∧ (s.ctx tm.slot).translate p.toNat = some (pg, m, pa) ∧
     pg.read = x.1 ∧ pg.write = x.2.1 ∧ ((s.ctx tm.slot).arena pg.arena).state = x.2.2) := by
  intro x h
  refine ⟨scalarAt (g := fun s => s.setCtx 0 { s.ctx 0 with
      pages := [(1, ⟨0x10000, 0, 1, x.1, x.2.1, false, false⟩)]
      arenas := [(1, ⟨x.2.2, 0, 0, 1, 0x100000, 0, 0x10000, 0x110000, 0x20000, 1, false⟩)] })
    (h := fun tm => { tm with s := [(1, 0x10000)] }), 8, _, ⟨2, 1, 0⟩, ⟨0x10000, 0, 1, x.1, x.2.1, false, false⟩, 1, 0x10000, rfl,
    ⟨rfl, rfl, rfl, rfl, rfl, ?_⟩, by decide, by decide, by decide, rfl, rfl, rfl, rfl⟩
  revert x
  decide

theorem witness_RegistersRecordsAndMasksReadAsWritten : ∃ tm : Team, tm.lanes ≤ 1024 := ⟨{ Team.atReset with lanes := 1024 }, by decide⟩

theorem witness_Blocks_room : ∃ (s : State) (t : Nat) (tm : Team) (f : SRK), s.scalarTeam = some (t, tm) ∧ tm.blocks < 4 ∧ tm.drained = true ∧
    f.k.toNat < tm.budget := ⟨scalarAt, 8, _, ⟨1, 0, 0, 63⟩, rfl, by decide, by decide, by decide⟩

theorem witness_Blocks_full : ∃ (s : State) (t : Nat) (tm : Team), s.scalarTeam = some (t, tm) ∧ 4 ≤ tm.blocks :=
  ⟨scalarAt (h := fun tm => { tm with queue := List.replicate 4 ⟨0, [], none, 0⟩ }), 8, _, rfl, by decide⟩

theorem witness_Blocks_beyond_budget : ∃ (s : State) (t : Nat) (tm : Team) (f : SRK), tm.drained = true ∧ tm.budget ≤ f.k.toNat ∧ MayTrap s t tm :=
  ⟨scalarAt (h := fun tm => { tm with budget := 16 }), 8, _, ⟨1, 0, 0, 16⟩, by decide, by decide, ⟨rfl, rfl, rfl, rfl, rfl, by decide⟩⟩

theorem witness_SpecialRegisters : ∃ (s : State) (t : Nat) (tm : Team) (f : SR) (u : LUnit), s.scalarTeam = some (t, tm) ∧
    f.b.toNat = 15 ∧ tm.drained = true ∧ s.unit? tm.unit = some u := ⟨scalarAt, 8, _, ⟨1, 0, 15⟩, _, rfl, by decide, by decide, rfl⟩

theorem witness_SpecialRegisters_unassigned : ∃ (s : State) (t : Nat) (tm : Team) (f : SR), 20 ≤ f.b.toNat ∧ MayTrap s t tm :=
  ⟨scalarAt, 8, _, ⟨1, 0, 20⟩, by decide, ⟨rfl, rfl, rfl, rfl, rfl, by decide⟩⟩

/-- A haloed line of core 0 with dirty bytes. -/
def cached (dirty : BitVec 128) : L1Line := ⟨0, false, 0, 0, 0x10000, 0, 0, ⟨List.replicate 128 0, []⟩, false, dirty ≠ 0, dirty, 0⟩

/-- A store of team 8 to a line, on its way to die `h`. -/
def onWay (s : State) (h k0 : Nat) (bytes : NMap Byte) : Req :=
  ⟨s.tagsOf 8 (fetchTeam 0 0 false), 0, h, k0, bytes, [1, 0, 0, 0], none, h ≠ 0, 0, 0, 0, [], true, false, none⟩

theorem witness_Fences_acquire : ∃ (s : State) (t : Nat) (tm : Team) (f : SR), s.scalarTeam = some (t, tm) ∧ tm.drained = true ∧
    f.b.toNat % 4 = 1 ∧ s.mayAcquire tm (f.b.toNat / 4) = true ∧ f.b.toNat / 4 ≠ 0 :=
  ⟨scalarAt, 8, _, ⟨1, 0, 0x11⟩, rfl, by decide, by decide, by decide, by decide⟩

theorem witness_Fences_release : ∃ (s : State) (t : Nat) (tm : Team) (f : SR), s.scalarTeam = some (t, tm) ∧ tm.drained = true ∧
    f.b.toNat % 4 = 2 ∧ s.released t tm.core (f.b.toNat / 4) = true ∧ ∀ w ∈ s.posted, w.team ≠ t :=
  ⟨scalarAt, 8, _, ⟨1, 0, 0x16⟩, rfl, by decide, by decide, by decide, by decide⟩

/-- A dirty byte of a haloed line of core 0 has to be written back first. -/
theorem witness_Fences_dirty : ∃ (s : State) (t : Nat) (tm : Team) (f : SR), s.scalarTeam = some (t, tm) ∧ tm.drained = true ∧
    f.b.toNat % 4 = 2 ∧ f.b.toNat / 4 ≠ 0 ∧ s.dirtyTiles tm.core = true :=
  ⟨scalarAt (g := fun s => { s with l1 := [cached 1] }), 8, _, ⟨1, 0, 0x12⟩, rfl, by decide, by decide, by decide, by decide⟩

theorem witness_Fences_no_acquire : ∃ (s : State) (t : Nat) (tm : Team) (f : SR), s.scalarTeam = some (t, tm) ∧ tm.drained = true ∧
    f.b.toNat % 4 ≠ 2 ∧ s.mayAcquire tm (f.b.toNat / 4) = false :=
  ⟨scalarAt (h := fun tm => { tm with seen := [0, 9, 0, 0] }), 8, _, ⟨1, 0, 0x13⟩, rfl, by decide, by decide, by decide⟩

theorem witness_Fences_wait : ∃ (s : State) (t : Nat) (tm : Team) (f : SR), s.scalarTeam = some (t, tm) ∧ tm.drained = true ∧
    f.b.toNat % 4 = 2 ∧ f.b.toNat / 4 ≠ 0 ∧ s.released t tm.core (f.b.toNat / 4) = false ∧ s.dirtyTiles tm.core = false :=
  ⟨scalarAt (g := fun s => { s with flight := [onWay s 0 0x10000 [(0, 1)]] }), 8, _, ⟨1, 0, 0x12⟩,
    rfl, by decide, by decide, by decide, by decide, by decide⟩

theorem witness_Fences_both : ∃ (s : State) (t : Nat) (tm : Team) (f : SR), s.scalarTeam = some (t, tm) ∧ tm.drained = true ∧
    f.b.toNat % 4 = 3 ∧ s.released t tm.core (f.b.toNat / 4) = true ∧ (∀ w ∈ s.posted, w.team ≠ t) ∧
    s.mayAcquire tm (f.b.toNat / 4) = true ∧ f.b.toNat / 4 ≠ 0 :=
  ⟨scalarAt, 8, _, ⟨1, 0, 0x13⟩, rfl, by decide, by decide, by decide, by decide, by decide, by decide⟩

theorem witness_Fences_arithmetic : ∃ (s : State) (t : Nat) (tm : Team), tm.sticky &&& tm.arithmask ≠ 0 ∧ MayTrap s t tm ∧ tm.drained = true :=
  ⟨scalarAt (h := fun tm => { tm with sticky := 1, arithmask := 1 }), 8, _, by decide, ⟨rfl, rfl, rfl, rfl, rfl, by decide⟩, by decide⟩

theorem witness_Fences_quiet : ∃ (s : State) (t : Nat) (tm : Team), s.scalarTeam = some (t, tm) ∧ tm.sticky &&& tm.arithmask = 0 ∧
    tm.drained = true ∧ tm.level = 0 := ⟨scalarAt, 8, _, rfl, by decide, by decide, by decide⟩

/-! ## Witnesses: traps, barriers, ends -/

theorem witness_Traps : ∃ (s : State) (t : Nat) (tm : Team) (ti : TrapInfo), tm.ctrl = none ∧ s.replays tm = false ∧ ti.cause < 256 ∧
    t < s.teams.length ∧ s.frameReached tm = true ∧ tm.level = 0 := ⟨scalarAt, 8, fetchTeam 0 0 false, .plain 0xFF 0 0 0, rfl, by decide, by decide, by decide, by decide, rfl⟩

/-- The frame is homed on another die, and no link of this one leads anywhere. -/
theorem witness_Traps_unreached : ∃ (s : State) (t : Nat) (tm : Team) (ti : TrapInfo), tm.ctrl = none ∧ s.replays tm = false ∧ ti.cause < 256 ∧
    t < s.teams.length ∧ s.frameReached tm = false :=
  ⟨scalarAt (g := fun s => { s with modules := (List.range 18).map fun m => (m, ⟨0, 0, 0, 2, false, 0⟩) }), 8, { fetchTeam 0 0 false with frame := dieBytes },
    .plain 1 0 0 0, rfl, by decide, by decide, by decide, by decide⟩

theorem witness_Traps_in_handler : ∃ (s : State) (t : Nat) (tm : Team) (ti : TrapInfo), tm.ctrl = none ∧ s.replays tm = false ∧
    ti.cause < 256 ∧ t < s.teams.length ∧ s.frameReached tm = true ∧ tm.level ≠ 0 :=
  ⟨scalarAt (h := inHandler), 8, inHandler (fetchTeam 0 0 false), .plain 1 0 0 0, rfl, by decide, by decide, by decide, by decide, by decide⟩

theorem witness_InHandler : ∃ (s : State) (t : Nat) (tm : Team), InHandler s t tm ∧ tm.drained = true :=
  ⟨scalarAt (h := inHandler), 8, _, ⟨rfl, rfl, rfl, rfl, rfl, rfl, by decide⟩, by decide⟩

theorem witness_Returns : ∃ (s : State) (t : Nat) (tm : Team), s.scalarTeam = some (t, tm) ∧ tm.state = .trapped ∧ tm.level = 1 ∧
    tm.drained = true ∧ s.frameBusy t tm = false :=
  ⟨scalarAt (h := inHandler), 8, _, rfl, rfl, rfl, by decide, by decide⟩

theorem witness_TrapThenReturn : ∃ (s : State) (t : Nat) (tm : Team) (ti : TrapInfo), tm.ctrl = none ∧ s.replays tm = false ∧ tm.level = 0 ∧
    t < s.teams.length ∧ s.frameReached tm = true ∧ ti.cause < 256 ∧ tm.repAt < 64 ∧ (∀ k, ti.lane = some k → k < 2 ^ 26) ∧ tm.queue.length ≤ 4 ∧
    ∃ r rest, tm.asideBlocks = r :: rest ∧ r.pos ≠ r.blk.start :=
  ⟨scalarAt, 8, { fetchTeam 0 0 false with queue := List.replicate 4 ⟨0, [], none, 0⟩, run := some ⟨⟨0, [], none, 0⟩, 7, none, false, 7, 9⟩ }, .plain 1 0 0 0,
    rfl, by decide, rfl, by decide, by decide, by decide, by decide, nofun, by decide, _, _, rfl, by decide⟩

/-- No lane block has begun, or there is none. -/
theorem witness_TrapThenReturn_start : ∀ n ∈ [0, 4], ∃ (s : State) (t : Nat) (tm : Team) (ti : TrapInfo), tm.ctrl = none ∧ s.replays tm = false ∧ tm.level = 0 ∧
    t < s.teams.length ∧ s.frameReached tm = true ∧ ti.cause < 256 ∧ tm.repAt < 64 ∧ (∀ k, ti.lane = some k → k < 2 ^ 26) ∧ tm.queue.length ≤ 4 ∧
    tm.asideBlocks = List.replicate n ⟨⟨0, [], none, 0⟩, 0, none, false, 0, 0⟩ := by
  intro n h
  refine ⟨scalarAt, 8, { fetchTeam 0 0 false with queue := List.replicate n ⟨0, [], none, 0⟩ }, .plain 1 0 0 0, rfl, ?_, rfl, by decide, ?_, by decide, ?_,
    nofun, ?_, ?_⟩ <;> revert n <;> decide

/-- Barrier 15 of the team's unit, with another member that has not arrived. -/
def waitingBar (arrived : BitVec 17) (s : State) : State :=
  { s with units := [{ fetchUnit 0 8 false with teams := [8, 9], bars := [(15, ⟨3, arrived, 7⟩)] }],
           teams := s.teams ++ [{ fetchTeam 0 0 false with teamid := 1 }] }

theorem witness_Barriers_arrive : ∃ (s : State) (t : Nat) (tm : Team) (u : LUnit) (f : SR), s.scalarTeam = some (t, tm) ∧
    s.unit? tm.unit = some u ∧ tm.level = 0 ∧ tm.ctrl = none ∧ tm.drained = true ∧ s.released t tm.core 1 = true ∧
    (let b := u.bar (f.b.toNat % 16)
     b.arrived.getLsbD tm.teamid = false ∧ b.members.getLsbD tm.teamid = true ∧ tm.teamid < 16 ∧
     ∃ j, j < 16 ∧ b.members.getLsbD j = true ∧ (s.livingMembers u).getLsbD j = true ∧
       (b.arrived ||| BitVec.ofNat 17 (2 ^ tm.teamid)).getLsbD j = false) :=
  ⟨scalarAt (g := waitingBar 0), 8, _, _, ⟨1, 0, 15⟩, rfl, rfl, rfl, rfl, by decide, by decide, by decide, by decide, by decide,
    1, by decide, by decide, by decide, by decide⟩

theorem witness_Barriers_arrived : ∃ (s : State) (t : Nat) (tm : Team) (u : LUnit) (f : SR), s.scalarTeam = some (t, tm) ∧
    s.unit? tm.unit = some u ∧ tm.level = 0 ∧ tm.ctrl = none ∧ tm.drained = true ∧ s.released t tm.core 1 = true ∧
    (u.bar (f.b.toNat % 16)).arrived.getLsbD tm.teamid = true :=
  ⟨scalarAt (g := waitingBar 1), 8, _, _, ⟨1, 0, 15⟩, rfl, rfl, rfl, rfl, by decide, by decide, by decide⟩

/-- The team is the last to arrive. -/
theorem witness_Barriers_last : ∃ (s : State) (t : Nat) (tm : Team) (u : LUnit) (f : SR), s.scalarTeam = some (t, tm) ∧
    s.unit? tm.unit = some u ∧ tm.level = 0 ∧ tm.ctrl = none ∧ tm.drained = true ∧ s.released t tm.core 1 = true ∧
    (let b := u.bar (f.b.toNat % 16)
     b.arrived.getLsbD tm.teamid = false ∧ tm.teamid < 16 ∧
     b.members &&& s.livingMembers u &&& (b.arrived ||| BitVec.ofNat 17 (2 ^ tm.teamid)) = b.members &&& s.livingMembers u) :=
  ⟨scalarAt (g := waitingBar 2), 8, _, _, ⟨1, 0, 15⟩, rfl, rfl, rfl, rfl, by decide, by decide, by decide, by decide, by decide⟩

theorem witness_Phases_complete : ∃ (s : State) (k n : Nat) (u : LUnit), s.unit? k = some u ∧ (u.bar n).arrived.toNat % 2 ^ 16 ≠ 0 ∧
    (u.bar n).members &&& s.livingMembers u &&& (u.bar n).arrived = (u.bar n).members &&& s.livingMembers u :=
  ⟨scalarAt (g := waitingBar 3), 0, 15, _, rfl, by decide, by decide⟩

theorem witness_Phases_wait : ∃ (s : State) (k n : Nat) (u : LUnit), s.unit? k = some u ∧
    (u.bar n).members &&& s.livingMembers u &&& (u.bar n).arrived ≠ (u.bar n).members &&& s.livingMembers u :=
  ⟨scalarAt (g := waitingBar 1), 0, 15, _, rfl, by decide⟩

/-- Only the sequencer has arrived. -/
theorem witness_Phases_sequencer : ∃ (s : State) (k n : Nat) (u : LUnit), s.unit? k = some u ∧ (u.bar n).arrived.toNat % 2 ^ 16 = 0 ∧
    (u.bar n).arrived ≠ 0 := ⟨scalarAt (g := waitingBar 0x10000), 0, 15, _, rfl, by decide, by decide⟩

/-- An arrival at a barrier without a member. -/
theorem witness_Phases_empty : ∃ (s : State) (k n : Nat) (u : LUnit), s.unit? k = some u ∧
    (u.bar n).members &&& s.livingMembers u &&& (u.bar n).arrived = (u.bar n).members &&& s.livingMembers u ∧ (u.bar n).members = 0 :=
  ⟨scalarAt (g := fun s => { s with units := [{ fetchUnit 0 8 false with bars := [(7, ⟨0, 0, 0⟩)] }] }), 0, 7, _, rfl, by decide, rfl⟩

theorem witness_Exits : ∃ (s : State) (t : Nat) (tm : Team) (u : LUnit), s.scalarTeam = some (t, tm) ∧ tm.drained = true ∧ tm.level = 0 ∧
    tm.aside = none ∧ s.unit? tm.unit = some u := ⟨scalarAt, 8, _, _, rfl, by decide, rfl, rfl, rfl⟩

/-! ## Witnesses: engine commands -/

theorem witness_SxIssues : ∃ (s : State) (t : Nat) (tm : Team), ∀ e ≤ 7, SxIssues s t tm e true :=
  ⟨scalarAt (h := inHandler), 8, _, fun e he => ⟨rfl, fun _ => rfl, fun _ _ => rfl, by revert e; decide, by revert e; decide⟩⟩

/-- The last place of a copy-engine queue, with rows of the scratchpad. -/
theorem witness_Copies : ∃ (s : State) (t : Nat) (tm : Team) (f : SX), SxIssues s t tm 0 false ∧
    (s.ceq tm.core tm.ceQueue.toNat).entries.length < 16 ∧ s.ceOrdered t = true ∧ tm.ceCb = none ∧
    ceRowsCause tm.core tm.tag (tm.rd f.a) tm.ceDst tm.ceLen.toNat tm.ceRowCount = none ∧
    ceRowsCause tm.core tm.tag (tm.rd f.b) tm.ceSrc tm.ceLen.toNat tm.ceRowCount = none :=
  ⟨scalarAt (h := fun tm => { with1 0xFD00000000000000 false 0xFD00000000040000 tm with ceLen := 0x40000 }), 8, _, ⟨0, 1, 2, true⟩,
    ⟨rfl, nofun, fun _ _ => rfl, rfl, rfl⟩, by decide, by decide, by decide, by decide, by decide⟩

theorem witness_Copies_buffer : ∃ (s : State) (t : Nat) (tm : Team) (f : SX) (x : Piece), SxIssues s t tm 0 false ∧
    cePiece tm.core tm.tag (tm.rd f.a) 16 = .ok x ∧ x.win = .pad ∧ (tm.rd f.a).toNat % 16 = 0 ∧ (s.cbRead (s.padKey tm.unit x)).bad = false :=
  ⟨scalarAt (g := fun s => s.poke (2 ^ 56 + 0x40) (leBytes 16 (0x00020080 * 2 ^ 32 + 0x2 * 2 ^ 64))) (h := with1 padPtr), 8, _, ⟨0, 1, 0, true⟩, _,
    ⟨rfl, nofun, fun _ _ => rfl, rfl, rfl⟩, rfl, rfl, by decide, by decide⟩

/-- A copy-engine entry of the team. -/
def ceEntry (s : State) (seq : BitVec 32) (kind : CeKind) : CeEntry :=
  ⟨kind, seq, padPtr, padPtr, 16, 1, 0, 0, false, none, false, false, s.tagsOf 8 (fetchTeam 0 0 false), .waiting, 0, []⟩

theorem witness_Copies_future : ∃ (s : State) (t : Nat) (tm : Team) (c q : Nat) (n : BitVec 32), SxIssues s t tm 0 false ∧
    tm.ceLast = some (c, q, n) ∧ ∃ e ∈ (s.ceq c q).entries, e.seq = n :=
  ⟨scalarAt (g := fun s => s.setCeq 0 0 ⟨[ceEntry s 5 (.fill 0)], 6, 4, true, []⟩) (h := fun tm => { tm with ceLast := some (0, 0, 5) }), 8, _, _, _, _,
    ⟨rfl, nofun, fun _ _ => rfl, rfl, rfl⟩, rfl, _, List.mem_cons_self, rfl⟩

/-- The entry has completed; or none has been enqueued. -/
theorem witness_Copies_future_late : ∀ last ∈ [some (0, 0, (5 : BitVec 32)), none], ∃ (s : State) (t : Nat) (tm : Team), SxIssues s t tm 0 false ∧
    tm.ceLast = last ∧ (∀ c q n, last = some (c, q, n) → ∀ e ∈ (s.ceq c q).entries, e.seq ≠ n) ∧
    s.ceOrdered t = true := by
  intro last h
  simp only [List.mem_cons, List.not_mem_nil, or_false] at h
  rcases h with rfl | rfl
  · refine ⟨scalarAt (h := fun tm => { with1 0x10000 (tm := tm) with ceLast := some (0, 0, 5) }), 8, _,
      ⟨rfl, nofun, fun _ _ => rfl, rfl, rfl⟩, rfl, fun c q n _ e he => ?_, by decide⟩
    have h0 : (scalarAt (h := fun tm => { with1 0x10000 (tm := tm) with ceLast := some (0, 0, 5) })).ceq c q = CeQueue.empty := rfl
    rw [h0] at he
    cases he
  · exact ⟨scalarAt (h := with1 0x10000), 8, _, ⟨rfl, nofun, fun _ _ => rfl, rfl, rfl⟩, rfl, nofun, by decide⟩

/-- A store of the team's scalar stream is on its way: the action waits for it. -/
theorem witness_Copies_future_unordered : ∃ (s : State) (t : Nat) (tm : Team), SxIssues s t tm 0 false ∧ s.ceOrdered t = false ∧
    ∀ c q n, tm.ceLast = some (c, q, n) → ∀ e ∈ (s.ceq c q).entries, e.seq ≠ n :=
  ⟨scalarAt (g := fun s => { s with flight := [onWay s 0 0x10000 [(0, 1)]] }), 8, _, ⟨rfl, nofun, fun _ _ => rfl, rfl, rfl⟩, by decide, nofun⟩

/-- The queue is full; and a copy that must wait for the stores of the team's lane blocks. -/
theorem witness_Copies_full : ∃ (s : State) (t : Nat) (tm : Team) (f : SX), SxIssues s t tm 0 false ∧
    16 ≤ (s.ceq tm.core tm.ceQueue.toNat).entries.length ∧ tm.ceCb = none ∧
    ceRowsCause tm.core tm.tag (tm.rd f.a) tm.ceDst tm.ceLen.toNat tm.ceRowCount = none :=
  ⟨scalarAt (g := fun s => s.setCeq 0 0 ⟨List.replicate 16 (ceEntry s 5 (.fill 0)), 6, 4, true, []⟩) (h := with1 padPtr), 8, _, ⟨0, 1, 2, true⟩,
    ⟨rfl, nofun, fun _ _ => rfl, rfl, rfl⟩, by decide, rfl, by decide⟩

theorem witness_Copies_unordered : ∃ (s : State) (t : Nat) (tm : Team) (f : SX), SxIssues s t tm 0 false ∧
    (s.ceq tm.core tm.ceQueue.toNat).entries.length < 16 ∧ s.ceOrdered t = false ∧ tm.ceCb = none ∧
    ceRowsCause tm.core tm.tag (tm.rd f.a) tm.ceDst tm.ceLen.toNat tm.ceRowCount = none :=
  ⟨scalarAt (g := fun s => { s with flight := [onWay s 0 0x10000 [(0, 1)]] }) (h := with1 padPtr), 8, _, ⟨0, 1, 2, true⟩,
    ⟨rfl, nofun, fun _ _ => rfl, rfl, rfl⟩, by decide, by decide, rfl, by decide⟩

theorem witness_Copies_status : ∃ (s : State) (t : Nat) (tm : Team), SxIssues s t tm 0 false ∧ s.mayAcquire tm 4 = true :=
  ⟨scalarAt, 8, _, ⟨rfl, nofun, fun _ _ => rfl, rfl, rfl⟩, by decide⟩

theorem witness_Joins_named : ∃ (s : State) (t : Nat) (tm : Team) (f : SX) (q : Nat), SxIssues s t tm 0 false ∧
    (tm.rd f.a).extractLsb' 0 4 = BitVec.ofNat 4 (2 ^ q) ∧ q < 4 ∧ (s.ceq tm.core q).entries.length < 16 :=
  ⟨scalarAt (h := with1 8), 8, _, ⟨0, 1, 0, true⟩, 3, ⟨rfl, nofun, fun _ _ => rfl, rfl, rfl⟩, by decide, by decide, by decide⟩

theorem witness_Joins_none : ∃ (s : State) (t : Nat) (tm : Team) (f : SX), SxIssues s t tm 0 false ∧
    (tm.rd f.a).extractLsb' 0 4 = 0 ∧ (s.ceq tm.core ((tm.rd f.a).toNat % 4)).entries.length ≤ 16 :=
  ⟨scalarAt, 8, _, ⟨0, 1, 0, true⟩, ⟨rfl, nofun, fun _ _ => rfl, rfl, rfl⟩, by decide, by decide⟩

/-- Walks 0 to 6 are held; walk 0 has one coordinate left, walk 1 none, walk 2 is another unit's. -/
def walks (n : Nat) (s : State) : State :=
  { s with walks := (List.range n).map fun k => (k, ⟨if k = 2 then 1 else 0, [2], if k = 1 then [0, 1] else [1]⟩) }

theorem witness_Walks : ∃ (s : State) (t : Nat) (tm : Team) (f : SX) (x : Walk), SxIssues s t tm 2 false ∧
    NMap.find? s.walks (8 * tm.core + 7) = none ∧ (∀ j, j < 7 → NMap.find? s.walks (8 * tm.core + j) ≠ none) ∧
    NMap.find? s.walks (8 * tm.core + (tm.rd f.a).toNat % 8) = some x ∧ x.unit = tm.unit ∧ x.given.length < x.total :=
  ⟨scalarAt (g := walks 7), 8, _, ⟨0, 1, 0, true⟩, _, ⟨rfl, nofun, fun _ _ => rfl, rfl, rfl⟩, rfl, by decide, rfl, rfl, by decide⟩

theorem witness_Walks_exhausted : ∃ (s : State) (t : Nat) (tm : Team) (f : SX) (x : Walk), SxIssues s t tm 2 false ∧
    (∀ k, k < 8 → NMap.find? s.walks (8 * tm.core + k) ≠ none) ∧
    NMap.find? s.walks (8 * tm.core + (tm.rd f.a).toNat % 8) = some x ∧ x.unit = tm.unit ∧ x.total ≤ x.given.length :=
  ⟨scalarAt (g := walks 8) (h := with1 1), 8, _, ⟨0, 1, 0, true⟩, _, ⟨rfl, nofun, fun _ _ => rfl, rfl, rfl⟩, by decide, rfl, rfl, by decide⟩

theorem witness_Walks_of_another : ∃ (s : State) (t : Nat) (tm : Team) (f : SX), SxIssues s t tm 2 false ∧
    ∀ x, NMap.find? s.walks (8 * tm.core + (tm.rd f.a).toNat % 8) = some x → x.unit ≠ tm.unit :=
  ⟨scalarAt (g := walks 8) (h := with1 2), 8, _, ⟨0, 1, 0, true⟩, ⟨rfl, nofun, fun _ _ => rfl, rfl, rfl⟩, by
    intro x h; have := Option.some.inj h; subst this; decide⟩

/-- Queue 3 of context slot 0: its ring has 16 places, and `n` of them are taken. -/
def queue (n : Nat) : Queue where
  slot := 0
  ring := 0x11000
  log2 := 4
  sx20 := false
  prio := 5
  ventBase := 0
  ventSize := 0
  enabled := true
  shares := [0, 0, 0]
  entries := List.replicate n ⟨0x10000, 1, 0, none, 0x11000, []⟩
  vent := []
  ventNext := 0
  held := []
  next := 0
  headSince := 0
  shortSince := []
  told := []
  served := []
  tailSeg := 0
  tailIdx := 0
  headSeg := 0
  headIdx := 0
  suspended := none

theorem witness_Spawns : ∃ (s : State) (t : Nat) (tm : Team) (f : SX) (q q' : Queue) (s1 : State), SxIssues s t tm 3 false ∧
    NMap.find? s.queues ((tm.rd f.b).toNat % 1024) = some q ∧ q.slot = tm.slot ∧ q.held = [] ∧ s.ceOrdered t = true ∧
    s.entryReady (dieOfCore tm.core) q = true ∧ q.sx20 = false ∧ q.vent = [] ∧
    q.entries.length < 2 ^ q.log2 ∧ s.append q ⟨tm.rd f.a, 1, s.vc (dieOfCore tm.core)⟩ = .done s1 q' :=
  ⟨scalarAt (g := fun s => { s with queues := [(3, queue 15)] }) (h := with1 0x10000 false 3), 8, _, ⟨4, 1, 2, true⟩, queue 15, _, _,
    ⟨rfl, nofun, fun _ _ => rfl, rfl, rfl⟩, rfl, rfl, rfl, by decide, by decide, rfl, rfl, by decide, rfl⟩

/-- The queue is none; a counter's pointer is no multiple of 16, and a counter of 3 is to lose 4. -/
theorem witness_Tasks_refused : ∃ (s : State) (t : Nat) (tm : Team) (f : SX), SxIssues s t tm 3 false ∧ MayTrap s t tm ∧
    (∀ q, NMap.find? s.queues ((tm.rd f.b).toNat % 1024) = some q → q.slot ≠ tm.slot) ∧ (tm.rd f.a).toNat < 2 ^ 57 ∧ (tm.rd f.a).toNat % 16 ≠ 0 :=
  ⟨scalarAt (h := with1 0x10008), 8, _, ⟨4, 1, 2, true⟩, ⟨rfl, nofun, fun _ _ => rfl, rfl, rfl⟩, ⟨rfl, rfl, rfl, rfl, rfl, by decide⟩, nofun, by decide,
    by decide⟩

/-- The words of a future, registered or resolved, and a counter of 3, at the mapped page. -/
def word (x : Nat) (s : State) : State := s.poke 0x10000 (leBytes 16 x)

theorem witness_Counters : ∃ (s : State) (t : Nat) (tm : Team) (f : SX) (pl : List Place), SxIssues s t tm 3 false ∧
    s.engineCheck tm (tm.rd f.a) 16 16 true = .ok pl ∧ s.dropOvertakes tm pl = false ∧ s.wordReady t tm pl = true ∧
    s.released t tm.core 4 = true ∧ (tm.rd f.b).toNat % 2 ^ 32 ≤ s.readPlaces pl % 2 ^ 32 :=
  ⟨scalarAt (g := word 3) (h := with1 0x10000 false 3), 8, _, ⟨4, 1, 2, true⟩, _, ⟨rfl, nofun, fun _ _ => rfl, rfl, rfl⟩, rfl, by decide, by decide,
    by decide, by decide⟩

theorem witness_Counters_refused : ∃ (s : State) (t : Nat) (tm : Team) (f : SX) (pl : List Place), SxIssues s t tm 3 false ∧ MayTrap s t tm ∧
    s.engineCheck tm (tm.rd f.a) 16 16 true = .ok pl ∧ s.dropOvertakes tm pl = false ∧ s.wordReady t tm pl = true ∧
    s.released t tm.core 4 = true ∧ s.readPlaces pl % 2 ^ 32 < (tm.rd f.b).toNat % 2 ^ 32 :=
  ⟨scalarAt (g := word 3) (h := with1 0x10000 false 4), 8, _, ⟨4, 1, 2, true⟩, _, ⟨rfl, nofun, fun _ _ => rfl, rfl, rfl⟩,
    ⟨rfl, rfl, rfl, rfl, rfl, by decide⟩, rfl, by decide, by decide, by decide, by decide⟩

theorem witness_Futures_empty : ∃ (s : State) (t : Nat) (tm : Team) (f : SX) (pl : List Place), SxIssues s t tm 3 false ∧
    s.engineCheck tm (tm.rd f.a) 8 8 true = .ok pl ∧ s.dropOvertakes tm pl = false ∧ s.wordReady t tm pl = true ∧
    s.actionReady [dieOfCore tm.core] tm.slot (tm.rd f.a) true = true ∧ (tm.rd f.b).toNat < 2 ^ 48 ∧ (tm.rd f.b).toNat % 16 = 0 ∧
    s.released t tm.core 4 = true ∧ s.readPlaces pl / 2 ^ 62 % 4 = 0 :=
  ⟨scalarAt (h := with1 0x10000 false 0x10010), 8, _, ⟨4, 1, 2, true⟩, _, ⟨rfl, nofun, fun _ _ => rfl, rfl, rfl⟩, rfl, by decide, by decide,
    by decide, by decide, by decide, by decide, by decide⟩

theorem witness_Futures_registered : ∃ (s : State) (t : Nat) (tm : Team) (f : SX) (pl : List Place), SxIssues s t tm 3 false ∧
    s.engineCheck tm (tm.rd f.a) 8 8 true = .ok pl ∧ s.dropOvertakes tm pl = false ∧ s.wordReady t tm pl = true ∧
    s.actionReady [dieOfCore tm.core] tm.slot (tm.rd f.a) true = true ∧
    s.released t tm.core 4 = true ∧ s.readPlaces pl / 2 ^ 62 % 4 = 1 ∧ s.wordTakes (s.tagsOf t tm) pl = true :=
  ⟨scalarAt (g := word 0x4000000000010010) (h := with1 0x10000 false 9), 8, _, ⟨4, 1, 2, true⟩, _, ⟨rfl, nofun, fun _ _ => rfl, rfl, rfl⟩, rfl,
    by decide, by decide, by decide, by decide, by decide, by decide⟩

/-- The word of the future is poisoned: its event is not performed. -/
theorem witness_Futures_poisoned : ∃ (s : State) (t : Nat) (tm : Team) (f : SX) (pl : List Place), SxIssues s t tm 3 false ∧
    s.engineCheck tm (tm.rd f.a) 8 8 true = .ok pl ∧ s.dropOvertakes tm pl = false ∧ s.wordReady t tm pl = true ∧
    s.actionReady [dieOfCore tm.core] tm.slot (tm.rd f.a) true = true ∧
    s.released t tm.core 4 = true ∧ s.readPlaces pl / 2 ^ 62 % 4 = 1 ∧ s.wordTakes (s.tagsOf t tm) pl = false :=
  ⟨scalarAt (g := fun s => { word 0x4000000000010010 s with poison := [.granule (0x10000 / 32)] }) (h := with1 0x10000 false 9), 8, _, ⟨4, 1, 2, true⟩, _,
    ⟨rfl, nofun, fun _ _ => rfl, rfl, rfl⟩, rfl, by decide, by decide, by decide, by decide, by decide, by decide⟩

/-- A future that is awaited already, one awaited by no continuation that could be one, and a resolved one. -/
theorem witness_Futures_refused : ∀ x ∈ [(0x4000000000010010, (0x10010 : W64)), (0, 0x10001), (0, 0x1000000000000), (0x8000000000000000, 0)],
    ∃ (s : State) (t : Nat) (tm : Team) (f : SX) (pl : List Place), SxIssues s t tm 3 false ∧ MayTrap s t tm ∧
    s.engineCheck tm (tm.rd f.a) 8 8 true = .ok pl ∧ s.dropOvertakes tm pl = false ∧ s.wordReady t tm pl = true ∧
    s.actionReady [dieOfCore tm.core] tm.slot (tm.rd f.a) true = true ∧ s.released t tm.core 4 = true ∧ s.readPlaces pl = x.1 ∧ tm.rd f.b = x.2 := by
  intro x h
  simp only [List.mem_cons, List.not_mem_nil, or_false] at h
  rcases h with rfl | rfl | rfl | rfl
  · exact ⟨scalarAt (g := word 0x4000000000010010) (h := with1 0x10000 false 0x10010), 8, _, ⟨4, 1, 2, true⟩, _, ⟨rfl, nofun, fun _ _ => rfl, rfl, rfl⟩,
      ⟨rfl, rfl, rfl, rfl, rfl, by decide⟩, rfl, by decide, by decide, by decide, by decide, by decide, by decide⟩
  · exact ⟨scalarAt (g := word 0) (h := with1 0x10000 false 0x10001), 8, _, ⟨4, 1, 2, true⟩, _, ⟨rfl, nofun, fun _ _ => rfl, rfl, rfl⟩,
      ⟨rfl, rfl, rfl, rfl, rfl, by decide⟩, rfl, by decide, by decide, by decide, by decide, by decide, by decide⟩
  · exact ⟨scalarAt (g := word 0) (h := with1 0x10000 false 0x1000000000000), 8, _, ⟨4, 1, 2, true⟩, _, ⟨rfl, nofun, fun _ _ => rfl, rfl, rfl⟩,
      ⟨rfl, rfl, rfl, rfl, rfl, by decide⟩, rfl, by decide, by decide, by decide, by decide, by decide, by decide⟩
  · exact ⟨scalarAt (g := word 0x8000000000000000) (h := with1 0x10000 false 0), 8, _, ⟨4, 1, 2, true⟩, _, ⟨rfl, nofun, fun _ _ => rfl, rfl, rfl⟩,
      ⟨rfl, rfl, rfl, rfl, rfl, by decide⟩, rfl, by decide, by decide, by decide, by decide, by decide, by decide⟩

theorem witness_Futures_resolved : ∃ (s : State) (t : Nat) (tm : Team) (f : SX) (pl : List Place), SxIssues s t tm 3 false ∧
    s.engineCheck tm (tm.rd f.a) 8 8 true = .ok pl ∧ s.dropOvertakes tm pl = false ∧ s.wordReady t tm pl = true ∧
    s.actionReady [dieOfCore tm.core] tm.slot (tm.rd f.a) true = true ∧ (tm.rd f.b).toNat < 2 ^ 48 ∧ (tm.rd f.b).toNat % 16 = 0 ∧
    2 ≤ s.readPlaces pl / 2 ^ 62 % 4 ∧ s.actionReady [dieOfCore tm.core] tm.slot (tm.rd f.b) false = true :=
  ⟨scalarAt (g := word 0x8000000000000000) (h := with1 0x10000 false 0x10010), 8, _, ⟨4, 1, 2, true⟩, _, ⟨rfl, nofun, fun _ _ => rfl, rfl, rfl⟩,
    rfl, by decide, by decide, by decide, by decide, by decide, by decide, by decide⟩

theorem witness_Futures_read : ∃ (s : State) (t : Nat) (tm : Team) (f : SX) (pl : List Place), SxIssues s t tm 3 false ∧
    s.engineCheck tm (tm.rd f.a) 8 8 false = .ok pl ∧ s.dropOvertakes tm pl = false ∧ s.wordReady t tm pl = true ∧
    s.actionReady [dieOfCore tm.core] tm.slot (tm.rd f.a) true = true ∧
    s.mayAcquire { tm with seen := joinStamp tm.seen (s.stampOf pl) } 4 = true ∧ ∀ p ∈ pl, s.poisoned p.key p.len = false :=
  ⟨scalarAt (h := with1 0x10000), 8, _, ⟨4, 1, 2, true⟩, _, ⟨rfl, nofun, fun _ _ => rfl, rfl, rfl⟩, rfl, by decide, by decide, by decide, by decide,
    by decide⟩

/-- The page is of an arena whose drop has begun. -/
theorem witness_Counters_overtaken : ∃ (s : State) (t : Nat) (tm : Team) (f : SX) (pl : List Place), SxIssues s t tm 3 false ∧
    s.engineCheck tm (tm.rd f.a) 16 16 true = .ok pl ∧ s.wordReady t tm pl = true ∧
    ∃ p ∈ pl, p.remote = false ∧ ((s.ctx tm.slot).arena p.arena).state = .dropping :=
  ⟨scalarAt (g := fun s => s.setCtx 0 { s.ctx 0 with
      pages := [(1, ⟨0x10000, 0, 1, true, true, false, false⟩)]
      arenas := [(1, ⟨.dropping, 0, 0, 1, 0x100000, 0, 0x20000, 0x120000, 0x20000, 1, false⟩)] })
    (h := with1 0x10000), 8, _, ⟨4, 1, 2, true⟩, _, ⟨rfl, nofun, fun _ _ => rfl, rfl, rfl⟩, rfl, by decide, _, List.mem_cons_self, rfl, rfl⟩

/-- A join record at the mapped page. -/
def record (w : Nat) (s : State) : State := s.poke 0x10000 (leBytes 64 w)

/-- A join record of 64 contributors with a quorum of `q`, its release flag `r`, under the root. -/
def join (q r : Nat) : State → State := record (64 * 2 ^ 8 + q * 2 ^ 16 + r * 2 ^ 26)

theorem witness_Joins_init : ∃ (s : State) (t : Nat) (tm : Team) (f : SX) (pl : List Place) (x : Nat), SxIssues s t tm 3 false ∧
    s.engineCheck tm (tm.rd f.a) 64 1 true = .ok pl ∧ s.dropOvertakes tm pl = false ∧ s.wordReady t tm pl = true ∧
    (let w := s.readPlaces pl
     let n := w / 2 ^ 8 % 2 ^ 8
     let h := w / 2 ^ 448 % 2 ^ 8
     1 ≤ w / 2 ^ 16 % 2 ^ 8 ∧ w / 2 ^ 16 % 2 ^ 8 ≤ n ∧ n ≤ 64 ∧ w / 2 ^ 24 % 4 ≠ 3 ∧ w % 2 ^ 8 = 0 ∧ ((s.ctx tm.slot).hyp h).state = .opened ∧
     ((s.ctx tm.slot).hyp h).depth < 8 ∧ (s.ctx tm.slot).freeRun n = some x) :=
  ⟨scalarAt (g := join 64 0) (h := with1 0x10000), 8, _, ⟨4, 1, 2, true⟩, _, 1, ⟨rfl, nofun, fun _ _ => rfl, rfl, rfl⟩, rfl, by decide, by decide, by decide⟩

theorem witness_Joins_arrive : ∃ (s : State) (t : Nat) (tm : Team) (f : SX) (pl : List Place), SxIssues s t tm 3 false ∧
    s.engineCheck tm (tm.rd f.a) 64 1 true = .ok pl ∧ s.dropOvertakes tm pl = false ∧ s.wordReady t tm pl = true ∧ s.released t tm.core 4 = true ∧
    (let w := s.readPlaces pl
     (tm.rd f.b).toNat % 64 < w / 2 ^ 8 % 2 ^ 8 ∧ w / 2 ^ 26 % 2 = 0 ∧ w / 2 ^ (64 + (tm.rd f.b).toNat % 64) % 2 = 0 ∧
       w % 2 ^ 8 + 1 < w / 2 ^ 16 % 2 ^ 8) ∧ s.wordTakes (s.tagsOf t tm) pl = true :=
  ⟨scalarAt (g := join 2 0) (h := with1 0x10000 false 63), 8, _, ⟨4, 1, 2, true⟩, _, ⟨rfl, nofun, fun _ _ => rfl, rfl, rfl⟩, rfl, by decide,
    by decide, by decide, by decide, by decide⟩

/-- The arrival that makes the quorum. -/
theorem witness_Joins_last : ∃ (s : State) (t : Nat) (tm : Team) (f : SX) (pl : List Place), SxIssues s t tm 3 false ∧
    s.engineCheck tm (tm.rd f.a) 64 1 true = .ok pl ∧ s.dropOvertakes tm pl = false ∧ s.wordReady t tm pl = true ∧ s.released t tm.core 4 = true ∧
    (let w := s.readPlaces pl
     (tm.rd f.b).toNat % 64 < w / 2 ^ 8 % 2 ^ 8 ∧ w / 2 ^ 26 % 2 = 0 ∧ w / 2 ^ (64 + (tm.rd f.b).toNat % 64) % 2 = 0 ∧
       w % 2 ^ 8 + 1 = w / 2 ^ 16 % 2 ^ 8) ∧ s.wordTakes (s.tagsOf t tm) pl = true :=
  ⟨scalarAt (g := join 1 0) (h := with1 0x10000 false 63), 8, _, ⟨4, 1, 2, true⟩, _, ⟨rfl, nofun, fun _ _ => rfl, rfl, rfl⟩, rfl, by decide,
    by decide, by decide, by decide, by decide⟩

/-- Its record is poisoned: the arrival is not counted. -/
theorem witness_Joins_poisoned : ∃ (s : State) (t : Nat) (tm : Team) (f : SX) (pl : List Place), SxIssues s t tm 3 false ∧
    s.engineCheck tm (tm.rd f.a) 64 1 true = .ok pl ∧ s.dropOvertakes tm pl = false ∧ s.wordReady t tm pl = true ∧ s.released t tm.core 4 = true ∧
    (let w := s.readPlaces pl
     (tm.rd f.b).toNat % 64 < w / 2 ^ 8 % 2 ^ 8 ∧ w / 2 ^ 26 % 2 = 0 ∧ w / 2 ^ (64 + (tm.rd f.b).toNat % 64) % 2 = 0) ∧
    s.wordTakes (s.tagsOf t tm) pl = false :=
  ⟨scalarAt (g := fun s => { join 2 0 s with poison := [.granule (0x10000 / 32)] }) (h := with1 0x10000 false 63), 8, _, ⟨4, 1, 2, true⟩, _,
    ⟨rfl, nofun, fun _ _ => rfl, rfl, rfl⟩, rfl, by decide, by decide, by decide, by decide, by decide⟩

/-- Records that no join may have: no quorum, one that is above the contributors, a rule of no meaning; a join under way; a contributor that is none, and
one that has arrived. -/
theorem witness_Joins_refused : ∀ x ∈ [(64 * 2 ^ 8, (0 : W64)), (2 * 2 ^ 8 + 3 * 2 ^ 16, 0), (64 * 2 ^ 8 + 2 ^ 16 + 3 * 2 ^ 24, 0),
    (64 * 2 ^ 8 + 2 * 2 ^ 16 + 1, 0), (2 ^ 8 + 2 ^ 16, 63), (64 * 2 ^ 8 + 2 ^ 16 + 2 ^ 127, 63)],
    ∃ (s : State) (t : Nat) (tm : Team) (f : SX) (pl : List Place), SxIssues s t tm 3 false ∧ MayTrap s t tm ∧
    s.engineCheck tm (tm.rd f.a) 64 1 true = .ok pl ∧ s.dropOvertakes tm pl = false ∧ s.wordReady t tm pl = true ∧ s.released t tm.core 4 = true ∧
    s.readPlaces pl = x.1 ∧ tm.rd f.b = x.2 := by
  intro x h
  simp only [List.mem_cons, List.not_mem_nil, or_false] at h
  rcases h with rfl | rfl | rfl | rfl | rfl | rfl
  · exact ⟨scalarAt (g := record (64 * 2 ^ 8)) (h := with1 0x10000 false 0), 8, _, ⟨4, 1, 2, true⟩, _,
      ⟨rfl, nofun, fun _ _ => rfl, rfl, rfl⟩, ⟨rfl, rfl, rfl, rfl, rfl, by decide⟩, rfl, by decide, by decide, by decide, by decide, by decide⟩
  · exact ⟨scalarAt (g := record (2 * 2 ^ 8 + 3 * 2 ^ 16)) (h := with1 0x10000 false 0), 8, _, ⟨4, 1, 2, true⟩, _,
      ⟨rfl, nofun, fun _ _ => rfl, rfl, rfl⟩, ⟨rfl, rfl, rfl, rfl, rfl, by decide⟩, rfl, by decide, by decide, by decide, by decide, by decide⟩
  · exact ⟨scalarAt (g := record (64 * 2 ^ 8 + 2 ^ 16 + 3 * 2 ^ 24)) (h := with1 0x10000 false 0), 8, _, ⟨4, 1, 2, true⟩, _,
      ⟨rfl, nofun, fun _ _ => rfl, rfl, rfl⟩, ⟨rfl, rfl, rfl, rfl, rfl, by decide⟩, rfl, by decide, by decide, by decide, by decide, by decide⟩
  · exact ⟨scalarAt (g := record (64 * 2 ^ 8 + 2 * 2 ^ 16 + 1)) (h := with1 0x10000 false 0), 8, _, ⟨4, 1, 2, true⟩, _,
      ⟨rfl, nofun, fun _ _ => rfl, rfl, rfl⟩, ⟨rfl, rfl, rfl, rfl, rfl, by decide⟩, rfl, by decide, by decide, by decide, by decide, by decide⟩
  · exact ⟨scalarAt (g := record (2 ^ 8 + 2 ^ 16)) (h := with1 0x10000 false 63), 8, _, ⟨4, 1, 2, true⟩, _,
      ⟨rfl, nofun, fun _ _ => rfl, rfl, rfl⟩, ⟨rfl, rfl, rfl, rfl, rfl, by decide⟩, rfl, by decide, by decide, by decide, by decide, by decide⟩
  · exact ⟨scalarAt (g := record (64 * 2 ^ 8 + 2 ^ 16 + 2 ^ 127)) (h := with1 0x10000 false 63), 8, _, ⟨4, 1, 2, true⟩, _,
      ⟨rfl, nofun, fun _ _ => rfl, rfl, rfl⟩, ⟨rfl, rfl, rfl, rfl, rfl, by decide⟩, rfl, by decide, by decide, by decide, by decide, by decide⟩

/-- No run of ids is free; and the parent lies at depth 8. -/
theorem witness_Joins_refused_ids : ∀ b ∈ [true, false], ∃ (s : State) (t : Nat) (tm : Team) (f : SX) (pl : List Place), SxIssues s t tm 3 false ∧
    MayTrap s t tm ∧ s.engineCheck tm (tm.rd f.a) 64 1 true = .ok pl ∧ s.dropOvertakes tm pl = false ∧ s.wordReady t tm pl = true ∧
    (let w := s.readPlaces pl
     let c := s.ctx tm.slot
     let h := w / 2 ^ 448 % 2 ^ 8
     1 ≤ w / 2 ^ 16 % 2 ^ 8 ∧ w / 2 ^ 16 % 2 ^ 8 ≤ w / 2 ^ 8 % 2 ^ 8 ∧ w / 2 ^ 8 % 2 ^ 8 ≤ 64 ∧ w / 2 ^ 24 % 4 = 0 ∧ w % 2 ^ 8 = 0 ∧
     (c.hyp h).state = .opened ∧ (c.freeRun (w / 2 ^ 8 % 2 ^ 8)).isNone = b ∧ (b = false → 8 ≤ (c.hyp h).depth)) := by
  intro b h
  refine ⟨scalarAt (g := fun s => { s.poke 0x10000 (leBytes 64 (64 * 2 ^ 8 + 2 ^ 16 + 9 * 2 ^ 448)) with }.setCtx 0 { s.ctx 0 with
      hyps := if b then (List.range 255).map fun i => (i + 1, ⟨.opened, 0, 1⟩) else [(9, ⟨.opened, 0, 8⟩)] }) (h := with1 0x10000), 8, _, ⟨4, 1, 2, true⟩, _,
    ⟨rfl, nofun, fun _ _ => rfl, rfl, rfl⟩, ⟨rfl, rfl, rfl, rfl, rfl, ?_⟩, rfl, ?_, ?_, ?_⟩ <;> revert b <;> decide +kernel

theorem witness_Joins_status : ∃ (s : State) (t : Nat) (tm : Team) (f : SX) (pl : List Place), SxIssues s t tm 3 false ∧
    s.engineCheck tm (tm.rd f.a) 64 1 false = .ok pl ∧ s.dropOvertakes tm pl = false ∧ s.wordReady t tm pl = true :=
  ⟨scalarAt (g := join 1 0) (h := with1 0x10000), 8, _, ⟨4, 1, 2, true⟩, _, ⟨rfl, nofun, fun _ _ => rfl, rfl, rfl⟩, rfl, by decide, by decide⟩

/-- The resolve of a join has been applied by every unit, or not by the last. -/
def resolving (pending : List Nat) (s : State) : State :=
  s.setCtx 0 { s.ctx 0 with resolves := [⟨2 ^ 35, [1], [2], [], [3]⟩, ⟨2 ^ 35 + 1, [3], [4], [], pending⟩] }

/-- The release of a join at a step of its own. -/
def release (step : Nat) : JoinRelease := ⟨2 ^ 35 + 1, { State.reset.tagsOf 8 (fetchTeam 0 0 false) with team := 2 ^ 35 + 1 }, 0x10000, 0, step⟩

theorem witness_JoinsRelease_fill : ∀ pending ∈ [[], [383]], ∃ (s : State) (j : JoinRelease), j.step = 1 ∧
    (s.ctx j.tags.slot).resolveOver j.id = pending.isEmpty ∧
    ((s.ctx j.tags.slot).resolveOver j.id = true ↔ ∃ r ∈ (s.ctx j.tags.slot).resolves, r.team = j.id ∧ r.pending = []) := by
  intro pending h
  refine ⟨resolving pending State.reset, release 1, rfl, ?_, ?_⟩ <;> revert pending <;> decide

theorem witness_JoinsRelease_decrement : ∀ b ∈ [true, false], ∃ (s : State) (j : JoinRelease), j.step ≠ 1 ∧ s.performed j.id 4 = b ∧
    s.actionReady [] j.tags.slot (BitVec.ofNat 64 (j.word / 2 ^ 384 % 2 ^ 64)) false = true := by
  intro b h
  refine ⟨{ State.reset with flight := if b then [] else [{ onWay State.reset 0 0x10000 [(0, 1)] with tags := (release 4).tags }] }, release 4, ?_, ?_, ?_⟩ <;>
    revert b <;> decide

/-- A unit applies the first resolve that it has yet to apply; a later one waits. -/
theorem witness_JoinsRelease_units : ∀ u ∈ [3, 5], ∃ (s : State) (r : Resolve), (s.ctx 0).resolves[1]? = some r ∧ u ∈ r.pending ∧
    ((∃ j x, j < 1 ∧ (s.ctx 0).resolves[j]? = some x ∧ u ∈ x.pending) ∨ ∀ j x, j < 1 → (s.ctx 0).resolves[j]? = some x → u ∉ x.pending) := by
  intro u h
  refine ⟨resolving [3, 5] State.reset, _, rfl, ?_, ?_⟩
  · revert u; decide
  · simp only [List.mem_cons, List.not_mem_nil, or_false] at h
    rcases h with rfl | rfl
    · exact .inl ⟨0, _, by decide, rfl, by decide⟩
    · refine .inr fun j x hj hx => ?_
      obtain rfl : j = 0 := by omega
      obtain rfl := Option.some.inj hx
      decide

theorem witness_Joins_released : ∃ (s : State) (t : Nat) (tm : Team) (f : SX) (pl : List Place), SxIssues s t tm 3 false ∧
    s.engineCheck tm (tm.rd f.a) 64 1 true = .ok pl ∧ s.dropOvertakes tm pl = false ∧ s.wordReady t tm pl = true ∧ s.released t tm.core 4 = true ∧
    (tm.rd f.b).toNat % 64 < s.readPlaces pl / 2 ^ 8 % 2 ^ 8 ∧ s.readPlaces pl / 2 ^ 26 % 2 = 1 :=
  ⟨scalarAt (g := join 1 1) (h := with1 0x10000 false 63), 8, _, ⟨4, 1, 2, true⟩, _, ⟨rfl, nofun, fun _ _ => rfl, rfl, rfl⟩, rfl, by decide,
    by decide, by decide, by decide⟩

/-! ## Witnesses: arenas, hypotheses, supervisor commands -/

/-- Partition 0: island 0, 1 MiB of HBM from 0, context slots 0 and 1, queues 3 and 4. -/
def part0 : Partition where
  islands := [0]
  ranges := [(0, 2 ^ 20)]
  slots := [0, 1]
  queues := [3, 4]
  shareCeil := [64, 64, 64]
  tokenCeil := [(0, 100)]
  ctrl := 1
  payload := 0
  entry := 0
  digest := []
  version := 0
  floor := 0
  keys := []
  frameBase := 0x80000
  frames := 4
  framesUsed := []
  saveBytes := 2 ^ 19
  failBase := 0x90000
  audit := none
  audited := 0
  imports := []
  exports := []
  running := true

/-- A device with partition 0, and slot 0 changed by `g`. -/
def inPart (g : Context → Context := id) (s : State) : State := { s with parts := [(0, part0)] }.setCtx 0 (g (s.ctx 0))

/-- Arena 1 of `st` below the root arena. -/
def arena1 (st : ArenaState) (c : Context) : Context :=
  { c with arenas := NMap.insert c.arenas 1 ⟨st, 0, 0, 1, 0x100000, 0, 0x20000, 0x120000, 0x20000, 1, false⟩ }

theorem witness_Arenas_new : ∃ (s : State) (t : Nat) (tm : Team) (f : SX) (n : Nat), SxIssues s t tm 4 false ∧
    (let x := (s.ctx tm.slot).arena ((tm.rd f.a).toNat % 1024)
     x.state = .live ∧ x.depth < 15 ∧ (s.ctx tm.slot).freeArena = some n ∧
     x.charge + (x.alloc (alignUp (tm.rd f.b).toNat 65536) 65536).2.1 ≤ x.quota) :=
  ⟨scalarAt (h := with1 0 false (2 ^ 40)), 8, _, ⟨4, 1, 2, true⟩, 1, ⟨rfl, nofun, fun _ _ => rfl, rfl, rfl⟩, by decide⟩

theorem witness_Arenas_alloc : ∃ (s : State) (t : Nat) (tm : Team) (f : SX) (k : Nat) (pt : Partition),
    SxIssues s t tm 4 false ∧
    (let a := tm.rd f.a
     let p := a.toNat % 1024
     let x := (s.ctx tm.slot).arena p
     let al := 2 ^ (a.toNat / 2 ^ 16 % 32)
     x.state = .live ∧ x.charge + (x.alloc (tm.rd f.b).toNat al).2.1 ≤ x.quota ∧ 3 ≤ a.toNat / 2 ^ 16 % 32 ∧ a.toNat / 2 ^ 16 % 32 ≤ 21 ∧
     s.partOf tm.slot = some (k, pt) ∧ a.toNat / 2 ^ 24 % 2 = 0 ∧ pt.hasHbm (dieOfCore tm.core) = true ∧
     (s.allocIn pt tm.slot p (dieOfCore tm.core) (tm.rd f.b).toNat al |>.isSome) = true) :=
  ⟨scalarAt (g := inPart fun c => { c with arenas := [(0, ⟨.live, 0, 0, 0, 2 ^ 40, 65536, 0, 2 ^ 40, 8, 0, false⟩)] }) (h := with1 0x30000 false 8),
    8, _, ⟨4, 1, 2, true⟩, _, _, ⟨rfl, nofun, fun _ _ => rfl, rfl, rfl⟩, rfl, by decide, by decide, by decide, rfl, by decide, by decide, by decide +kernel⟩

theorem witness_Arenas_live : ∃ (s : State) (t : Nat) (tm : Team) (f : SX), SxIssues s t tm 4 false ∧
    (tm.rd f.a).toNat % 1024 ≠ 0 ∧ ((s.ctx tm.slot).arena ((tm.rd f.a).toNat % 1024)).state = .live ∧ tm.drained = true ∧
    s.dirtyTiles tm.core = false ∧ s.performed t 4 = true ∧ s.settled t tm = true :=
  ⟨scalarAt (g := inPart (arena1 .live)) (h := with1 1), 8, _, ⟨4, 1, 2, true⟩, ⟨rfl, nofun, fun _ _ => rfl, rfl, rfl⟩, by decide, rfl, by decide,
    by decide, by decide, by decide⟩

theorem witness_Arenas_sealed : ∃ (s : State) (t : Nat) (tm : Team) (f : SX), SxIssues s t tm 4 false ∧
    (tm.rd f.a).toNat % 1024 ≠ 0 ∧ ((s.ctx tm.slot).arena ((tm.rd f.a).toNat % 1024)).state = .sealed ∧ s.settled t tm = true :=
  ⟨scalarAt (g := inPart (arena1 .sealed)) (h := with1 1), 8, _, ⟨4, 1, 2, true⟩, ⟨rfl, nofun, fun _ _ => rfl, rfl, rfl⟩, by decide, rfl, by decide⟩

theorem witness_Arenas_dropped : ∃ (s : State) (t : Nat) (tm : Team) (f : SX), SxIssues s t tm 4 false ∧
    ((s.ctx tm.slot).arena ((tm.rd f.a).toNat % 1024)).state = .dropped ∧ (s.ctx tm.slot).dropDone ((tm.rd f.a).toNat % 1024) = true :=
  ⟨scalarAt (g := inPart (arena1 .dropped)) (h := with1 1), 8, _, ⟨4, 1, 2, true⟩, ⟨rfl, nofun, fun _ _ => rfl, rfl, rfl⟩, rfl, by decide⟩

theorem witness_Arenas_dropping : ∃ (s : State) (t : Nat) (tm : Team) (f : SX), SxIssues s t tm 4 false ∧
    ((s.ctx tm.slot).arena ((tm.rd f.a).toNat % 1024)).state = .dropping ∧ (s.ctx tm.slot).dropDone ((tm.rd f.a).toNat % 1024) = false ∧
    tm.rd f.b ≠ 0 :=
  ⟨scalarAt (g := inPart (arena1 .dropping)) (h := with1 1 false 1), 8, _, ⟨4, 1, 2, true⟩, ⟨rfl, nofun, fun _ _ => rfl, rfl, rfl⟩, rfl, by decide,
    by decide⟩

/-- A haloed region of one tile of 128 one-byte elements at the mapped page; its owner map is the first byte of its descriptor, core 0. -/
def tileDesc : Nat := 0x10000 + 128 * 2 ^ 64 + 2 ^ 96 + 2 ^ 112 + 128 * 2 ^ 128 + 2 ^ 144 + 0x10000 * 2 ^ 192

theorem witness_Tiles_declare : ∃ (s : State) (t : Nat) (tm : Team) (f : SX) (n k : Nat) (bs os : List Byte), SxIssues s t tm 4 false ∧
    (let c := s.ctx tm.slot
     let a := tm.rd f.a
     (List.range 8).find? (fun n => (NMap.find? c.tiles n).isNone) = some n ∧ s.readGlobal tm a 32 = .ok bs ∧ tileDescOk (leNat bs) = true ∧
     c.arenaOf (tileOfDesc (leNat bs)).base (tileOfDesc (leNat bs)).stop = some k ∧
     s.readGlobal tm (BitVec.ofNat 64 (leNat bs / 2 ^ 192)) ((tileOfDesc (leNat bs)).across * (tileOfDesc (leNat bs)).down) = .ok os ∧
     (∀ o ∈ os, ∃ pt, s.partOf tm.slot = some pt ∧ o.toNat ∈ pt.2.cores) ∧ s.settled t tm = true) :=
  ⟨scalarAt (g := fun s => (inPart id s).poke 0x10000 (leBytes 32 tileDesc)) (h := with1 0x10000), 8, _, ⟨4, 1, 2, true⟩, 0, 0, _, _,
    ⟨rfl, nofun, fun _ _ => rfl, rfl, rfl⟩, rfl, rfl, by decide, by decide, rfl, fun o ho => ⟨_, rfl, by
      have : o = 0 := by revert o; decide
      subst this; decide⟩, by decide⟩

theorem witness_Tiles_free : ∃ (s : State) (t : Nat) (tm : Team) (f : SX), SxIssues s t tm 4 false ∧
    NMap.find? (s.ctx tm.slot).tiles ((tm.rd f.a).toNat % 8) ≠ none ∧ s.settled t tm = true ∧
    ∀ l ∈ s.l1, l.slot = tm.slot → l.haloed = true → l.dirty = 0 :=
  ⟨scalarAt (g := inPart fun c => { c with tiles := [(7, tileOfDesc tileDesc)] }) (h := with1 7), 8, _, ⟨4, 1, 2, true⟩,
    ⟨rfl, nofun, fun _ _ => rfl, rfl, rfl⟩, by decide, by decide, by decide⟩

/-- What the arena commands refuse: a parent that is not live, at depth 15, or without quota; an allocation above the quota or with no alignment; arena 0
sealed or dropped; a wait for one that is not dropped; a region that is none, and one that was never declared. -/
theorem witness_Arenas_refused : ∀ x ∈ [(ArenaState.sealed, 0, 0x100000), (.live, 15, 0x100000), (.live, 1, 0)],
    ∃ (s : State) (t : Nat) (tm : Team) (f : SX), SxIssues s t tm 4 false ∧ MayTrap s t tm ∧
    (let p := (s.ctx tm.slot).arena ((tm.rd f.a).toNat % 1024)
     p.state = x.1 ∧ p.depth = x.2.1 ∧ p.quota = x.2.2 ∧ (p.quota = 0 → p.quota < p.charge + (p.alloc (alignUp (tm.rd f.b).toNat 65536) 65536).2.1)) ∧
    (tm.rd f.a).toNat / 2 ^ 16 % 32 < 3 ∧ NMap.find? (s.ctx tm.slot).tiles ((tm.rd f.a).toNat % 8) = none := by
  intro x h
  simp only [List.mem_cons, List.not_mem_nil, or_false] at h
  rcases h with rfl | rfl | rfl <;>
    exact ⟨scalarAt (g := inPart fun c => { c with arenas := NMap.insert c.arenas 1 ⟨_, 0, 0, _, _, 0, 0x20000, 0x120000, 0x20000, 1, false⟩ })
      (h := with1 1 false 8), 8, _, ⟨4, 1, 2, true⟩, ⟨rfl, nofun, fun _ _ => rfl, rfl, rfl⟩, ⟨rfl, rfl, rfl, rfl, rfl, by decide⟩,
      ⟨rfl, rfl, rfl, by decide⟩, by decide, by decide⟩

/-- `f` live arenas, numbered from `n`. -/
def liveArenas : Nat → Nat → NMap Arena
  | 0, _ => []
  | f + 1, n => (n, ⟨.live, 0, 0, 1, 2 ^ 40, 0, 2 ^ 30, 2 ^ 41, 2 ^ 30, 0, false⟩) :: liveArenas f (n + 1)

theorem liveArenas_get : ∀ f n k, n ≤ k → k < n + f →
    NMap.find? (liveArenas f n) k = some ⟨.live, 0, 0, 1, 2 ^ 40, 0, 2 ^ 30, 2 ^ 41, 2 ^ 30, 0, false⟩
  | 0, n, k, h, h' => absurd h' (by omega)
  | f + 1, n, k, h, h' => by
    rw [liveArenas, NMap.find?_cons]
    split
    · rfl
    · exact liveArenas_get f (n + 1) k (by omega) (by omega)

theorem firstFrom_none (ok : Nat → Bool) : ∀ f n, (∀ k, k < n + f → ok k = false) → firstFrom ok f n = none
  | 0, _, _ => rfl
  | f + 1, n, h => by
    rw [firstFrom, if_neg (by simp [h n (by omega)])]
    exact firstFrom_none ok f (n + 1) fun k hk => h k (by omega)

theorem liveArenas_full (c : Context) : ({ c with arenas := liveArenas 1024 0 } : Context).freeArena = none :=
  firstFrom_none _ _ _ fun k hk => by simp [Context.arena, liveArenas_get 1024 0 k (by omega) (by omega)]

theorem arenas_any (l : NMap Arena) : ∃ tm : Team, SxIssues (scalarAt (g := inPart fun c => { c with arenas := l }) (h := with1 0x30000 false 8)) 8 tm 4 false ∧
    MayTrap (scalarAt (g := inPart fun c => { c with arenas := l }) (h := with1 0x30000 false 8)) 8 tm ∧ tm.slot = 0 ∧ tm.rd 1 = 0x30000 ∧ tm.rd 2 = 8 :=
  ⟨_, ⟨rfl, nofun, fun _ _ => rfl, rfl, rfl⟩, ⟨rfl, rfl, rfl, rfl, rfl, rfl⟩, rfl, rfl, rfl⟩

/-- No number is free. -/
theorem witness_Arenas_none_free : ∃ (s : State) (t : Nat) (tm : Team) (f : SX), SxIssues s t tm 4 false ∧ MayTrap s t tm ∧
    ((s.ctx tm.slot).arena ((tm.rd f.a).toNat % 1024)).state = .live ∧ ((s.ctx tm.slot).arena ((tm.rd f.a).toNat % 1024)).depth < 15 ∧
    (s.ctx tm.slot).freeArena = none := by
  obtain ⟨tm, hi, ht, h0, h1, -⟩ := arenas_any (liveArenas 1024 0)
  have ha : ((inPart fun c => { c with arenas := liveArenas 1024 0 }) (scalarAt (h := with1 0x30000 false 8))).ctx 0 =
    { (scalarAt (h := with1 0x30000 false 8)).ctx 0 with arenas := liveArenas 1024 0 } := rfl
  have hs : scalarAt (g := inPart fun c => { c with arenas := liveArenas 1024 0 }) (h := with1 0x30000 false 8) =
    (inPart fun c => { c with arenas := liveArenas 1024 0 }) (scalarAt (h := with1 0x30000 false 8)) := rfl
  refine ⟨_, 8, tm, ⟨4, 1, 2, true⟩, hi, ht, ?_⟩
  rw [h0, h1, hs, ha]
  exact ⟨rfl, by decide, liveArenas_full _⟩

/-- No die of the partition has room. -/
theorem none_from (p : Partition) (h : ∀ pa n, 2 ≤ n → p.holds pa n = false) (s : State) (die n : Nat) (hn : 2 ≤ n) : ∀ m k, s.poolFrom p die n m k = none
  | 0, _ => rfl
  | m + 1, k => by
    rw [State.poolFrom, State.poolFree, h _ _ hn, Bool.and_false, Bool.false_and]
    exact none_from p h s die n hn m (k + 1)

theorem no_pool (p : Partition) (h : ∀ pa n, 2 ≤ n → p.holds pa n = false) (s : State) (slot va a die : Nat) (big : Bool) :
    s.takePage p slot va a die big = none := by
  have hb : 2 ≤ pageBytes big := by cases big <;> decide
  unfold State.takePage State.poolPick
  rw [none_from p h s die _ hb]
  exact Option.map_none _

theorem no_run (p : Partition) (h : ∀ pa n, 2 ≤ n → p.holds pa n = false) (slot a die hi whole n va : Nat) (s : State) (hv : va < hi) :
    State.mapRun p slot a die hi whole (n + 1) va s = none := by
  have : s.takeNext p slot a die hi whole va = none := by simp only [State.takeNext, no_pool p h, ite_self, Option.map_none]
  rw [State.mapRun, if_neg (Nat.not_le.mpr hv), this, Option.bind_none]

theorem witness_Arenas_no_room : ∃ (s : State) (t : Nat) (tm : Team) (f : SX) (k : Nat) (pt : Partition), SxIssues s t tm 4 false ∧ MayTrap s t tm ∧
    (let p := (s.ctx tm.slot).arena ((tm.rd f.a).toNat % 1024)
     p.state = .live ∧ ¬p.quota < p.charge + (p.alloc (tm.rd f.b).toNat (2 ^ ((tm.rd f.a).toNat / 2 ^ 16 % 32))).2.1) ∧
    s.partOf tm.slot = some (k, pt) ∧ pt.hasHbm (dieOfCore tm.core) = true ∧
    s.allocIn pt tm.slot ((tm.rd f.a).toNat % 1024) (dieOfCore tm.core) (tm.rd f.b).toNat (2 ^ ((tm.rd f.a).toNat / 2 ^ 16 % 32)) = none := by
  refine ⟨scalarAt (g := fun s => { inPart (fun c => { c with arenas := [(0, ⟨.live, 0, 0, 0, 2 ^ 40, 0, 0, 2 ^ 40, 0, 0, false⟩)] }) s with
      parts := [(0, { part0 with ranges := [(0, 1)] })] }) (h := with1 0x30000 false 8), 8, _, ⟨4, 1, 2, true⟩, 0, { part0 with ranges := [(0, 1)] },
    ⟨rfl, nofun, fun _ _ => rfl, rfl, rfl⟩, ⟨rfl, rfl, rfl, rfl, rfl, by decide⟩, by decide, rfl, by decide, ?_⟩
  have h : ∀ pa n, 2 ≤ n → ({ part0 with ranges := [(0, 1)] } : Partition).holds pa n = false := by
    intro pa n hn
    refine decide_eq_false ?_
    rcases Nat.eq_zero_or_pos pa with rfl | hp
    · show ¬0 + n ≤ 1
      omega
    · have : runFrom [(0, 1)] 1 pa = pa := by
        have : ¬pa < 1 := by omega
        simp [runFrom, List.find?, this]
      show ¬pa + n ≤ runFrom [(0, 1)] 1 pa
      omega
  have go (s : State) (hx : (s.ctx 0).arena 0 = ⟨.live, 0, 0, 0, 2 ^ 40, 0, 0, 2 ^ 40, 0, 0, false⟩) :
      s.allocIn { part0 with ranges := [(0, 1)] } 0 0 0 8 8 = none := by
    unfold State.allocIn
    simp only [hx]
    exact Option.map_eq_none_iff.mpr (no_run _ h _ _ _ _ _ _ _ _ (by decide))
  exact go _ rfl

theorem witness_Arenas_root : ∃ (s : State) (t : Nat) (tm : Team) (f : SX), SxIssues s t tm 4 false ∧ MayTrap s t tm ∧ (tm.rd f.a).toNat % 1024 = 0 ∧
    ((s.ctx tm.slot).arena ((tm.rd f.a).toNat % 1024)).state = .live ∧ (s.ctx tm.slot).arena 0 = (s.ctx tm.slot).arena ((tm.rd f.a).toNat % 1024) :=
  ⟨scalarAt (g := inPart id), 8, _, ⟨4, 1, 2, true⟩, ⟨rfl, nofun, fun _ _ => rfl, rfl, rfl⟩, ⟨rfl, rfl, rfl, rfl, rfl, by decide⟩, by decide, by decide, rfl⟩

theorem witness_Tiles_refused : ∀ full : Bool, ∃ (s : State) (t : Nat) (tm : Team) (f : SX) (bs : List Byte), SxIssues s t tm 4 false ∧ MayTrap s t tm ∧
    s.settled t tm = true ∧ s.readGlobal tm (tm.rd f.a) 32 = .ok bs ∧ tileDescOk (leNat bs) = false ∧
    ∀ n, n < 8 → (NMap.find? (s.ctx tm.slot).tiles n).isSome = full := by
  intro full
  cases full
  · exact ⟨scalarAt (g := inPart id) (h := with1 0x10000), 8, _, ⟨4, 1, 2, true⟩, _, ⟨rfl, nofun, fun _ _ => rfl, rfl, rfl⟩,
      ⟨rfl, rfl, rfl, rfl, rfl, by decide⟩, by decide, rfl, by decide, by decide⟩
  · exact ⟨scalarAt (g := inPart fun c => { c with tiles := (List.range 8).map fun n => (n, tileOfDesc tileDesc) }) (h := with1 0x10000), 8, _, ⟨4, 1, 2, true⟩, _,
      ⟨rfl, nofun, fun _ _ => rfl, rfl, rfl⟩, ⟨rfl, rfl, rfl, rfl, rfl, by decide⟩, by decide, rfl, by decide, by decide⟩

/-- Hypotheses 1 and 2 are open, 2 below 1. -/
def hyps (s : State) : State := inPart (fun c => { c with hyps := [(1, ⟨.opened, 0, 1⟩), (2, ⟨.opened, 1, 2⟩)] }) s

theorem witness_Hypotheses : ∃ (s : State) (t : Nat) (tm : Team) (f : SX) (x : Nat), SxIssues s t tm 5 false ∧
    (let c := s.ctx tm.slot
     let h := (tm.rd f.a).toNat % 256
     let n := (tm.rd f.a).toNat / 2 ^ 8 % 64 + 1
     c.freeRun n = some x ∧ (c.hyp h).state = .opened ∧ (c.hyp h).depth < 8 ∧ (∀ r ∈ c.resolves, r.team ≠ t) ∧ h ≠ 0 ∧ h + n ≤ 256 ∧
     (∀ i, i < n → (c.hyp (h + i)).state = .opened) ∧ s.settled t tm = true ∧
     h ≠ c.acting tm.hyp ∧ (c.under h (c.acting tm.hyp) = true ∨ c.under (c.acting tm.hyp) h = true)) :=
  ⟨scalarAt (g := hyps) (h := with1 0x101), 8, _, ⟨4, 1, 2, true⟩, 3, ⟨rfl, nofun, fun _ _ => rfl, rfl, rfl⟩, by decide⟩

/-- Its resolve is being applied, or has been. -/
theorem witness_Hypotheses_resolve : ∀ pending ∈ [[], [383]], ∃ (s : State) (t : Nat) (tm : Team), SxIssues s t tm 5 false ∧
    (∃ r ∈ (s.ctx tm.slot).resolves, r.team = t) ∧ (s.ctx tm.slot).resolveOver t = pending.isEmpty := by
  intro pending h
  refine ⟨scalarAt (g := fun s => s.setCtx 0 { s.ctx 0 with resolves := [⟨8, [1], [2], [], pending⟩] }), 8, _, ⟨rfl, nofun, fun _ _ => rfl, rfl, rfl⟩,
    ⟨_, List.mem_cons_self, rfl⟩, ?_⟩
  revert pending
  decide

/-- What the hypothesis commands refuse: no run of ids is free; a parent that is not open, or at depth 8; ids that are not open; and the entry of the id that
the team acts under, or of one beside it. -/
theorem witness_Hypotheses_refused : ∀ x ∈ [([(1, (⟨.refuted, 0, 1⟩ : Hyp))], HypState.refuted, 1), ([(1, ⟨.opened, 0, 8⟩), (2, ⟨.opened, 0, 1⟩)], .opened, 8)],
    ∃ (s : State) (t : Nat) (tm : Team) (f : SX), SxIssues s t tm 5 false ∧ MayTrap s t tm ∧
    (let c := s.ctx tm.slot
     let h := (tm.rd f.a).toNat % 256
     c.freeRun 1 ≠ none ∧ (c.hyp h).state = x.2.1 ∧ (c.hyp h).depth = x.2.2 ∧ (∀ r ∈ c.resolves, r.team ≠ t) ∧ h ≠ 0 ∧
     (x.2.1 = .opened → c.acting tm.hyp = 2 ∧ c.under h (c.acting tm.hyp) = false ∧ c.under (c.acting tm.hyp) h = false)) := by
  intro x h
  simp only [List.mem_cons, List.not_mem_nil, or_false] at h
  rcases h with rfl | rfl
  · exact ⟨scalarAt (g := inPart fun c => { c with hyps := [(1, ⟨.refuted, 0, 1⟩)] }) (h := with1 1), 8, _, ⟨4, 1, 2, true⟩,
      ⟨rfl, nofun, fun _ _ => rfl, rfl, rfl⟩, ⟨rfl, rfl, rfl, rfl, rfl, by decide⟩, by decide +kernel⟩
  · exact ⟨scalarAt (g := inPart fun c => { c with hyps := [(1, ⟨.opened, 0, 8⟩), (2, ⟨.opened, 0, 1⟩)] }) (h := fun tm => { with1 1 false 0 tm with hyp := 2 }),
      8, _, ⟨4, 1, 2, true⟩, ⟨rfl, nofun, fun _ _ => rfl, rfl, rfl⟩, ⟨rfl, rfl, rfl, rfl, rfl, by decide⟩, by decide +kernel⟩

theorem witness_Hypotheses_none_free : ∃ (s : State) (t : Nat) (tm : Team) (f : SX), SxIssues s t tm 5 false ∧ MayTrap s t tm ∧
    (s.ctx tm.slot).freeRun ((tm.rd f.a).toNat / 2 ^ 8 % 64 + 1) = none ∧ (tm.rd f.a).toNat % 256 = (s.ctx tm.slot).acting tm.hyp :=
  ⟨scalarAt (g := inPart fun c => { c with hyps := (List.range 255).map fun i => (i + 1, ⟨.opened, 0, 1⟩) }), 8, _, ⟨4, 1, 2, true⟩,
    ⟨rfl, nofun, fun _ _ => rfl, rfl, rfl⟩, ⟨rfl, rfl, rfl, rfl, rfl, by decide⟩, by decide +kernel, by decide +kernel⟩

theorem witness_Queues_create : ∃ (s : State) (t : Nat) (tm : Team) (f : SX) (w n : Nat), SxIssues s t tm 6 false ∧
    s.descAt tm (tm.rd f.a) 32 8 = some w ∧ queueDescOk w = true ∧ s.queues.length < 1024 ∧
    (s.queues.filter fun q => q.2.slot = tm.slot).length < 64 ∧
    firstFrom (fun n => (s.queueNumbers tm.slot).contains n && (NMap.find? s.queues n).isNone) 1024 0 = some n ∧
    s.partOfQueue n = some (0, part0) :=
  ⟨scalarAt (g := fun s => (inPart id s).poke 0x10000 (leBytes 32 (0x10000 + 20 * 2 ^ 64 + 23 * 2 ^ 70))) (h := with1 0x10000), 8, _,
    ⟨4, 1, 2, true⟩, _, 3, ⟨rfl, nofun, fun _ _ => rfl, rfl, rfl⟩, rfl, by decide, by decide, by decide, by decide, rfl⟩

theorem witness_Queues_own : ∃ (s : State) (t : Nat) (tm : Team) (f : SX) (q : Queue), SxIssues s t tm 6 false ∧
    NMap.find? s.queues ((tm.rd f.a).toNat % 1024) = some q ∧ q.slot = tm.slot ∧ q.entries = [] ∧ q.vent = [] ∧ q.held = [] ∧
    (tm.rd f.b).toNat % 32 ≤ 23 ∧
    s.sharesOk ((tm.rd f.a).toNat % 1024) [(tm.rd f.b).toNat % 256, (tm.rd f.b).toNat / 2 ^ 8 % 256, (tm.rd f.b).toNat / 2 ^ 16 % 256] = true :=
  ⟨scalarAt (g := fun s => { inPart id s with queues := [(3, queue 0)] }) (h := with1 3 false 0x404000), 8, _, ⟨4, 1, 2, true⟩, queue 0,
    ⟨rfl, nofun, fun _ _ => rfl, rfl, rfl⟩, rfl, rfl, rfl, rfl, rfl, by decide, by decide⟩

theorem witness_Queues_foreign : ∃ (s : State) (t : Nat) (tm : Team) (f : SX), SxIssues s t tm 6 false ∧
    ∀ q, NMap.find? s.queues ((tm.rd f.a).toNat % 1024) = some q → q.slot ≠ tm.slot :=
  ⟨scalarAt, 8, _, ⟨4, 1, 2, true⟩, ⟨rfl, nofun, fun _ _ => rfl, rfl, rfl⟩, nofun⟩

theorem witness_Contexts_new : ∃ (s : State) (t : Nat) (tm : Team) (f : SX) (w n : Nat), SxIssues s t tm 6 true ∧
    s.ctxDesc tm (tm.rd f.a) = some w ∧ ctxDescOk w = true ∧ s.owns tm (fun p => p.hasDie (w / 2 ^ 16 % 4)) = true ∧
    firstFrom (fun n => s.owns tm (fun p => p.slots.contains n) && s.slotFree n) 64 0 = some n ∧ s.reaches (dieOfCore tm.core) (w / 2 ^ 16 % 4) = true :=
  ⟨scalarAt (g := fun s => (inPart id s).poke 0x10000 (leBytes 64 (2 ^ 128))) (h := with1 0x10000 true), 8, _, ⟨4, 1, 2, true⟩, _, 1,
    ⟨rfl, fun _ => rfl, fun _ _ => rfl, rfl, rfl⟩, rfl, by decide, by decide, by decide, by decide⟩

theorem witness_Contexts_kill : ∃ (s : State) (t : Nat) (tm : Team) (f : SX), SxIssues s t tm 6 true ∧
    s.owns tm (fun p => p.slots.contains ((tm.rd f.a).toNat % 64)) = true ∧ (s.ctx ((tm.rd f.a).toNat % 64)).killTooFar = false ∧
    s.reclaimed ((tm.rd f.a).toNat % 64) = true ∧ s.reaches (dieOfCore tm.core) (s.ctx ((tm.rd f.a).toNat % 64)).homeDie = true :=
  ⟨scalarAt (g := inPart id) (h := with1 1 true), 8, _, ⟨4, 1, 2, true⟩, ⟨rfl, fun _ => rfl, fun _ _ => rfl, rfl, rfl⟩, by decide, by decide, by decide, by decide⟩

theorem witness_Contexts_unreclaimed : ∀ r : Bool, ∃ (s : State) (t : Nat) (tm : Team) (f : SX), SxIssues s t tm 6 true ∧
    s.owns tm (fun p => p.slots.contains ((tm.rd f.a).toNat % 64)) = true ∧ s.reclaimed ((tm.rd f.a).toNat % 64) = false ∧
    s.reaches (dieOfCore tm.core) (s.ctx ((tm.rd f.a).toNat % 64)).homeDie = true ∧ f.r = r := by
  intro r
  refine ⟨scalarAt (g := fun s => { inPart id s with flight := [{ onWay s 0 0 [(0, 1)] with tags := { s.tagsOf 8 (fetchTeam 5 0 false) with slot := 1, inc := 4095 } }] })
    (h := with1 1 true), 8, _, ⟨4, 1, 2, r⟩, ⟨rfl, fun _ => rfl, fun _ _ => rfl, rfl, rfl⟩, ?_, ?_, ?_, rfl⟩ <;> revert r <;> decide

theorem witness_Pages_map : ∃ (s : State) (t : Nat) (tm : Team) (f : SX), SxIssues s t tm 6 true ∧
    (let a := tm.rd f.a
     let b := tm.rd f.b
     let va := a.toNat / 2 ^ 16 % 2 ^ 41 * 65536
     let n := b.toNat / 2 ^ 16 % 2 ^ 40 * 65536
     let slot := a.toNat % 64
     let c := s.ctx slot
     s.owns tm (fun p => p.slots.contains slot) = true ∧ b.getLsbD 11 = false ∧ c.pageAt va false = none ∧ c.pageClash va false = false ∧
     (c.arena (b.toNat % 1024)).state = .live ∧ b.getLsbD 14 = false ∧ b.toNat / 2 ^ 56 = 0 ∧ s.physOk tm slot n 65536 = true ∧ s.reaches (dieOfCore tm.core) c.homeDie = true) :=
  ⟨scalarAt (g := inPart id) (h := with1 0x20000 true 0xF0000), 8, _, ⟨4, 1, 2, true⟩, ⟨rfl, fun _ => rfl, fun _ _ => rfl, rfl, rfl⟩, by decide⟩

theorem witness_Pages_unmap : ∃ (s : State) (t : Nat) (tm : Team) (f : SX) (p : Page) (c' : Context), SxIssues s t tm 6 true ∧
    s.owns tm (fun p => p.slots.contains ((tm.rd f.a).toNat % 64)) = true ∧ (tm.rd f.b).getLsbD 11 = false ∧
    (s.ctx ((tm.rd f.a).toNat % 64)).pageAt ((tm.rd f.a).toNat / 2 ^ 16 % 2 ^ 41 * 65536) false = some p ∧
    (s.ctx ((tm.rd f.a).toNat % 64)).bumpTgen = some c' ∧
    s.reaches (dieOfCore tm.core) (s.ctx ((tm.rd f.a).toNat % 64)).homeDie = true :=
  ⟨scalarAt (g := inPart id) (h := with1 0x10000 true), 8, _, ⟨4, 1, 2, true⟩, _, _, ⟨rfl, fun _ => rfl, fun _ _ => rfl, rfl, rfl⟩, by decide, by decide,
    rfl, rfl, by decide⟩

theorem witness_Power : ∃ (s : State) (t : Nat) (tm : Team) (f : SX), SxIssues s t tm 6 true ∧
    s.owns tm (fun p => p.islands.contains ((tm.rd f.a).toNat % 16) &&
      (tm.rd f.b).toNat % 65536 ≤ NMap.get p.tokenCeil 0 ((tm.rd f.a).toNat % 16)) = true ∧
    s.owns tm (fun p => p.slots.contains ((tm.rd f.a).toNat % 64) && p.islands.contains ((tm.rd f.a).toNat / 2 ^ 8 % 16) &&
      (tm.rd f.b).toNat % 65536 ≤ NMap.get p.tokenCeil 0 ((tm.rd f.a).toNat / 2 ^ 8 % 16)) = true ∧
    s.reaches (dieOfCore tm.core) ((tm.rd f.a).toNat % 16 / 4) = true ∧ s.reaches (dieOfCore tm.core) (s.ctx ((tm.rd f.a).toNat % 64)).homeDie = true :=
  ⟨scalarAt (g := inPart id) (h := with1 0 true 100), 8, _, ⟨4, 1, 2, true⟩, ⟨rfl, fun _ => rfl, fun _ _ => rfl, rfl, rfl⟩, by decide, by decide, by decide, by decide⟩

theorem witness_Islands : ∃ (s : State) (t : Nat) (tm : Team) (f : SX), SxIssues s t tm 7 true ∧
    s.owns tm (fun p => p.islands.contains ((tm.rd f.a).toNat % 16)) = true ∧ (s.island ((tm.rd f.a).toNat % 16)).step < 8 ∧
    (s.island ((tm.rd f.a).toNat % 16)).limit < 8 :=
  ⟨scalarAt (g := inPart id) (h := with1 0 true 7), 8, _, ⟨4, 1, 2, true⟩, ⟨rfl, fun _ => rfl, fun _ _ => rfl, rfl, rfl⟩, by decide, by decide, by decide⟩

theorem witness_Attestation : ∃ (s : State) (t : Nat) (tm : Team) (f : SX) (po pn : List Place), SxIssues s t tm 7 true ∧
    (tm.rd f.b).getLsbD 0 = false ∧ (tm.rd f.a).toNat % 64 = 0 ∧ (tm.rd f.b).toNat % 4096 = 0 ∧
    s.sysPlaces tm .store (tm.rd f.b) 3565 = .ok po ∧ s.sysPlaces tm .load (tm.rd f.a) 64 = .ok pn ∧ s.inPartition tm po = true ∧
    s.inPartition tm pn = true ∧ s.wordReady t tm (po ++ pn) = true :=
  ⟨scalarAt (g := inPart id) (h := with1 0x11000 true 0x10000), 8, _, ⟨4, 1, 2, true⟩, _, _, ⟨rfl, fun _ => rfl, fun _ _ => rfl, rfl, rfl⟩, by decide,
    by decide, by decide, rfl, rfl, by decide, by decide, by decide⟩

theorem witness_Peers_invalidate : ∃ (s : State) (t : Nat) (tm : Team) (f : SX) (n : Nat) (p : Partition), SxIssues s t tm 7 true ∧
    s.peerPart tm (tm.rd f.b) = some (n, p) ∧ (tm.rd f.b).getLsbD 9 = true ∧ (tm.rd f.b).getLsbD 8 = false :=
  ⟨scalarAt (g := inPart id) (h := with1 0 true 0x200), 8, _, ⟨4, 1, 2, true⟩, _, _, ⟨rfl, fun _ => rfl, fun _ _ => rfl, rfl, rfl⟩, rfl, by decide,
    by decide⟩

theorem witness_Peers_export : ∃ (s : State) (t : Nat) (tm : Team) (f : SX) (n : Nat) (p : Partition) (pl : List Place), SxIssues s t tm 7 true ∧
    s.peerPart tm (tm.rd f.b) = some (n, p) ∧ (tm.rd f.b).getLsbD 9 = false ∧ (tm.rd f.b).getLsbD 8 = true ∧ (tm.rd f.b).toNat % 128 < 64 ∧
    (tm.rd f.a).toNat % 64 = 0 ∧ s.sysPlaces tm .load (tm.rd f.a) 64 = .ok pl ∧ p.exportOk (leNat (s.teamBytes tm pl)) = true :=
  ⟨scalarAt (g := fun s => (inPart id s).poke 0x10000 (leBytes 64 (4096 + 4096 * 2 ^ 64))) (h := with1 0x10000 true 0x13F), 8, _, ⟨4, 1, 2, true⟩,
    _, _, _, ⟨rfl, fun _ => rfl, fun _ _ => rfl, rfl, rfl⟩, rfl, by decide, by decide, by decide, by decide, rfl, by decide⟩

/-! ## Witnesses: lane words -/

/-- A lane word of type `ty`: VD 1, VA 2, VB 3, VC 4, source B a register. -/
def lw (ty : BitVec 4) (mod : BitVec 4 := 0) (sub : BitVec 8 := 0) : LaneF := ⟨1, 2, 3, 4, 0, ty, 0, false, false, 0, false, 0, mod, sub, 0⟩

/-- The run of `laneAt`. -/
def run0 : RunBlock := ⟨⟨0, [], none, 0⟩, 0, none, false, 0, 0⟩

/-- The environment of the word `f` of the team of `laneAt`. -/
def envOf (f : LaneF) (g : State → State := id) (h : Team → Team := id) : LaneEnv :=
  let s := laneAt g h
  laneEnv s 8 ((s.teams[8]?).getD Team.atReset) run0 f

/-- A shape of given form and registers that takes a pass for each row; it reads all its registers but the first `n`. -/
def rowShape (form : LaneEnv → Bool) (regs : LaneEnv → List Nat) (n : Nat := 1) : LaneShape :=
  { form := form, regs := regs, reads := fun e => (regs e).drop n, passes := (·.rows), long := false }

theorem witness_Integers : ∀ ty, ty < 8 → tyInt ty = true := by decide

theorem witness_Lane_without_registers : ∃ s f e, LaneIssues s f (shapeNone 0) e ∧ LaneIssues s f (shapeNone 1) e ∧ e.rb.rep = none ∧
    ∃ w, s.laneWordAt e.tm (e.idx + 1) = .ok w ∧ (w.extractLsb' 86 10).toNat ≠ 1 :=
  ⟨laneAt, lw 0, envOf (lw 0), ⟨⟨_, rfl, rfl, rfl⟩, by decide, by decide, rfl, nofun⟩, ⟨⟨_, rfl, rfl, rfl⟩, by decide, by decide, rfl, nofun⟩, rfl, _, rfl, by decide⟩

theorem witness_Lane_random : ∃ s f e, LaneIssues s f { shapeNone 0 with regs := fun e => [e.vd], passes := (·.rows) } e :=
  ⟨laneAt, lw 0, envOf (lw 0), ⟨⟨_, rfl, rfl, rfl⟩, by decide, by decide, rfl, by decide⟩⟩

theorem witness_Lane_index : ∃ s f e, ∃ sh : LaneShape, sh.form e = (tyInt e.ty && e.mod < 3) ∧ sh.regs e = [e.vd] ∧ sh.reads e = [] ∧ sh.passes e = e.rows ∧
    LaneIssues s f sh e :=
  ⟨laneAt, lw 0 2, envOf (lw 0 2), rowShape (fun e => tyInt e.ty && e.mod < 3) fun e => [e.vd], rfl, rfl, rfl, rfl,
    ⟨⟨_, rfl, rfl, rfl⟩, by decide, by decide, rfl, by decide⟩⟩

/-- A mask stack of 15 entries has room for one more. -/
theorem witness_Masks_room : ∃ s f e, LaneIssues s f (shapeNone 1) e ∧ e.tm.stack.length < 16 ∧ ∃ x st, e.tm.stack = x :: st :=
  ⟨laneAt (h := fun tm => { tm with stack := List.replicate 15 1 }), lw 0, envOf (lw 0) id fun tm => { tm with stack := List.replicate 15 1 },
    ⟨⟨_, rfl, rfl, rfl⟩, by decide, by decide, rfl, nofun⟩, by decide, _, _, rfl⟩

theorem witness_Masks_full : ∃ s f e, LaneIssues s f (shapeNone 1) e ∧ 16 ≤ e.tm.stack.length ∧ e.tm.ctrl = none ∧ e.tm.level = 0 ∧
    s.replays e.tm = false ∧ s.frameReached e.tm = true :=
  ⟨laneAt (h := fun tm => { tm with stack := List.replicate 16 1 }), lw 0, envOf (lw 0) id fun tm => { tm with stack := List.replicate 16 1 },
    ⟨⟨_, rfl, rfl, rfl⟩, by decide, by decide, rfl, nofun⟩, by decide, rfl, rfl, by decide, by decide⟩

theorem witness_Masks_empty : ∃ s f e, LaneIssues s f (shapeNone 1) e ∧ e.tm.stack = [] ∧ e.tm.ctrl = none ∧ e.tm.level = 0 ∧
    s.replays e.tm = false ∧ s.frameReached e.tm = true :=
  ⟨laneAt, lw 0, envOf (lw 0), ⟨⟨_, rfl, rfl, rfl⟩, by decide, by decide, rfl, nofun⟩, rfl, rfl, rfl, by decide, by decide⟩

theorem witness_Lane_integer_shapes : ∃ s f e, tyInt e.ty = true ∧ tySigned e.ty = true ∧ f.mod.getLsbD 3 = false ∧
    LaneIssues s f (shapeAB okIntFp false) e ∧ LaneIssues s f (shapeAB tyInt false) e ∧ LaneIssues s f (shapeABC okIntFp) e ∧
    LaneIssues s f (shapeA okIntFp false) e ∧ LaneIssues s f (shapeAB okAny false) e ∧ LaneIssues s f (shapeA okAny false) e ∧
    LaneIssues s f (shapeAB okIntB64 false) e ∧ LaneIssues s f (shapeAB okField false) e ∧ LaneIssues s f (shapeA okIntB64 false) e ∧
    LaneIssues s f (shapeAB okIntFp true) e :=
  ⟨laneAt, lw 4, envOf (lw 4), rfl, rfl, rfl, ⟨⟨_, rfl, rfl, rfl⟩, by decide, by decide, rfl, by decide⟩, ⟨⟨_, rfl, rfl, rfl⟩, by decide, by decide, rfl, by decide⟩,
    ⟨⟨_, rfl, rfl, rfl⟩, by decide, by decide, rfl, by decide⟩, ⟨⟨_, rfl, rfl, rfl⟩, by decide, by decide, rfl, by decide⟩, ⟨⟨_, rfl, rfl, rfl⟩, by decide, by decide, rfl, by decide⟩,
    ⟨⟨_, rfl, rfl, rfl⟩, by decide, by decide, rfl, by decide⟩, ⟨⟨_, rfl, rfl, rfl⟩, by decide, by decide, rfl, by decide⟩, ⟨⟨_, rfl, rfl, rfl⟩, by decide, by decide, rfl, by decide⟩,
    ⟨⟨_, rfl, rfl, rfl⟩, by decide, by decide, rfl, by decide⟩, ⟨⟨_, rfl, rfl, rfl⟩, by decide, by decide, rfl, by decide⟩⟩

theorem witness_Lane_unsigned_shift : ∃ s f e, tySigned e.ty = false ∧ LaneIssues s f (shapeAB okIntB64 false) e :=
  ⟨laneAt, lw 14, envOf (lw 14), rfl, ⟨⟨_, rfl, rfl, rfl⟩, by decide, by decide, rfl, by decide⟩⟩

/-- Words that check, and the word that inserts a field. -/
theorem witness_Lane_checked_shift : ∃ s f e, tyInt e.ty = true ∧ f.mod.getLsbD 3 = true ∧ LaneIssues s f (shapeAB okIntB64 false) e :=
  ⟨laneAt, lw 4 8, envOf (lw 4 8), rfl, rfl, ⟨⟨_, rfl, rfl, rfl⟩, by decide, by decide, rfl, by decide⟩⟩

theorem witness_Lane_fields : ∃ s f e, ∃ sh : LaneShape, sh.form e = (okField e.ty && e.sselOk e.ty) ∧ sh.regs e = e.vd :: e.va :: e.bRegs ∧
    sh.reads e = e.vd :: e.va :: e.bRegs ∧ sh.passes e = e.rows ∧ LaneIssues s f sh e :=
  ⟨laneAt, lw 6, envOf (lw 6), rowShape (fun e => okField e.ty && e.sselOk e.ty) (fun e => e.vd :: e.va :: e.bRegs) 0, rfl, rfl, rfl, rfl,
    ⟨⟨_, rfl, rfl, rfl⟩, by decide, by decide, rfl, by decide⟩⟩

/-- F32 words on lanes that hold no NaN. -/
theorem witness_Lane_float_shapes : ∃ s f e, tyFp e.ty = true ∧ LaneIssues s f (shapeAB okIntFp false) e ∧ LaneIssues s f (shapeABC okIntFp) e ∧
    LaneIssues s f (shapeA okIntFp false) e ∧ (∀ l k, ((fmtOf e.ty).read (e.a e.ty l k)).isNaN = false) ∧
    LaneIssues s f (shapeAB okIntFp true) e ∧ LaneIssues s f (shapeA tyFp true) e :=
  ⟨laneAt, lw 10, envOf (lw 10), rfl, ⟨⟨_, rfl, rfl, rfl⟩, by decide, by decide, rfl, by decide⟩, ⟨⟨_, rfl, rfl, rfl⟩, by decide, by decide, rfl, by decide⟩,
    ⟨⟨_, rfl, rfl, rfl⟩, by decide, by decide, rfl, by decide⟩, by
      intro l k
      have h : (envOf (lw 10)).a (envOf (lw 10)).ty l k = 0 := by
        have h0 : (envOf (lw 10)).v (envOf (lw 10)).va l = 0 := by
          simp only [LaneEnv.v]
          split <;> rfl
        unfold LaneEnv.a; rw [h0]; simp [sub]
      rw [h]; decide,
    ⟨⟨_, rfl, rfl, rfl⟩, by decide, by decide, rfl, by decide⟩, ⟨⟨_, rfl, rfl, rfl⟩, by decide, by decide, rfl, by decide⟩⟩

theorem witness_Moves : ∃ s f e, ∃ sh : LaneShape, sh.form e = (okAny e.ty && e.sselOk e.ty) ∧ sh.regs e = e.vd :: e.bRegs ∧ sh.reads e = e.bRegs ∧ sh.passes e = e.rows ∧
    e.src = 0 ∧ LaneIssues s f sh e :=
  ⟨laneAt, lw 4, envOf (lw 4), rowShape (fun e => okAny e.ty && e.sselOk e.ty) fun e => e.vd :: e.bRegs, rfl, rfl, rfl, rfl, rfl,
    ⟨⟨_, rfl, rfl, rfl⟩, by decide, by decide, rfl, by decide⟩⟩

/-- One sub-element compared, and all of them; of floating-point type into m0. -/
theorem witness_Compares : ∀ mod ∈ [(0 : BitVec 4), 8], ∃ s f e, ∃ sh : LaneShape, sh.passes e = e.rows ∧ LaneIssues s f sh e ∧ e.vd % 8 ≠ 0 ∧
    sh.form e = (okNum e.ty && e.sselOk e.ty && (f.mod.getLsbD 3 || e.dsel < tyCount e.ty)) ∧ sh.regs e = e.va :: e.bRegs ∧ sh.reads e = e.va :: e.bRegs ∧
    tyInt e.ty = true ∧ f.mod = mod := by
  intro mod h
  have h : mod = 0 ∨ mod = 8 := by simpa using h
  rcases h with rfl | rfl <;>
    exact ⟨laneAt, lw 4 _, envOf (lw 4 _), rowShape (fun e => okNum e.ty && e.sselOk e.ty && (e.f.mod.getLsbD 3 || e.dsel < tyCount e.ty))
      (fun e => e.va :: e.bRegs) 0, rfl, ⟨⟨_, rfl, rfl, rfl⟩, by decide, by decide, rfl, by decide⟩, by decide, rfl, rfl, rfl, rfl, rfl⟩

theorem witness_Compares_float : ∀ mod ∈ [(0 : BitVec 4), 8], ∃ s f e, ∃ sh : LaneShape, sh.passes e = e.rows ∧ LaneIssues s f sh e ∧ e.vd % 8 = 0 ∧
    sh.form e = (okNum e.ty && e.sselOk e.ty && (f.mod.getLsbD 3 || e.dsel < tyCount e.ty)) ∧ sh.regs e = e.va :: e.bRegs ∧ sh.reads e = e.va :: e.bRegs ∧
    tyInt e.ty = false ∧ f.mod = mod := by
  intro mod h
  have h : mod = 0 ∨ mod = 8 := by simpa using h
  rcases h with rfl | rfl <;>
    exact ⟨laneAt, { lw 11 _ with vd := 8 }, envOf { lw 11 _ with vd := 8 },
      rowShape (fun e => okNum e.ty && e.sselOk e.ty && (e.f.mod.getLsbD 3 || e.dsel < tyCount e.ty)) (fun e => e.va :: e.bRegs) 0, rfl,
      ⟨⟨_, rfl, rfl, rfl⟩, by decide, by decide, rfl, by decide⟩, by decide, rfl, rfl, rfl, rfl, rfl⟩

theorem witness_Classes : ∃ s f e, ∃ sh : LaneShape, sh.passes e = e.rows ∧ LaneIssues s f sh e ∧ e.vd % 8 ≠ 0 ∧
    sh.form e = ((tyFp e.ty || tyF8 e.ty) && e.dsel < tyCount e.ty) ∧ sh.regs e = [e.va] ∧ sh.reads e = [e.va] :=
  ⟨laneAt, lw 8 0 3, envOf (lw 8 0 3), rowShape (fun e => (tyFp e.ty || tyF8 e.ty) && e.dsel < tyCount e.ty) (fun e => [e.va]) 0, rfl,
    ⟨⟨_, rfl, rfl, rfl⟩, by decide, by decide, rfl, by decide⟩, by decide, rfl, rfl, rfl⟩

/-- F16 from F32, into the last group. -/
theorem witness_Conversions : ∃ s f e, ∃ sh : LaneShape, sh.passes e = e.rows ∧ LaneIssues s f sh e ∧ sh.regs e = [e.vd, e.va] ∧ sh.reads e = [e.va] ∧
    sh.form e = (okNum e.ty && tyFp e.mod && e.convSel) ∧ sh.form e = (okNum e.ty && okNum e.mod && e.convSel) :=
  ⟨laneAt, lw 8 10 1, envOf (lw 8 10 1), rowShape (fun e => okNum e.ty && tyFp e.mod && e.convSel) fun e => [e.vd, e.va], rfl,
    ⟨⟨_, rfl, rfl, rfl⟩, by decide, by decide, rfl, by decide⟩, rfl, rfl, rfl, rfl⟩

theorem witness_Packs : ∃ s f e, ∃ sh : LaneShape, sh.passes e = e.rows ∧ LaneIssues s f sh e ∧ sh.regs e = [e.vd, e.va, e.vb] ∧ sh.reads e = [e.va, e.vb] ∧
    sh.form e = (okNum e.ty && okNum e.mod && 2 * tyWidth e.ty = tyWidth e.mod && e.src = 0) :=
  ⟨laneAt, lw 8 10, envOf (lw 8 10), rowShape (fun e => okNum e.ty && okNum e.mod && 2 * tyWidth e.ty = tyWidth e.mod && e.src = 0)
    fun e => [e.vd, e.va, e.vb], rfl, ⟨⟨_, rfl, rfl, rfl⟩, by decide, by decide, rfl, by decide⟩, rfl, rfl, rfl⟩

theorem witness_Unpacks : ∃ s f e, ∃ sh : LaneShape, sh.passes e = e.rows ∧ LaneIssues s f sh e ∧ sh.regs e = [e.vd, e.vd + 1, e.va] ∧ sh.reads e = [e.va] ∧
    sh.form e = (okNum e.ty && okNum e.mod && tyWidth e.ty = 2 * tyWidth e.mod && (tyInt e.mod || !tyInt e.ty) && e.vd ≠ 63) :=
  ⟨laneAt, lw 10 8, envOf (lw 10 8),
    rowShape (fun e => okNum e.ty && okNum e.mod && tyWidth e.ty = 2 * tyWidth e.mod && (tyInt e.mod || !tyInt e.ty) && e.vd ≠ 63)
      (fun e => [e.vd, e.vd + 1, e.va]) 2, rfl, ⟨⟨_, rfl, rfl, rfl⟩, by decide, by decide, rfl, by decide⟩, rfl, rfl, rfl⟩

theorem witness_Q4_encode : ∃ s f e, ∃ sh : LaneShape, sh.passes e = e.rows ∧ LaneIssues s f sh e ∧ sh.regs e = e.vd :: e.va :: e.bRegs ∧ sh.reads e = e.va :: e.bRegs ∧
    sh.form e = (e.ty = 13 && tyFp e.mod && e.src ≠ 3 && e.dsel < 16 / tyCount e.mod) :=
  ⟨laneAt, lw 13 10 7, envOf (lw 13 10 7), rowShape (fun e => e.ty = 13 && tyFp e.mod && e.src ≠ 3 && e.dsel < 16 / tyCount e.mod)
    fun e => e.vd :: e.va :: e.bRegs, rfl, ⟨⟨_, rfl, rfl, rfl⟩, by decide, by decide, rfl, by decide⟩, rfl, rfl, rfl⟩

theorem witness_Q4_decode : ∃ s f e, ∃ sh : LaneShape, sh.passes e = e.rows ∧ LaneIssues s f sh e ∧ sh.regs e = e.vd :: e.va :: e.bRegs ∧ sh.reads e = e.va :: e.bRegs ∧
    sh.form e = (tyFp e.ty && e.mod = 13 && (e.src ≠ 3 || e.ssel = 0) && e.ssel < 16 / tyCount e.ty) :=
  ⟨laneAt, lw 8 13 0x30, envOf (lw 8 13 0x30),
    rowShape (fun e => tyFp e.ty && e.mod = 13 && (e.src ≠ 3 || e.ssel = 0) && e.ssel < 16 / tyCount e.ty) fun e => e.vd :: e.va :: e.bRegs, rfl,
    ⟨⟨_, rfl, rfl, rfl⟩, by decide, by decide, rfl, by decide⟩, rfl, rfl, rfl⟩

theorem witness_Scaled_sums : ∃ s f e, ∃ sh : LaneShape, sh.passes e = e.rows ∧ LaneIssues s f sh e ∧ sh.regs e = e.vd :: e.va :: e.bRegs ∧ sh.reads e = e.vd :: e.va :: e.bRegs ∧
    sh.form e = (e.ty = 10 && (e.mod = 10 || e.mod = 4)) :=
  ⟨laneAt, lw 10 4, envOf (lw 10 4), rowShape (fun e => e.ty = 10 && (e.mod = 10 || e.mod = 4))
    (fun e => e.vd :: e.va :: e.bRegs) 0, rfl, ⟨⟨_, rfl, rfl, rfl⟩, by decide, by decide, rfl, by decide⟩, rfl, rfl, rfl⟩

theorem witness_Dot_products : ∃ s f e, ∃ sh : LaneShape, sh.passes e = e.rows ∧ LaneIssues s f sh e ∧ sh.regs e = e.vd :: e.va :: e.vc :: e.bRegs ∧ sh.reads e = e.va :: e.vc :: e.bRegs ∧
    e.ty = 4 ∧ sh.form e = (((e.ty = 4 && e.mod < 2) || (e.ty = 10 && tyF8 e.mod)) && (e.src ≠ 3 || e.ssel < 8)) :=
  ⟨laneAt, lw 4 1, envOf (lw 4 1), rowShape (fun e => ((e.ty = 4 && e.mod < 2) || (e.ty = 10 && tyF8 e.mod)) && (e.src ≠ 3 || e.ssel < 8))
    fun e => e.vd :: e.va :: e.vc :: e.bRegs, rfl, ⟨⟨_, rfl, rfl, rfl⟩, by decide, by decide, rfl, by decide⟩, rfl, rfl, rfl, rfl⟩

theorem witness_Dot_products_float : ∃ s f e, ∃ sh : LaneShape, sh.passes e = e.rows ∧ LaneIssues s f sh e ∧ sh.regs e = e.vd :: e.va :: e.vc :: e.bRegs ∧ sh.reads e = e.va :: e.vc :: e.bRegs ∧
    e.ty = 10 ∧ sh.form e = (((e.ty = 4 && e.mod < 2) || (e.ty = 10 && tyF8 e.mod)) && (e.src ≠ 3 || e.ssel < 8)) :=
  ⟨laneAt, lw 10 11, envOf (lw 10 11), rowShape (fun e => ((e.ty = 4 && e.mod < 2) || (e.ty = 10 && tyF8 e.mod)) && (e.src ≠ 3 || e.ssel < 8))
    fun e => e.vd :: e.va :: e.vc :: e.bRegs, rfl, ⟨⟨_, rfl, rfl, rfl⟩, by decide, by decide, rfl, by decide⟩, rfl, rfl, rfl, rfl⟩

theorem witness_Permutations : ∃ s f e, ∃ sh : LaneShape, sh.passes e = e.rows ∧ LaneIssues s f sh e ∧ sh.regs e = e.vd :: e.va :: e.bRegs ∧ sh.reads e = e.va :: e.bRegs ∧
    sh.form e = (okAny e.ty && e.sselOk e.ty) :=
  ⟨laneAt, lw 4, envOf (lw 4), rowShape (fun e => okAny e.ty && e.sselOk e.ty) fun e => e.vd :: e.va :: e.bRegs, rfl,
    ⟨⟨_, rfl, rfl, rfl⟩, by decide, by decide, rfl, by decide⟩, rfl, rfl, rfl⟩

/-- The value of one lane, of a bank register, of the immediate, of a sub-element. -/
theorem witness_Broadcasts : ∀ src ∈ [(0 : BitVec 2), 1, 2, 3], ∃ s f e, ∃ sh : LaneShape, sh.passes e = e.rows ∧ LaneIssues s f sh e ∧
    sh.regs e = e.vd :: e.bRegs ∧ sh.reads e = e.bRegs ∧ sh.form e = (okAny e.ty && e.sselOk e.ty) ∧ f.src = src ∧ e.src = src.toNat := by
  intro src h
  simp only [List.mem_cons, List.not_mem_nil, or_false] at h
  rcases h with rfl | rfl | rfl | rfl <;>
    exact ⟨laneAt, { lw 4 with src := _ }, envOf { lw 4 with src := _ }, rowShape (fun e => okAny e.ty && e.sselOk e.ty) fun e => e.vd :: e.bRegs, rfl,
      ⟨⟨_, rfl, rfl, rfl⟩, by decide, by decide, rfl, by decide⟩, rfl, rfl, rfl, rfl, rfl⟩

/-- A sum over lanes, and an exclusive one. -/
theorem witness_Reductions : ∀ x ∈ [((0 : BitVec 4), (0 : BitVec 4)), (4, 4), (4, 8), (4, 1), (4, 2), (4, 3), (10, 0), (10, 9), (10, 2), (14, 4)],
    ∃ s f e, ∃ sh : LaneShape, sh.passes e = e.rows ∧ LaneIssues s f sh e ∧ sh.regs e = [e.vd, e.va] ∧ sh.reads e = [e.va] ∧
    sh.form e = redOk (e.mod % 8) e.ty ∧ e.ty = x.1.toNat ∧ f.mod = x.2 := by
  intro x h
  simp only [List.mem_cons, List.not_mem_nil, or_false] at h
  rcases h with rfl | rfl | rfl | rfl | rfl | rfl | rfl | rfl | rfl | rfl <;>
    exact ⟨laneAt, lw _ _, envOf (lw _ _), rowShape (fun e => redOk (e.mod % 8) e.ty) fun e => [e.vd, e.va], rfl,
      ⟨⟨_, rfl, rfl, rfl⟩, by decide, by decide, rfl, by decide⟩, rfl, rfl, rfl, rfl, rfl⟩

theorem witness_Votes : ∀ mod ∈ [(0 : BitVec 4), 1, 2, 3], ∃ s f e, ∃ sh : LaneShape, sh.passes e = e.rows ∧ LaneIssues s f sh e ∧
    sh.regs e = [e.vd, e.va] ∧ sh.reads e = [e.va] ∧ sh.form e = (okAny e.ty && e.mod < 4 && e.dsel < tyCount e.ty) ∧ f.mod = mod := by
  intro mod h
  have h : mod = 0 ∨ mod = 1 ∨ mod = 2 ∨ mod = 3 := by simpa using h
  rcases h with rfl | rfl | rfl | rfl <;>
    exact ⟨laneAt, lw 0 _ 7, envOf (lw 0 _ 7), rowShape (fun e => okAny e.ty && e.mod < 4 && e.dsel < tyCount e.ty) fun e => [e.vd, e.va], rfl,
      ⟨⟨_, rfl, rfl, rfl⟩, by decide, by decide, rfl, by decide⟩, rfl, rfl, rfl, rfl⟩

/-- Lane 0 points at the last 8 bytes of its scratchpad. -/
def atPad (x : W64) (tm : Team) : Team := { tm with v := [(3, x)] }
/-- A word with record b0 and the address in VB. -/
def memF (mod : BitVec 4 := 0) (sub : BitVec 8 := 0) : LaneF := ⟨1, 0, 3, 4, 0, 6, 0, false, false, 0, false, 0, mod, sub, 0⟩

theorem witness_Lane_loads : ∃ s f e, LaneIssues s f shapeLd e ∧ LaneIssues s f (shapeLoad fun _ => true) e ∧ LaneIssues s f shapeLdacq e ∧
    (let accs := (e.active.map (e.access e.moveSize)).filter fun a => !e.clamped a
     (∀ a ∈ accs, e.causes .load e.moveSize 1 (fun _ => true) a = []) ∧
     (∀ x ∈ e.work (moveShape .load), ∀ p ∈ x.2, p.remote = false ∧ p.win = .pad ∧ p.shared = false) ∧
     (∀ tg o, (e.loadLanes tg o [] (e.work (moveShape .load))).stuck = false ∧ (e.loadLanes tg o [] (e.work (moveShape .load))).stamp = []) ∧
     f.sub.toNat % 4 = 1 ∧ s.mayAcquire { e.tm with seen := joinStamp e.tm.seen [] } (f.sub.toNat / 4 % 8) = true) :=
  ⟨laneAt (h := atPad 0xFD0000000007FFF8), memF 0 5, envOf (memF 0 5) id (atPad 0xFD0000000007FFF8), ⟨⟨_, rfl, rfl, rfl⟩, by decide, by decide, rfl, by decide⟩,
    ⟨⟨_, rfl, rfl, rfl⟩, by decide, by decide, rfl, by decide⟩, ⟨⟨_, rfl, rfl, rfl⟩, by decide, by decide, rfl, by decide⟩, by decide +kernel, by decide +kernel,
    fun _ _ => ⟨rfl, rfl⟩, by decide, by decide⟩

theorem witness_Lane_stores : ∃ s f e, LaneIssues s f shapeSt e ∧ LaneIssues s f (shapeStore fun e => e.scope < 6) e ∧ s.storeRoom e.tm ((e.work (moveShape .store)).flatMap (·.2)) = true ∧
    (let accs := (e.active.map (e.access e.moveSize)).filter fun a => !e.clamped a
     (∀ a ∈ accs, e.causes .store e.moveSize 1 (fun _ => true) a = []) ∧
     (∃ a k, e.work (moveShape .store) = [(a, [⟨.pad, 0, k, e.moveSize, 0, 0, false⟩])] ∧ a.lane < 1024) ∧
     s.released e.t e.tm.core (f.sub.toNat / 4 % 8) = true ∧ ∀ w ∈ s.posted, w.team ≠ e.t) :=
  ⟨laneAt (h := atPad 0xFD0000000007FFF8), memF 0 6, envOf (memF 0 6) id (atPad 0xFD0000000007FFF8), ⟨⟨_, rfl, rfl, rfl⟩, by decide, by decide, rfl, by decide⟩,
    ⟨⟨_, rfl, rfl, rfl⟩, by decide, by decide, rfl, by decide⟩, by decide +kernel, by decide +kernel, ⟨⟨0, 0xFD0000000007FFF8, false⟩, 2 ^ 56 + 0x7FFF8, by decide +kernel, by decide⟩, by decide, by decide⟩

/-- Lane 0 points at the mapped page. -/
theorem witness_Lane_stores_home : ∃ s f e, LaneIssues s f shapeSt e ∧
    s.storeRoom e.tm ((e.work (moveShape .store)).flatMap (·.2)) = true ∧
    (∀ a ∈ (e.active.map (e.access e.moveSize)).filter fun a => !e.clamped a, e.causes .store e.moveSize 1 (fun _ => true) a = []) ∧
    ∃ a p, e.work (moveShape .store) = [(a, [p])] ∧ a.lane < 1024 ∧ p.win = .virt ∧ p.remote = false ∧ s.replays e.tm = false ∧
      (s.ctx e.tm.slot).tileAt p.va = none :=
  ⟨laneAt (h := atPad 0x10078), memF, envOf memF id (atPad 0x10078), ⟨⟨_, rfl, rfl, rfl⟩, by decide, by decide, rfl, by decide⟩, by decide +kernel,
    by decide +kernel, ⟨0, 0x10078, false⟩, _, by rfl, by decide, rfl, rfl, by decide, by decide⟩

/-- What lane accesses meet first: no window; a scratchpad of another team; a page that is not mapped; a slot of the fault table of the cluster. -/
theorem witness_Lane_causes : ∀ x ∈ [((0x0200000000000000 : W64), 0, 0x14), (0xFF00000000000000, 1, 0x15), (0xFD01000000000000, 3, 0x17), (0x20000, 9, 0x10)],
    ∃ s f e, LaneIssues s f shapeLd e ∧ LaneIssues s f shapeSt e ∧ LaneIssues s f shapeAtom e ∧ e.tm.ctrl = none ∧ e.tm.level = 0 ∧
    e.s.replays e.tm = false ∧ e.s.frameReached e.tm = true ∧ ([0x14, 0x15, 0x16, 0x17, 0x25, 0x12, 0x13, 0x18, 0x1B, 0x10] : List Nat)[x.2.1]? = some x.2.2 ∧
    ∀ ms ∈ [e.causes .load e.moveSize 1 (fun _ => true), e.causes .store e.moveSize 1 (fun _ => true),
        e.causes .atomic e.atomSize e.atomSize (e.atomCarried (some 0))],
      let accs := (e.active.map (e.access e.moveSize)).filter fun a => !e.clamped a
      ∃ a ∈ accs, (∃ m ∈ ms a, m.cause = x.2.2) ∧ ∀ y ∈ accs, ∀ m ∈ ms y, m.cause = x.2.2 := by
  intro x h
  refine ⟨laneAt (h := atPad x.1), memF, envOf memF id (atPad x.1), ?_, ?_, ?_, rfl, rfl, ?_, ?_, ?_, ?_⟩
  iterate 3
    simp only [List.mem_cons, List.not_mem_nil, or_false] at h
    rcases h with rfl | rfl | rfl | rfl <;> exact ⟨⟨_, rfl, rfl, rfl⟩, by decide, by decide, rfl, by decide⟩
  all_goals
    revert x
    decide +kernel

/-- The atomic of operation `x.1` and type `x.2`, of the one lane. -/
def atomF (x : BitVec 4 × BitVec 4) : LaneF := { memF x.1 with ty := x.2 }

/-- Its environment. -/
def atomEnv (x : BitVec 4 × BitVec 4) : LaneEnv := envOf (atomF x) id (atPad 0xFD0000000007FFF8)

/-- Operations and types: integers of 64 and 32 bits, and F32. -/
def atomForms : List (BitVec 4 × BitVec 4) := [(0, 6), (1, 4), (2, 10), (3, 6), (5, 6), (6, 4)]

theorem atom_work : ∀ x ∈ atomForms, ∀ op ∈ [none, some x.1.toNat], (atomEnv x).work (atomShape fun _ => op) =
    [(⟨0, 0xFD0000000007FFF8, false⟩, [⟨.pad, 0, 2 ^ 56 + 0x7FFF8, (atomEnv x).atomSize, 0, 0, false⟩])] := by decide +kernel

theorem witness_Lane_atomics : ∀ x ∈ atomForms, ∃ s f e, LaneIssues s f shapeAtom e ∧
    LaneIssues s f shapeCas e ∧ e.ordering = 0 ∧ f.mod = x.1 ∧ e.ty = x.2.toNat ∧
    (∀ op ∈ [none, some x.1.toNat],
      let all := e.work (atomShape fun _ => op)
      let accs := (e.active.map (e.access e.atomSize)).filter fun a => !e.clamped a
      (∀ a ∈ accs, e.causes .atomic e.atomSize e.atomSize (e.atomCarried op) a = []) ∧
      (∀ x ∈ all, ∀ p ∈ x.2, p.remote = false) ∧ e.atomTile all = false ∧ e.atomWait all = false ∧
      s.mayStore (dieOfCore e.tm.core) (e.atomOrder all).length = true ∧
      (∃ a k, all = [(a, [⟨.pad, 0, k, e.atomSize, 0, 0, false⟩])] ∧ a.lane < 1024 ∧ s.poisoned k e.atomSize = false)) := by
  intro x h
  have w := atom_work x h
  refine ⟨laneAt (h := atPad 0xFD0000000007FFF8), atomF x, atomEnv x, ?_, ?_, ?_, rfl, rfl, fun op ho => ?_⟩
  iterate 2
    simp only [atomForms, List.mem_cons, List.not_mem_nil, or_false] at h
    rcases h with rfl | rfl | rfl | rfl | rfl | rfl <;> exact ⟨⟨_, rfl, rfl, rfl⟩, by decide, by decide, rfl, by decide⟩
  · revert x; decide
  · rw [w op ho]
    simp only [LaneEnv.atomOrder_singleton _ (⟨0, 0xFD0000000007FFF8, false⟩, [⟨.pad, 0, 2 ^ 56 + 0x7FFF8, (atomEnv x).atomSize, 0, 0, false⟩]) _ _ rfl rfl]
    refine ⟨?_, by simp [Place.remote], ?_, ?_, ?_, _, _, rfl, by decide, ?_⟩
    · revert op x; decide +kernel
    all_goals
      clear w ho
      revert x
      decide +kernel

/-- An atomic that releases and acquires at system scope. -/
theorem witness_Lane_atomics_ordered : ∃ s f e, LaneIssues s f shapeAtom e ∧ e.ordering = 3 ∧ e.mod = 0 ∧ e.ty ≠ 10 ∧
    s.released e.t e.tm.core e.scope = true ∧ e.scope = 5 ∧
    (let s0 := s.afterRelease e.t e.scope
     let e0 := { e with s := s0 }
     let all := e.work (atomShape fun _ => some 0)
     s0.mayStore (dieOfCore e.tm.core) (e0.atomOrder all).length = true ∧
     let g := (e0.atomOrder all).foldl (fun g l =>
       g.atoms (e0.tags e.scope e.ordering) e.req (answersOf all []) (fun _ y => some y) l) (LaneGot.start s0 [])
     g.s.mayAcquire { e.tm with seen := joinStamp e.tm.seen g.stamp } e.scope = true) :=
  ⟨laneAt (h := atPad 0xFD0000000007FFF8), memF 0 0x17, envOf (memF 0 0x17) id (atPad 0xFD0000000007FFF8),
    ⟨⟨_, rfl, rfl, rfl⟩, by decide, by decide, rfl, by decide⟩, by decide, rfl, by decide, by decide, by decide, by
      have h : (envOf (memF 0 0x17) id (atPad 0xFD0000000007FFF8)).work (atomShape fun _ => some 0) =
          [(⟨0, 0xFD0000000007FFF8, false⟩, [⟨.pad, 0, 2 ^ 56 + 0x7FFF8, 8, 0, 0, false⟩])] := by decide +kernel
      rw [h]
      simp only [LaneEnv.atomOrder_singleton _ (⟨0, 0xFD0000000007FFF8, false⟩, [⟨.pad, 0, 2 ^ 56 + 0x7FFF8, 8, 0, 0, false⟩]) _ _ rfl rfl]
      decide +kernel⟩

/-- A descriptor of 2 slots of 32 bytes at offset 0x40 of the scratchpad, with counts of free and filled slots. -/
def ring (free filled : Nat) (s : State) : State :=
  s.poke (2 ^ 56 + 0x40) (leBytes 16 (0x80 + 32 * 2 ^ 32 + 2 * 2 ^ 48 + (free + filled * 2 ^ 8 + 2 ^ 16) * 2 ^ 64))

theorem witness_Buffers : ∀ n ∈ [0, 1], ∀ wr, ∃ s f e, LaneIssues s f (shapeCb wr) e ∧ e.active.head? = some 0 ∧
    s.cbCopying e.tm 0 (e.b64 0) = false ∧ s.cbLate e.tm 0 (e.b64 0) = false ∧ s.cbKey e.tm 0 (e.b64 0) = .ok (2 ^ 56 + 0x40) ∧ (s.cbRead (2 ^ 56 + 0x40)).free = n ∧
    (s.cbRead (2 ^ 56 + 0x40)).filled = n ∧ s.released e.t e.tm.core 1 = true := by
  intro n hn wr
  have h : n = 0 ∨ n = 1 := by simpa using hn
  rcases h with rfl | rfl <;> cases wr
  iterate 2
    exact ⟨laneAt (ring 0 0) (atPad padPtr), memF, envOf memF (ring 0 0) (atPad padPtr), ⟨⟨_, rfl, rfl, rfl⟩, by decide, by decide, rfl, by decide⟩,
      by decide, by decide, by decide, rfl, by decide, by decide, by decide⟩
  all_goals
    exact ⟨laneAt (ring 1 1) (atPad padPtr), memF, envOf memF (ring 1 1) (atPad padPtr), ⟨⟨_, rfl, rfl, rfl⟩, by decide, by decide, rfl, by decide⟩,
      by decide, by decide, by decide, rfl, by decide, by decide, by decide⟩

theorem witness_Pointers : ∃ s f e, ∃ sh : LaneShape, sh.regs e = [e.vd, e.va] ∧ sh.reads e = [e.va] ∧ sh.passes e = e.rows ∧ LaneIssues s f sh e ∧
    sh.form e = true ∧ sh.form e = (e.mod = 0 || e.mod = 2 || e.mod = 3) :=
  ⟨laneAt, lw 0 3, envOf (lw 0 3), rowShape (fun e => e.mod = 0 || e.mod = 2 || e.mod = 3) fun e => [e.vd, e.va], rfl, rfl, rfl,
    ⟨⟨_, rfl, rfl, rfl⟩, by decide, by decide, rfl, by decide⟩, rfl, rfl⟩

theorem witness_Unassigned_lane : ∃ (s : State) (t : Nat) (tm : Team) (rb : RunBlock), s.laneTeam = some (t, tm, rb) ∧ tm.mustWait = false ∧
    tm.ctrl = none ∧ tm.level = 0 ∧ s.replays tm = false ∧ s.frameReached tm = true := ⟨laneAt, 8, _, _, rfl, rfl, rfl, rfl, rfl, by decide⟩

/-! ## Witnesses: matrix words -/

theorem ok_of_toBool {ε α : Type} {x : Except ε α} (h : x.toBool = true) : ∃ a, x = .ok a := by
  cases x with
  | ok a => exact ⟨a, rfl⟩
  | error e => cases h

/-- A matrix word: accumulator slot 0, operands and scales at a0 and a1, loop counter or registers `x`, `k` elements. -/
def mw (x : BitVec 4) (k : BitVec 12) (flg : BitVec 13) (ta tb : BitVec 4 := 0) (bar : BitVec 4 := 0) : MtxF :=
  ⟨0, 0, 1, x, ta, tb, 0, 0, bar, k, flg⟩

/-- The sequencer's registers. -/
def withQ (h : Sequencer → Sequencer) (u : LUnit) : LUnit := { u with seqr := u.seqr.map h }

/-- Operands and rows at the start of the leader's scratchpad. -/
def padRegs (q : Sequencer) : Sequencer :=
  { q with a := [(0, 0xFD00000000000000), (1, 0xFD00000000001000), (2, 0xFD00000000002000), (3, 0xFD00000000003000)] }

theorem witness_Unassigned_matrix : ∃ (s : State) (n : Nat) (u : LUnit) (q : Sequencer), s.seqUnit = some (n, u, q) ∧
    (s.ctx u.slot).refuted u.launch.hyp = false ∧ q.acquires = false ∧ u.ending = none := ⟨seqAt, 0, _, _, rfl, by decide, rfl, rfl⟩

theorem witness_Sequencer_words : ∃ (s : State) (n : Nat) (u : LUnit) (q : Sequencer), SeqIssues s n u q ∧ s.seqSettled n u = true ∧
    1 < (NMap.get q.c 0 3).toNat ∧ (NMap.get q.c 0 2).toNat ≤ 1 :=
  ⟨seqAt (h := withQ fun q => { q with c := [(2, 1), (3, 2)] }), 0, _, _, ⟨rfl, rfl, rfl⟩, by decide, by decide, by decide⟩

/-- Barrier 15 of the unit: the team on core 0 is a member and has not arrived; the sequencer has arrived or not. -/
def seqBar (arrived : BitVec 17) (u : LUnit) : LUnit := { u with bars := [(15, ⟨0x10001, arrived, 4⟩)] }

theorem witness_Sequencer_arrives : ∀ k ∈ [(0 : BitVec 13), 1], ∃ (s : State) (n : Nat) (u : LUnit) (q : Sequencer) (f : MtxF), SeqIssues s n u q ∧
    f.flg = k ∧ s.seqSettled n u = true ∧ (u.bar f.bar.toNat).arrived.getLsbD 16 = false ∧
    ∃ j, j < 16 ∧ (u.bar f.bar.toNat).members.getLsbD j = true ∧ (s.livingMembers u).getLsbD j = true ∧
      ((u.bar f.bar.toNat).arrived ||| BitVec.ofNat 17 (2 ^ 16)).getLsbD j = false := fun k _ =>
  ⟨seqAt (h := seqBar 0), 0, _, _, mw 0 0 k 0 0 15, ⟨rfl, rfl, rfl⟩, rfl, rfl,
    (by decide : ((seqBar 0 (fetchUnit 0 8 true)).bar 15).arrived.getLsbD 16 = false), 0, by decide,
    (by decide : ((seqBar 0 (fetchUnit 0 8 true)).bar 15).members.getLsbD 0 = true), rfl,
    (by decide : (((seqBar 0 (fetchUnit 0 8 true)).bar 15).arrived ||| BitVec.ofNat 17 (2 ^ 16)).getLsbD 0 = false)⟩

/-- It is the last to arrive. -/
theorem witness_Sequencer_completes : ∃ (s : State) (n : Nat) (u : LUnit) (q : Sequencer) (f : MtxF), SeqIssues s n u q ∧
    f.flg = 1 ∧ s.seqSettled n u = true ∧ (u.bar f.bar.toNat).arrived.getLsbD 16 = false ∧
    ¬∃ j, j < 16 ∧ (u.bar f.bar.toNat).members.getLsbD j = true ∧ (s.livingMembers u).getLsbD j = true ∧
      ((u.bar f.bar.toNat).arrived ||| BitVec.ofNat 17 (2 ^ 16)).getLsbD j = false :=
  ⟨seqAt (h := seqBar 1), 0, _, _, mw 0 0 1 0 0 15, ⟨rfl, rfl, rfl⟩, rfl, rfl,
    (by decide : ((seqBar 1 (fetchUnit 0 8 true)).bar 15).arrived.getLsbD 16 = false), by decide⟩

theorem witness_Sequencer_waits : ∀ k ∈ [(0 : BitVec 13), 1, 2, 3], ∃ (s : State) (n : Nat) (u : LUnit) (q : Sequencer) (f : MtxF), SeqIssues s n u q ∧
    f.flg = k ∧ (u.bar f.bar.toNat).arrived.getLsbD 16 = true := fun k _ =>
  ⟨seqAt (h := seqBar 0x10000), 0, _, _, mw 0 0 k 0 0 15, ⟨rfl, rfl, rfl⟩, rfl,
    (by decide : ((seqBar 0x10000 (fetchUnit 0 8 true)).bar 15).arrived.getLsbD 16 = true)⟩

/-- A pass that is posted. -/
def posted (k : PassKind) : Pass :=
  ⟨0, k, mw 2 16 0, 0xFD00000000000000, 0, 0xFD00000000001000, 0, 0, 0, 0, 0, 0, 0, 0, false, [], 0, 0, false, none⟩

/-- A dirty byte of a haloed line of the leader's core has to be written back first. -/
theorem witness_Sequencer_dirty : ∃ (s : State) (n : Nat) (u : LUnit) (q : Sequencer), SeqIssues s n u q ∧ s.dirtyTiles (s.leaderCore u) = true :=
  ⟨seqAt (g := fun s => { s with l1 := [cached 1] }), 0, _, _, ⟨rfl, rfl, rfl⟩, by decide⟩

theorem witness_Sequencer_busy : ∃ (s : State) (n : Nat) (u : LUnit) (q : Sequencer), SeqIssues s n u q ∧ ¬ s.seqSettled n u = true ∧
    ¬ s.dirtyTiles (s.leaderCore u) = true ∧ 8 ≤ (s.unitPasses n u).length :=
  ⟨seqAt (g := fun s => s.setCluster 0 { s.cluster 0 with table := List.replicate 8 (posted .mma) }), 0, _, _, ⟨rfl, rfl, rfl⟩, by decide, by decide, by decide⟩

theorem witness_Sequencer_acquires : ∃ (s : State) (n : Nat) (u : LUnit) (q : Sequencer), s.seqUnit = some (n, u, q) ∧
    (s.ctx u.slot).refuted u.launch.hyp = false ∧ q.acquires = true :=
  ⟨seqAt (h := withQ fun q => { q with acquires := true }), 0, _, _, rfl, by decide, rfl⟩

theorem witness_Sequencer_refuted : ∀ w ∈ [none, some (15, (4 : BitVec 32))], ∃ (s : State) (n : Nat) (u : LUnit) (q : Sequencer), s.seqUnit = some (n, u, q) ∧
    (s.ctx u.slot).refuted u.launch.hyp = true ∧ q.wait = w := by
  intro w h
  simp only [List.mem_cons, List.not_mem_nil, or_false] at h
  rcases h with rfl | rfl
  · exact ⟨seqAt (g := fun s => s.setCtx 0 { s.ctx 0 with hyps := [(1, ⟨.refuted, 0, 1⟩)] })
      (h := fun u => withQ (fun q => { q with wait := none }) { seqBar 0x10000 u with launch := { u.launch with hyp := 1 } }), 0, _, _, rfl, by decide, rfl⟩
  · exact ⟨seqAt (g := fun s => s.setCtx 0 { s.ctx 0 with hyps := [(1, ⟨.refuted, 0, 1⟩)] })
      (h := fun u => withQ (fun q => { q with wait := some (15, 4) }) { seqBar 0x10000 u with launch := { u.launch with hyp := 1 } }), 0, _, _, rfl, by decide, rfl⟩

theorem witness_Passes : ∃ (s : State) (n : Nat) (u : LUnit) (q : Sequencer) (f : MtxF), SeqIssues s n u q ∧ (s.unitPasses n u).length < 8 ∧
    s.mmaOk n u q f = true ∧ s.operandsCause u (q.passOf n .mma f 0).ranges = none ∧ pairOk f.ta.toNat f.tb.toNat = true ∧
    ¬(f.ta = 13 ∧ f.tb = 13) ∧ f.flg.getLsbD 0 = false ∧ f.k ≠ 0 ∧ f.acc.toNat < u.acc.length ∧ f.tb.toNat ∈ [0, 1, 8, 9, 11, 12, 13] ∧
    (∀ v, v < 128 → (NMap.get q.a 0 0 + BitVec.ofNat 64 v * NMap.get q.d 0 0).toNat % 16 = 0) ∧
    (∀ v, v < 128 → (NMap.get q.a 0 1 + BitVec.ofNat 64 v * NMap.get q.d 0 1).toNat % 16 = 0) ∧
    s.operandsCause u (vecRanges f.ta.toNat f.k.toNat (NMap.get q.a 0 0) (NMap.get q.d 0 0) ++ [(NMap.get q.a 0 2, 32)]) = none ∧
    s.operandsCause u (vecRanges f.tb.toNat f.k.toNat (NMap.get q.a 0 1) (NMap.get q.d 0 1)) = none :=
  ⟨seqAt (h := withQ padRegs), 0, _, _, mw 2 4095 0, ⟨rfl, rfl, rfl⟩, by decide, by decide +kernel, by decide +kernel, by decide, by decide, by decide,
    by decide, by decide, by decide, by decide +kernel, by decide +kernel, by decide +kernel, by decide +kernel⟩

theorem witness_Passes_of_wrong_form : ∃ (s : State) (n : Nat) (u : LUnit) (q : Sequencer) (f : MtxF), SeqIssues s n u q ∧
    s.mmaOk n u q f = false ∧ f.k = 0 := ⟨seqAt (h := withQ padRegs), 0, _, _, mw 2 0 0, ⟨rfl, rfl, rfl⟩, by decide +kernel, rfl⟩

/-- A Q4 stationary operand of the greatest length. -/
theorem witness_Passes_Q4 : ∃ (s : State) (n : Nat) (u : LUnit) (q : Sequencer) (f : MtxF), SeqIssues s n u q ∧ f.tb = 13 ∧ f.k.toNat ≤ 128 ∧ f.k ≠ 0 ∧
    s.operandsCause u (vecRanges f.tb.toNat f.k.toNat (NMap.get q.a 0 1) (NMap.get q.d 0 1)) = none :=
  ⟨seqAt (h := withQ padRegs), 0, _, _, mw 2 128 0 0 13, ⟨rfl, rfl, rfl⟩, rfl, by decide, by decide, by decide +kernel⟩

theorem witness_Accumulators_scaled : ∃ (s : State) (n : Nat) (u : LUnit) (q : Sequencer) (f : MtxF), SeqIssues s n u q ∧
    f.acc.toNat < u.acc.length ∧ s.busySlot n u f.acc = false ∧ q.row = 0 ∧ s.busyPartial n u (f.flg.getLsbD 1) = false ∧
    ∃ r, State.seqLoads n (2 ^ 24) (((List.range 128).map fun v => (NMap.get q.a 0 2 + BitVec.ofNat 64 v * NMap.get q.d 0 2, 1)) ++
      (List.range 128).map fun v => (NMap.get q.a 0 3 + BitVec.ofNat 64 v * NMap.get q.d 0 3, 1)) s = .ok r :=
  ⟨seqAt (h := withQ padRegs), 0, _, _, mw 2 0 0, ⟨rfl, rfl, rfl⟩, by decide, by decide, rfl, by decide, ok_of_toBool (by decide +kernel)⟩

/-- 128 rows of 128 cells that start at one place; one row of converted cells that ends with the scratchpad. -/
theorem witness_Accumulators_load : ∃ (s : State) (n : Nat) (u : LUnit) (q : Sequencer) (f : MtxF), SeqIssues s n u q ∧
    f.acc.toNat < u.acc.length ∧ s.busySlot n u f.acc = false ∧ q.row = 0 ∧ 1 ≤ f.k.toNat ∧ f.k.toNat ≤ 128 ∧ f.flg.toNat % 4 = 0 ∧
    ∀ i, i < f.k.toNat →
      let row := NMap.get q.a 0 0 + BitVec.ofNat 64 i * NMap.get q.d 0 0
      row.toNat / 2 ^ 56 = 0xFD ∧ (s.leader u).map (·.tag) = some (row.toNat / 2 ^ 48 % 256) ∧
        row.toNat % 2 ^ 19 + 4 * (f.flg.toNat / 4 % 128 + 1) ≤ 2 ^ 19 :=
  ⟨seqAt (h := withQ padRegs), 0, _, _, mw 2 128 0x1FC, ⟨rfl, rfl, rfl⟩, by decide, by decide, rfl, by decide, by decide, by decide,
    by decide +kernel⟩

theorem witness_Accumulators_store : ∃ (s : State) (n : Nat) (u : LUnit) (q : Sequencer) (f : MtxF), SeqIssues s n u q ∧
    f.acc.toNat < u.acc.length ∧ s.busySlot n u f.acc = false ∧ q.row = 0 ∧ f.k.toNat = 2 ∧ f.flg.toNat % 4 < 3 ∧
    s.mayStore (dieOfCore (s.leaderCore u)) (2 * f.k.toNat * (f.flg.toNat / 4 % 128 + 1)) = true ∧
    ∀ i, i < f.k.toNat →
      let row := NMap.get q.a 0 0 + BitVec.ofNat 64 i * NMap.get q.d 0 0
      row.toNat / 2 ^ 56 = 0xFD ∧ (s.leader u).map (·.tag) = some (row.toNat / 2 ^ 48 % 256) ∧
        row.toNat % 2 ^ 19 + 2 * (f.flg.toNat / 4 % 128 + 1) ≤ 2 ^ 19 :=
  ⟨seqAt (h := withQ fun q => { q with a := [(0, 0xFD0000000007FE00)], d := [(0, 256)] }), 0, _, _, mw 2 2 0x1FD, ⟨rfl, rfl, rfl⟩, by decide, by decide, rfl, by decide,
    by decide, by decide, by decide +kernel⟩

/-! ## Witnesses: placement and queues -/

/-- Queue 3 with `n` entries of kind `kind`, tokens on island 0 for `k`, and a trap frame for each team. -/
def queued (n k : Nat) (s : State) (kind : Nat := 1) : State :=
  let s := s.poke 0x11000 (leBytes 16 (0x10000 + kind * 2 ^ 64))
  let s := { inPart (fun c => { c with grants := [(0, k)] }) s with queues := [(3, queue n)] }
  s.setIsland 0 { s.island 0 with budget := k }

theorem witness_Placement : ∃ (s : State) (n : Nat) (q : Queue) (k : Nat) (p : Partition) (e : QEntry) (l : Launch) (cores : List Nat),
    NMap.find? s.queues n = some q ∧ s.partOfQueue n = some (k, p) ∧ s.headEntry q = some e ∧ s.turn = .event (.dispatchPlace 0 n cores) ∧
    s.mayServe 0 n q = true ∧ s.parse q.slot e = .launch l ∧ (s.ctx q.slot).refuted l.hyp = false ∧ p.audit = none ∧ covers (s.vc 0) e.stamp = true ∧
    dieOfCore (cores.headD 0) = 0 ∧ s.assignmentOk p (startOf n q e l) cores = true ∧ ∃ b, s.takeBlocks p q.slot cores = some b :=
  ⟨eventAt (.dispatchPlace 0 3 [15]) (queued 1 10 ·), 3, _, _, _, _, _, [15], rfl, rfl, rfl, rfl, by decide +kernel, rfl, by decide +kernel, rfl,
    by decide +kernel, by decide +kernel, by decide +kernel, _, rfl⟩

/-- An entry of a kind that is none. -/
theorem witness_Placement_refused : ∃ (s : State) (n : Nat) (q : Queue) (k : Nat) (p : Partition) (e : QEntry) (c : Nat) (cores : List Nat),
    NMap.find? s.queues n = some q ∧ s.partOfQueue n = some (k, p) ∧ s.headEntry q = some e ∧ s.turn = .event (.dispatchPlace 0 n cores) ∧
    s.mayServe 0 n q = true ∧ s.parse q.slot e = .bad c none :=
  ⟨eventAt (.dispatchPlace 0 3 [15]) fun s => queued 1 10 s 3, 3, _, _, _,
    _, _, [15], rfl, rfl, rfl, rfl, by decide +kernel, rfl⟩

/-- With no token left, the head entry waits; it has waited 2 us, and then 2^24 clocks. -/
theorem witness_Placement_reserve : ∃ (s : State) (n : Nat) (q : Queue) (k : Nat) (p : Partition) (e : QEntry) (l : Launch) (unit : Nat),
    NMap.find? s.queues n = some q ∧ s.partOfQueue n = some (k, p) ∧ s.headEntry q = some e ∧ s.turn = .event (.placementUnitReserve n unit) ∧
    s.parse q.slot e = .launch l ∧ q.enabled = true ∧ s.headStuck n q = true ∧ q.headSince + 2100 ≤ s.clock ∧ s.unitOk p l.cast unit = true ∧
    (∀ r ∈ s.reserved, r.queue ≠ n) ∧ ∀ x ∈ s.queues, x.2.entries = [] ∨ x.2.prio ≤ q.prio :=
  ⟨eventAt (.placementUnitReserve 3 15) fun s => { queued 1 0 s with clock := 2100 }, 3, _, _, _, _, _, 15, rfl, rfl, rfl, rfl, rfl, rfl,
    by decide +kernel, by decide +kernel, by decide +kernel, by decide +kernel, by decide +kernel⟩

theorem witness_Placement_waits : ∃ (s : State) (n : Nat) (q : Queue) (k : Nat) (p : Partition) (e : QEntry) (l : Launch) (r : Resource),
    NMap.find? s.queues n = some q ∧ s.partOfQueue n = some (k, p) ∧ s.headEntry q = some e ∧ s.turn = .event (.placementResourceWaitEvent n r) ∧
    s.parse q.slot e = .launch l ∧ (∃ c, NMap.find? q.shortSince (resourceNo r) = some c ∧ c + 2 ^ 24 ≤ s.clock) ∧ resourceNo r ∉ q.told ∧
    ∀ d, d < 4 → p.hasDie d = true → s.short p q.slot d l.charges.length r = true :=
  ⟨eventAt (.placementResourceWaitEvent 3 .framePool) fun s =>
      { queued 1 10 s with clock := 2 ^ 24, parts := [(0, { part0 with framesUsed := [0x80000, 0x80200, 0x80400, 0x80600] })],
                           queues := [(3, { queue 1 with shortSince := [(3, 0)] })] },
    3, _, _, _, _, _, .framePool, rfl, rfl, rfl, rfl, rfl, ⟨0, rfl, by decide⟩, by decide +kernel, by decide +kernel⟩

/-- A head entry is noted, whether it fits or not. -/
theorem witness_Placement_noted : ∃ (s : State) (n : Nat) (q : Queue), NMap.find? s.queues n = some q ∧ q.entries ≠ [] :=
  ⟨eventAt (.dispatchPlace 0 3 [15]) (queued 1 0 ·), 3, queue 1, rfl, by decide⟩

/-- An entry's place in the ring can be written. -/
theorem witness_Entry_bytes : ∃ (s : State) (q : Queue) (x : QEntry) (p : Place),
    s.hwPlaces q.slot (BitVec.ofNat 64 x.place) 16 16 true = some [p] ∧ p.remote = false ∧
    s.homeCheck (s.wordTags (s.queueTags q) p) p.key = none ∧ s.sealedFor (s.wordTags (s.queueTags q) p) = false ∧
    s.poisoned p.key 16 = false ∧ ∀ i, i < 16 → s.readOnlyByte (p.key + i) = false :=
  ⟨scalarAt, queue 1, ⟨7, 1, 0, none, 0x11010, []⟩, _, rfl, rfl, by decide, by decide, by decide, by decide +kernel⟩

theorem witness_Port_write : ∃ (s : State) (n : Nat) (q : Queue) (fn : Nat) (lo hi : W64) (p : Partition), NMap.find? s.queues n = some q ∧
    s.turn = .event (.hostEnqueuePortWrite fn n 16 lo hi) ∧ 1 ≤ fn ∧ NMap.find? s.parts (fn - 1) = some p ∧ n ∈ p.queues ∧ q.held = [] ∧ s.entryReady 0 q = true ∧
    q.sx20 = false ∧ q.vent = [] ∧ q.entries.length < 2 ^ q.log2 :=
  ⟨eventAt (.hostEnqueuePortWrite 1 3 16 0x10000 1) (queued 15 10 ·), 3, queue 15, 1, _, _, _, rfl, rfl, by decide, rfl, by decide, rfl, by decide, rfl, rfl, by decide⟩

theorem witness_Port_discards : ∃ (s : State) (n : Nat) (q : Queue) (fn size : Nat) (lo hi : W64) (p : Partition), NMap.find? s.queues n = some q ∧
    s.turn = .event (.hostEnqueuePortWrite fn n size lo hi) ∧ 1 ≤ fn ∧ NMap.find? s.parts (fn - 1) = some p ∧ size ≠ 16 :=
  ⟨eventAt (.hostEnqueuePortWrite 1 3 8 0x10000 1) (queued 15 10 ·), 3, queue 15, 1, 8, _, _, _, rfl, rfl, by decide, rfl, by decide⟩

/-- An entry that waits in the vent area, or with the dispatcher, while the ring has a place. -/
theorem witness_Vent : ∃ (s : State) (n : Nat) (q : Queue) (e : QEntry) (r : List QEntry), NMap.find? s.queues n = some q ∧
    s.turn = .event (.queueVentDrain n) ∧ q.vent = e :: r ∧ q.sx20 = false ∧ q.entries.length < 2 ^ q.log2 ∧ s.hwRoom = true :=
  ⟨eventAt (.queueVentDrain 3) fun s => { s with queues := [(3, { queue 15 with vent := [⟨0, 1, 7, none, 0x10000, []⟩] })] }, 3,
    { queue 15 with vent := [⟨0, 1, 7, none, 0x10000, []⟩] }, _, _, rfl, rfl, rfl, rfl, by decide, by decide⟩

theorem witness_Held : ∃ (s : State) (n : Nat) (q : Queue) (e : QEntry) (r : List QEntry), NMap.find? s.queues n = some q ∧
    s.turn = .event (.heldEntryEntersVent n) ∧ q.held = e :: r ∧ q.sx20 = false ∧ q.vent = [] ∧ q.entries.length < 2 ^ q.log2 ∧ s.hwRoom = true :=
  ⟨eventAt (.heldEntryEntersVent 3) fun s => { s with queues := [(3, { queue 15 with held := [⟨0, 1, 7, none, 0x10000, []⟩] })] }, 3,
    { queue 15 with held := [⟨0, 1, 7, none, 0x10000, []⟩] }, _, _, rfl, rfl, rfl, rfl, rfl, by decide, by decide⟩

/-- A suspended spawn and 256 held entries. -/
theorem witness_Segment : ∃ (s : State) (n : Nat) (q : Queue) (seg : W64) (t : Nat) (tm : Team), NMap.find? s.queues n = some q ∧
    s.turn = .event (.segmentOverflowComplete n seg) ∧ q.sx20 = true ∧ q.held ≠ [] ∧ seg ≠ 0 ∧ s.hwRoom 514 = true ∧
    (∃ pl, s.hwPlaces q.slot (q.tailSeg + 0xFF0) 8 8 true = some pl) ∧ q.suspended = some t ∧ s.teams[t]? = some tm ∧ tm.wait = some (.spawn n) ∧
    tm.state = .blocked :=
  ⟨eventAt (.segmentOverflowComplete 3 0x11000)
      (fun s => { s with queues := [(3, { queue 0 with sx20 := true, tailSeg := 0x10000, suspended := some 8, held := List.replicate 256 ⟨0, 1, 7, none, 0x10000, []⟩ })] })
      (fun tm => { tm with state := .blocked, wait := some (.spawn 3) }),
    3, { queue 0 with sx20 := true, tailSeg := 0x10000, suspended := some 8, held := List.replicate 256 ⟨0, 1, 7, none, 0x10000, []⟩ }, _, 8, _, rfl, rfl, rfl,
    by decide, by decide, by decide, ⟨_, rfl⟩, rfl, rfl, rfl, rfl⟩

/-! ## Witnesses: ends of units -/

/-- The team has exited; its unit is changed by `h`. -/
def overAt (e : Event) (h : LUnit → LUnit := id) (g : State → State := id) : State :=
  eventAt e (fun s => g { s with units := [h (fetchUnit 0 8 false)] }) fun tm => { tm with state := .exited }

theorem witness_Completes : ∀ future, ∃ (s : State) (n : Nat) (u : LUnit), s.unit? n = some u ∧ s.turn = .event (.taskComplete n) ∧ s.ended u = true ∧
    u.replay = none ∧ u.poisoned = false ∧ u.audit = none ∧ s.unitDirty u = none ∧ s.endingOf u = none ∧ s.releasedAll n u = true ∧
    u.launch.future = future ∧ (s.freeUnit n u).isSome = true := by
  intro future
  cases future <;>
    exact ⟨overAt (.taskComplete 0) fun u => { u with launch := { u.launch with future := _, completion := 0x10000 } }, 0, _, rfl, rfl, by decide, rfl, rfl,
      rfl, by decide, rfl, by decide +kernel, rfl, by decide +kernel⟩

theorem witness_Completes_failed : ∃ (s : State) (n : Nat) (u : LUnit), s.unit? n = some u ∧ s.turn = .event (.taskComplete n) ∧ s.ended u = true ∧
    u.replay = none ∧ u.poisoned = false ∧ u.audit = none ∧ s.unitDirty u = none ∧ s.endingOf u = some (.levelTwo 0x1D) ∧ s.releasedAll n u = true :=
  ⟨overAt (.taskComplete 0) fun u => { u with ending := some (.levelTwo 0x1D), launch := { u.launch with completion := 0x10000 } }, 0, _, rfl, rfl,
    by decide, rfl, rfl, rfl, by decide, rfl, by decide +kernel⟩

theorem witness_Completes_killed : ∃ (s : State) (n : Nat) (u : LUnit), s.unit? n = some u ∧ s.turn = .event (.taskComplete n) ∧ s.ended u = true ∧
    u.replay = none ∧ u.poisoned = false ∧ u.audit = none ∧ s.unitDirty u = none ∧ s.endingOf u = some .context ∧ (s.freeUnit n u).isSome = true :=
  ⟨overAt (.taskComplete 0) fun u => { u with ending := some .context }, 0, _, rfl, rfl, by decide, rfl, rfl, rfl, by decide, rfl, by decide +kernel⟩

/-- An audit whose output is empty; its signature is that of the empty region, or not. -/
def auditOf (sig : W64) (lost : Bool := false) : Audit := ⟨0, [], sig, some 0, [], [], lost, false⟩

theorem witness_Audits : ∀ b, ∃ (s : State) (n k : Nat) (u o : LUnit) (a : Audit), s.unit? n = some u ∧ s.turn = .event (.auditReplayComplete k) ∧
    s.audits[k]? = some a ∧ s.unit? a.unit = some o ∧ a.replay = some n ∧ a.closed = false ∧ u.ending = none ∧ a.lost = false ∧ s.unitOver u = true ∧
    u.poisoned = false ∧ s.hasCopies n = false ∧ (s.closeAudit k a n u).isSome = true ∧ decide (crc64 (s.shadowBuffer u a) = a.sig) = b := by
  intro b
  cases b
  · exact ⟨overAt (.auditReplayComplete 0) id fun s => { s with audits := [auditOf 1] }, 0, 0, _, _, _, rfl, rfl, rfl, rfl, rfl, rfl, rfl, rfl, by decide, rfl,
      by decide, by decide +kernel, by decide +kernel⟩
  · exact ⟨overAt (.auditReplayComplete 0) id fun s => { s with audits := [auditOf 0] }, 0, 0, _, _, _, rfl, rfl, rfl, rfl, rfl, rfl, rfl, rfl, by decide, rfl,
      by decide, by decide +kernel, by decide +kernel⟩

/-- An arena that the replay has read was dropped. -/
theorem witness_Audits_lost : ∃ (s : State) (n k : Nat) (u o : LUnit) (a : Audit), s.unit? n = some u ∧ s.turn = .event (.auditReplayComplete k) ∧
    s.audits[k]? = some a ∧ s.unit? a.unit = some o ∧ a.replay = some n ∧ a.closed = false ∧ u.ending = none ∧ a.lost = true ∧
    ((s.stopTeams u).closeAudit k a n u).isSome = true :=
  ⟨overAt (.auditReplayComplete 0) id fun s => { s with audits := [auditOf 1 true] }, 0, 0, _, _, _, rfl, rfl, rfl, rfl, rfl, rfl, rfl, rfl, by decide +kernel⟩

theorem witness_Poison : ∃ (s : State) (n : Nat) (u : LUnit), s.unit? n = some u ∧ s.turn = .event (.poisonConsumed n) ∧ u.poisoned = true ∧
    u.complete = false ∧ u.ending = none :=
  ⟨eventAt (.poisonConsumed 0) fun s => { s with units := [{ fetchUnit 0 8 false with poisoned := true }] }, 0, _, rfl, rfl, rfl, rfl, rfl⟩

theorem witness_Poison_relaunch : ∃ (s : State) (n : Nat) (u : LUnit) (q : Queue), s.unit? n = some u ∧ s.turn = .event (.poisonConsumed n) ∧
    u.poisoned = true ∧ u.complete = false ∧ u.ending = some .poison ∧ u.replay = none ∧ s.unitOver u = true ∧ s.unitDirty u = none ∧
    s.unitPerformed n u = true ∧ s.copiesOf n = [] ∧ s.failReady u [] = true ∧ ((s.ctx u.slot).freeBlockPages u.blocks).isSome = true ∧
    NMap.find? s.queues u.queue = some q ∧ u.launch.idempotent = true ∧ u.launch.hyp = 0 ∧ u.attempt < 2 :=
  ⟨overAt (.poisonConsumed 0) (fun u => { u with
      poisoned := true, ending := some .poison, queue := 3, attempt := 1
      launch := { u.launch with idempotent := true, completion := 0x10000 } }) fun s => { s with queues := [(3, queue 0)] },
    0, _, _, rfl, rfl, rfl, rfl, rfl, rfl, by decide, by decide, by decide, by decide, by decide +kernel, by decide +kernel, rfl, rfl, rfl, by decide⟩

/-- A record with one free place, and a full one. -/
theorem witness_Failure_record : ∀ n ∈ [61, 62], ∃ (s : State) (q k : Nat) (p : Partition), s.partOfQueue q = some (k, p) ∧
    (leNat (s.bytes (p.failBase + 2048 * q) 4) + 2 ^ 32 - leNat (s.bytes (p.failBase + 2048 * q + 8) 4)) % 2 ^ 32 = n := by
  intro n h
  have h : n = 61 ∨ n = 62 := by simpa using h
  rcases h with rfl | rfl
  · exact ⟨(inPart id State.reset).poke (0x90000 + 2048 * 3) [61], 3, 0, _, rfl, by decide +kernel⟩
  · exact ⟨(inPart id State.reset).poke (0x90000 + 2048 * 3) [62], 3, 0, _, rfl, by decide +kernel⟩

/-! ## Witnesses: issue -/

/-- An event is next on the device of `laneAt`. -/
def laneEvent (e : Event) (g : State → State := id) (h : Team → Team := id) : State := { laneAt g h with turn := .event e }

theorem witness_Slot : ∃ (s : State) (t c k : Nat) (tm : Team), s.teams[t]? = some tm ∧ s.turn = .event (.slotGrant c k t) ∧ tm.core = c ∧
    s.slotOpen c k = true ∧ tm.asksSlot = true ∧ s.gated c = false ∧ s.moving t = false ∧ s.heads tm = true :=
  ⟨laneEvent (.slotGrant 0 3 8) id fun tm => { tm with state := .ready, holding := none }, 8, 0, 3, _, rfl, rfl, rfl, by decide, by decide, by decide,
    by decide, by decide⟩

theorem witness_Pass_cap : ∃ (s : State) (t : Nat) (tm : Team) (r : RunBlock), s.teams[t]? = some tm ∧ s.turn = .event (.passCapReached t) ∧
    tm.run = some r ∧ tm.holding.isSome = true ∧ r.ended = false ∧ 1024 ≤ r.passes ∧ tm.state = .running :=
  ⟨laneEvent (.passCapReached 8) id fun tm =>
      { tm with run := some ⟨⟨0, [], none, 0⟩, 5, none, false, 5, 1024⟩, pending := [⟨[wholeWrite 1 0 7], 0, false, false, false⟩] },
    8, _, _, rfl, rfl, rfl, rfl, rfl, by decide, rfl⟩

theorem witness_Interval : ∃ (s : State) (c : Nat), s.turn = .event (.issueIntervalEnd c) ∧ (s.core c).interval + 65536 ≤ s.islandClock c :=
  ⟨laneEvent (.issueIntervalEnd 255) fun s => { s with clock := 65536 }, 255, rfl, by decide⟩

theorem witness_Block_start : ∃ (s : State) (t : Nat) (tm : Team) (b : Block) (r : List Block) (x : W64), s.teams[t]? = some tm ∧
    s.turn = .event (.laneBlockStart t) ∧ tm.queue = b :: r ∧ tm.run = none ∧ tm.pending = [] ∧ tm.live = true ∧ tm.kill = none ∧ s.moving t = false ∧
    s.gated tm.core = false ∧ b.reseed = some x :=
  ⟨eventAt (.laneBlockStart 8) id fun tm => { tm with queue := [⟨7, [], some 5, 0⟩] }, 8, _, _, _, _, rfl, rfl, rfl, rfl, rfl, by decide, rfl, by decide,
    by decide, rfl⟩

theorem witness_Block_end : ∃ (s : State) (t : Nat) (tm : Team) (r : RunBlock), s.teams[t]? = some tm ∧ s.turn = .event (.laneBlockComplete t) ∧
    tm.run = some r ∧ r.ended = true ∧ tm.pending = [] :=
  ⟨laneEvent (.laneBlockComplete 8) id fun tm => { tm with run := some { run0 with ended := true } }, 8, _, _, rfl, rfl, rfl, rfl, rfl⟩

/-- The last part of a result, the first of two, and the answer to a load of an incarnation that is killed. -/
theorem witness_Result : ∃ (s : State) (t i : Nat) (tm : Team) (p : Pending) (w : PartWrite), s.teams[t]? = some tm ∧
    s.turn = .event (.longLatencyResult t i 0) ∧ tm.pending[i]? = some p ∧ (tm.state = .parked → p.miss = false) ∧ p.resp = false ∧
    p.writes = [w] ∧ w.lo = 0 ∧ w.width = 64 :=
  ⟨laneEvent (.longLatencyResult 8 1 0) id fun tm => { tm with pending := [⟨[], 3, false, false, false⟩, ⟨[wholeWrite 1 0 7], 3, false, false, false⟩] }, 8, 1, _, _, _,
    rfl, rfl, rfl, nofun, rfl, rfl, rfl, rfl⟩

theorem witness_Result_part : ∃ (s : State) (t i : Nat) (tm : Team) (p : Pending) (w : PartWrite) (r : List PartWrite), s.teams[t]? = some tm ∧
    s.turn = .event (.longLatencyResult t i 1) ∧ tm.pending[i]? = some p ∧ (tm.state = .parked → p.miss = false) ∧ p.resp = true ∧
    s.oldInc tm = false ∧ p.writes = w :: r ∧ r ≠ [] :=
  ⟨laneEvent (.longLatencyResult 8 0 1) id fun tm => { tm with pending := [⟨[⟨1, 0, 0, 32, 7⟩, ⟨1, 0, 32, 32, 7⟩], 3, true, false, true⟩] }, 8, 0, _, _, _, _,
    rfl, rfl, rfl, nofun, rfl, by decide, rfl, nofun⟩

theorem witness_Result_old : ∃ (s : State) (t i : Nat) (tm : Team) (p : Pending), s.teams[t]? = some tm ∧
    s.turn = .event (.longLatencyResult t i 0) ∧ tm.pending[i]? = some p ∧ (tm.state = .parked → p.miss = false) ∧ p.resp = true ∧
    s.oldInc tm = true :=
  ⟨laneEvent (.longLatencyResult 8 0 0) id fun tm => { tm with inc := 4095, pending := [⟨[wholeWrite 1 0 7], 3, true, false, true⟩] }, 8, 0, _, _,
    rfl, rfl, rfl, nofun, rfl, by decide⟩

theorem witness_Green_room : ∃ (s : State) (t : Nat) (tm : Team), s.teams[t]? = some tm ∧ s.turn = .event (.greenRoomWake t) ∧ tm.state = .parked :=
  ⟨eventAt (.greenRoomWake 8) id fun tm => { tm with state := .parked }, 8, _, rfl, rfl, rfl⟩

/-- The bytes of a lane word. -/
def laneBytes (i : Instr) : List Byte :=
  match encode i with
  | some w => w.bytes
  | none => []

theorem witness_Buffer_wake : ∃ (s : State) (t : Nat) (tm : Team) (rb : RunBlock) (l key : Nat), s.teams[t]? = some tm ∧
    s.turn = .event (.cbWaitWake t) ∧ tm.wait = some .cb ∧ tm.state = .blocked ∧ tm.kill = none ∧ tm.run = some rb ∧ s.gated tm.core = false ∧
    s.moving t = false ∧ ∃ f op r, s.cbWord? tm rb = some (f, op) ∧
    (let e := laneEnv s t { tm with wait := none, state := .ready, since := s.clock } rb f
     e.active.head? = some l ∧ s.cbCopying tm l (e.b64 l) = false ∧ s.cbKey tm l (e.b64 l) = .ok key ∧ op (s.cbRead key) = some r) :=
  ⟨laneEvent (.cbWaitWake 8) (fun s => (ring 1 1 s).poke codeAt (laneBytes (.cbget memF)))
      fun tm => { atPad padPtr tm with state := .blocked, wait := some .cb, holding := none },
    8, _, _, 0, 2 ^ 56 + 0x40, rfl, rfl, rfl, rfl, rfl, rfl, by decide, by decide, _, _, _, rfl, by decide +kernel, by decide +kernel, rfl, rfl⟩

theorem witness_Reply : ∃ (s : State) (t : Nat) (tm : Team) (d : BitVec 5) (v : W64), s.teams[t]? = some tm ∧ s.turn = .event (.engineReplyArrival t) ∧
    tm.reply = some (d, v) ∧ (∀ n, tm.wait ≠ some (.spawn n)) ∧ tm.inc = (s.ctx tm.slot).inc :=
  ⟨eventAt (.engineReplyArrival 8) id fun tm => { tm with reply := some (0, 9) }, 8, _, _, _, rfl, rfl, rfl, nofun, rfl⟩

theorem witness_Reply_dropped : ∃ (s : State) (t : Nat) (tm : Team) (d : BitVec 5) (v : W64), s.teams[t]? = some tm ∧
    s.turn = .event (.engineReplyArrival t) ∧ tm.reply = some (d, v) ∧ (∀ n, tm.wait ≠ some (.spawn n)) ∧ tm.ctrl = none ∧
    tm.inc ≠ (s.ctx tm.slot).inc :=
  ⟨eventAt (.engineReplyArrival 8) id fun tm => { tm with reply := some (1, 9), inc := 4095 }, 8, _, _, _, rfl, rfl, rfl, nofun, rfl, by decide⟩

/-! ## Witnesses: kills, evictions, migrations -/

theorem witness_Kill : ∃ (s : State) (t : Nat) (tm : Team) (k : Kill), s.teams[t]? = some tm ∧ s.turn = .event (.killAtKillPoint t) ∧ tm.kill = some k ∧
    tm.atKillPoint = true ∧ tm.state = .blocked :=
  ⟨eventAt (.killAtKillPoint 8) id fun tm => { tm with state := .blocked, wait := some (.barWait 0 0), kill := some .levelTwo }, 8, _, _, rfl, rfl, rfl,
    rfl, rfl⟩

/-- Core 0 is to be closed: its teams must make room. -/
def closing (s : State) : State := (inPart id s).setCore 0 { s.core 0 with closing := true }

theorem witness_Evict_blocked : ∃ (s : State) (t : Nat) (tm : Team), s.teams[t]? = some tm ∧ s.turn = .event (.teamEvict t) ∧ tm.forced = false ∧
    s.gated tm.core = false ∧ s.chosen t tm = true ∧ s.released t tm.core 4 = true ∧ tm.state = .blocked :=
  ⟨eventAt (.teamEvict 8) closing fun tm => { tm with state := .blocked, wait := some (.barWait 0 0) }, 8, _, rfl, rfl, by decide, by decide,
    by decide +kernel, by decide, rfl⟩

theorem witness_Evict_yielded : ∃ (s : State) (t : Nat) (tm : Team), s.teams[t]? = some tm ∧ s.turn = .event (.teamEvict t) ∧ tm.forced = false ∧
    s.gated tm.core = false ∧ s.chosen t tm = true ∧ s.released t tm.core 4 = true ∧ tm.state = .ready :=
  ⟨eventAt (.teamEvict 8) closing fun tm => { tm with wait := some .yield }, 8, _, rfl, rfl, by decide, by decide, by decide +kernel, by decide, rfl⟩

theorem witness_Evict_deadline : ∃ (s : State) (t : Nat) (tm : Team), s.teams[t]? = some tm ∧ s.turn = .event (.teamEvict t) ∧ tm.forced = false ∧
    s.gated tm.core = false ∧ s.poolRoom tm = true ∧ s.chosen t tm = false ∧ s.victims tm.core = [] ∧ s.mustYield tm = true ∧ s.lowest tm = true ∧ tm.ctrl = none ∧ tm.deadline = none ∧
    tm.expired = false ∧ (tm.state = .ready ∨ tm.state = .running ∨ tm.state = .parked) :=
  ⟨eventAt (.teamEvict 8) closing, 8, _, rfl, rfl, by decide, by decide, by decide +kernel, by decide +kernel, by decide +kernel, by decide +kernel, by decide +kernel, rfl, rfl, rfl,
    .inl rfl⟩

/-- A team whose deadline has passed, while its room is needed and when it is no longer. -/
theorem witness_Evict_expired : ∀ b ∈ [true, false], ∃ (s : State) (t : Nat) (tm : Team), s.teams[t]? = some tm ∧ s.turn = .event (.teamEvict t) ∧
    tm.expired = true ∧ tm.sxWait = false ∧ tm.state = .ready ∧ tm.holding = none ∧ s.gated tm.core = false ∧ s.mustYield tm = b ∧
    s.savable t tm = true ∧ s.released t tm.core 4 = true := by
  intro b h
  refine ⟨eventAt (.teamEvict 8) (fun s => if b then closing s else inPart id s) fun tm => { tm with expired := true }, 8,
    { fetchTeam 0 0 false with expired := true }, ?_⟩
  revert b
  decide +kernel

theorem witness_Deadline : ∃ (s : State) (t : Nat) (tm : Team) (d : Nat), s.teams[t]? = some tm ∧ s.turn = .event (.yieldDeadlineExpiry t) ∧
    tm.deadline = some d ∧ d ≤ s.islandClock tm.core :=
  ⟨eventAt (.yieldDeadlineExpiry 8) (fun s => { s with clock := 262144 }) fun tm => { tm with deadline := some 262144 }, 8, _, _, rfl, rfl, rfl, by decide⟩

/-- Onto another core of the partition. -/
theorem witness_Restore : ∃ (s : State) (t c : Nat) (tm : Team) (u : LUnit), s.teams[t]? = some tm ∧ s.unit? tm.unit = some u ∧
    s.turn = .event (.teamRestore t c) ∧ s.recalled t tm = true ∧ s.restoreOk tm u c = true ∧ s.mayAcquire { tm with core := c } 4 = true ∧ c ≠ tm.core ∧ c ∉ u.cores :=
  ⟨eventAt (.teamRestore 8 15) (inPart id) fun tm => { tm with state := .evicted }, 8, 15, _, _, rfl, rfl, rfl, by decide +kernel, by decide +kernel,
    by decide, by decide, by decide⟩

theorem witness_Migrate : ∃ (s : State) (t c : Nat) (tm : Team) (u : LUnit), s.teams[t]? = some tm ∧ s.unit? tm.unit = some u ∧
    s.turn = .event (.teamMigrate t c) ∧ s.mayMove t tm = true ∧ s.inReach tm u c = true ∧ s.openCore c = true ∧ c ≠ tm.core ∧ c ∉ u.cores ∧
    s.roomOn c [chargeOf tm.lanes tm.budget] = true ∧ s.padUsed c + u.launch.scratch ≤ 2 ^ 19 ∧ s.holdsWalk tm.unit = false ∧
    s.gated tm.core = false ∧ s.gated c = false ∧ s.aheadOn t tm c < s.aheadOn t tm tm.core ∧ s.seqFits tm u c = true ∧ s.tokensMove u c = true ∧
    s.released t tm.core 4 = true :=
  ⟨eventAt (.teamMigrate 8 15) (fun s => inPart id { s with teams := s.teams ++ [{ fetchTeam 0 0 false with teamid := 1, prio := 31 }] })
      fun tm => { tm with state := .blocked, wait := some (.barWait 0 0) }, 8, 15, _, _, rfl, rfl, rfl, by decide, by decide, by decide, by decide,
    by decide, by decide +kernel, by decide, by decide, by decide, by decide, by decide, by decide, by decide, by decide⟩

theorem witness_Migrate_copy : ∃ (s : State) (t : Nat) (tm : Team) (u : LUnit) (m : Migration), s.teams[t]? = some tm ∧ s.unit? tm.unit = some u ∧
    s.turn = .event (.migrationCopyComplete t) ∧ s.migrations.find? (fun x => x.team = t && x.copying) = some m ∧ m.waiting = [] ∧
    s.mayAcquire tm 4 = true ∧ s.gated m.new = false :=
  ⟨eventAt (.migrationCopyComplete 8) fun s => { s with migrations := [⟨8, 15, 0, true, [], none, false⟩] }, 8, _, _,
    ⟨8, 15, 0, true, [], none, false⟩, rfl, rfl, rfl, by decide, rfl,
    by decide, by decide⟩

theorem witness_Forward_end : ∃ (s : State) (t : Nat) (tm : Team), s.teams[t]? = some tm ∧ s.turn = .event (.migrationForwardEnd t) ∧
    ∃ m ∈ s.migrations, m.team = t ∧ m.copying = false ∧ (m.firstPass.map fun f => decide (f + 4096 ≤ s.islandClock m.new)) = some true :=
  ⟨eventAt (.migrationForwardEnd 8) fun s => { s with clock := 4096, migrations := [⟨8, 15, 0, false, [], some 0, false⟩] }, 8, _, rfl, rfl, _,
    List.mem_cons_self, rfl, rfl, by decide⟩

theorem witness_Late_message : ∃ (s : State) (i : Nat) (m : FootMsg), s.turn = .event (.lateFootprintMessage i) ∧ s.late[i]? = some m :=
  ⟨eventAt (.lateFootprintMessage 0) fun s => { s with late := [⟨8, 63, false, 2 ^ 56, [(0, 1)]⟩] }, 0, _, rfl, rfl⟩

/-! ## Witnesses: deliveries, the copy engine, passes -/

theorem witness_Fault_collect : ∃ (s : State) (c i : Nat) (e : FaultEntry) (tm : Team), s.turn = .event (.faultCollectExpiry c i) ∧
    (s.cluster c).faults[i]? = some e ∧ s.teams[e.opener]? = some tm ∧ e.taken = false ∧ e.t0 + 16 ≤ s.islandClock tm.core ∧ tm.state = .trapped ∧ tm.level = 0 ∧
    tm.ctrl = none ∧ s.replays tm = false ∧ s.gated tm.core = false ∧ s.frameReached tm = true :=
  ⟨eventAt (.faultCollectExpiry 0 0) (fun s => { s.setCluster 0 { s.cluster 0 with faults := [⟨0, 2, 8, 0, 3, 1, 0x20000, 0x20000, 1, 0, false, false⟩] } with
      clock := 16 }) fun tm => { tm with state := .trapped }, 0, 0, _, _, rfl, rfl, rfl, rfl, by decide, rfl, rfl, rfl, by decide, by decide, by decide⟩

/-- The sequencer of unit 0 waits with a fault at row 127. -/
def seqFault : LUnit := { fetchUnit 0 8 true with seqr := some { fetchSequencer with fault := some ⟨none, 127, false⟩ } }

theorem witness_Fault_matrix : ∃ (s : State) (n : Nat) (u : LUnit) (q : Sequencer) (f : MtxFault) (t : Nat) (tm : Team),
    s.turn = .event (.matrixFaultDelivery n) ∧ s.unit? n = some u ∧ u.seqr = some q ∧ q.fault = some f ∧ f.delivered = false ∧ s.firstTeam u = some t ∧
    s.teams[t]? = some tm ∧ tm.atDelivery.isSome = true ∧ tm.ctrl = none ∧ tm.level = 0 ∧ s.gated tm.core = false ∧ s.moving t = false ∧ s.replays tm = false ∧ s.frameReached tm = true :=
  ⟨eventAt (.matrixFaultDelivery 0) (fun s => { s with units := [seqFault] }) fun tm => { tm with state := .blocked, wait := some (.barWait 3 9) }, 0, _, _, _,
    8, _, rfl, rfl, rfl, rfl, rfl, by decide, rfl, by decide, rfl, rfl, by decide, by decide, by decide, by decide⟩

theorem witness_Fault_matrix_alone : ∃ (s : State) (n : Nat) (u : LUnit) (q : Sequencer) (f : MtxFault), s.turn = .event (.matrixFaultDelivery n) ∧
    s.unit? n = some u ∧ u.seqr = some q ∧ q.fault = some f ∧ f.delivered = false ∧ s.firstTeam u = none :=
  ⟨eventAt (.matrixFaultDelivery 0) (fun s => { s with units := [seqFault] }) fun tm => { tm with state := .exited }, 0, _, _, _, rfl, rfl, rfl, rfl, rfl,
    by decide⟩

/-- An entry at the head of queue 0 of the copy engine of core 0. -/
def copying (e : State → CeEntry) (s : State) : State := s.setCeq 0 0 ⟨[e s], 6, 4, true, []⟩

theorem witness_Fault_copy : ∃ (s : State) (c q : Nat) (e : CeEntry) (va t : Nat) (tm : Team), (s.ceq c q).entries.head? = some e ∧
    s.turn = .event (.ceFaultDelivery c q) ∧ e.state = .stalled false va ∧ s.released (ceTeam c q) c 4 = true ∧ (s.unit? e.tags.unit).bind s.firstTeam = some t ∧ s.teams[t]? = some tm ∧
    tm.atDelivery.isSome = true ∧ tm.ctrl = none ∧ tm.level = 0 ∧ s.gated tm.core = false ∧ s.moving t = false ∧ s.replays tm = false ∧ s.frameReached tm = true :=
  ⟨eventAt (.ceFaultDelivery 0 0) (copying fun s => { ceEntry s 5 .copy with state := .stalled false 0x30000 }), 0, 0, _, 0x30000, 8, _, rfl, rfl, rfl,
    by decide, by decide, rfl, by decide, rfl, rfl, by decide, by decide, by decide, by decide⟩

/-- The last granule of a line of the scratchpad is filled; a copy meets a page that is not mapped, or a pointer of no window. -/
theorem witness_Copy_fill : ∃ (s : State) (c q : Nat) (e : CeEntry) (pat : W64), (s.ceq c q).entries.head? = some e ∧
    s.turn = .event (.ceEntryStart c q) ∧ e.state = .waiting ∧ e.cb = none ∧ (∀ m id, e.kind ≠ .join m id) ∧ s.ceTokens e = true ∧
    ErrPlace.ceBuffer c q ∉ s.poison ∧ s.mayStore (dieOfCore e.tags.core) 2 = true ∧ e.kind = .fill pat ∧ e.rows = 1 ∧ 0 < e.len ∧ e.bytes = 0 ∧ e.dst.toNat / 2 ^ 56 = 0xFD ∧
    e.dst.toNat % 128 + e.len ≤ 128 ∧ (ceMove e (e.total + 1) e.bytes ⟨s, none, e.bytes, none, none⟩).miss = none ∧ (ceMove e (e.total + 1) e.bytes ⟨s, none, e.bytes, none, none⟩).fail = none :=
  ⟨eventAt (.ceEntryStart 0 0) (fun s => copying (fun s => { ceEntry s 5 (.fill 7) with dst := 0xFD00000000000070 })
      { s with units := [{ fetchUnit 0 8 false with launch := { Launch.bare with tokens := 4 } }] }), 0, 0, _, 7, rfl, rfl, rfl, rfl, nofun,
    by decide, by decide, by decide, rfl, rfl, by decide, rfl, by decide, by decide, by decide +kernel, by decide +kernel⟩

theorem witness_Copy_stops : ∀ src ∈ [(0x30000 : W64), 0xF000000000000000], ∃ (s : State) (c q : Nat) (e : CeEntry), (s.ceq c q).entries.head? = some e ∧
    s.turn = .event (.ceEntryStart c q) ∧ e.state = .waiting ∧ e.cb = none ∧ (∀ m id, e.kind ≠ .join m id) ∧ s.ceTokens e = true ∧
    ErrPlace.ceBuffer c q ∉ s.poison ∧ e.src = src ∧
    ((ceMove e (e.total + 1) e.bytes ⟨s, none, e.bytes, none, none⟩).miss.isSome = true ∨
      (ceMove e (e.total + 1) e.bytes ⟨s, none, e.bytes, none, none⟩).miss = none ∧ (ceMove e (e.total + 1) e.bytes ⟨s, none, e.bytes, none, none⟩).fail.isSome = true) := by
  intro src h
  have h : src = 0x30000 ∨ src = 0xF000000000000000 := by simpa using h
  rcases h with rfl | rfl
  · exact ⟨eventAt (.ceEntryStart 0 0) (fun s => copying (fun s => { ceEntry s 5 .copy with src := 0x30000 })
        { s with units := [{ fetchUnit 0 8 false with launch := { Launch.bare with tokens := 4 } }] }), 0, 0, _, rfl, rfl, rfl, rfl, nofun, by decide,
      by decide, rfl, .inl (by decide +kernel)⟩
  · exact ⟨eventAt (.ceEntryStart 0 0) (fun s => copying (fun s => { ceEntry s 5 .copy with src := 0xF000000000000000 })
        { s with units := [{ fetchUnit 0 8 false with launch := { Launch.bare with tokens := 4 } }] }), 0, 0, _, rfl, rfl, rfl, rfl, nofun, by decide,
      by decide, rfl, .inr ⟨by decide +kernel, by decide +kernel⟩⟩

theorem witness_Copy_complete : ∃ (s : State) (c q : Nat) (e : CeEntry), (s.ceq c q).entries.head? = some e ∧
    s.turn = .event (.ceEntryComplete c q) ∧ s.ceOver c q e = true ∧ s.ceActReady e = true ∧ e.actions = [] ∧ e.cb = none ∧ e.code = none :=
  ⟨eventAt (.ceEntryComplete 0 0) (copying fun s => { ceEntry s 5 .copy with state := .active, bytes := 16 }), 0, 0, _, rfl, rfl, by decide,
    by decide, rfl, rfl, rfl⟩

/-- Unit 0 has a pass at its last row in the table of cluster 0, or in the engine. -/
def passing (k : PassKind) (now : Bool) (s : State) : State :=
  let p := { posted k with row := 127 }
  { s.setCluster 0 { s.cluster 0 with table := if now then [] else [p], current := if now then some p else none } with
    units := [{ fetchUnit 0 8 true with launch := { Launch.bare with tokens := 4, mtx := 0x10000 } }] }

theorem witness_Grant : ∃ (s : State) (c : Nat) (p : Pass) (u : LUnit), s.turn = .event (.reservationGrant c) ∧ (s.cluster c).current = none ∧
    s.granted c = some p ∧ s.unit? p.unit = some u ∧ p.kind ≠ .mldb ∧
    ∀ s1, (formRows s1 p.unit u p (Config.pick (s.draw 1) % 128)).stop = none := by
  refine ⟨eventAt (.reservationGrant 0) (passing .mma false), 0, { posted .mma with row := 127 }, _, rfl, rfl, by decide +kernel, rfl, by decide, fun s1 => ?_⟩
  have h : Config.pick ((eventAt (.reservationGrant 0) (passing .mma false)).draw 1) % 128 ≤ 127 := by omega
  simp only [formRows]
  rw [if_pos h]

theorem witness_Grant_operand : ∃ (s : State) (c : Nat) (p : Pass) (u : LUnit), s.turn = .event (.reservationGrant c) ∧ (s.cluster c).current = none ∧
    s.granted c = some p ∧ s.unit? p.unit = some u ∧ p.kind = .mldb :=
  ⟨eventAt (.reservationGrant 0) (passing .mldb false), 0, { posted .mldb with row := 127 }, _, rfl, rfl, by decide +kernel, rfl, rfl⟩

theorem witness_Pass_complete : ∃ (s : State) (c : Nat) (p : Pass) (u : LUnit), s.turn = .event (.matrixPassComplete c) ∧
    (s.cluster c).current = some p ∧ s.unit? p.unit = some u ∧ s.noPass (s.leaderCore u) = false ∧ p.kind ≠ .mldb ∧
    (formRows s p.unit u p 128).stop = none :=
  ⟨eventAt (.matrixPassComplete 0) (passing .mma true), 0, _, _, rfl, rfl, rfl, by decide, by decide, by decide +kernel⟩

theorem witness_Pass_operand : ∃ (s : State) (c : Nat) (p : Pass) (u : LUnit), s.turn = .event (.matrixPassComplete c) ∧
    (s.cluster c).current = some p ∧ s.unit? p.unit = some u ∧ s.noPass (s.leaderCore u) = false ∧ p.kind = .mldb ∧
    ∃ r, State.seqLoads p.unit (2 ^ 24) (vecRanges p.f.tyb p.f.k.toNat p.bBase p.bStep) s = .ok r ∧ (r.1.seqOf p.unit).isSome = true := by
  refine ⟨eventAt (.matrixPassComplete 0) (passing .mldb true), 0, _, _, rfl, rfl, rfl, by decide, rfl, ?_⟩
  have h : (State.seqLoads 0 (2 ^ 24) (vecRanges 0 16 0xFD00000000001000 0) (eventAt (.matrixPassComplete 0) (passing .mldb true))).toOption.map
      (fun r => (r.1.seqOf 0).isSome) = some true := by decide +kernel
  generalize hx : State.seqLoads 0 (2 ^ 24) (vecRanges 0 16 0xFD00000000001000 0) (eventAt (.matrixPassComplete 0) (passing .mldb true)) = x at h
  cases x with
  | error e => cases h
  | ok r => exact ⟨r, hx, Option.some.inj h⟩

theorem witness_Integer_groups : ∃ (ta _ : Nat) (as bs : List Nat), ta < 2 ∧ as ≠ [] ∧ as.length = bs.length ∧ as.length ≤ 16 :=
  ⟨1, 0, List.replicate 16 255, List.replicate 16 128, by decide⟩

/-! ## Witnesses: home slices, sweeps, links -/

/-- A replica on die 1 of an empty line. -/
def replicaOf (key : Nat) (seq : BitVec 32) : Replica := ⟨1, key, 0, 0, false, false, ⟨List.replicate 128 0, []⟩, seq, seq, [], []⟩

/-- Tags of team 8 in context slot 0, with another incarnation number or arena generation if asked for. -/
def reqTags (inc : BitVec 12 := 0) (gen : BitVec 6 := 0) : Tags := ⟨0, inc, 0, gen, 0, 0, 0, false, false, 8, 0, 0, 0⟩

/-- A store of 4 bytes by `die` to the mapped page, whose home is die 0. -/
def storeOf (die : Nat) (tg : Tags := reqTags) (onLink : Bool := false) : Req :=
  ⟨tg, die, 0, 0x10000, [(0x10, 1), (0x11, 2), (0x12, 3), (0x13, 4)], if die = 0 then [1, 0, 0, 0] else [0, 1, 0, 0],
    if die = 0 then none else some 1, onLink, 0, 0, 0, [], true, false, none⟩

theorem witness_Home_arrival : ∃ (s : State) (i : Nat) (r : Req), s.flight[i]? = some r ∧ s.firstOfLine i r = true ∧ s.partner i r = none ∧
    s.sliceReady r.home r.line = true ∧ s.homeCheck r.tags r.line = none ∧ s.sealedFor r.tags = false ∧ s.actingOf r.tags r.line = 0 ∧
    NMap.sorted r.bytes = true ∧ s.turn = .event (.homeRequestArrival i) ∧ r.die = r.home :=
  ⟨eventAt (.homeRequestArrival 0) fun s => { s with flight := [storeOf 0] }, 0, _, rfl, by decide, by decide, by decide, by decide, by decide,
    by decide, by decide, rfl, rfl⟩

/-- A replica of the line is 2^31 - 1 events behind its slice. -/
theorem witness_Home_stalls : ∃ (s : State) (i : Nat) (r : Req), s.flight[i]? = some r ∧ s.firstOfLine i r = true ∧ s.partner i r = none ∧
    s.sliceReady r.home r.line = false ∧ s.turn = .event (.homeRequestArrival i) ∧ r.die = r.home :=
  ⟨eventAt (.homeRequestArrival 0) fun s => { s with
      flight := [storeOf 0]
      slices := [(sliceOf 0x10000, 0x7FFFFFFF)]
      replicas := [replicaOf 0x10000 0] }, 0, _, rfl, by decide, by decide, by decide, rfl, rfl⟩

/-- The three counters of dropped requests. -/
theorem witness_Home_drop : ∀ x ∈ [(reqTags 5, Drop.inc), (reqTags 0 7, .gen), ({ reqTags with hyp := 9 }, .hyp)],
    ∃ (s : State) (i : Nat) (r : Req), s.flight[i]? = some r ∧ s.firstOfLine i r = true ∧ s.partner i r = none ∧
      s.sliceReady r.home r.line = true ∧ s.homeCheck r.tags r.line = some x.2 ∧ s.turn = .event (.homeRequestArrival i) ∧ r.die = r.home := by
  intro x h
  refine ⟨eventAt (.homeRequestArrival 0) fun s => { s with flight := [storeOf 0 x.1] }, 0, storeOf 0 x.1, rfl, ?_, ?_, ?_, ?_, rfl, rfl⟩ <;> revert x <;>
    decide

theorem witness_Forwarded_arrival : ∃ (s : State) (i : Nat) (r : Req) (n : BitVec 16), s.flight[i]? = some r ∧ s.firstOfLine i r = true ∧
    s.partner i r = none ∧ s.sliceReady r.home r.line = true ∧ s.homeCheck r.tags r.line = none ∧ s.sealedFor r.tags = false ∧
    s.actingOf r.tags r.line = 0 ∧ NMap.sorted r.bytes = true ∧
    s.turn = .event (.forwardedStoreArrival i) ∧ r.die ≠ r.home ∧ r.onLink = false ∧ s.clockReady r.home r.die r.stamp = true ∧ r.seq = some n :=
  ⟨eventAt (.forwardedStoreArrival 0) fun s => { s with flight := [storeOf 1] }, 0, _, 1, rfl, by decide, by decide, by decide, by decide, by decide,
    by decide, by decide, rfl, by decide, rfl, by decide, rfl⟩

/-- An update that the replica of its die takes, and one of another line. -/
theorem witness_Replica_update : ∃ (s : State) (i : Nat) (p : Push), s.turn = .event (.replicaUpdateApply i) ∧ s.pushes[i]? = some p ∧
    s.clockReady p.die p.src p.stamp = true ∧ s.reachesOne p.home p.die = true ∧ p.src < (s.vc p.die).length ∧ NMap.sorted p.bytes = true ∧
    (∃ r ∈ s.replicas, r.die = p.die ∧ r.key = p.line ∧ serialGt p.seq r.seq = true ∧ NMap.find? r.own 0x11 = some none ∧
      NMap.find? r.own 0x12 = some (some 3) ∧ serialGt p.seq 3 = true) ∧ ∃ r ∈ s.replicas, r.key ≠ p.line :=
  ⟨eventAt (.replicaUpdateApply 0) fun s => { s with
      pushes := [⟨1, 8, 0, 0, none, 0, 0, 0x10000, [(0x10, 1), (0x11, 2), (0x12, 3)], 5, [1, 0, 0, 0]⟩]
      replicas := [{ replicaOf 0x10000 4 with own := [(0x11, none), (0x12, some 3)] }, replicaOf 0x10080 4] }, 0, _, rfl, rfl, by decide, by decide, by decide,
    by decide, ⟨_, List.mem_cons_self, rfl, rfl, by decide, rfl, rfl, by decide⟩, _, List.mem_cons_of_mem _ List.mem_cons_self, by decide⟩

theorem witness_Clock_notice : ∃ (s : State) (i : Nat) (n : Notice), s.turn = .event (.clockNoticeArrival i) ∧ s.notices[i]? = some n ∧
    s.clockReady n.die n.src n.stamp = true ∧ s.leads n.home n.die = true :=
  ⟨eventAt (.clockNoticeArrival 0) fun s => { s with notices := [⟨2, 1, 0, [0, 1, 0, 0]⟩] }, 0, _, rfl, rfl, by decide, by decide⟩

theorem witness_Arena_swept : ∃ (s : State) (n a : Nat) (c' : Context), s.turn = .event (.arenaDropSweepComplete n a) ∧ a ≠ 0 ∧
    ((s.ctx n).arena a).state = .dropping ∧ s.oldRequests n a = false ∧ (s.ctx n).bumpTgen = some c' ∧
    (∀ e ∈ (s.ctx n).arenas, e.2.autoFree = false) ∧
    (let x := (s.ctx n).arena a
     x.parent ≠ a ∧ ((s.ctx n).arena x.parent).state ≠ .free) ∧
    ∃ e ∈ (s.ctx n).pages, e.2.arena = a ∧ physClass e.2.phys = 0 ∧
      ∀ c ∈ s.contexts, ∀ x ∈ c.2.pages, c.1 ≠ n ∨ x.2.arena ≠ a → overlaps e.2.phys e.2.size x.2.phys x.2.size = false :=
  ⟨eventAt (.arenaDropSweepComplete 0 1) (inPart fun c => { arena1 .dropping c with pages := [(2, ⟨0x30000, 0, 1, true, true, false, false⟩)] }), 0, 1, _,
    rfl, by decide, rfl, by decide, rfl, by decide, by decide, _, List.mem_cons_self, rfl, by decide, by decide⟩

/-- A store with an old generation is on its way. -/
theorem witness_Arena_waits : ∃ (s : State) (n a : Nat), s.turn = .event (.arenaDropSweepComplete n a) ∧ s.oldRequests n a = true :=
  ⟨eventAt (.arenaDropSweepComplete 0 1) fun s => { inPart (arena1 .dropping) s with flight := [storeOf 0 { reqTags 0 7 with arena := 1 }] }, 0, 1, rfl,
    by decide⟩

theorem witness_Hyp_swept : ∀ st ∈ [HypState.confirmed, .refuted], ∃ (s : State) (n h : Nat), s.turn = .event (.hypSweepFree n h) ∧ h ≠ 0 ∧
    ((s.ctx n).hyp h).state = st ∧ s.hypUnused n h = true := by
  intro st h
  refine ⟨eventAt (.hypSweepFree 0 1) fun s => s.setCtx 0 { s.ctx 0 with hyps := [(1, ⟨st, 0, 1⟩)] }, 0, 1, rfl, by decide, rfl, ?_⟩
  revert st
  decide

theorem witness_Tlb_swept : ∀ up, ∃ (s : State) (n : Nat), s.turn = .event (.tlbHalfSweepComplete n up) ∧
    (if up then (s.ctx n).sweepHigh else (s.ctx n).sweepLow) = true ∧ (∃ e ∈ s.tlb, e.slot = n ∧ e.tgen = 0x7FFF) ∧ ∃ e ∈ s.tlb, e.slot = n ∧ e.tgen = 0x8000 := by
  intro up
  refine ⟨eventAt (.tlbHalfSweepComplete 0 up) fun s => { s.setCtx 0 { s.ctx 0 with sweepLow := true, sweepHigh := true } with
    tlb := [⟨0, 0x7FFF, 1⟩, ⟨0, 0x8000, 2⟩] }, 0, rfl, ?_, ⟨_, List.mem_cons_self, rfl, rfl⟩, _, List.mem_cons_of_mem _ List.mem_cons_self, rfl, rfl⟩
  cases up <;> rfl

theorem witness_Slot_swept : ∃ (s : State) (n : Nat), s.turn = .event (.contextSlotSweepComplete n) ∧ (s.ctx n).live = true ∧
    (s.ctx n).freeing = true ∧ (s.ctx n).reclaimed = true ∧ (∀ u ∈ s.units, u.slot = n → u.complete = true) ∧
    ∀ q ∈ s.queues, q.2.slot = n → q.2.entries = [] ∧ q.2.vent = [] ∧ q.2.held = [] :=
  ⟨eventAt (.contextSlotSweepComplete 0) fun s => { s.setCtx 0 { s.ctx 0 with freeing := true, reclaimed := true } with units := [], queues := [(3, queue 0)] }, 0, rfl, rfl, rfl,
    rfl, by decide, by decide⟩

/-- A request of die 1 over a link to die 0, with its number or without, and the state of the pair; the links of die 1 are up or down. -/
def messageAt (seq : Option (BitVec 16)) (p : PairState) (up : Bool := true) : State :=
  eventAt (.dieMessageArrival 0) fun s => { s with
    flight := [{ storeOf 1 reqTags true with seq := seq }]
    pairs := NMap.insert s.pairs 4 p
    modules := if up then s.modules else (List.range 18).map fun m => (18 + m, ⟨0, 0, 0, 2, false, 0⟩) }

/-- A request that has no number: 255 others are not answered, or 254 are not. -/
theorem witness_Message_numbered : ∀ k ∈ [255, 254], ∃ (s : State) (i : Nat) (r : Req),
    s.turn = .event (.dieMessageArrival i) ∧ s.flight[i]? = some r ∧ r.onLink = true ∧ r.seq = none ∧
    (s.pair r.die r.home).span = k := by
  intro k h
  refine ⟨messageAt none ⟨BitVec.ofNat 16 k, [{ storeOf 1 reqTags true with seq := some 0 }], 0, []⟩, 0,
    { storeOf 1 reqTags true with seq := none }, rfl, rfl, rfl, rfl, ?_⟩
  revert k
  decide

/-- A newer one; one at the far end of the window, and one beyond it. -/
theorem witness_Message : ∀ x ∈ [((4 : BitVec 16), true, false), (260, false, true), (261, false, false)],
    ∃ (s : State) (i : Nat) (r : Req) (n : BitVec 16),
    s.turn = .event (.dieMessageArrival i) ∧ s.flight[i]? = some r ∧ r.onLink = true ∧ s.linkOpen r.die r.home r.module = true ∧ s.nextOnLink r = true ∧ r.seq = some n ∧
    (let p := s.pair r.die r.home
     (seqNewer n p.newest, decide ((p.newest - n).toNat < 256)) = x.2) := by
  intro x h
  simp only [List.mem_cons, List.not_mem_nil, or_false] at h
  refine ⟨messageAt (some 5) ⟨6, [], x.1, []⟩, 0, { storeOf 1 reqTags true with seq := some 5 }, 5, rfl, rfl, rfl, ?_, ?_, rfl, ?_⟩ <;>
    rcases h with rfl | rfl | rfl <;> decide

/-- A message that was sent before stands on the link. -/
theorem witness_Message_behind : ∃ (s : State) (i : Nat) (r : Req) (n : BitVec 16), s.turn = .event (.dieMessageArrival i) ∧
    s.flight[i]? = some r ∧ r.onLink = true ∧ s.linkOpen r.die r.home r.module = true ∧ s.nextOnLink r = false ∧ r.seq = some n :=
  ⟨{ messageAt (some 5) ⟨6, [], 4, []⟩ with
      flight := [{ storeOf 1 reqTags true with seq := some 5, sent := 2 }, { storeOf 1 reqTags true with seq := some 4, sent := 1 }] }, 0, _, 5, rfl, rfl, rfl,
    by decide, by decide, rfl⟩

theorem witness_Message_link_down : ∃ (s : State) (i : Nat) (r : Req) (n : BitVec 16), s.turn = .event (.dieMessageArrival i) ∧
    s.flight[i]? = some r ∧ r.onLink = true ∧ s.linkOpen r.die r.home r.module = false ∧ r.seq = some n :=
  ⟨messageAt (some 5) ⟨6, [], 4, []⟩ false, 0, _, 5, rfl, rfl, rfl, by decide, rfl⟩

/-- A resend of a request that was executed, and of one that was not. -/
theorem witness_Message_again : ∀ done ∈ [[(5 : BitVec 16)], []], ∃ (s : State) (j : Nat) (r : Req) (n : BitVec 16),
    s.turn = .event (.dieMessageArrival (s.flight.length + j)) ∧ s.resends[j]? = some r ∧ r.seq = some n ∧
    s.linkOpen r.die r.home r.module = true ∧ s.nextOnLink r = true ∧ (s.pair r.die r.home).executed = done := by
  intro done h
  refine ⟨{ messageAt (some 5) ⟨6, [], 5, done⟩ with flight := [], resends := [{ storeOf 1 reqTags true with seq := some 5 }] }, 0,
    { storeOf 1 reqTags true with seq := some 5 }, 5, rfl, rfl, rfl, ?_, ?_, rfl⟩ <;> revert done <;> decide

theorem witness_Response : ∀ b ∈ [true, false], ∃ (s : State) (i : Nat) (a : Ack), s.turn = .event (.dieResponseArrival i) ∧ s.acks[i]? = some a ∧
    (s.pair a.dst a.src).buffer.any (fun r => r.seq = some a.seq) = b := by
  intro b h
  refine ⟨eventAt (.dieResponseArrival 0) fun s => { s with acks := [⟨0, 1, 5, 0, 0⟩] }.setPair 1 0
    ⟨6, if b then [{ storeOf 1 with seq := some 5 }] else [], 0, []⟩, 0, _, rfl, rfl, ?_⟩
  cases b <;> rfl

theorem witness_Links : ∃ s : State, ∀ d m, d < 4 → m < 18 → (s.module d m).retraining = false ∧ (s.module d m).width ≠ 2 := ⟨State.reset, fun _ _ _ _ => ⟨rfl, (by decide : (0 : BitVec 2) ≠ 2)⟩⟩

/-- The far module has a message to send, or none; and the module retrains. -/
theorem witness_Flit : ∀ x ∈ [(true, false), (false, false), (true, true)], ∃ (s : State) (d m : Nat), d < 4 ∧ m < 18 ∧
    s.turn = .event (.flitCrcFail d m) ∧ s.carries d m = x.1 ∧ (s.module d m).up = !x.2 := by
  intro x h
  refine ⟨(eventAt (.flitCrcFail 0 0) fun s => { s with flight := if x.1 then [storeOf 1 reqTags true] else [] }).setModule 0 0 ⟨0, 0, 0, 0, x.2, 0⟩, 0, 0,
    by decide, by decide, rfl, ?_, ?_⟩ <;> revert x <;> decide

/-- The last module of the last die. -/
theorem witness_Link_retrained : ∃ (s : State) (d m w r : Nat), d < 4 ∧ m < 18 ∧ s.turn = .event (.linkRetrainComplete d m w r) ∧
    (s.module d m).retraining = true ∧ w < 3 ∧ (s.module d m).width.toNat ≤ w :=
  ⟨eventAt (.linkRetrainComplete 3 17 2 0) fun s => s.setModule 3 17 ⟨0, 0, 0, 0, true, 0⟩, 3, 17, 2, 0, by decide, by decide, rfl, rfl, by decide, by decide⟩

/-! ## Witnesses: errors and retirement -/

theorem witness_Error_corrected : ∃ (s : State) (p : ErrPlace), s.turn = .event (.correctableError p) := ⟨eventAt (.correctableError (.granule 0)), _, rfl⟩

theorem witness_Error_granule : ∃ (s : State) (p : ErrPlace), s.turn = .event (.uncorrectableError p) ∧ (∀ i, p ≠ .l1Line i) ∧ (∀ i g, p ≠ .version i g) ∧
    ∀ i o, p ≠ .fabric i o :=
  ⟨eventAt (.uncorrectableError (.granule 0)), _, rfl, nofun, nofun, nofun⟩

/-- A version of the mapped line under hypothesis 1, and a store that is on its way to it. -/
theorem witness_Error_version : ∃ (s : State) (i g : Nat) (v : Version), s.turn = .event (.uncorrectableError (.version i g)) ∧ s.versions[i]? = some v :=
  ⟨eventAt (.uncorrectableError (.version 0 3)) fun s => { s with versions := [⟨0, 1, 0x10000, 0, ⟨List.replicate 128 0, []⟩, 0, false, 0⟩] }, 0, 3, _, rfl, rfl⟩

theorem witness_Error_fabric : ∃ (s : State) (i o : Nat) (r : Req) (b : Byte), s.turn = .event (.uncorrectableError (.fabric i o)) ∧ s.flight[i]? = some r ∧
    NMap.find? r.bytes o = some b :=
  ⟨eventAt (.uncorrectableError (.fabric 0 0x10)) fun s => { s with flight := [storeOf 0] }, 0, 0x10, _, _, rfl, rfl, rfl⟩

/-- A clean line, and one with a dirty byte. -/
theorem witness_Error_line : ∀ d ∈ [(0 : BitVec 128), 1], ∃ (s : State) (i : Nat) (l : L1Line), s.turn = .event (.uncorrectableError (.l1Line i)) ∧
    s.l1[i]? = some l ∧ l.dirty = d :=
  fun d _ => ⟨eventAt (.uncorrectableError (.l1Line 0)) fun s => { s with l1 := [cached d] }, 0, _, rfl, rfl, rfl⟩

/-- A core with a team, and one that is retired. -/
theorem witness_Logic_fault : ∃ (s : State) (c : Nat), s.turn = .event (.coreLogicFault c) ∧ (s.core c).retired = false ∧
    ∃ tm ∈ s.residents c, ∃ u, s.unit? tm.unit = some u := ⟨eventAt (.coreLogicFault 0), 0, rfl, rfl, _, List.mem_cons_self, _, rfl⟩

theorem witness_Logic_fault_retired : ∃ (s : State) (c : Nat), s.turn = .event (.coreLogicFault c) ∧ (s.core c).retired = true :=
  ⟨eventAt (.coreLogicFault 7) fun s => s.setCore 7 { s.core 7 with retired := true }, 7, rfl, rfl⟩

theorem witness_Retire_open : ∃ (s : State) (c : Nat), s.turn = .event (.coreRetire c) ∧ (s.core c).retired = false ∧ (s.core c).closing = false :=
  ⟨eventAt (.coreRetire 255), 255, rfl, rfl, rfl⟩

/-- The island's spare stands idle, or is in use. -/
theorem witness_Retire_empty : ∀ b ∈ [false, true], ∃ (s : State) (c : Nat), s.turn = .event (.coreRetire c) ∧ (s.core c).retired = false ∧
    (s.core c).closing = true ∧ s.coreEmpty c = true ∧ s.dirtyTiles c = false ∧ (s.cluster (c / 4)).retired = false ∧ (s.island (c / 16)).spareUsed = b := by
  intro b h
  refine ⟨eventAt (.coreRetire 16) fun s => (s.setCore 16 { s.core 16 with closing := true }).setIsland 1 { s.island 1 with spareUsed := b }, 16, rfl, rfl, rfl,
    ?_, rfl, rfl, rfl⟩
  cases b <;> decide

theorem witness_Cluster_retire : ∃ (s : State) (c : Nat), s.turn = .event (.clusterRetire c) := ⟨eventAt (.clusterRetire 63), 63, rfl⟩

theorem witness_Cluster_return : ∃ (s : State) (c : Nat), s.turn = .event (.clusterReturnToService c) ∧ (s.cluster c).quarantined = true ∧
    (s.cluster c).retired = false :=
  ⟨eventAt (.clusterReturnToService 3) fun s => s.setCluster 3 { s.cluster 3 with quarantined := true }, 3, rfl, rfl, rfl⟩

theorem witness_Channel : ∃ (s : State) (st ch : Nat) (m : PageMove) (g : Page) (k : Nat) (p : Partition) (c' : Context),
    s.turn = .event (.hbmChannelRetire st ch [m]) ∧ s.Inv ∧ NMap.find? (s.ctx m.slot).pages (m.va / 65536) = some g ∧
    s.partOf m.slot = some (k, p) ∧ (s.ctx m.slot).bumpTgen = some c' ∧ physClass g.phys = 0 ∧ m.dst % g.size = 0 ∧
    s.quietRange g.phys g.size = true ∧ s.poolFree p (dieOfPhys g.phys) g.size m.dst = true :=
  ⟨eventAt (.hbmChannelRetire 0 0 [⟨0, 0x10000, 0x40000⟩]) fun s => { inPart id s with parts := [(0, { part0 with payload := 2 ^ 20 })] }, 0, 0, ⟨0, 0x10000, 0x40000⟩, _, _, _, _, rfl, rfl, rfl, rfl, rfl, by decide, by decide,
    by decide, by decide⟩

theorem witness_Row_repair : ∃ (s : State) (st ch row : Nat), s.turn = .event (.hbmRowRepair st ch row) := ⟨eventAt (.hbmRowRepair 0 0 0), 0, 0, 0, rfl⟩

/-! ## Witnesses: the outside, boots, islands -/

/-- Partition 0 with a base of the aperture, and connection 5 over port 3 that may read, write and add 0x1000 bytes from 0x8000 on. -/
def outsidePart (s : State) : State :=
  { s with
    parts := [(0, { part0 with
      imports := [(5, leBytes 64 8)]
      exports := [(0, leBytes 64 (0x8000 + 0x1000 * 2 ^ 64 + 0xABCD * 2 ^ 128 + 7 * 2 ^ 160 + 5 * 2 ^ 192))] })]
    port := { s.port with bar2 := [(1, 0x1000)], portsUp := 8 } }

theorem witness_Host_access : ∀ w ∈ [true, false], ∃ (s : State) (fn off n : Nat) (v : W64) (p : Partition), fn ≠ 0 ∧
    NMap.find? s.parts (fn - 1) = some p ∧ s.port.recovery = false ∧ off + n ≤ 2 ^ 36 ∧ n ≤ 8 ∧
    (let pa := (NMap.get s.port.bar2 0 fn).toNat + off
     p.holds pa n = true ∧ s.turn = .event (.hostApertureAccess fn false off n w v) ∧ s.outsideReach 0 (s.physPlaces pa n) = true ∧
     s.outsideReady 0 (s.physPlaces pa n) = true ∧ NMap.find? s.contexts 64 = none ∧ 0 < n ∧ pa % 128 + n ≤ 128) :=
  fun w _ => ⟨eventAt (.hostApertureAccess 1 false 0x78 8 w 7) outsidePart, 1, 0x78, 8, 7, _, by decide, rfl, rfl, by decide, by decide,
    by cases w <;> decide, rfl, by cases w <;> decide, by cases w <;> decide, rfl, by decide, by cases w <;> decide⟩

/-- The last quadword of the control page of the physical function that has a meaning, and the first of a virtual one. -/
theorem witness_Register_read : ∀ x ∈ [(0, 0x8000 + 8 * 71), (1, 0)], ∃ (s : State) (fn o : Nat) (v : W64) (w : Nat),
    s.turn = .event (.hostApertureAccess fn true o 8 false v) ∧ fn ≤ 8 ∧ o % 8 = 0 ∧ o + 8 ≤ 2 ^ 25 ∧ s.bar0Quad fn o = some w ∧
    s.outsideReach 0 (s.recordPlaces fn o 8) = true ∧ (fn, o) = x := by
  intro x h
  simp only [List.mem_cons, List.not_mem_nil, or_false] at h
  rcases h with rfl | rfl
  · exact ⟨eventAt (.hostApertureAccess 0 true (0x8000 + 8 * 71) 8 false 0), 0, 0x8000 + 8 * 71, 0, _, rfl, by decide, by decide, by decide, rfl, by decide, rfl⟩
  · exact ⟨eventAt (.hostApertureAccess 1 true 0 8 false 0), 1, 0, 0, _, rfl, by decide, by decide, by decide, rfl, by decide, rfl⟩

/-- The device in recovery. -/
def recovering (s : State) : State := { s with port := { s.port with recovery := true, boot := 0x80 } }

/-- The last 8 bytes of the recovery buffer. -/
theorem witness_Recovery_buffer : ∀ w ∈ [true, false], ∃ (s : State) (off n : Nat) (v : W64), s.port.recovery = true ∧ off + n ≤ 2 ^ 26 ∧ n ≤ 8 ∧
    s.turn = .event (.hostApertureAccess 0 false off n w v) :=
  fun w _ => ⟨eventAt (.hostApertureAccess 0 false 0x3FFFFF8 8 w 7) recovering, 0x3FFFFF8, 8, 7, rfl, by decide, by decide, rfl⟩

/-- With the wrong key, and each kind of request with the right one. -/
theorem witness_Peer_request : ∀ x ∈ [((0 : W32), PeerOp.read 0 8, none), (0xABCD, .read 0xFF8 8, some 0x8FF8), (0xABCD, .write 0 [1, 2], some 0x8000),
      (0xABCD, .fetchAdd 8 1, some 0x8008), (0xABCD, .cas 8 0 1, some 0x8008), (0xABCD, .cas 8 1 0, some 0x8008)],
    ∃ (s : State) (part conn : Nat) (p : Partition) (port : Nat), s.turn = .event (.peerIncomingRequest part conn x.1 x.2.1) ∧
      NMap.find? s.parts part = some p ∧ s.portFor p conn = some port ∧ p.admits conn x.1 x.2.1 = x.2.2 ∧ NMap.find? s.contexts 64 = none ∧
      ∀ pa, x.2.2 = some pa → s.outsideReach (dieOfPort port) (s.physPlaces pa (peerRange x.2.1).2) = true ∧
        s.outsideReady (dieOfPort port) (s.physPlaces pa (peerRange x.2.1).2) = true ∧ pa % 128 + (peerRange x.2.1).2 ≤ 128 ∧
        0 < (peerRange x.2.1).2 ∧ s.poisoned pa 8 = false ∧ leNat (s.bytes pa 8) = 0 := by
  intro x h
  refine ⟨eventAt (.peerIncomingRequest 0 5 x.1 x.2.1) outsidePart, 0, 5, _, 3, rfl, rfl, ?_, ?_, rfl, ?_⟩
  · decide +revert
  · revert x; decide
  · intro pa hp
    simp only [List.mem_cons, List.not_mem_nil, or_false] at h
    rcases h with rfl | rfl | rfl | rfl | rfl | rfl <;> cases hp <;> decide

/-- Of a connection that no import entry names. -/
theorem witness_Peer_unknown : ∃ (s : State) (part conn : Nat) (key : W32) (op : PeerOp) (p : Partition),
    s.turn = .event (.peerIncomingRequest part conn key op) ∧ NMap.find? s.parts part = some p ∧ NMap.find? p.imports conn = none :=
  ⟨eventAt (.peerIncomingRequest 0 6 0xABCD (.read 0 8)) outsidePart, 0, 6, _, _, _, rfl, rfl, rfl⟩

/-- A team that waits for 8 bytes of host memory. -/
def waitingAt (e : Event) : State :=
  eventAt e (fun s => { s.setCtx 0 { s.ctx 0 with pages := NMap.insert (s.ctx 0).pages 3 ⟨2 ^ 54, 0, 0, true, true, false, false⟩ } with clock := 2100000 })
    fun tm => { with1 0x30000 false 0 tm with state := .blocked, wait := some .remote, remote := some ⟨.ldd ⟨2, 1, 0⟩, [(0, 2 ^ 54, 8)], false, 0⟩ }

theorem witness_Peer_response : ∃ (s : State) (t : Nat) (tm : Team) (r : RemoteOp) (f : SI) (data : List Byte) (pl : Place), s.teams[t]? = some tm ∧
    tm.remote = some r ∧ tm.state = .blocked ∧ r.lane = false ∧ r.word = .ldd f ∧ s.turn = .event (.peerResponseArrival (.team t) data) ∧
    s.gated tm.core = false ∧ s.oldInc tm = false ∧ (∀ p ∈ r.places, s.answers tm p.2.1 = true) ∧ (r.places.foldl (fun a p => a + p.2.2) 0) = data.length ∧ data.length = 8 ∧
    s.scalarPlaces (tm.answered s.clock) .load 1 (tm.rd f.a + f.i.signExtend 64) 8 = .ok [pl] ∧ pl.remote = true ∧ pl.len = 8 :=
  ⟨waitingAt (.peerResponseArrival (.team 8) [1, 2, 3, 4, 5, 6, 7, 8]), 8, _, _, ⟨2, 1, 0⟩, _, _, rfl, rfl, rfl, rfl, rfl, rfl, by decide, by decide, by decide, rfl, rfl, rfl,
    rfl, rfl⟩

theorem witness_Peer_timeout : ∃ (s : State) (t : Nat) (tm : Team) (r : RemoteOp) (f : SI), s.teams[t]? = some tm ∧ tm.remote = some r ∧
    tm.state = .blocked ∧ r.lane = false ∧ r.word = .ldd f ∧ s.turn = .event (.peerTimeout (.team t)) ∧ r.since + 2100000 ≤ s.clock ∧ tm.ctrl = none ∧
    tm.level = 0 ∧ tm.holding = none ∧ s.replays tm = false ∧ s.gated tm.core = false ∧ s.frameReached tm = true :=
  ⟨waitingAt (.peerTimeout (.team 8)), 8, _, _, ⟨2, 1, 0⟩, rfl, rfl, rfl, rfl, rfl, rfl, by decide, rfl, rfl, rfl, by decide, by decide, by decide⟩

/-- The answer for a team whose incarnation is killed. -/
theorem witness_Peer_response_old : ∃ (s : State) (t : Nat) (tm : Team) (r : RemoteOp) (f : SI) (data : List Byte), s.teams[t]? = some tm ∧
    tm.remote = some r ∧ tm.state = .blocked ∧ r.lane = false ∧ r.word = .ldd f ∧ s.turn = .event (.peerResponseArrival (.team t) data) ∧
    s.gated tm.core = false ∧ s.oldInc tm = true ∧ (∀ p ∈ r.places, s.answers tm p.2.1 = true) ∧ (r.places.foldl (fun a p => a + p.2.2) 0) = data.length :=
  ⟨let s := waitingAt (.peerResponseArrival (.team 8) [1, 2, 3, 4, 5, 6, 7, 8]); s.setCtx 0 { s.ctx 0 with inc := 1 }, 8, _, _, ⟨2, 1, 0⟩, _, rfl, rfl,
    rfl, rfl, rfl, rfl, by decide, by decide, by decide, rfl⟩

theorem witness_Posted_write : ∀ e ∈ [Event.peerResponseArrival (.posted 0) [], .peerTimeout (.posted 0)], ∃ (s : State) (w : PostedWrite),
    s.posted[0]? = some w ∧ s.turn = .event e ∧ s.answers (s.ownerOf w.team w.slot) w.line = true ∧ w.since + 2100000 ≤ s.clock := by
  intro e h
  refine ⟨eventAt e fun s => { s with posted := [⟨2 ^ 54, [(0, 1)], 0, 0, 0, 8, 0, false⟩], clock := 2100000 }, ⟨2 ^ 54, [(0, 1)], 0, 0, 0, 8, 0, false⟩,
    rfl, rfl, ?_, (by decide : 0 + 2100000 ≤ 2100000)⟩
  simp only [List.mem_cons, List.not_mem_nil, or_false] at h
  rcases h with rfl | rfl <;> decide

/-- The acknowledgement of a write whose incarnation is killed. -/
theorem witness_Posted_write_old : ∃ (s : State) (w : PostedWrite), s.posted[0]? = some w ∧ s.turn = .event (.peerResponseArrival (.posted 0) []) ∧
    s.answers (s.ownerOf w.team w.slot) w.line = true ∧ w.slot < 64 ∧ w.inc ≠ (s.ctx w.slot).inc :=
  ⟨eventAt (.peerResponseArrival (.posted 0) []) fun s => { s with posted := [⟨2 ^ 54, [(0, 1)], 0, 4095, 0, 8, 0, false⟩] }, ⟨2 ^ 54, [(0, 1)], 0, 4095, 0, 8, 0, false⟩,
    rfl, rfl, by decide, by decide, by decide⟩

theorem witness_Stray : ∀ inc ∈ [(0 : BitVec 12), 4095], ∃ (s : State) (w : Stray) (data : List Byte), s.stray[0]? = some w ∧
    s.turn = .event (.peerResponseArrival (.stray 0) data) ∧ w.inc = inc ∧ (s.ctx w.slot).inc = 0 :=
  fun inc _ => ⟨eventAt (.peerResponseArrival (.stray 0) [1]) fun s => { s with stray := [⟨0, inc, 0⟩] }, ⟨0, inc, 0⟩, _, rfl, rfl, rfl, rfl⟩

theorem witness_Register_base : ∃ (s : State) (fn : Nat) (v : W64), s.turn = .event (.registerWrite fn 0x10 v) ∧ fn ≤ 8 :=
  ⟨eventAt (.registerWrite 8 0x10 0x2000), 8, _, rfl, by decide⟩

theorem witness_Register_failures : ∃ (s : State) (fn : Nat) (v : W64) (p : Partition) (q : Nat),
    s.turn = .event (.registerWrite fn (0x400000 + 2048 * q + 8) v) ∧ fn ≤ 8 ∧ fn ≠ 0 ∧ NMap.find? s.parts (fn - 1) = some p ∧ q ∈ p.queues ∧ q < 1024 ∧
    NMap.find? s.contexts 64 = none ∧ s.outsideReady 0 (s.physPlaces (p.failBase + 2048 * q + 8) 4) = true ∧ (p.failBase + 2048 * q + 8) % 128 ≤ 124 :=
  ⟨eventAt (.registerWrite 1 (0x400000 + 2048 * 3 + 8) 2) outsidePart, 1, 2, _, 3, rfl, by decide, by decide, rfl, by decide, by decide, rfl, by decide,
    by decide⟩

theorem witness_Ethernet : ∃ (s : State) (k : Nat) (up : Bool), s.turn = .event (.ethernetPortLinkChange k up) ∧ k < 8 :=
  ⟨eventAt (.ethernetPortLinkChange 7 true), 7, true, rfl, by decide⟩

/-- An image of the least size: a payload of 0 bytes. -/
def image0 : List Byte := leBytes 128 (0x4D495842 + 2 ^ 32) ++ List.replicate (3309 + 1952) 0

/-- An image that is too short; one whose key is none; and one whose key is not that of the digest, or is. -/
theorem witness_Image_short : headerOk ((leBytes 128 (0x4D495842 + 2 ^ 32)) ++ List.replicate 5260 0) = false := by decide +kernel

theorem witness_Image_ok : headerOk image0 = true := by decide +kernel

/-- The number of its key, 0, and that of an image that names a key that does not exist. -/
theorem witness_Image_index : bitsAt (headerOf image0) 224 8 < 4 ∧
    ¬bitsAt (headerOf (leBytes 128 (0x4D495842 + 2 ^ 32 + 4 * 2 ^ 224) ++ List.replicate (3309 + 1952) 0)) 224 8 < 4 := by decide +kernel

theorem witness_Image_keys : ∀ pub : List Byte, (∃ d, bytesOf (Config.shake256 pub) 32 = d) ∧ ∃ d, bytesOf (Config.shake256 pub) 32 ≠ d :=
  fun pub => ⟨⟨_, rfl⟩, [], fun h => by simpa [bytesOf] using congrArg List.length h⟩

theorem witness_Reset : ∀ bad ∈ [none, some 3], ∃ (s : State) (b : BootInput), s.turn = .event (.deviceReset b) ∧ b.badDie = bad ∧
    ∀ d, bad = some d → d < 4 := by
  intro bad h
  refine ⟨eventAt (.deviceReset ⟨image0, 0x10000, bad⟩), ⟨image0, 0x10000, bad⟩, rfl, rfl, ?_⟩
  revert bad
  decide

theorem witness_Recovery_boot : ∀ bad ∈ [none, some 3], ∃ (s : State) (payload : Nat), s.turn = .event (.recoveryBootWrite 1 payload bad) ∧
    s.port.recovery = true ∧ s.teams ≠ [] := fun bad _ => ⟨eventAt (.recoveryBootWrite 1 0x10000 bad) recovering, 0x10000, rfl, rfl, nofun⟩

/-- Island 1 and 8 MiB for partition 1. -/
def spec1 : PartSpec where
  islands := [1]
  ranges := [(0x800000, 0x800000)]
  slots := [4, 5]
  queues := [7]
  shareCeil := [64, 64, 64]
  tokenCeil := []
  ctrl := 2
  frameBase := 0x800000
  frames := 16
  saveBytes := 2 ^ 19
  failBase := 0xA00000
  audit := some 1
  floor := 0
  keys := [List.replicate 32 7]

theorem witness_Partition_create : ∃ (s : State) (n : Nat) (r : PartSpec) (b : BootInput), s.turn = .event (.partitionCreate n r b) ∧
    s.port.boot = 1 ∧ n < 8 ∧ NMap.find? s.parts n = none ∧ s.specOk r = true ∧
    (partitionOf r b.payload b.image).holds b.payload (payloadOf b.image).length = true ∧ (partitionOf r b.payload b.image).ctrl ≠ 0 ∧
    (partitionOf r b.payload b.image).ctrl < s.teams.length :=
  ⟨eventAt (.partitionCreate 1 spec1 ⟨image0, 0xC00000, none⟩) fun s => { outsidePart s with port := { s.port with boot := 1 } }, 1, _, _, rfl, rfl,
    by decide, rfl, by decide +kernel, by decide +kernel, by decide, by decide⟩

theorem witness_Partition_stop : ∃ (s : State) (n : Nat) (p : Partition) (image : List Byte), NMap.find? s.parts n = some p ∧
    s.turn = .event (.partitionRestart n image) ∧ p.running = true ∧ (∀ k ∈ p.slots, (s.ctx k).killTooFar = false) ∧ p.slots.Nodup :=
  ⟨eventAt (.partitionRestart 0 image0) outsidePart, 0, _, image0, rfl, rfl, rfl, by decide, by decide⟩

theorem witness_Partition_start : ∃ (s : State) (n : Nat) (p : Partition) (image : List Byte), NMap.find? s.parts n = some p ∧
    s.turn = .event (.partitionRestart n image) ∧ p.running = false ∧ s.partitionQuiet p = true ∧
    p.holds p.payload (payloadOf image).length = true ∧ p.ctrl ≠ 0 ∧ p.ctrl < s.teams.length :=
  ⟨eventAt (.partitionRestart 0 image0) fun s => { s with
      parts := [(0, { part0 with running := false })]
      contexts := [(0, { Context.free with reclaimed := true }), (1, { Context.free with reclaimed := true })]
      units := [] }, 0, _, image0, rfl, rfl, rfl, by decide, by decide +kernel, by decide, by decide⟩

theorem witness_Island_lower : ∃ (s : State) (i l : Nat), i < 16 ∧ l < 8 ∧ s.turn = .event (.islandLimitLower i l) ∧ (s.island i).limit < l :=
  ⟨eventAt (.islandLimitLower 15 6) fun s => s.setIsland 15 { s.island 15 with limit := 5 }, 15, 6, by decide, by decide, rfl, by decide⟩

theorem witness_Island_raise : ∃ (s : State) (i l : Nat), i < 16 ∧ l < 8 ∧ s.turn = .event (.islandLimitRaise i l) ∧ l < (s.island i).limit :=
  ⟨eventAt (.islandLimitRaise 15 4) fun s => s.setIsland 15 { s.island 15 with limit := 5 }, 15, 4, by decide, by decide, rfl, by decide⟩

theorem witness_Island_done : ∃ (s : State) (i : Nat), s.turn = .event (.islandStepChangeDone i) := ⟨eventAt (.islandStepChangeDone 0), 0, rfl⟩

end Sys2Proof.Tests
end

section
/-!
The scalar stream (06:R168, R170, R175, R176): the register operations of the model as arithmetic on the numbers that registers stand for, the
words that write one register, and the entry of a handler at level 1 (16:R370, R371).
-/
namespace Sys2Proof

/-! ## Register operations as arithmetic -/

section Arithmetic

variable {w : Nat} (a b : BitVec w)

theorem sub_eq_ofInt_toInt : a - b = BitVec.ofInt w (a.toInt - b.toInt) := by
  apply BitVec.eq_of_toInt_eq
  rw [BitVec.toInt_sub, BitVec.toInt_ofInt]

theorem mul_eq_ofNat_toNat : a * b = BitVec.ofNat w (a.toNat * b.toNat) := by
  rw [BitVec.ofNat_mul, BitVec.ofNat_toNat, BitVec.ofNat_toNat, BitVec.setWidth_eq, BitVec.setWidth_eq]

theorem sdiv_eq_ofInt_tdiv : a.sdiv b = BitVec.ofInt w (a.toInt.tdiv b.toInt) := by
  apply BitVec.eq_of_toInt_eq
  rw [BitVec.toInt_sdiv, BitVec.toInt_ofInt]

theorem srem_eq_ofInt_tmod : a.srem b = BitVec.ofInt w (a.toInt.tmod b.toInt) := by
  rw [← BitVec.toInt_srem, BitVec.ofInt_toInt]

theorem umod_eq_ofNat_mod : a % b = BitVec.ofNat w (a.toNat % b.toNat) := by
  rw [← BitVec.toNat_umod, BitVec.ofNat_toNat, BitVec.setWidth_eq]

theorem shiftLeft_eq_ofNat_mul (n : Nat) : a <<< n = BitVec.ofNat w (a.toNat * 2 ^ n) := by
  apply BitVec.eq_of_toNat_eq
  rw [BitVec.toNat_shiftLeft, BitVec.toNat_ofNat, Nat.shiftLeft_eq]

theorem ofInt_shiftLeft (x : Int) (n : Nat) : BitVec.ofInt w x <<< n = BitVec.ofInt w (x * 2 ^ n) := by
  have hn : BitVec.twoPow w n = BitVec.ofInt w (2 ^ n) := by
    apply BitVec.eq_of_toNat_eq
    rw [BitVec.toNat_twoPow, BitVec.toNat_ofInt]
    norm_cast
  rw [BitVec.shiftLeft_eq_mul_twoPow, BitVec.ofInt_mul, hn]

theorem ushiftRight_eq_ofNat_div (n : Nat) : a >>> n = BitVec.ofNat w (a.toNat / 2 ^ n) := by
  rw [← Nat.shiftRight_eq_div_pow, ← BitVec.toNat_ushiftRight, BitVec.ofNat_toNat, BitVec.setWidth_eq]

theorem sshiftRight_eq_ofInt_div (n : Nat) : a.sshiftRight n = BitVec.ofInt w (a.toInt / 2 ^ n) := by
  rw [BitVec.sshiftRight_eq, Int.shiftRight_eq_div_pow]
  norm_cast

theorem ite_slt_eq_ofInt_min : (if a.slt b then a else b) = BitVec.ofInt w (min a.toInt b.toInt) := by
  by_cases h : a.toInt < b.toInt
  · rw [if_pos (BitVec.slt_iff_toInt_lt.2 h), min_eq_left h.le, BitVec.ofInt_toInt]
  · rw [if_neg (mt BitVec.slt_iff_toInt_lt.1 h), min_eq_right (not_lt.1 h), BitVec.ofInt_toInt]

theorem ite_slt_eq_ofInt_max : (if a.slt b then b else a) = BitVec.ofInt w (max a.toInt b.toInt) := by
  by_cases h : a.toInt < b.toInt
  · rw [if_pos (BitVec.slt_iff_toInt_lt.2 h), max_eq_right h.le, BitVec.ofInt_toInt]
  · rw [if_neg (mt BitVec.slt_iff_toInt_lt.1 h), max_eq_left (not_lt.1 h), BitVec.ofInt_toInt]

theorem ite_ult_eq_ofNat_min : (if a.ult b then a else b) = BitVec.ofNat w (min a.toNat b.toNat) := by
  by_cases h : a.toNat < b.toNat
  · rw [if_pos (BitVec.ult_iff_toNat_lt.2 h), min_eq_left h.le, BitVec.ofNat_toNat, BitVec.setWidth_eq]
  · rw [if_neg (mt BitVec.ult_iff_toNat_lt.1 h), min_eq_right (not_lt.1 h), BitVec.ofNat_toNat, BitVec.setWidth_eq]

theorem ite_ult_eq_ofNat_max : (if a.ult b then b else a) = BitVec.ofNat w (max a.toNat b.toNat) := by
  by_cases h : a.toNat < b.toNat
  · rw [if_pos (BitVec.ult_iff_toNat_lt.2 h), max_eq_right h.le, BitVec.ofNat_toNat, BitVec.setWidth_eq]
  · rw [if_neg (mt BitVec.ult_iff_toNat_lt.1 h), max_eq_left (not_lt.1 h), BitVec.ofNat_toNat, BitVec.setWidth_eq]

end Arithmetic

/-- The upper half of a number of 128 bits. -/
theorem highHalf_ofInt (x : Int) : (BitVec.ofInt 128 x).extractLsb' 64 64 = BitVec.ofInt 64 (x / 2 ^ 64) := by
  apply BitVec.eq_of_toNat_eq
  rw [BitVec.extractLsb'_toNat, BitVec.toNat_ofInt, BitVec.toNat_ofInt, Nat.shiftRight_eq_div_pow]
  omega

theorem highHalf_signExtend_mul (a b : W64) :
    (a.signExtend 128 * b.signExtend 128).extractLsb' 64 64 = BitVec.ofInt 64 (a.toInt * b.toInt / 2 ^ 64) := by
  rw [BitVec.signExtend, BitVec.signExtend, ← BitVec.ofInt_mul, highHalf_ofInt]

theorem highHalf_zeroExtend_mul (a b : W64) :
    (a.zeroExtend 128 * b.zeroExtend 128).extractLsb' 64 64 = BitVec.ofNat 64 (a.toNat * b.toNat / 2 ^ 64) := by
  have hx : a.zeroExtend 128 * b.zeroExtend 128 = BitVec.ofInt 128 ((a.toNat * b.toNat : Nat) : Int) := by
    rw [BitVec.ofInt_natCast, BitVec.ofNat_mul, BitVec.ofNat_toNat, BitVec.ofNat_toNat]
  rw [hx, highHalf_ofInt, ← BitVec.ofInt_natCast]
  norm_cast

namespace Machine

theorem flag_slt (a b : W64) : flag (a.slt b) = if a.toInt < b.toInt then 1 else 0 := by
  simp only [flag, BitVec.slt_iff_toInt_lt]

theorem flag_ult (a b : W64) : flag (a.ult b) = if a.toNat < b.toNat then 1 else 0 := by
  simp only [flag, BitVec.ult_iff_toNat_lt]

/-- A branch counts its offset in words (06:R175). -/
theorem wordOffset_eq_ofInt {n : Nat} (o : BitVec n) : wordOffset o = BitVec.ofInt 64 (4 * o.toInt) := by
  rw [wordOffset, BitVec.signExtend, ofInt_shiftLeft, mul_comm]
  rfl

/-! ## What each word computes (06:R168, R170, R175)

An arm of `exec` with its meaning, down to the shape that it shares with the other words of its kind. -/

section Words

variable (s : State)

theorem exec_add (f : SR) : exec (.add f) s = srWord s f fun a b => a + b := rfl
theorem exec_sub (f : SR) : exec (.sub f) s = srWord s f fun a b => a - b := rfl
theorem exec_mul (f : SR) : exec (.mul f) s = srWord s f fun a b => a * b := rfl
theorem exec_mulh (f : SR) : exec (.mulh f) s = srWord s f fun a b => (a.signExtend 128 * b.signExtend 128).extractLsb' 64 64 := rfl
theorem exec_mulhu (f : SR) : exec (.mulhu f) s = srWord s f fun a b => (a.zeroExtend 128 * b.zeroExtend 128).extractLsb' 64 64 := rfl
theorem exec_and (f : SR) : exec (.and f) s = srWord s f fun a b => a &&& b := rfl
theorem exec_or (f : SR) : exec (.or f) s = srWord s f fun a b => a ||| b := rfl
theorem exec_xor (f : SR) : exec (.xor f) s = srWord s f fun a b => a ^^^ b := rfl
theorem exec_shl (f : SR) : exec (.shl f) s = srWord s f fun a b => a <<< (b.toNat % 64) := rfl
theorem exec_shr (f : SR) : exec (.shr f) s = srWord s f fun a b => a >>> (b.toNat % 64) := rfl
theorem exec_sra (f : SR) : exec (.sra f) s = srWord s f fun a b => a.sshiftRight (b.toNat % 64) := rfl
theorem exec_slt (f : SR) : exec (.slt f) s = srWord s f fun a b => flag (a.slt b) := rfl
theorem exec_sltu (f : SR) : exec (.sltu f) s = srWord s f fun a b => flag (a.ult b) := rfl
theorem exec_min (f : SR) : exec (.min f) s = srWord s f fun a b => if a.slt b then a else b := rfl
theorem exec_max (f : SR) : exec (.max f) s = srWord s f fun a b => if a.slt b then b else a := rfl
theorem exec_minu (f : SR) : exec (.minu f) s = srWord s f fun a b => if a.ult b then a else b := rfl
theorem exec_maxu (f : SR) : exec (.maxu f) s = srWord s f fun a b => if a.ult b then b else a := rfl
theorem exec_div (f : SR) : exec (.div f) s = divWord s f fun a b => if b = 0 then BitVec.allOnes 64 else a.sdiv b := rfl
theorem exec_divu (f : SR) : exec (.divu f) s = divWord s f fun a b => if b = 0 then BitVec.allOnes 64 else a / b := rfl
theorem exec_rem (f : SR) : exec (.rem f) s = divWord s f fun a b => if b = 0 then a else a.srem b := rfl
theorem exec_remu (f : SR) : exec (.remu f) s = divWord s f fun a b => if b = 0 then a else a % b := rfl

theorem exec_addi (f : SI) : exec (.addi f) s = siWord s f fun a i => a + i.signExtend 64 := rfl
theorem exec_andi (f : SI) : exec (.andi f) s = siWord s f fun a i => a &&& i.zeroExtend 64 := rfl
theorem exec_ori (f : SI) : exec (.ori f) s = siWord s f fun a i => a ||| i.zeroExtend 64 := rfl
theorem exec_xori (f : SI) : exec (.xori f) s = siWord s f fun a i => a ^^^ i.zeroExtend 64 := rfl
theorem exec_slti (f : SI) : exec (.slti f) s = siWord s f fun a i => flag (a.slt (i.signExtend 64)) := rfl
theorem exec_sltiu (f : SI) : exec (.sltiu f) s = siWord s f fun a i => flag (a.ult (i.signExtend 64)) := rfl
theorem exec_shli (f : SI) : exec (.shli f) s = siWord s f fun a i => a <<< (i.toNat % 64) := rfl
theorem exec_shri (f : SI) : exec (.shri f) s = siWord s f fun a i => a >>> (i.toNat % 64) := rfl
theorem exec_srai (f : SI) : exec (.srai f) s = siWord s f fun a i => a.sshiftRight (i.toNat % 64) := rfl
theorem exec_lui (f : SI) : exec (.lui f) s = siWord s f fun _ i => i.signExtend 64 <<< 16 := rfl
theorem exec_shori (f : SI) : exec (.shori f) s = siWord s f fun a i => (a <<< 16) ||| i.zeroExtend 64 := rfl

theorem exec_beq (f : SB) : exec (.beq f) s = branchWord s f fun a b => a == b := rfl
theorem exec_bne (f : SB) : exec (.bne f) s = branchWord s f fun a b => a != b := rfl
theorem exec_blt (f : SB) : exec (.blt f) s = branchWord s f fun a b => a.slt b := rfl
theorem exec_bge (f : SB) : exec (.bge f) s = branchWord s f fun a b => !a.slt b := rfl
theorem exec_bltu (f : SB) : exec (.bltu f) s = branchWord s f fun a b => a.ult b := rfl
theorem exec_bgeu (f : SB) : exec (.bgeu f) s = branchWord s f fun a b => !a.ult b := rfl

end Words

/-! ## Words that write one register, branches and jumps -/

section OneRegister

variable {s : State} {t : Nat} {tm : Team} (h : s.scalarTeam = some (t, tm))
include h

theorem exec_srWord {i : Instr} {f : SR} {op : W64 → W64 → W64} {x : W64} (hi : exec i s = srWord s f op)
    (hx : op (tm.rd f.a) (tm.rd f.b) = x) : exec i s = .next (s.setTeam t (tm.wr f.d x).advance) := by
  rw [hi, ← hx]
  exact onScalar_some h _

theorem exec_siWord {i : Instr} {f : SI} {op : W64 → BitVec 16 → W64} {x : W64} (hi : exec i s = siWord s f op)
    (hx : op (tm.rd f.a) f.i = x) : exec i s = .next (s.setTeam t (tm.wr f.d x).advance) := by
  rw [hi, ← hx]
  exact onScalar_some h _

/-- A division whose divisor is not 0 is a word that writes one register: DZ is not touched (06:R169). -/
theorem exec_divWord {i : Instr} {f : SR} {op : W64 → W64 → W64} {x : W64} (hi : exec i s = divWord s f op) (hb : tm.rd f.b ≠ 0)
    (hx : op (tm.rd f.a) (tm.rd f.b) = x) : exec i s = .next (s.setTeam t (tm.wr f.d x).advance) := by
  rw [hi, ← hx, divWord, onScalar_some h, decide_eq_false hb]
  rfl

theorem exec_branchWord {i : Instr} {f : SB} {rel : W64 → W64 → Bool} {taken : Prop} [Decidable taken]
    (hi : exec i s = branchWord s f rel) (hx : rel (tm.rd f.a) (tm.rd f.b) = true ↔ taken) :
    exec i s =
      .next (s.setTeam t { tm with pc := if taken then tm.pc + BitVec.ofInt 64 (4 * f.o.toInt) else tm.pc + 4 }) := by
  rw [hi, branchWord, onScalar_some h, if_congr hx rfl rfl, wordOffset_eq_ofInt]
  rfl

end OneRegister

/-- Settles O8: each word is an `srWord` or a `divWord` whose operation is the arithmetic of its row. -/
theorem integerFunctionsWriteTheirResult : Obligations.IntegerFunctionsWriteTheirResult := by
  intro s t tm f h a b n gives
  refine ⟨exec_srWord h (exec_add s f) (BitVec.add_def a b),
    exec_srWord h (exec_sub s f) (sub_eq_ofInt_toInt a b),
    exec_srWord h (exec_mul s f) (mul_eq_ofNat_toNat a b),
    exec_srWord h (exec_mulh s f) (highHalf_signExtend_mul a b),
    exec_srWord h (exec_mulhu s f) (highHalf_zeroExtend_mul a b),
    exec_srWord h (exec_and s f) rfl,
    exec_srWord h (exec_or s f) rfl,
    exec_srWord h (exec_xor s f) rfl,
    exec_srWord h (exec_shl s f) (shiftLeft_eq_ofNat_mul a n),
    exec_srWord h (exec_shr s f) (ushiftRight_eq_ofNat_div a n),
    exec_srWord h (exec_sra s f) (sshiftRight_eq_ofInt_div a n),
    exec_srWord h (exec_slt s f) (flag_slt a b),
    exec_srWord h (exec_sltu s f) (flag_ult a b),
    exec_srWord h (exec_min s f) (ite_slt_eq_ofInt_min a b),
    exec_srWord h (exec_max s f) (ite_slt_eq_ofInt_max a b),
    exec_srWord h (exec_minu s f) (ite_ult_eq_ofNat_min a b),
    exec_srWord h (exec_maxu s f) (ite_ult_eq_ofNat_max a b),
    fun hb => ?_⟩
  exact ⟨exec_divWord h (exec_div s f) hb ((if_neg hb).trans (sdiv_eq_ofInt_tdiv a b)),
    exec_divWord h (exec_divu s f) hb ((if_neg hb).trans BitVec.udiv_def),
    exec_divWord h (exec_rem s f) hb ((if_neg hb).trans (srem_eq_ofInt_tmod a b)),
    exec_divWord h (exec_remu s f) hb ((if_neg hb).trans (umod_eq_ofNat_mod a b))⟩

/-- Settles O10: each word is an `siWord`, and extends its immediate as its row says. -/
theorem immediateFunctionsWriteTheirResult : Obligations.ImmediateFunctionsWriteTheirResult := by
  intro s t tm f h a n gives
  have zext : f.i.zeroExtend 64 = BitVec.ofNat 64 f.i.toNat := (BitVec.ofNat_toNat ..).symm
  have add : a + f.i.signExtend 64 = BitVec.ofInt 64 (a.toInt + f.i.toInt) := by
    rw [BitVec.ofInt_add, BitVec.ofInt_toInt, BitVec.signExtend]
  have slt : flag (a.slt (f.i.signExtend 64)) = if a.toInt < f.i.toInt then 1 else 0 := by
    rw [flag_slt, BitVec.toInt_signExtend_of_le (by decide)]
  have shori : a <<< 16 ||| f.i.zeroExtend 64 = BitVec.ofNat 64 (a.toNat * 2 ^ 16) ||| BitVec.ofNat 64 f.i.toNat := by
    rw [shiftLeft_eq_ofNat_mul, zext]
  exact ⟨exec_siWord h (exec_addi s f) add,
    exec_siWord h (exec_andi s f) (congrArg (a &&& ·) zext),
    exec_siWord h (exec_ori s f) (congrArg (a ||| ·) zext),
    exec_siWord h (exec_xori s f) (congrArg (a ^^^ ·) zext),
    exec_siWord h (exec_slti s f) slt,
    exec_siWord h (exec_sltiu s f) (flag_ult a (f.i.signExtend 64)),
    exec_siWord h (exec_shli s f) (shiftLeft_eq_ofNat_mul a n),
    exec_siWord h (exec_shri s f) (ushiftRight_eq_ofNat_div a n),
    exec_siWord h (exec_srai s f) (sshiftRight_eq_ofInt_div a n),
    exec_siWord h (exec_lui s f) (ofInt_shiftLeft f.i.toInt 16),
    exec_siWord h (exec_shori s f) shori⟩

/-! ## Completing what was issued (16:R366) -/

/-- The results still to be written go to lane registers. -/
theorem foldl_putParts_rest (ps : List Pending) (tm : Team) :
    ∃ v, ps.foldl (fun a p => a.putParts p.writes) tm = { tm with v := v } := by
  induction ps generalizing tm with
  | nil => exact ⟨tm.v, rfl⟩
  | cons p r ih =>
    obtain ⟨v, hv⟩ := ih (tm.putParts p.writes)
    refine ⟨v, hv.trans ?_⟩
    rw [Team.putParts, (putParts_keeps p.writes tm).rest]

theorem foldl_putParts_level (ps : List Pending) (tm : Team) : (ps.foldl (fun a p => a.putParts p.writes) tm).level = tm.level := by
  obtain ⟨v, hv⟩ := foldl_putParts_rest ps tm
  rw [hv]

@[simp] theorem flush_level (tm : Team) : tm.flush.level = tm.level := by
  unfold Team.flush
  cases tm.reply with
  | none => exact foldl_putParts_level tm.pending tm
  | some p => exact (foldl_putParts_level _ _).trans (tm.wr_level p.1 p.2)

/-- With no reply on the way, only lane registers and what is still to be written change. -/
theorem flush_rest {tm : Team} (h : tm.reply = none) : ∃ v, tm.flush = { tm with v := v, pending := [] } := by
  obtain ⟨v, hv⟩ := foldl_putParts_rest tm.pending tm
  exact ⟨v, by simp only [Team.flush, h, hv]⟩

/-- A team whose scalar word issues has no reply on the way (06:R192). -/
theorem scalarTeam_reply {s : State} {t : Nat} {tm : Team} (h : s.scalarTeam = some (t, tm)) : tm.reply = none := by
  obtain ⟨x, hx, rfl⟩ := scalarTeam_get h
  simp only [State.scalarTeam, scalarTeam_turn h, hx, Option.ite_none_right_eq_some, Bool.and_eq_true, Team.mayScalar,
    Option.isNone_iff_eq_none] at h
  obtain ⟨⟨⟨⟨⟨⟨⟨-, hr⟩, -⟩, -⟩, -⟩, -⟩, -⟩, -⟩ := h
  exact hr

/-! ## The record of a trap (16:R371) -/

/-- The quadwords at the start of a trap record. -/
def trapQuads (tm : Team) (ti : TrapInfo) (level : Nat) : List Nat :=
  [ti.cause + level * 2 ^ 8 + (if ti.lane.isSome then 2 ^ 9 else 0) + (if level = 0 then 0 else 2 ^ 10)
      + (if ti.barrier.isSome then 2 ^ 11 else 0) + (if ti.lane.isSome then tm.repAt else 0) * 2 ^ 16,
    ti.resume.toNat, ti.lane.getD 0 + tm.asideBlocks.length * 2 ^ 32, ti.detailA.toNat, ti.detailB.toNat,
    (tm.rd 28).toNat, (tm.rd 29).toNat, (tm.rd 30).toNat, (tm.rd 31).toNat, tm.sticky.toNat, ti.addr.toNat]

theorem trapRecord_eq_quads (tm : Team) (ti : TrapInfo) (level : Nat) :
    trapRecord tm ti level = (trapQuads tm ti level).flatMap (leBytes 8) ++ (List.replicate 40 0 ++ leBytes 128 ti.lanes.toNat) := by
  simp [trapRecord, trapQuads]

@[simp] theorem trapRecord_length (tm : Team) (ti : TrapInfo) (level : Nat) : (trapRecord tm ti level).length = 256 := by
  simp [trapRecord]

theorem quad_of_flatMap (qs : List Nat) (r : List Byte) (k x : Nat) (h : qs[k]? = some x) :
    ((qs.flatMap (leBytes 8) ++ r).drop (8 * k)).take 8 = leBytes 8 x := by
  induction qs generalizing k with
  | nil => cases h
  | cons q qs ih =>
    rw [List.flatMap_cons, List.append_assoc]
    cases k with
    | zero => cases h; exact List.take_left' (length_leBytes 8 _)
    | succ k =>
      rw [Nat.mul_succ, Nat.add_comm, ← List.drop_drop, List.drop_left' (length_leBytes 8 q)]
      exact ih k h

/-- Quadword `k` of a record in memory. -/
theorem quad_of_trapRecord (s : State) (p : Nat) (tm : Team) (ti : TrapInfo) (level k : Nat) (x : W64)
    (h : (trapQuads tm ti level)[k]? = some x.toNat) :
    leNat ((s.poke p (trapRecord tm ti level)).bytes (p + 8 * k) 8) = x.toNat := by
  have hk : k < 11 := (List.getElem?_eq_some_iff.1 h).1
  rw [State.bytes_poke _ _ _ _ _ (by rw [trapRecord_length]; omega), trapRecord_eq_quads, quad_of_flatMap _ _ _ _ h, leNat_leBytes]
  exact Nat.mod_eq_of_lt x.isLt

/-- Byte 0 of a record of level 1 is its cause. -/
theorem cause_of_trapRecord (s : State) (p : Nat) (tm : Team) (ti : TrapInfo) (h : ti.cause < 256) :
    ((s.poke p (trapRecord tm ti 0)).byte p).toNat = ti.cause := by
  have h0 : (trapRecord tm ti 0).getD 0 0 = BitVec.ofNat 8 ((trapQuads tm ti 0).headD 0) := by
    rw [trapRecord_eq_quads, trapQuads, List.flatMap_cons, leBytes, List.cons_append, List.cons_append, List.getD_cons_zero, List.headD_cons]
  rw [State.byte_poke, if_pos (by rw [trapRecord_length]; omega), Nat.sub_self, h0, BitVec.toNat_ofNat, trapQuads, List.headD_cons]
  split_ifs <;> omega

/-! ## The entry of a handler at level 1 (16:R370) -/

theorem Team.rd_wr (tm : Team) (n r : BitVec 5) (x : W64) : (tm.wr n x).rd r = if r = n ∧ n ≠ 0 then x else tm.rd r := by
  by_cases hn : n = 0
  · rw [Team.wr, if_pos hn, if_neg fun h => h.2 hn]
  rw [Team.wr, if_neg hn, Team.rd, Team.rd, NMap.get_put]
  by_cases hr : r = 0
  · rw [if_pos hr, if_pos hr, if_neg fun h => hn (h.1.symm.trans hr)]
  · rw [if_neg hr, if_neg hr]
    exact if_congr ⟨fun h => ⟨(BitVec.eq_of_toNat_eq h).symm, hn⟩, fun h => congrArg BitVec.toNat h.1.symm⟩ rfl rfl

/-- The team with the supervisor bank that a handler finds in s28 to s31. -/
def Team.withBank (tm : Team) (frame cause resume : W64) : Team := (((tm.wr 28 frame).wr 29 cause).wr 30 resume).wr 31 0

theorem withBank_reads (tm : Team) (frame cause resume : W64) :
    (tm.withBank frame cause resume).rd 28 = frame ∧ (tm.withBank frame cause resume).rd 29 = cause ∧
      (tm.withBank frame cause resume).rd 30 = resume ∧ (tm.withBank frame cause resume).rd 31 = 0 := by
  simp [Team.withBank, Team.rd_wr]

theorem withBank_keeps (tm : Team) (frame cause resume : W64) (n : BitVec 5) (h : n.toNat < 28) :
    (tm.withBank frame cause resume).rd n = tm.rd n := by
  have hn : n ≠ 28 ∧ n ≠ 29 ∧ n ≠ 30 ∧ n ≠ 31 := by refine ⟨?_, ?_, ?_, ?_⟩ <;> rintro rfl <;> exact absurd h (by decide)
  obtain ⟨h28, h29, h30, h31⟩ := hn
  simp only [Team.withBank, Team.rd_wr, h28, h29, h30, h31, false_and, if_false]

@[simp] theorem State.setTeam_byte (s : State) (t : Nat) (tm : Team) (k : Nat) : (s.setTeam t tm).byte k = s.byte k := by
  rw [State.byte, State.setTeam_mem, State.byte]

@[simp] theorem State.setTeam_bytes (s : State) (t : Nat) (tm : Team) (k n : Nat) : (s.setTeam t tm).bytes k n = s.bytes k n :=
  State.bytes_congr _ _ _ _ fun _ _ => State.setTeam_byte ..

@[simp] theorem State.setTeam_handlerEntry (s : State) (t : Nat) (tm : Team) (slot : Nat) :
    (s.setTeam t tm).handlerEntry slot = s.handlerEntry slot := by
  simp only [State.handlerEntry, State.partOf, State.setTeam_parts, State.setTeam_bytes]

/-- A team `tm'` with the bank of a trap, trapped at level 1 at its handler's entry, once the record is written to the frame. -/
structure TrapTeam (s : State) (tm : Team) (ti : TrapInfo) (tm' : Team) : Prop where
  state : tm'.state = .trapped
  level : tm'.level = 1
  pc    : tm'.pc = s.handlerEntry tm.slot
  sregs : tm'.s = (tm.withBank (supPtr tm.frame) (BitVec.ofNat 64 ti.cause) ti.resume).s
  masks : tm'.m = tm.m
  stack : tm'.stack = tm.stack
  recs  : tm'.b = tm.b

theorem TrapTeam.enters {s s1 : State} {t : Nat} {tm tm' : Team} {ti : TrapInfo} (hk : LoadKeeps s s1) (hcause : ti.cause < 256)
    (h : TrapTeam (s1.poke tm.frame (trapRecord tm ti 0)) tm ti tm') :
    EntersHandler s ((s1.poke tm.frame (trapRecord tm ti 0)).setTeam t tm') t tm ti.cause ti.resume ti.detailA ti.detailB := by
  have hrd (n : BitVec 5) : tm'.rd n = (tm.withBank (supPtr tm.frame) (BitVec.ofNat 64 ti.cause) ti.resume).rd n := by
    rw [Team.rd, h.sregs, Team.rd]
  obtain ⟨r28, r29, r30, r31⟩ := withBank_reads tm (supPtr tm.frame) (BitVec.ofNat 64 ti.cause) ti.resume
  have quad (k : Nat) (x : W64) (hx : (trapQuads tm ti 0)[k]? = some x.toNat) :
      leNat (((s1.poke tm.frame (trapRecord tm ti 0)).setTeam t tm').bytes (tm.frame + 8 * k) 8) = x.toNat := by
    rw [State.setTeam_bytes, quad_of_trapRecord _ _ _ _ _ _ _ hx]
  exact
    { team := ⟨tm', by rw [State.setTeam_teams, (s1.poke_keeps _ _).teams, hk.teams], h.state, h.level,
        h.pc.trans (State.setTeam_handlerEntry ..).symm, (hrd 28).trans r28, (hrd 29).trans r29, (hrd 30).trans r30,
        (hrd 31).trans r31, fun n hn => (hrd n).trans (withBank_keeps _ _ _ _ n hn),
        h.masks, h.stack, h.recs⟩
      cause := by rw [State.setTeam_byte, cause_of_trapRecord _ _ _ _ hcause]
      resume := quad 1 ti.resume rfl
      detailA := quad 3 ti.detailA rfl
      detailB := quad 4 ti.detailB rfl
      saved := fun j hj => by
        rw [Nat.add_assoc, show 0x28 + 8 * j = 8 * (5 + j) by omega]
        exact quad (5 + j) _ (by interval_cases j <;> rfl)
      memory := fun k hk' => by
        rw [State.setTeam_byte, State.byte_poke_out _ _ _ _ (by rw [trapRecord_length]; exact hk'), State.byte, hk.mem, State.byte] }

/-- A trap of a team that runs no handler enters it at level 1, with what the team holds once the words already issued have completed. -/
theorem takeTrap_enters {s : State} {t : Nat} {tm : Team} {ti : TrapInfo} (hctrl : tm.ctrl = none) (hlevel : tm.level = 0)
    (hreplay : s.replays tm = false) (hreach : s.frameReached tm = true) (hcause : ti.cause < 256) :
    ∃ s', takeTrap s t tm ti = .next s' ∧ EntersHandler s s' t tm.flush ti.cause ti.resume ti.detailA ti.detailB := by
  have hl : tm.flush.level = 0 := (flush_level tm).trans hlevel
  simp only [takeTrap, hctrl, hreplay, hreach, hl, Option.isSome_none, Bool.false_eq_true, Bool.not_true, if_false, if_true]
  exact ⟨_, rfl, TrapTeam.enters (s.cross_keeps _ _) hcause ⟨rfl, rfl, rfl, rfl, by simp, by simp, by simp⟩⟩

/-- A scalar word that may trap enters the handler of its team. -/
theorem MayTrap.enters {s : State} {t : Nat} {tm : Team} (h : MayTrap s t tm) {cause : Nat} (hcause : cause < 256) (resume a b : W64) :
    ∃ s', scalarTrap s t tm (.plain cause resume a b) = .next s' ∧ EntersHandler s s' t tm cause resume a b := by
  obtain ⟨s', hs, he⟩ := takeTrap_enters (t := t) (ti := .plain cause resume a b) h.team h.level h.replay h.reach hcause
  obtain ⟨v, hv⟩ := flush_rest (scalarTeam_reply h.moves)
  rw [hv] at he
  exact ⟨s', (h.traps _).trans hs, ⟨he.team, he.cause, he.resume, he.detailA, he.detailB, he.saved, he.memory⟩⟩

/-! ## Jumps to a register (06:R176; 16:R378) -/

section JumpRegister

variable {s : State} {t : Nat} {tm : Team} {f : SR}

theorem exec_jr_aligned (h : s.scalarTeam = some (t, tm)) (ha : (tm.rd f.a).toNat % 4 = 0) :
    exec (.jr f) s = .next (s.setTeam t { tm with pc := tm.rd f.a }) :=
  (onScalar_some h _).trans (if_pos ha)

theorem exec_jalr_aligned (h : s.scalarTeam = some (t, tm)) (ha : (tm.rd f.a).toNat % 4 = 0) :
    exec (.jalr f) s = .next (s.setTeam t { tm.wr f.d (tm.pc + 4) with pc := tm.rd f.a }) :=
  (onScalar_some h _).trans (if_pos ha)

theorem exec_jr_misaligned (h : s.scalarTeam = some (t, tm)) (ha : (tm.rd f.a).toNat % 4 ≠ 0) :
    exec (.jr f) s = scalarTrap s t tm (.plain 0x07 tm.pc (tm.rd f.a) 0) :=
  (onScalar_some h _).trans (if_neg ha)

theorem exec_jalr_misaligned (h : s.scalarTeam = some (t, tm)) (ha : (tm.rd f.a).toNat % 4 ≠ 0) :
    exec (.jalr f) s = scalarTrap s t tm (.plain 0x07 tm.pc (tm.rd f.a) 0) :=
  (onScalar_some h _).trans (if_neg ha)

end JumpRegister

theorem exec_j {s : State} {t : Nat} {tm : Team} (h : s.scalarTeam = some (t, tm)) (f : SJ) :
    exec (.j f) s = .next (s.setTeam t { tm with pc := tm.pc + BitVec.ofInt 64 (4 * f.o.toInt) }) := by
  rw [← wordOffset_eq_ofInt]
  exact onScalar_some h _

theorem exec_jal {s : State} {t : Nat} {tm : Team} (h : s.scalarTeam = some (t, tm)) (f : SJ) :
    exec (.jal f) s = .next (s.setTeam t { tm.wr 31 (tm.pc + 4) with pc := tm.pc + BitVec.ofInt 64 (4 * f.o.toInt) }) := by
  rw [← wordOffset_eq_ofInt]
  exact onScalar_some h _

/-- Settles O11: branches by the relation that they test, and jumps by whether the target is a multiple of 4. -/
theorem branchesAndJumpsGoOnWhereTheRulesSay : Obligations.BranchesAndJumpsGoOnWhereTheRulesSay := by
  intro s t tm h
  refine ⟨fun f => ?_, fun f => ⟨exec_j h f, exec_jal h f⟩, fun f ha => ⟨exec_jr_aligned h ha, exec_jalr_aligned h ha⟩, fun f ha hm => ?_⟩
  · intro a b goes
    have not_slt : (!a.slt b) = true ↔ b.toInt ≤ a.toInt := by
      rw [Bool.not_eq_true', Bool.eq_false_iff, Ne, BitVec.slt_iff_toInt_lt, not_lt]
    have not_ult : (!a.ult b) = true ↔ b.toNat ≤ a.toNat := by
      rw [Bool.not_eq_true', Bool.eq_false_iff, Ne, BitVec.ult_iff_toNat_lt, not_lt]
    exact ⟨exec_branchWord h (exec_beq s f) beq_iff_eq,
      exec_branchWord h (exec_bne s f) bne_iff_ne,
      exec_branchWord h (exec_blt s f) BitVec.slt_iff_toInt_lt,
      exec_branchWord h (exec_bge s f) not_slt,
      exec_branchWord h (exec_bltu s f) BitVec.ult_iff_toNat_lt,
      exec_branchWord h (exec_bgeu s f) not_ult⟩
  · obtain ⟨s', hs, he⟩ := hm.enters (by decide : 0x07 < 256) tm.pc (tm.rd f.a) 0
    exact ⟨⟨s', (exec_jr_misaligned h ha).trans hs, he⟩, ⟨s', (exec_jalr_misaligned h ha).trans hs, he⟩⟩

end Machine
end Sys2Proof
end

section
/-!
Lane words on bits (07:R194, R200, R210 to R214): shifts by more than a register holds, bit fields and counts of bits as the bits of numbers,
and the element-wise words that set no bit of `%sticky`.
-/
namespace Sys2Proof.Machine

/-! ## Widths and sub-elements (00:R8; 05:R141) -/

theorem tyWidth_mem (ty : Nat) : tyWidth ty ∈ [4, 8, 16, 32, 64] := by
  unfold tyWidth
  split <;> decide

theorem tyWidth_pos (ty : Nat) : 0 < tyWidth ty := (by decide : ∀ w ∈ [4, 8, 16, 32, 64], 0 < w) _ (tyWidth_mem ty)

theorem tyWidth_le (ty : Nat) : tyWidth ty ≤ 64 := (by decide : ∀ w ∈ [4, 8, 16, 32, 64], w ≤ 64) _ (tyWidth_mem ty)

theorem tyWidth_mul_tyCount (ty : Nat) : tyWidth ty * tyCount ty = 64 :=
  (by decide : ∀ w ∈ [4, 8, 16, 32, 64], w * (64 / w) = 64) _ (tyWidth_mem ty)

theorem two_pow_tyWidth_le (ty : Nat) : 2 ^ tyWidth ty ≤ 2 ^ 64 := Nat.pow_le_pow_right (by decide) (tyWidth_le ty)

theorem sub_lt (x : W64) (w k : Nat) : sub x w k < 2 ^ w := Nat.mod_lt _ (Nat.two_pow_pos w)

theorem LaneEnv.a_lt (e : LaneEnv) (ty l k : Nat) : e.a ty l k < 2 ^ tyWidth ty := sub_lt ..

theorem LaneEnv.d_lt (e : LaneEnv) (ty l k : Nat) : e.d ty l k < 2 ^ tyWidth ty := sub_lt ..

theorem immOf_lt (ty : Nat) (f : LaneF) : immOf ty f < 2 ^ tyWidth ty := by
  unfold immOf
  split_ifs with h7 h64
  · subst h7
    exact f.imm.isLt.trans (by decide)
  · rw [h64]
    exact (immS f).isLt
  · exact Nat.mod_lt _ (Nat.two_pow_pos _)

theorem LaneEnv.bop_lt (e : LaneEnv) (ty l k : Nat) : e.bop ty l k < 2 ^ tyWidth ty := by
  unfold LaneEnv.bop
  dsimp only
  split
  · exact sub_lt ..
  · exact Nat.mod_lt _ (Nat.two_pow_pos _)
  · exact immOf_lt ..
  · exact sub_lt ..

theorem testBit_sub (x : W64) (w k i : Nat) : (sub x w k).testBit i = (decide (i < w) && x.getLsbD (i + k * w)) := by
  rw [sub, Nat.testBit_mod_two_pow, Nat.testBit_div_two_pow, BitVec.testBit_toNat]

theorem testBit_ofSubs {w : Nat} (hw : 0 < w) (xs : List Nat) (i : Nat) :
    (ofSubs w xs).testBit i = (xs.getD (i / w) 0).testBit (i % w) := by
  induction xs generalizing i with
  | nil => rw [ofSubs, List.getD_nil, Nat.zero_testBit, Nat.zero_testBit]
  | cons x xs ih =>
    rw [ofSubs, add_comm, Nat.testBit_two_pow_mul_add _ (Nat.mod_lt _ (Nat.two_pow_pos w))]
    split_ifs with h
    · rw [Nat.div_eq_of_lt h, Nat.mod_eq_of_lt h, List.getD_cons_zero, Nat.testBit_mod_two_pow, decide_eq_true h, Bool.true_and]
    · obtain ⟨j, rfl⟩ := Nat.exists_eq_add_of_le' (not_lt.1 h)
      rw [Nat.add_sub_cancel, ih, Nat.add_div_right j hw, Nat.add_mod_right, List.getD_cons_succ]

theorem testBit_ofSubs_range {w : Nat} (hw : 0 < w) (op : Nat → Nat) (n i : Nat) :
    (ofSubs w ((List.range n).map op)).testBit i = (decide (i < w * n) && (op (i / w)).testBit (i % w)) := by
  have hn : i / w < n ↔ i < w * n := by rw [Nat.div_lt_iff_lt_mul hw, Nat.mul_comm]
  rw [testBit_ofSubs hw, List.getD_eq_getElem?_getD, List.getElem?_map]
  by_cases h : i / w < n
  · rw [List.getElem?_range h, decide_eq_true (hn.1 h)]
    rfl
  · rw [List.getElem?_eq_none (by simpa using h), decide_eq_false (mt hn.2 h)]
    exact Nat.zero_testBit _

theorem getLsbD_packed (ty : Nat) (op : Nat → Nat) (i : Nat) :
    (packed ty op).getLsbD i = (decide (i < 64) && (op (i / tyWidth ty)).testBit (i % tyWidth ty)) := by
  rw [packed, BitVec.getLsbD_ofNat, testBit_ofSubs_range (tyWidth_pos ty), tyWidth_mul_tyCount, ← Bool.and_assoc, Bool.and_self]

theorem testBit_complement {w x : Nat} (hx : x < 2 ^ w) (i : Nat) : (2 ^ w - 1 - x).testBit i = (decide (i < w) && !x.testBit i) := by
  rw [Nat.sub_sub, Nat.add_comm 1 x, Nat.testBit_two_pow_sub_succ hx]

/-- The complement of a register holds the complements of its sub-elements. -/
theorem not_eq_packed (ty : Nat) (x : W64) : ~~~x = packed ty fun k => 2 ^ tyWidth ty - 1 - sub x (tyWidth ty) k := by
  apply BitVec.eq_of_getLsbD_eq
  intro i hi
  have hm : i % tyWidth ty < tyWidth ty := Nat.mod_lt i (tyWidth_pos ty)
  rw [getLsbD_packed, testBit_complement (sub_lt ..), testBit_sub, Nat.mod_add_div', BitVec.getLsbD_not, decide_eq_true hi,
    decide_eq_true hm]
  rfl

/-! ## Shifts (07:R212)

The model shifts by at most 64, which no register tells from a longer shift. -/

theorem intMin_bounds (ty : Nat) : -2 ^ 64 < intMin ty ∧ intMin ty ≤ 0 := by
  have h : 2 ^ (tyWidth ty - 1) ≤ 2 ^ 63 := Nat.pow_le_pow_right (by decide) (Nat.sub_le_sub_right (tyWidth_le ty) 1)
  have p := Nat.two_pow_pos (tyWidth ty - 1)
  unfold intMin
  split <;> omega

theorem intMax_bounds (ty : Nat) : 0 ≤ intMax ty ∧ intMax ty < 2 ^ 64 := by
  have h : 2 ^ (tyWidth ty - 1) ≤ 2 ^ 63 := Nat.pow_le_pow_right (by decide) (Nat.sub_le_sub_right (tyWidth_le ty) 1)
  have h' := two_pow_tyWidth_le ty
  have p := Nat.two_pow_pos (tyWidth ty - 1)
  have p' := Nat.two_pow_pos (tyWidth ty)
  unfold intMax
  split <;> omega

theorem intOf_bounds (ty x : Nat) : -2 ^ 64 ≤ intOf ty x ∧ intOf ty x < 2 ^ 64 := by
  have h := two_pow_tyWidth_le ty
  have hx := Nat.mod_lt x (Nat.two_pow_pos (tyWidth ty))
  unfold intOf asInt
  split_ifs <;> omega

/-- Two values that overflow on the same side, equal modulo 2^w, have the same result. -/
theorem intResult_eq_of_overflow {ty : Nat} {x y : Int} (sat : Bool) (hm : x % (2 ^ tyWidth ty : Nat) = y % (2 ^ tyWidth ty : Nat))
    (h : intMax ty < x ∧ intMax ty < y ∨ x < intMin ty ∧ y < intMin ty) : intResult ty sat x = intResult ty sat y := by
  have h0 := (intMin_bounds ty).2.trans (intMax_bounds ty).1
  have hc : intClamp ty x = intClamp ty y := by
    unfold intClamp
    split_ifs <;> omega
  have hf : intFits ty x = intFits ty y := by
    unfold intFits
    rw [Bool.eq_iff_iff]
    simp only [Bool.and_eq_true, decide_eq_true_eq]
    omega
  have hb : ofIntMod (tyWidth ty) x = ofIntMod (tyWidth ty) y := congrArg Int.toNat hm
  unfold intResult
  rw [hc, hf]
  cases sat
  · exact congrArg (Res.mk · _) hb
  · rfl

theorem intResult_shift_min (ty : Nat) (sat : Bool) (x : Int) (n : Nat) :
    intResult ty sat (x * (2 ^ min n 64 : Nat)) = intResult ty sat (x * 2 ^ n) := by
  rcases le_total n 64 with hn | hn
  · rw [min_eq_left hn]
    push_cast
    rfl
  rw [min_eq_right hn]
  have zero_mod (m : Nat) (hm : 64 ≤ m) : x * 2 ^ m % (2 ^ tyWidth ty : Nat) = 0 := by
    refine Int.emod_eq_zero_of_dvd (Dvd.dvd.mul_left ?_ x)
    push_cast
    exact pow_dvd_pow 2 ((tyWidth_le ty).trans hm)
  have hpow : (2 : Int) ^ 64 ≤ 2 ^ n := pow_le_pow_right₀ (by decide) hn
  have hmin := intMin_bounds ty
  have hmax := intMax_bounds ty
  rcases lt_trichotomy x 0 with hx | rfl | hx
  · refine intResult_eq_of_overflow sat ((zero_mod 64 le_rfl).trans (zero_mod n hn).symm) (.inr ⟨?_, ?_⟩)
    · push_cast; omega
    · nlinarith
  · rw [Int.zero_mul, Int.zero_mul]
  · refine intResult_eq_of_overflow sat ((zero_mod 64 le_rfl).trans (zero_mod n hn).symm) (.inl ⟨?_, ?_⟩)
    · push_cast; omega
    · nlinarith

theorem mul_two_pow_min_mod (x n : Nat) : x * 2 ^ min n 64 % 2 ^ 64 = x * 2 ^ n % 2 ^ 64 := by
  rcases le_total n 64 with hn | hn
  · rw [min_eq_left hn]
  · rw [min_eq_right hn, Nat.mul_mod_left, Nat.mod_eq_zero_of_dvd ((pow_dvd_pow 2 hn).mul_left x)]

theorem int_div_two_pow_min {x : Int} (hl : -2 ^ 64 ≤ x) (hu : x < 2 ^ 64) (n : Nat) : x / (2 ^ min n 64 : Nat) = x / 2 ^ n := by
  rcases le_total n 64 with hn | hn
  · rw [min_eq_left hn]
    push_cast
    rfl
  have hpow : (2 : Int) ^ 64 ≤ 2 ^ n := pow_le_pow_right₀ (by decide) hn
  rw [min_eq_right hn]
  rcases lt_or_ge x 0 with hx | hx
  · rw [Int.ediv_eq_neg_one_of_neg_of_le hx (by push_cast; omega), Int.ediv_eq_neg_one_of_neg_of_le hx (by omega)]
  · rw [Int.ediv_eq_zero_of_lt hx (by exact_mod_cast hu), Int.ediv_eq_zero_of_lt hx (by omega)]

theorem div_two_pow_min {x : Nat} (hx : x < 2 ^ 64) (n : Nat) : x / 2 ^ min n 64 = x / 2 ^ n := by
  exact_mod_cast int_div_two_pow_min (x := x) (by omega) (by omega) n

/-! ## Bit fields (07:R213) -/

theorem asInt_of_lt {w x : Nat} (hx : x < 2 ^ w) : asInt w x = if x < 2 ^ (w - 1) then (x : Int) else x - 2 ^ w := by
  unfold asInt
  rw [Nat.mod_eq_of_lt hx]
  push_cast
  split_ifs <;> omega

theorem bitExtract_eq (ty a b : Nat) :
    let w := tyWidth ty
    let off := b % 256
    let wid := min (b / 256 % 256) w
    let field := a / 2 ^ off % 2 ^ wid
    let signed : Int := if field < 2 ^ (wid - 1) then field else field - 2 ^ wid
    bitExtract ty a b = if wid = 0 ∨ w ≤ off then 0 else if tySigned ty then (signed % 2 ^ w).toNat else field := by
  intro w off wid field signed
  have hs : ofIntMod w (asInt wid field) = (signed % 2 ^ w).toNat := by
    rw [asInt_of_lt (Nat.mod_lt _ (Nat.two_pow_pos wid)), ofIntMod]
    push_cast
    rfl
  rw [← hs]
  rfl

theorem testBit_fieldMask (w off wid i : Nat) :
    ((2 ^ wid - 1) * 2 ^ off % 2 ^ w).testBit i = (decide (i < w) && decide (off ≤ i ∧ i < off + wid)) := by
  rw [Nat.testBit_mod_two_pow, Nat.testBit_mul_two_pow, Nat.testBit_two_pow_sub_one, ← Bool.decide_and]
  congr 2
  exact propext (by omega)

theorem bitInsert_lt {ty d : Nat} (hd : d < 2 ^ tyWidth ty) (a b : Nat) : bitInsert ty d a b < 2 ^ tyWidth ty := by
  have p := Nat.two_pow_pos (tyWidth ty)
  unfold bitInsert
  dsimp only
  split_ifs
  · exact hd
  · exact Nat.or_lt_two_pow (Nat.and_lt_two_pow _ (by rw [Nat.sub_sub]; exact Nat.sub_lt p (by omega)))
      (Nat.and_lt_two_pow _ (Nat.mod_lt _ p))

/-- A field of `wid` bits from `off` holds the low bits of `a`, the other bits those of `d`. -/
theorem testBit_bitInsert {ty d : Nat} (hd : d < 2 ^ tyWidth ty) (a b i : Nat) :
    let w := tyWidth ty
    let off := b % 256
    let wid := min (b / 256 % 256) w
    (bitInsert ty d a b).testBit i =
      (decide (i < w) && if 0 < wid ∧ off ≤ i ∧ i < off + wid then a.testBit (i - off) else d.testBit i) := by
  intro w off wid
  by_cases hi : i < w
  · rw [decide_eq_true hi, Bool.true_and]
    by_cases hz : wid = 0 ∨ w ≤ off
    · rw [show bitInsert ty d a b = d from if_pos hz, if_neg (by omega)]
    · have hm : (2 ^ wid - 1) * 2 ^ off % 2 ^ w < 2 ^ w := Nat.mod_lt _ (Nat.two_pow_pos w)
      have he : bitInsert ty d a b = d &&& (2 ^ w - 1 - (2 ^ wid - 1) * 2 ^ off % 2 ^ w) |||
          a * 2 ^ off % 2 ^ w &&& (2 ^ wid - 1) * 2 ^ off % 2 ^ w := if_neg hz
      rw [he, Nat.testBit_or, Nat.testBit_and, Nat.testBit_and, testBit_complement hm, testBit_fieldMask, Nat.testBit_mod_two_pow,
        Nat.testBit_mul_two_pow, decide_eq_true hi]
      by_cases hf : off ≤ i ∧ i < off + wid
      · rw [if_pos ⟨by omega, hf⟩, decide_eq_true hf, decide_eq_true hf.1]
        simp
      · rw [if_neg fun h => hf h.2, decide_eq_false hf]
        simp
  · rw [decide_eq_false hi, Bool.false_and]
    exact Nat.testBit_lt_two_pow ((bitInsert_lt hd a b).trans_le (Nat.pow_le_pow_right (by decide) (not_lt.1 hi)))

theorem bitInsert_eq_ofSubs {ty d : Nat} (hd : d < 2 ^ tyWidth ty) (a b : Nat) :
    let w := tyWidth ty
    let off := b % 256
    let wid := min (b / 256 % 256) w
    bitInsert ty d a b = ofSubs 1 ((List.range w).map fun i =>
      if 0 < wid ∧ off ≤ i ∧ i < off + wid then (a.testBit (i - off)).toNat else (d.testBit i).toNat) := by
  intro w off wid
  apply Nat.eq_of_testBit_eq
  intro i
  have bit0 (c : Bool) : c.toNat.testBit 0 = c := by cases c <;> rfl
  rw [testBit_bitInsert hd, testBit_ofSubs_range one_pos, Nat.one_mul, Nat.div_one, Nat.mod_one, ← apply_ite Bool.toNat, bit0]

/-! ## Counts of bits (07:R214) -/

theorem ones_eq_length (w x : Nat) : ones w x = ((List.range w).filter fun i => x.testBit i).length := by
  induction w with
  | zero => rfl
  | succ w ih =>
    have h : ones (w + 1) x = ones w x + (x.testBit w).toNat := by
      rw [ones, List.range_succ, List.foldl_concat, Nat.toNat_testBit, ones]
    rw [h, ih, List.range_succ, List.filter_append, List.length_append, List.filter_singleton]
    cases x.testBit w <;> rfl

theorem length_takeWhile_range {p : Nat → Bool} {n k : Nat} (hk : k ≤ n) (h : ∀ i < k, p i = true) (hn : k < n → p k = false) :
    ((List.range n).takeWhile p).length = k := by
  obtain ⟨m, rfl⟩ := Nat.exists_eq_add_of_le hk
  rw [List.range_add, List.takeWhile_append_of_pos fun i hi => h i (List.mem_range.1 hi), List.length_append, List.length_range]
  cases m with
  | zero => rfl
  | succ m =>
    rw [List.range_succ_eq_map, List.map_cons, List.takeWhile_cons_of_neg (by simp [hn]), List.length_nil, Nat.add_zero]

theorem clz_eq_length {w x : Nat} (hx : x < 2 ^ w) :
    (if x = 0 then w else w - 1 - Nat.log2 x) = ((List.range w).takeWhile fun i => !x.testBit (w - 1 - i)).length := by
  symm
  split_ifs with h
  · subst h
    exact length_takeWhile_range le_rfl (fun i _ => by rw [Nat.zero_testBit, Bool.not_false]) fun h => absurd h (lt_irrefl w)
  · have hlog : x.log2 < w := (Nat.log2_lt h).2 hx
    refine length_takeWhile_range (by omega) (fun i hi => ?_) fun _ => ?_
    · rw [Nat.testBit_lt_two_pow ((Nat.log2_lt h).1 (by omega)), Bool.not_false]
    · rw [show w - 1 - (w - 1 - x.log2) = x.log2 by omega, Nat.testBit_log2 h, Bool.not_true]

theorem ctz_eq_length (w x : Nat) :
    ((List.range w).takeWhile fun i => x / 2 ^ i % 2 = 0).length = ((List.range w).takeWhile fun i => !x.testBit i).length := by
  have h : (fun i => decide (x / 2 ^ i % 2 = 0)) = fun i => !x.testBit i := by
    funext i
    rw [← Nat.toNat_testBit]
    cases x.testBit i <;> rfl
  rw [h]

theorem testBit_foldl_bits (w x i : Nat) :
    ((List.range w).foldl (fun a j => 2 * a + x / 2 ^ j % 2) 0).testBit i = (decide (i < w) && x.testBit (w - 1 - i)) := by
  induction w generalizing i with
  | zero => exact Nat.zero_testBit i
  | succ w ih =>
    rw [List.range_succ, List.foldl_concat, ← Nat.toNat_testBit, ← Nat.bit_val]
    cases i with
    | zero => rw [Nat.testBit_bit_zero]; simp
    | succ i => 
      rw [Nat.testBit_bit_succ, ih, decide_eq_decide.2 Nat.succ_lt_succ_iff.symm, Nat.add_sub_cancel, Nat.sub_sub,
        Nat.add_comm 1 i]

theorem brev_eq_reverse (w x : Nat) :
    (List.range w).foldl (fun a j => 2 * a + x / 2 ^ j % 2) 0 = (BitVec.ofNat w x).reverse.toNat := by
  apply Nat.eq_of_testBit_eq
  intro i
  rw [testBit_foldl_bits, BitVec.testBit_toNat, BitVec.getLsbD_reverse, BitVec.getMsbD, BitVec.getLsbD_ofNat]
  by_cases h : i < w
  · rw [decide_eq_true (by omega : w - 1 - i < w), Bool.true_and]
  · rw [decide_eq_false h, Bool.false_and, Bool.false_and]

/-! ## Element-wise words that set no bit of `%sticky` (07:R194, R200) -/

/-- A word of shape `sh'` is checked at `e` as one of shape `sh` is, and is not of long latency: it issues where `sh` does, and writes at once. -/
structure LaneShape.ChecksAs (sh' sh : LaneShape) (e : LaneEnv) : Prop where
  form   : sh'.form e = sh.form e
  regs   : sh'.regs e = sh.regs e
  reads  : sh'.reads e = sh.reads e
  passes : sh'.passes e = sh.passes e
  short  : sh'.long = false

theorem LaneShape.ChecksAs.of_short {sh : LaneShape} {e : LaneEnv} (h : sh.long = false) : sh.ChecksAs sh e := ⟨rfl, rfl, rfl, rfl, h⟩

/-- Every active lane's destination holds the values `val` of its sub-elements; the masks, `%sticky` and all else are as before. -/
def WritesValue (s : State) (f : LaneF) (e : LaneEnv) (i : Instr) (sh : LaneShape) (val : Nat → Nat → Nat) : Prop :=
  LaneIssues s f sh e →
    LaneRuns (exec i s) s e fun tm' => MasksKept e tm' ∧ tm'.sticky = e.tm.sticky ∧ LaneWrites e tm' e.vd fun l => packed e.ty (val l)

theorem elementwise_congr {e : LaneEnv} {ty : Nat} {chk : Bool} {op op' : Nat → Nat → Res} (h : ∀ l k, op l k = op' l k) :
    e.elementwise ty chk op = e.elementwise ty chk op' := by
  rw [funext fun l => funext (h l)]

/-! What each word computes: its arm of `exec`, down to what it shares with the other words of its kind. -/

section Meanings

variable (s : State) (f : LaneF)

theorem exec_vand : exec (.vand f) s = bitWord s (.vand f) f (shapeAB okAny false) fun a b => a &&& b := rfl
theorem exec_vor : exec (.vor f) s = bitWord s (.vor f) f (shapeAB okAny false) fun a b => a ||| b := rfl
theorem exec_vxor : exec (.vxor f) s = bitWord s (.vxor f) f (shapeAB okAny false) fun a b => a ^^^ b := rfl
theorem exec_vnot : exec (.vnot f) s = laneWord s (.vnot f) f (shapeA okAny false) fun e =>
    LaneFx.ofWrites (e.active.map fun l => wholeWrite e.vd l (~~~(e.v e.va l))) := rfl
theorem exec_vmov : exec (.vmov f) s = laneWord s (.vmov f) f
    { form := fun e => okAny e.ty && e.sselOk e.ty, regs := fun e => e.vd :: e.bRegs, reads := fun e => e.bRegs,
      passes := (·.rows), long := false } fun e => e.elementwise e.ty false fun l k => ⟨e.bop e.ty l k, false⟩ := rfl
theorem exec_vsel : exec (.vsel f) s = laneWord s (.vsel f) f (shapeAB okAny false) fun e =>
    e.elementwise e.ty false fun l k =>
      ⟨if (e.tm.mreg (e.vc % 8)).getLsbD l then e.a e.ty l k else e.bop e.ty l k, false⟩ := rfl
theorem exec_vshl : exec (.vshl f) s = laneWord s (.vshl f) f (shapeAB okIntB64 false) fun e =>
    e.elementwise e.ty (e.chk && tyInt e.ty) fun l k =>
      if tyInt e.ty then e.intRes (intOf e.ty (e.a e.ty l k) * (2 ^ min (e.bop e.ty l k) 64 : Nat))
      else ⟨e.a e.ty l k * 2 ^ min (e.bop e.ty l k) 64 % 2 ^ 64, false⟩ := rfl
theorem exec_vshr : exec (.vshr f) s = laneWord s (.vshr f) f (shapeAB okIntB64 false) fun e =>
    e.elementwise e.ty false fun l k =>
      if tySigned e.ty then
        ⟨ofIntMod (tyWidth e.ty) (intOf e.ty (e.a e.ty l k) / (2 ^ min (e.bop e.ty l k) 64 : Nat)), false⟩
      else ⟨e.a e.ty l k / 2 ^ min (e.bop e.ty l k) 64, false⟩ := rfl
theorem exec_bfx : exec (.bfx f) s = laneWord s (.bfx f) f (shapeAB okField false) fun e =>
    e.elementwise e.ty false fun l k => ⟨bitExtract e.ty (e.a e.ty l k) (e.bop e.ty l k), false⟩ := rfl
theorem exec_bfi : exec (.bfi f) s = laneWord s (.bfi f) f
    { shapeAB okField false with reads := fun e => e.vd :: e.va :: e.bRegs } fun e =>
    e.elementwise e.ty false fun l k => ⟨bitInsert e.ty (e.d e.ty l k) (e.a e.ty l k) (e.bop e.ty l k), false⟩ := rfl
theorem exec_popc : exec (.popc f) s = bitsWord s (.popc f) f ones := rfl
theorem exec_clz : exec (.clz f) s = bitsWord s (.clz f) f fun w x => if x = 0 then w else w - 1 - Nat.log2 x := rfl
theorem exec_ctz : exec (.ctz f) s =
    bitsWord s (.ctz f) f fun w x => ((List.range w).takeWhile fun i => x / 2 ^ i % 2 = 0).length := rfl
theorem exec_brev : exec (.brev f) s =
    bitsWord s (.brev f) f fun w x => (List.range w).foldl (fun a i => 2 * a + x / 2 ^ i % 2) 0 := rfl

end Meanings

section Words

variable {s : State} {f : LaneF} {e : LaneEnv}

theorem LaneIssues.fields {sh : LaneShape} (h : LaneIssues s f sh e) : e.f = f := by
  obtain ⟨tm, -, -, he⟩ := h.moves
  rw [he]
  rfl

theorem writesValue_of_elementwise {i : Instr} {sh sh' : LaneShape} {fx : LaneEnv → LaneFx} {op : Nat → Nat → Res}
    {val : Nat → Nat → Nat} (hi : exec i s = laneWord s i f sh' fx) (hs : sh'.ChecksAs sh e)
    (hx : fx e = e.elementwise e.ty false op) (hv : ∀ l k, op l k = ⟨val l k, false⟩) : WritesValue s f e i sh val := by
  intro h
  rw [elementwise_congr hv] at hx
  obtain ⟨s', tm', hn, hk, hm, hw, hst⟩ :=
    elementwise_runs h i sh' hs.form hs.regs hs.reads hs.passes hs.short fx e.ty false (fun l k => ⟨val l k, false⟩) hx
  exact ⟨s', tm', hi.trans hn, hk, hm, hst, hw⟩

/-- A bitwise word, whose operation does not leave the width of a sub-element. -/
theorem bitWord_writesValue {i : Instr} {op : Nat → Nat → Nat} (hi : exec i s = bitWord s i f (shapeAB okAny false) op)
    (hop : ∀ {a b w : Nat}, a < 2 ^ w → b < 2 ^ w → op a b < 2 ^ w) :
    WritesValue s f e i (shapeAB okAny false) fun l k => op (e.a e.ty l k) (e.bop e.ty l k) :=
  writesValue_of_elementwise hi (.of_short rfl) rfl fun l k =>
    congrArg (Res.mk · false) (Nat.mod_eq_of_lt (hop (e.a_lt e.ty l k) (e.bop_lt e.ty l k)))

theorem bitsWord_writesValue {i : Instr} {op : Nat → Nat → Nat} {val : Nat → Nat} (hi : exec i s = bitsWord s i f op)
    (hv : ∀ x < 2 ^ tyWidth e.ty, op (tyWidth e.ty) x = val x) :
    WritesValue s f e i (shapeA okIntB64 false) fun l k => val (e.a e.ty l k) :=
  writesValue_of_elementwise hi (.of_short rfl) rfl fun l k => congrArg (Res.mk · false) (hv _ (e.a_lt e.ty l k))

theorem vand_writesValue : WritesValue s f e (.vand f) (shapeAB okAny false) fun l k => e.a e.ty l k &&& e.bop e.ty l k :=
  bitWord_writesValue (exec_vand s f) fun _ hb => Nat.and_lt_two_pow _ hb

theorem vor_writesValue : WritesValue s f e (.vor f) (shapeAB okAny false) fun l k => e.a e.ty l k ||| e.bop e.ty l k :=
  bitWord_writesValue (exec_vor s f) Nat.or_lt_two_pow

theorem vxor_writesValue : WritesValue s f e (.vxor f) (shapeAB okAny false) fun l k => e.a e.ty l k ^^^ e.bop e.ty l k :=
  bitWord_writesValue (exec_vxor s f) Nat.xor_lt_two_pow

/-- The model complements the whole register. -/
theorem complement_elementwise (e : LaneEnv) :
    LaneFx.ofWrites (e.active.map fun l => wholeWrite e.vd l (~~~(e.v e.va l))) =
      e.elementwise e.ty false fun l k => ⟨2 ^ tyWidth e.ty - 1 - e.a e.ty l k, false⟩ := by
  simp only [LaneFx.ofWrites, LaneEnv.elementwise, packRes, List.map_map, Function.comp_def, Bool.false_and, Bool.false_eq_true, if_false,
    not_eq_packed e.ty]
  rfl

theorem vnot_writesValue :
    WritesValue s f e (.vnot f) (shapeA okAny false) fun l k => 2 ^ tyWidth e.ty - 1 - e.a e.ty l k :=
  writesValue_of_elementwise (exec_vnot s f) (.of_short rfl) (complement_elementwise e) fun _ _ => rfl

theorem vmov_writesValue {sh : LaneShape} (hf : sh.form e = (okAny e.ty && e.sselOk e.ty)) (hr : sh.regs e = e.vd :: e.bRegs)
    (hd : sh.reads e = e.bRegs) (hp : sh.passes e = e.rows) : WritesValue s f e (.vmov f) sh (e.bop e.ty) :=
  writesValue_of_elementwise (exec_vmov s f) ⟨hf.symm, hr.symm, hd.symm, hp.symm, rfl⟩ rfl fun _ _ => rfl

theorem vsel_writesValue : WritesValue s f e (.vsel f) (shapeAB okAny false) fun l k =>
    if (e.tm.mreg (e.vc % 8)).getLsbD l then e.a e.ty l k else e.bop e.ty l k :=
  writesValue_of_elementwise (exec_vsel s f) (.of_short rfl) rfl fun _ _ => rfl

theorem vshl_plain_writesValue (ht : e.ty = 14) :
    WritesValue s f e (.vshl f) (shapeAB okIntB64 false) fun l k => e.a e.ty l k * 2 ^ e.bop e.ty l k % 2 ^ 64 := by
  have hi : tyInt e.ty = false := by rw [ht]; rfl
  refine writesValue_of_elementwise (exec_vshl s f) (.of_short rfl) (by rw [hi, Bool.and_false]) fun l k => ?_
  rw [if_neg Bool.false_ne_true, mul_two_pow_min_mod]

theorem vshr_signed_writesValue (ht : tySigned e.ty = true) :
    WritesValue s f e (.vshr f) (shapeAB okIntB64 false) fun l k =>
      (intOf e.ty (e.a e.ty l k) / 2 ^ e.bop e.ty l k % 2 ^ tyWidth e.ty).toNat := by
  refine writesValue_of_elementwise (exec_vshr s f) (.of_short rfl) rfl fun l k => ?_
  obtain ⟨hl, hu⟩ := intOf_bounds e.ty (e.a e.ty l k)
  rw [if_pos ht, int_div_two_pow_min hl hu, ofIntMod, Nat.cast_pow]
  rfl

theorem vshr_unsigned_writesValue (ht : tySigned e.ty = false) :
    WritesValue s f e (.vshr f) (shapeAB okIntB64 false) fun l k => e.a e.ty l k / 2 ^ e.bop e.ty l k := by
  refine writesValue_of_elementwise (exec_vshr s f) (.of_short rfl) rfl fun l k => ?_
  rw [ht, if_neg Bool.false_ne_true, div_two_pow_min ((e.a_lt e.ty l k).trans_le (two_pow_tyWidth_le e.ty))]

theorem vshl_runs (ht : tyInt e.ty = true) (h : LaneIssues s f (shapeAB okIntB64 false) e) :
    let shl l k := intResult e.ty f.sat (intOf e.ty (e.a e.ty l k) * 2 ^ e.bop e.ty l k)
    LaneRuns (exec (.vshl f) s) s e fun tm' => MasksKept e tm' ∧ LaneWrites e tm' e.vd (fun l => packed e.ty fun k => (shl l k).bits) ∧
      stickyAfter e tm' (f.mod.getLsbD 3 && e.active.any fun l => (List.range (tyCount e.ty)).any fun k => (shl l k).ov) := by
  intro shl
  rw [exec_vshl]
  refine elementwise_runs h (.vshl f) (shapeAB okIntB64 false) rfl rfl rfl rfl rfl _ e.ty (f.mod.getLsbD 3) shl ?_
  rw [LaneEnv.chk, h.fields, ht, Bool.and_true]
  refine elementwise_congr fun l k => ?_
  rw [if_pos rfl, LaneEnv.intRes, h.fields, intResult_shift_min]

theorem bfx_writesValue : WritesValue s f e (.bfx f) (shapeAB okField false) fun l k =>
    let w := tyWidth e.ty
    let off := e.bop e.ty l k % 256
    let wid := min (e.bop e.ty l k / 256 % 256) w
    let field := e.a e.ty l k / 2 ^ off % 2 ^ wid
    let signed : Int := if field < 2 ^ (wid - 1) then field else field - 2 ^ wid
    if wid = 0 ∨ w ≤ off then 0 else if tySigned e.ty then (signed % 2 ^ w).toNat else field :=
  writesValue_of_elementwise (exec_bfx s f) (.of_short rfl) rfl fun l k =>
    congrArg (Res.mk · false) (bitExtract_eq e.ty (e.a e.ty l k) (e.bop e.ty l k))

theorem bfi_writesValue {sh : LaneShape} (hf : sh.form e = (okField e.ty && e.sselOk e.ty)) (hr : sh.regs e = e.vd :: e.va :: e.bRegs)
    (hd : sh.reads e = e.vd :: e.va :: e.bRegs) (hp : sh.passes e = e.rows) : WritesValue s f e (.bfi f) sh fun l k =>
      let w := tyWidth e.ty
      let off := e.bop e.ty l k % 256
      let wid := min (e.bop e.ty l k / 256 % 256) w
      ofSubs 1 ((List.range w).map fun i => if 0 < wid ∧ off ≤ i ∧ i < off + wid then ((e.a e.ty l k).testBit (i - off)).toNat
        else ((e.d e.ty l k).testBit i).toNat) :=
  writesValue_of_elementwise (exec_bfi s f) ⟨hf.symm, hr.symm, hd.symm, hp.symm, rfl⟩ rfl fun l k =>
    congrArg (Res.mk · false) (bitInsert_eq_ofSubs (e.d_lt e.ty l k) (e.a e.ty l k) (e.bop e.ty l k))

end Words

/-- Settles O37: each word is element-wise, with OV never set by its operation but for the integer left shift. -/
theorem bitWordsWriteTheirResult : Obligations.BitWordsWriteTheirResult := by
  intro s f e
  exact ⟨vand_writesValue, vor_writesValue, vxor_writesValue, vnot_writesValue, fun _ => vmov_writesValue, vsel_writesValue, vshl_runs,
    vshl_plain_writesValue, vshr_signed_writesValue, vshr_unsigned_writesValue, ⟨bfx_writesValue, fun _ => bfi_writesValue⟩,
    bitsWord_writesValue (exec_popc s f) fun x _ => ones_eq_length _ x,
    bitsWord_writesValue (exec_clz s f) fun _ hx => clz_eq_length hx,
    bitsWord_writesValue (exec_ctz s f) fun x _ => ctz_eq_length _ x,
    bitsWord_writesValue (exec_brev s f) fun x _ => brev_eq_reverse _ x⟩

end Sys2Proof.Machine
end
